-- ==== Sys2Proof/Word.lean ====
section
/-! DEFINITION. The word types of the Z4 and keyed tables, the plain data every other file uses. -/

namespace Sys2Proof

/-- One byte. -/
abbrev Byte := BitVec 8
/-- One 32-bit element, register or instruction word (R27, R32, R168). -/
abbrev Word := BitVec 32
/-- A 48-bit device virtual address, as the program counter holds it (R2, R42). -/
abbrev Va := BitVec 48

/-- A table by key: a list of key and entry pairs.  A key that stands nowhere reads as the
default the reader names, so a table is plain data and an absent entry costs nothing. -/
abbrev Tab (α : Type) := List (Nat × α)

end Sys2Proof
end

