-- ==== Sys2Proof/Syntax.lean ====
section
/-! DEFINITION. The instructions and events of the Z4: one constructor for each row of the opcode table,
with the fields the row names (R168, R177) or, for an event, the parties it names. -/

namespace Sys2Proof

/-- What a transferred line carries beyond its bytes: its number within the page, the poison marker, and the
owner tag: the device, its partition, and the ASID, when it has one (R109, R303). -/
structure PageLine where
  line : Nat
  poison : Bool
  dev : Nat
  leaf : Nat
  asid : Option Nat
deriving DecidableEq, Repr

/-- A 64 KiB page as it travels between devices: its bytes that are not 0, by offset, and its marked lines
(R94, R95, R109). -/
structure PageImage where
  cells : List (Nat × Byte) := []
  lines : List PageLine := []
deriving DecidableEq, Repr

/-- Where an uncorrectable error lies: a line of memory, or a 128-byte line of a workgroup's scratchpad (R109,
R159). -/
inductive ErrPlace where
  | line (n : Nat)
  | scr (wg n : Nat)
deriving DecidableEq, Repr

/-- Who waits for a page of the host or of another device: a gang in its instruction, a command of a gang, the
current entry of a host queue, a leaf's Cask command, a Grant queue's next launch, a workgroup's save or
resumption, or a graph node's launch (R97, R127). -/
inductive Waiter where
  | gang (k : Nat)
  | cmd (k id : Nat)
  | queue (leaf q : Nat)
  | cask (leaf : Nat)
  | grant (q : Nat)
  | wg (w : Nat)
  | node (i : Nat)
  | port
deriving DecidableEq, Repr

/-- The host's answer to a gang's read, or to its AtomicOp, which may be Unsupported Request (R98, R242). -/
structure HostAnswer where
  gang : Nat
  ur : Bool := false
deriving DecidableEq, Repr

/-- The die of a leaf whose address-translation cache an ATS completion goes to (R127). -/
structure AtsPort where
  leaf : Nat
  die : Nat
deriving DecidableEq, Repr

/-- The 2^`log` host pages around one that an ATS completion covers (R126). -/
structure AtsRange where
  page : Nat
  log : Nat
deriving DecidableEq, Repr

/-- A page with the contents that come to it (R94, R95). -/
structure PageArrival where
  page : Nat
  image : PageImage
deriving DecidableEq, Repr

/-- An array of R297 in which an error lies, and in a memory array its address. -/
structure ArrayError where
  array : Nat
  pa : Nat := 0
deriving DecidableEq, Repr

/-- One step's name and operands.  Field widths are those of the word formats (R168): `d`, `a`, `b` of
a VR word are operand selectors (R170).  A gang, workgroup or grid is named by its key in the state, a
leaf by its number, a core by die × 96 + core number. -/
inductive Instr where
  /-- ia.add (R217): Adds A and B modulo 2^32 in each active lane. -/
  | iaAdd (d : BitVec 7) (a : BitVec 7) (b : BitVec 7)
  /-- ia.sub (R217): Subtracts B from A modulo 2^32 in each active lane. -/
  | iaSub (d : BitVec 7) (a : BitVec 7) (b : BitVec 7)
  /-- ia.mullo (R217): Writes the low 32 bits of the product of A and B. -/
  | iaMullo (d : BitVec 7) (a : BitVec 7) (b : BitVec 7)
  /-- ia.mulhi (R217): Writes the high 32 bits of the signed 64-bit product. -/
  | iaMulhi (d : BitVec 7) (a : BitVec 7) (b : BitVec 7)
  /-- ia.mulhin (R217): Writes the high 32 bits of the unsigned 64-bit product. -/
  | iaMulhin (d : BitVec 7) (a : BitVec 7) (b : BitVec 7)
  /-- ia.min (R217): Writes the smaller of A and B, both signed. -/
  | iaMin (d : BitVec 7) (a : BitVec 7) (b : BitVec 7)
  /-- ia.max (R217): Writes the larger of A and B, both signed. -/
  | iaMax (d : BitVec 7) (a : BitVec 7) (b : BitVec 7)
  /-- ia.minn (R217): Writes the smaller of A and B, both unsigned. -/
  | iaMinn (d : BitVec 7) (a : BitVec 7) (b : BitVec 7)
  /-- ia.maxn (R217): Writes the larger of A and B, both unsigned. -/
  | iaMaxn (d : BitVec 7) (a : BitVec 7) (b : BitVec 7)
  /-- ia.adds (R217): Adds A and B signed with clamping. -/
  | iaAdds (d : BitVec 7) (a : BitVec 7) (b : BitVec 7)
  /-- ia.addsn (R217): Adds A and B unsigned with clamping. -/
  | iaAddsn (d : BitVec 7) (a : BitVec 7) (b : BitVec 7)
  /-- ia.subs (R217): Subtracts B from A signed with clamping. -/
  | iaSubs (d : BitVec 7) (a : BitVec 7) (b : BitVec 7)
  /-- ia.subsn (R217): Subtracts B from A unsigned with clamping. -/
  | iaSubsn (d : BitVec 7) (a : BitVec 7) (b : BitVec 7)
  /-- ia.absdiff (R217): Writes the absolute difference of the signed values. -/
  | iaAbsdiff (d : BitVec 7) (a : BitVec 7) (b : BitVec 7)
  /-- il.and (R219): Bitwise AND of A and B. -/
  | ilAnd (d : BitVec 7) (a : BitVec 7) (b : BitVec 7)
  /-- il.or (R219): Bitwise OR of A and B. -/
  | ilOr (d : BitVec 7) (a : BitVec 7) (b : BitVec 7)
  /-- il.xor (R219): Bitwise XOR of A and B. -/
  | ilXor (d : BitVec 7) (a : BitVec 7) (b : BitVec 7)
  /-- il.andn (R219): A AND NOT B. -/
  | ilAndn (d : BitVec 7) (a : BitVec 7) (b : BitVec 7)
  /-- il.orn (R219): A OR NOT B. -/
  | ilOrn (d : BitVec 7) (a : BitVec 7) (b : BitVec 7)
  /-- il.shl (R219): Shifts A left by B. -/
  | ilShl (d : BitVec 7) (a : BitVec 7) (b : BitVec 7)
  /-- il.shr (R219): Shifts A right by B with zero fill. -/
  | ilShr (d : BitVec 7) (a : BitVec 7) (b : BitVec 7)
  /-- il.sra (R219): Shifts A right by B with sign fill. -/
  | ilSra (d : BitVec 7) (a : BitVec 7) (b : BitVec 7)
  /-- il.rotl (R219): Rotates A left by B mod 32. -/
  | ilRotl (d : BitVec 7) (a : BitVec 7) (b : BitVec 7)
  /-- il.bfe (R219): Extracts an unsigned bit field of A described by B. -/
  | ilBfe (d : BitVec 7) (a : BitVec 7) (b : BitVec 7)
  /-- il.popc (R219): Counts the set bits of A. -/
  | ilPopc (d : BitVec 7) (a : BitVec 7)
  /-- il.clz (R219): Counts the leading zeros of A. -/
  | ilClz (d : BitVec 7) (a : BitVec 7)
  /-- il.ctz (R219): Counts the trailing zeros of A. -/
  | ilCtz (d : BitVec 7) (a : BitVec 7)
  /-- il.brev (R219): Reverses the bits of A. -/
  | ilBrev (d : BitVec 7) (a : BitVec 7)
  /-- iai.addi (R218): Adds an immediate to a vector register. -/
  | iaiAddi (d : BitVec 6) (a : BitVec 6) (i : BitVec 10)
  /-- iai.muli (R218): Multiplies a vector register by an immediate. -/
  | iaiMuli (d : BitVec 6) (a : BitVec 6) (i : BitVec 10)
  /-- iai.andi (R218): ANDs a vector register with an immediate. -/
  | iaiAndi (d : BitVec 6) (a : BitVec 6) (i : BitVec 10)
  /-- iai.ori (R218): ORs a vector register with an immediate. -/
  | iaiOri (d : BitVec 6) (a : BitVec 6) (i : BitVec 10)
  /-- iai.xori (R218): XORs a vector register with an immediate. -/
  | iaiXori (d : BitVec 6) (a : BitVec 6) (i : BitVec 10)
  /-- iai.shli (R218): Shifts a vector register left by an immediate. -/
  | iaiShli (d : BitVec 6) (a : BitVec 6) (i : BitVec 10)
  /-- iai.shri (R218): Shifts a vector register right by an immediate with zero fill. -/
  | iaiShri (d : BitVec 6) (a : BitVec 6) (i : BitVec 10)
  /-- iai.srai (R218): Shifts a vector register right by an immediate with sign fill. -/
  | iaiSrai (d : BitVec 6) (a : BitVec 6) (i : BitVec 10)
  /-- fa.add (R220): FP32 addition rounded per fmt.RM. -/
  | faAdd (d : BitVec 7) (a : BitVec 7) (b : BitVec 7)
  /-- fa.sub (R220): FP32 subtraction rounded per fmt.RM. -/
  | faSub (d : BitVec 7) (a : BitVec 7) (b : BitVec 7)
  /-- fa.mul (R220): FP32 multiplication rounded per fmt.RM. -/
  | faMul (d : BitVec 7) (a : BitVec 7) (b : BitVec 7)
  /-- fa.fmac (R220): Fused FP32 multiply-add into D, rounded once. -/
  | faFmac (d : BitVec 7) (a : BitVec 7) (b : BitVec 7)
  /-- fa.fnmac (R220): Fused D minus A times B, rounded once. -/
  | faFnmac (d : BitVec 7) (a : BitVec 7) (b : BitVec 7)
  /-- fa.min (R220): FP32 minimum under R46. -/
  | faMin (d : BitVec 7) (a : BitVec 7) (b : BitVec 7)
  /-- fa.max (R220): FP32 maximum under R46. -/
  | faMax (d : BitVec 7) (a : BitVec 7) (b : BitVec 7)
  /-- fa.abs (R220): Clears the sign bit of A. -/
  | faAbs (d : BitVec 7) (a : BitVec 7)
  /-- fa.neg (R220): Inverts the sign bit of A. -/
  | faNeg (d : BitVec 7) (a : BitVec 7)
  /-- fa.copysign (R220): Writes A's magnitude with B's sign. -/
  | faCopysign (d : BitVec 7) (a : BitVec 7) (b : BitVec 7)
  /-- fh.add (R221): Adds two packed 16-bit halves. -/
  | fhAdd (d : BitVec 7) (a : BitVec 7) (b : BitVec 7)
  /-- fh.sub (R221): Subtracts two packed 16-bit halves. -/
  | fhSub (d : BitVec 7) (a : BitVec 7) (b : BitVec 7)
  /-- fh.mul (R221): Multiplies two packed 16-bit halves. -/
  | fhMul (d : BitVec 7) (a : BitVec 7) (b : BitVec 7)
  /-- fh.fmac (R221): Fused multiply-add of packed 16-bit halves into D. -/
  | fhFmac (d : BitVec 7) (a : BitVec 7) (b : BitVec 7)
  /-- fh.min (R221): Minimum of packed 16-bit halves. -/
  | fhMin (d : BitVec 7) (a : BitVec 7) (b : BitVec 7)
  /-- fh.max (R221): Maximum of packed 16-bit halves. -/
  | fhMax (d : BitVec 7) (a : BitVec 7) (b : BitVec 7)
  /-- fh.pk (R221): Narrows two FP32 values into one packed 16-bit pair. -/
  | fhPk (d : BitVec 7) (a : BitVec 7) (b : BitVec 7)
  /-- fx.rcp (R222): Reciprocal of A, rounded once. -/
  | fxRcp (d : BitVec 7) (a : BitVec 7)
  /-- fx.rsqrt (R222): Reciprocal square root of A. -/
  | fxRsqrt (d : BitVec 7) (a : BitVec 7)
  /-- fx.sqrt (R222): Square root of A. -/
  | fxSqrt (d : BitVec 7) (a : BitVec 7)
  /-- fx.exp2 (R222): 2 to the power A. -/
  | fxExp2 (d : BitVec 7) (a : BitVec 7)
  /-- fx.log2 (R222): Base-2 logarithm of A. -/
  | fxLog2 (d : BitVec 7) (a : BitVec 7)
  /-- fx.sin (R222): Sine of A turns. -/
  | fxSin (d : BitVec 7) (a : BitVec 7)
  /-- fx.cos (R222): Cosine of A turns. -/
  | fxCos (d : BitVec 7) (a : BitVec 7)
  /-- fx.tanh (R222): Hyperbolic tangent of A. -/
  | fxTanh (d : BitVec 7) (a : BitVec 7)
  /-- fx.act (R223): Evaluates the core's current activation-table bank at A. -/
  | fxAct (d : BitVec 7) (a : BitVec 7)
  /-- fx.floor (R222): Largest integral value not above A. -/
  | fxFloor (d : BitVec 7) (a : BitVec 7)
  /-- fx.ceil (R222): Smallest integral value not below A. -/
  | fxCeil (d : BitVec 7) (a : BitVec 7)
  /-- fx.rint (R222): Rounds A to an integral value per fmt.RM. -/
  | fxRint (d : BitVec 7) (a : BitVec 7)
  /-- fx.trunc (R222): Rounds A toward zero to an integral value. -/
  | fxTrunc (d : BitVec 7) (a : BitVec 7)
  /-- fx.fract (R222): Writes A minus floor(A). -/
  | fxFract (d : BitVec 7) (a : BitVec 7)
  /-- fx.class (R222): Writes the class mask of A. -/
  | fxClass (d : BitVec 7) (a : BitVec 7)
  /-- cv.i2f (R224): Converts a signed integer to FP32. -/
  | cvI2f (d : BitVec 7) (a : BitVec 7)
  /-- cv.n2f (R224): Converts an unsigned integer to FP32. -/
  | cvN2f (d : BitVec 7) (a : BitVec 7)
  /-- cv.f2i (R224): Converts FP32 to I32. -/
  | cvF2i (d : BitVec 7) (a : BitVec 7)
  /-- cv.f2n (R224): Converts FP32 to unsigned 32-bit. -/
  | cvF2n (d : BitVec 7) (a : BitVec 7)
  /-- cv.f2h (R224): Narrows FP32 to FP16. -/
  | cvF2h (d : BitVec 7) (a : BitVec 7)
  /-- cv.f2b (R224): Narrows FP32 to BF16. -/
  | cvF2b (d : BitVec 7) (a : BitVec 7)
  /-- cv.h2f (R224): Widens a selected FP16 half to FP32. -/
  | cvH2f (d : BitVec 7) (a : BitVec 7) (b : BitVec 7)
  /-- cv.b2f (R224): Widens a selected BF16 half to FP32. -/
  | cvB2f (d : BitVec 7) (a : BitVec 7) (b : BitVec 7)
  /-- cv.pk8 (R225): Narrows a scaled product to an 8-bit element and shifts it into D. -/
  | cvPk8 (d : BitVec 7) (a : BitVec 7) (b : BitVec 7)
  /-- cv.pk4 (R225): Narrows a scaled product to a 4-bit element and shifts it into D. -/
  | cvPk4 (d : BitVec 7) (a : BitVec 7) (b : BitVec 7)
  /-- cv.up8 (R226): Widens a selected 8-bit element to FP32. -/
  | cvUp8 (d : BitVec 7) (a : BitVec 7) (b : BitVec 7)
  /-- cv.up4 (R226): Widens a selected 4-bit element to FP32. -/
  | cvUp4 (d : BitVec 7) (a : BitVec 7) (b : BitVec 7)
  /-- cmp.feq (R227): Writes the lane mask of A equal to B in floating point. -/
  | cmpFeq (d : BitVec 5) (a : BitVec 7) (b : BitVec 7)
  /-- cmp.fne (R227): Writes the lane mask of A not equal to B in floating point. -/
  | cmpFne (d : BitVec 5) (a : BitVec 7) (b : BitVec 7)
  /-- cmp.flt (R227): Writes the lane mask of A below B in floating point. -/
  | cmpFlt (d : BitVec 5) (a : BitVec 7) (b : BitVec 7)
  /-- cmp.fle (R227): Writes the lane mask of A at most B in floating point. -/
  | cmpFle (d : BitVec 5) (a : BitVec 7) (b : BitVec 7)
  /-- cmp.fgt (R227): Writes the lane mask of A above B in floating point. -/
  | cmpFgt (d : BitVec 5) (a : BitVec 7) (b : BitVec 7)
  /-- cmp.fge (R227): Writes the lane mask of A at least B in floating point. -/
  | cmpFge (d : BitVec 5) (a : BitVec 7) (b : BitVec 7)
  /-- cmp.fun (R227): Writes the lane mask where A or B is NaN. -/
  | cmpFun (d : BitVec 5) (a : BitVec 7) (b : BitVec 7)
  /-- cmp.ford (R227): Writes the lane mask where neither A nor B is NaN. -/
  | cmpFord (d : BitVec 5) (a : BitVec 7) (b : BitVec 7)
  /-- cmp.ieq (R227): Writes the lane mask of equal words. -/
  | cmpIeq (d : BitVec 5) (a : BitVec 7) (b : BitVec 7)
  /-- cmp.ine (R227): Writes the lane mask of unequal words. -/
  | cmpIne (d : BitVec 5) (a : BitVec 7) (b : BitVec 7)
  /-- cmp.ilt (R227): Writes the lane mask of A below B signed. -/
  | cmpIlt (d : BitVec 5) (a : BitVec 7) (b : BitVec 7)
  /-- cmp.ile (R227): Writes the lane mask of A at most B signed. -/
  | cmpIle (d : BitVec 5) (a : BitVec 7) (b : BitVec 7)
  /-- cmp.nlt (R227): Writes the lane mask of A below B unsigned. -/
  | cmpNlt (d : BitVec 5) (a : BitVec 7) (b : BitVec 7)
  /-- cmp.nle (R227): Writes the lane mask of A at most B unsigned. -/
  | cmpNle (d : BitVec 5) (a : BitVec 7) (b : BitVec 7)
  /-- cmp.tst (R227): Writes the lane mask where A AND B is nonzero. -/
  | cmpTst (d : BitVec 5) (a : BitVec 7) (b : BitVec 7)
  /-- sel (R228): Selects A or B per lane by the bits of mask register sK. -/
  | sel (d : BitVec 7) (a : BitVec 7) (b : BitVec 7) (k : BitVec 4)
  /-- xl.shuf (R229): Reads A from the lane that B names. -/
  | xlShuf (d : BitVec 7) (a : BitVec 7) (b : BitVec 7)
  /-- xl.shx (R229): Reads A from the lane given by XOR with B. -/
  | xlShx (d : BitVec 7) (a : BitVec 7) (b : BitVec 7)
  /-- xl.bcast (R229): Broadcasts A from the lane that B names in the lowest active lane. -/
  | xlBcast (d : BitVec 7) (a : BitVec 7) (b : BitVec 7)
  /-- xl.rdf (R229): Broadcasts A of the lowest active lane. -/
  | xlRdf (d : BitVec 7) (a : BitVec 7)
  /-- xl.rdl (R229): Broadcasts A of the highest active lane. -/
  | xlRdl (d : BitVec 7) (a : BitVec 7)
  /-- xl.wrl (R229): Writes one lane of D with A of the lowest active lane. -/
  | xlWrl (d : BitVec 6) (a : BitVec 7) (b : BitVec 7)
  /-- xl.radd (R229): Sums A over active lanes modulo 2^32. -/
  | xlRadd (d : BitVec 7) (a : BitVec 7)
  /-- xl.rmin (R229): Takes the FP32 minimum of A over active lanes. -/
  | xlRmin (d : BitVec 7) (a : BitVec 7)
  /-- xl.rmax (R229): Takes the FP32 maximum of A over active lanes. -/
  | xlRmax (d : BitVec 7) (a : BitVec 7)
  /-- xl.fradd (R61): Sums A over active lanes in ascending lane order in FP32. -/
  | xlFradd (d : BitVec 7) (a : BitVec 7)
  /-- xl.scan (R229): Writes the inclusive prefix sum of A over active lanes. -/
  | xlScan (d : BitVec 7) (a : BitVec 7)
  /-- xl.ballot (R230): Writes the mask of active lanes whose A is nonzero. -/
  | xlBallot (d : BitVec 5) (a : BitVec 7)
  /-- xl.vgrp (R230): Writes the lanes equal to the lowest active lane's A and that value. -/
  | xlVgrp (d : BitVec 5) (a : BitVec 7)
  /-- xl.elect (R230): Writes the bit of the lowest active lane. -/
  | xlElect (d : BitVec 5)
  /-- dp.dot8f (R58): Accumulates an exact 4-term 8-bit floating dot product into D. -/
  | dpDot8f (d : BitVec 7) (a : BitVec 7) (b : BitVec 7)
  /-- dp.dot8i (R59): Accumulates a 4-term 8-bit integer dot product into D. -/
  | dpDot8i (d : BitVec 7) (a : BitVec 7) (b : BitVec 7)
  /-- dp.dot4f (R58): Accumulates an exact 8-term F4 dot product into D. -/
  | dpDot4f (d : BitVec 7) (a : BitVec 7) (b : BitVec 7)
  /-- dp.dot4i (R59): Accumulates an 8-term 4-bit integer dot product into D. -/
  | dpDot4i (d : BitVec 7) (a : BitVec 7) (b : BitVec 7)
  /-- dp.dot2 (R58): Accumulates an exact 2-term 16-bit dot product into D. -/
  | dpDot2 (d : BitVec 7) (a : BitVec 7) (b : BitVec 7)
  /-- shp.tag (R232): Writes the shape tag code of A. -/
  | shpTag (d : BitVec 7) (a : BitVec 7)
  /-- shp.expand (R232): Spreads A's first elements onto the active lanes. -/
  | shpExpand (d : BitVec 7) (a : BitVec 7)
  /-- shp.aff (R232): Copies A and tags it affine when it is. -/
  | shpAff (d : BitVec 7) (a : BitVec 7)
  /-- shp.uni (R232): Copies A and tags it uniform when it is. -/
  | shpUni (d : BitVec 7) (a : BitVec 7)
  /-- shp.cmpr (R232): Compresses the active lanes of A into the lowest lanes of D. -/
  | shpCmpr (d : BitVec 6) (a : BitVec 7)
  /-- sa.add (R198): Scalar add. -/
  | saAdd (d : BitVec 5) (a : BitVec 5) (b : BitVec 5)
  /-- sa.sub (R198): Scalar subtract. -/
  | saSub (d : BitVec 5) (a : BitVec 5) (b : BitVec 5)
  /-- sa.mul (R198): Scalar multiply, low 32 bits. -/
  | saMul (d : BitVec 5) (a : BitVec 5) (b : BitVec 5)
  /-- sa.min (R198): Scalar signed minimum. -/
  | saMin (d : BitVec 5) (a : BitVec 5) (b : BitVec 5)
  /-- sa.max (R198): Scalar signed maximum. -/
  | saMax (d : BitVec 5) (a : BitVec 5) (b : BitVec 5)
  /-- sa.minn (R198): Scalar unsigned minimum. -/
  | saMinn (d : BitVec 5) (a : BitVec 5) (b : BitVec 5)
  /-- sa.maxn (R198): Scalar unsigned maximum. -/
  | saMaxn (d : BitVec 5) (a : BitVec 5) (b : BitVec 5)
  /-- sa.and (R198): Scalar AND. -/
  | saAnd (d : BitVec 5) (a : BitVec 5) (b : BitVec 5)
  /-- sa.or (R198): Scalar OR. -/
  | saOr (d : BitVec 5) (a : BitVec 5) (b : BitVec 5)
  /-- sa.xor (R198): Scalar XOR. -/
  | saXor (d : BitVec 5) (a : BitVec 5) (b : BitVec 5)
  /-- sa.andn (R198): Scalar A AND NOT B. -/
  | saAndn (d : BitVec 5) (a : BitVec 5) (b : BitVec 5)
  /-- sa.shl (R198): Scalar shift left. -/
  | saShl (d : BitVec 5) (a : BitVec 5) (b : BitVec 5)
  /-- sa.shr (R198): Scalar shift right with zero fill. -/
  | saShr (d : BitVec 5) (a : BitVec 5) (b : BitVec 5)
  /-- sa.sra (R198): Scalar shift right with sign fill. -/
  | saSra (d : BitVec 5) (a : BitVec 5) (b : BitVec 5)
  /-- sa.popc (R198): Scalar population count. -/
  | saPopc (d : BitVec 5) (a : BitVec 5)
  /-- sa.ffs (R198): Scalar index of the lowest set bit. -/
  | saFfs (d : BitVec 5) (a : BitVec 5)
  /-- sai.addi (R199): Scalar add of an immediate. -/
  | saiAddi (d : BitVec 5) (a : BitVec 5) (i : BitVec 12)
  /-- sai.andi (R199): Scalar AND with an immediate. -/
  | saiAndi (d : BitVec 5) (a : BitVec 5) (i : BitVec 12)
  /-- sai.ori (R199): Scalar OR with an immediate. -/
  | saiOri (d : BitVec 5) (a : BitVec 5) (i : BitVec 12)
  /-- sai.xori (R199): Scalar XOR with an immediate. -/
  | saiXori (d : BitVec 5) (a : BitVec 5) (i : BitVec 12)
  /-- sai.shli (R199): Scalar shift left by an immediate. -/
  | saiShli (d : BitVec 5) (a : BitVec 5) (i : BitVec 12)
  /-- sai.shri (R199): Scalar shift right by an immediate with zero fill. -/
  | saiShri (d : BitVec 5) (a : BitVec 5) (i : BitVec 12)
  /-- sai.srai (R199): Scalar shift right by an immediate with sign fill. -/
  | saiSrai (d : BitVec 5) (a : BitVec 5) (i : BitVec 12)
  /-- sai.lui (R199): Loads an immediate shifted left by 7 into sD. -/
  | saiLui (d : BitVec 5) (i : BitVec 12)
  /-- mask.save (R200): Copies exec and fmt into a scalar register pair. -/
  | maskSave (d : BitVec 5)
  /-- mask.rest (R200): Restores exec and fmt from a scalar register pair. -/
  | maskRest (a : BitVec 5)
  /-- mask.set (R200): Sets exec, or fmt in its format form, from sA. -/
  | maskSet (a : BitVec 5) (m : BitVec 1)
  /-- mask.and (R200): ANDs exec with sA. -/
  | maskAnd (a : BitVec 5)
  /-- mask.andn (R200): ANDs exec with NOT sA. -/
  | maskAndn (a : BitVec 5)
  /-- mask.or (R200): ORs exec with sA. -/
  | maskOr (a : BitVec 5)
  /-- mask.full (R200): Sets exec to launched. -/
  | maskFull
  /-- br.al (R201): Branches unconditionally. -/
  | brAl (o : BitVec 17)
  /-- br.z (R201): Branches when sS is zero. -/
  | brZ (s : BitVec 5) (o : BitVec 17)
  /-- br.nz (R201): Branches when sS is nonzero. -/
  | brNz (s : BitVec 5) (o : BitVec 17)
  /-- br.xz (R201): Branches when exec is zero. -/
  | brXz (o : BitVec 17)
  /-- br.xnz (R201): Branches when exec is nonzero. -/
  | brXnz (o : BitVec 17)
  /-- br.vz (R21): Uniform branch taken when the active lanes of vS hold zero. -/
  | brVz (s : BitVec 5) (o : BitVec 17)
  /-- br.vnz (R21): Uniform branch taken when the active lanes of vS hold nonzero. -/
  | brVnz (s : BitVec 5) (o : BitVec 17)
  /-- jmp.call (R202): Pushes a link entry, slides the window by 8K and jumps to a relative target. -/
  | jmpCall (k : BitVec 3) (o : BitVec 19)
  /-- jmp.callx (R202): Calls a computed target in sS with window shift K. -/
  | jmpCallx (k : BitVec 3) (s : BitVec 5)
  /-- jmp.ret (R204): Pops the link entry, restores the window base and returns. -/
  | jmpRet
  /-- jmp.jx (R203): Jumps to the target in sS. -/
  | jmpJx (s : BitVec 5)
  /-- jmp.jtab (R205): Jumps through a jump table entry read by the fetch path. -/
  | jmpJtab (s : BitVec 5) (t : BitVec 5) (i : BitVec 9)
  /-- jmp.jv (R203): Uniform jump to the common value of vS. -/
  | jmpJv (s : BitVec 5)
  /-- ctl.nop (R206): Does nothing. -/
  | ctlNop
  /-- ctl.halt (R206): Stops issue; the gang retires once its commands complete. -/
  | ctlHalt
  /-- ctl.yield (R206): Gives the stream's next choice to the partner gang. -/
  | ctlYield
  /-- ctl.wait (R207): Waits until a timeline counter reaches a value. -/
  | ctlWait (s : BitVec 5) (i : BitVec 16)
  /-- ctl.refresh (R113): Unpins and repins the current generation of the gang's ASID. -/
  | ctlRefresh
  /-- ctl.ivl (R41): Enters a code interval and records a flashback point. -/
  | ctlIvl (i : BitVec 16)
  /-- ctl.brk (R206): Raises BRK as a boundary trap. -/
  | ctlBrk (i : BitVec 16)
  /-- ctl.wdog (R208): Writes WDOG and restarts the watchdog count. -/
  | ctlWdog (i : BitVec 16)
  /-- ld.b (R237): Loads a sign-extended byte per active lane. -/
  | ldB (v : BitVec 6) (s : BitVec 5) (o : BitVec 6) (n : BitVec 1) (i : BitVec 3)
  /-- ld.bn (R237): Loads a zero-extended byte per active lane. -/
  | ldBn (v : BitVec 6) (s : BitVec 5) (o : BitVec 6) (n : BitVec 1) (i : BitVec 3)
  /-- ld.h (R237): Loads a sign-extended halfword per active lane. -/
  | ldH (v : BitVec 6) (s : BitVec 5) (o : BitVec 6) (n : BitVec 1) (i : BitVec 3)
  /-- ld.hn (R237): Loads a zero-extended halfword per active lane. -/
  | ldHn (v : BitVec 6) (s : BitVec 5) (o : BitVec 6) (n : BitVec 1) (i : BitVec 3)
  /-- ld.w (R237): Loads a word per active lane. -/
  | ldW (v : BitVec 6) (s : BitVec 5) (o : BitVec 6) (n : BitVec 1) (i : BitVec 3)
  /-- ld.d (R237): Loads 8 bytes per active lane into a register pair. -/
  | ldD (v : BitVec 6) (s : BitVec 5) (o : BitVec 6) (n : BitVec 1) (i : BitVec 3)
  /-- ld.q (R237): Loads 16 bytes per active lane into four registers. -/
  | ldQ (v : BitVec 6) (s : BitVec 5) (o : BitVec 6) (n : BitVec 1) (i : BitVec 3)
  /-- st.b (R238): Stores a byte per active lane. -/
  | stB (v : BitVec 6) (s : BitVec 5) (o : BitVec 6) (n : BitVec 1) (i : BitVec 3)
  /-- st.h (R238): Stores a halfword per active lane. -/
  | stH (v : BitVec 6) (s : BitVec 5) (o : BitVec 6) (n : BitVec 1) (i : BitVec 3)
  /-- st.w (R238): Stores a word per active lane. -/
  | stW (v : BitVec 6) (s : BitVec 5) (o : BitVec 6) (n : BitVec 1) (i : BitVec 3)
  /-- st.d (R238): Stores 8 bytes per active lane. -/
  | stD (v : BitVec 6) (s : BitVec 5) (o : BitVec 6) (n : BitVec 1) (i : BitVec 3)
  /-- st.q (R238): Stores 16 bytes per active lane. -/
  | stQ (v : BitVec 6) (s : BitVec 5) (o : BitVec 6) (n : BitVec 1) (i : BitVec 3)
  /-- sm.ldw (R239): Scalar load of one word. -/
  | smLdw (d : BitVec 5) (a : BitVec 5) (i : BitVec 12)
  /-- sm.ldd (R239): Scalar load of 8 bytes into a pair. -/
  | smLdd (d : BitVec 5) (a : BitVec 5) (i : BitVec 12)
  /-- sm.stw (R239): Scalar store of one word. -/
  | smStw (d : BitVec 5) (a : BitVec 5) (i : BitVec 12)
  /-- sm.std (R239): Scalar store of 8 bytes from a pair. -/
  | smStd (d : BitVec 5) (a : BitVec 5) (i : BitVec 12)
  /-- at.add (R240): Atomic add per active lane returning the old word. -/
  | atAdd (v : BitVec 6) (s : BitVec 5) (o : BitVec 6) (n : BitVec 1) (i : BitVec 3)
  /-- at.min (R240): Atomic signed minimum. -/
  | atMin (v : BitVec 6) (s : BitVec 5) (o : BitVec 6) (n : BitVec 1) (i : BitVec 3)
  /-- at.max (R240): Atomic signed maximum. -/
  | atMax (v : BitVec 6) (s : BitVec 5) (o : BitVec 6) (n : BitVec 1) (i : BitVec 3)
  /-- at.minn (R240): Atomic unsigned minimum. -/
  | atMinn (v : BitVec 6) (s : BitVec 5) (o : BitVec 6) (n : BitVec 1) (i : BitVec 3)
  /-- at.maxn (R240): Atomic unsigned maximum. -/
  | atMaxn (v : BitVec 6) (s : BitVec 5) (o : BitVec 6) (n : BitVec 1) (i : BitVec 3)
  /-- at.and (R240): Atomic AND. -/
  | atAnd (v : BitVec 6) (s : BitVec 5) (o : BitVec 6) (n : BitVec 1) (i : BitVec 3)
  /-- at.or (R240): Atomic OR. -/
  | atOr (v : BitVec 6) (s : BitVec 5) (o : BitVec 6) (n : BitVec 1) (i : BitVec 3)
  /-- at.xor (R240): Atomic XOR. -/
  | atXor (v : BitVec 6) (s : BitVec 5) (o : BitVec 6) (n : BitVec 1) (i : BitVec 3)
  /-- at.xchg (R240): Atomic exchange. -/
  | atXchg (v : BitVec 6) (s : BitVec 5) (o : BitVec 6) (n : BitVec 1) (i : BitVec 3)
  /-- at.cas (R240): Atomic compare-and-swap. -/
  | atCas (v : BitVec 6) (s : BitVec 5) (o : BitVec 6) (n : BitVec 1) (i : BitVec 3)
  /-- at.inc (R240): Atomic wrapping increment bounded by v. -/
  | atInc (v : BitVec 6) (s : BitVec 5) (o : BitVec 6) (n : BitVec 1) (i : BitVec 3)
  /-- at.fadd (R240): Atomic FP32 add. -/
  | atFadd (v : BitVec 6) (s : BitVec 5) (o : BitVec 6) (n : BitVec 1) (i : BitVec 3)
  /-- at.xadd (R65): Adds an FP32 addend exactly into an accumulator cell. -/
  | atXadd (v : BitVec 6) (s : BitVec 5) (o : BitVec 6) (n : BitVec 1) (i : BitVec 3)
  /-- at.xrd (R66): Reads an accumulator cell as a rounded FP32 value. -/
  | atXrd (v : BitVec 6) (s : BitVec 5) (o : BitVec 6) (n : BitVec 1) (i : BitVec 3)
  /-- at.xclr (R241): Zeroes an accumulator cell. -/
  | atXclr (v : BitVec 6) (s : BitVec 5) (o : BitVec 6) (n : BitVec 1) (i : BitVec 3)
  /-- spm.ldw (R243): Loads a scratchpad word per active lane. -/
  | spmLdw (v : BitVec 6) (s : BitVec 5) (o : BitVec 6) (n : BitVec 1) (i : BitVec 3)
  /-- spm.ldd (R243): Loads 8 scratchpad bytes per active lane. -/
  | spmLdd (v : BitVec 6) (s : BitVec 5) (o : BitVec 6) (n : BitVec 1) (i : BitVec 3)
  /-- spm.ldq (R243): Loads 16 scratchpad bytes per active lane. -/
  | spmLdq (v : BitVec 6) (s : BitVec 5) (o : BitVec 6) (n : BitVec 1) (i : BitVec 3)
  /-- spm.stw (R243): Stores a scratchpad word per active lane. -/
  | spmStw (v : BitVec 6) (s : BitVec 5) (o : BitVec 6) (n : BitVec 1) (i : BitVec 3)
  /-- spm.std (R243): Stores 8 scratchpad bytes per active lane. -/
  | spmStd (v : BitVec 6) (s : BitVec 5) (o : BitVec 6) (n : BitVec 1) (i : BitVec 3)
  /-- spm.stq (R243): Stores 16 scratchpad bytes per active lane. -/
  | spmStq (v : BitVec 6) (s : BitVec 5) (o : BitVec 6) (n : BitVec 1) (i : BitVec 3)
  /-- spm.add (R243): Scratchpad atomic add. -/
  | spmAdd (v : BitVec 6) (s : BitVec 5) (o : BitVec 6) (n : BitVec 1) (i : BitVec 3)
  /-- spm.min (R243): Scratchpad atomic signed minimum. -/
  | spmMin (v : BitVec 6) (s : BitVec 5) (o : BitVec 6) (n : BitVec 1) (i : BitVec 3)
  /-- spm.max (R243): Scratchpad atomic signed maximum. -/
  | spmMax (v : BitVec 6) (s : BitVec 5) (o : BitVec 6) (n : BitVec 1) (i : BitVec 3)
  /-- spm.or (R243): Scratchpad atomic OR. -/
  | spmOr (v : BitVec 6) (s : BitVec 5) (o : BitVec 6) (n : BitVec 1) (i : BitVec 3)
  /-- spm.xchg (R243): Scratchpad atomic exchange. -/
  | spmXchg (v : BitVec 6) (s : BitVec 5) (o : BitVec 6) (n : BitVec 1) (i : BitVec 3)
  /-- spm.cas (R243): Scratchpad atomic compare-and-swap. -/
  | spmCas (v : BitVec 6) (s : BitVec 5) (o : BitVec 6) (n : BitVec 1) (i : BitVec 3)
  /-- spm.inc (R243): Scratchpad atomic bounded increment. -/
  | spmInc (v : BitVec 6) (s : BitVec 5) (o : BitVec 6) (n : BitVec 1) (i : BitVec 3)
  /-- sync.bar (R22): Arrives at workgroup barrier k and waits for its generation. -/
  | syncBar (k : BitVec 2)
  /-- sync.cmtmx (R101): Closes the gang's matrix operations into a batch. -/
  | syncCmtmx (d : BitVec 5)
  /-- sync.cmtcp (R101): Closes the gang's copy operations into a batch. -/
  | syncCmtcp (d : BitVec 5)
  /-- sync.tlrd (R210): Reads a 64-bit timeline counter into a pair. -/
  | syncTlrd (d : BitVec 5) (a : BitVec 5)
  /-- sync.irrev (R89): Waits until the gang is non-speculative. -/
  | syncIrrev
  /-- mx.claim (R250): Claims an operand slot, tile or metadata slot. -/
  | mxClaim (a : BitVec 5) (k : BitVec 2)
  /-- mx.rel (R250): Releases a held slot, tile or metadata slot. -/
  | mxRel (a : BitVec 5) (k : BitVec 2)
  /-- mx.zero (R256): Zeroes a tile and clears its invalid mark. -/
  | mxZero (a : BitVec 5) (p : BitVec 1)
  /-- mx.mma (R252): Accumulates A slot times B slot into a tile per active quarter. -/
  | mxMma (a : BitVec 5) (b : BitVec 5) (c : BitVec 5) (p : BitVec 1)
  /-- mx.mms (R253): Accumulates a 2:4 sparse product into a tile. -/
  | mxMms (a : BitVec 5) (b : BitVec 5) (c : BitVec 5) (p : BitVec 1)
  /-- mx.mmx (R252): Accumulates a scaled product into a tile. -/
  | mxMmx (a : BitVec 5) (b : BitVec 5) (c : BitVec 5) (p : BitVec 1)
  /-- mx.mmg (R255): Gathered matrix product scattered to memory rows. -/
  | mxMmg (a : BitVec 5) (b : BitVec 5) (c : BitVec 5) (g : BitVec 1) (p : BitVec 1)
  /-- mx.st (R257): Stores a converted tile to scratchpad or memory. -/
  | mxSt (a : BitVec 5) (b : BitVec 5) (c : BitVec 5) (n : BitVec 1) (l : BitVec 1) (p : BitVec 1)
  /-- cp.g2s (R260): Copies bytes from global memory to scratchpad. -/
  | cpG2s (a : BitVec 5) (b : BitVec 5) (c : BitVec 5) (p : BitVec 1)
  /-- cp.s2g (R260): Copies bytes from scratchpad to global memory. -/
  | cpS2g (a : BitVec 5) (b : BitVec 5) (c : BitVec 5) (p : BitVec 1)
  /-- cp.g2g (R260): Copies bytes between global ranges. -/
  | cpG2g (a : BitVec 5) (b : BitVec 5) (c : BitVec 5) (p : BitVec 1)
  /-- cp.g2o (R261): Loads an operand slot from global memory. -/
  | cpG2o (a : BitVec 5) (b : BitVec 5) (c : BitVec 5) (h : BitVec 2) (p : BitVec 1)
  /-- cp.s2o (R261): Loads an operand slot from scratchpad. -/
  | cpS2o (a : BitVec 5) (b : BitVec 5) (c : BitVec 5) (h : BitVec 2) (p : BitVec 1)
  /-- cp.gat (R261): Gathers operand-slot rows from a VA list. -/
  | cpGat (a : BitVec 5) (b : BitVec 5) (c : BitVec 5) (h : BitVec 2) (p : BitVec 1)
  /-- cp.meta (R262): Loads a metadata slot. -/
  | cpMeta (a : BitVec 5) (b : BitVec 5) (m : BitVec 1) (p : BitVec 1)
  /-- cp.act (R262): Loads and flips the core's activation-table bank. -/
  | cpAct (a : BitVec 5) (p : BitVec 1)
  /-- sq.bind (R131): Binds a free sequence record and writes its handle. -/
  | sqBind (a : BitVec 5) (b : BitVec 5) (c : BitVec 5)
  /-- sq.bind (R131): Frees a sequence record and its grammar context. -/
  | sqBindFree (b : BitVec 5)
  /-- sq.fork (R132): Creates a child sequence record from a parent. -/
  | sqFork (a : BitVec 5) (b : BitVec 5) (c : BitVec 5)
  /-- sq.save (R133): Writes a session image and forks a snapshot ASID. -/
  | sqSave (a : BitVec 5) (b : BitVec 5) (c : BitVec 5)
  /-- sq.roll (R134): Loads a session image into a bound record. -/
  | sqRoll (a : BitVec 5) (b : BitVec 5)
  /-- sq.rng (R135): Draws a 64-bit random value and advances the counter. -/
  | sqRng (a : BitVec 5) (b : BitVec 5)
  /-- sq.acc (R137): Computes the accepted count of a draft block. -/
  | sqAcc (a : BitVec 5) (b : BitVec 5) (c : BitVec 5)
  /-- sq.emit (R140): Appends a token at position E once the lead limit allows. -/
  | sqEmit (a : BitVec 5) (b : BitVec 5)
  /-- sq.rel (R141): Releases positions to the egress ring. -/
  | sqRel (a : BitVec 5) (b : BitVec 5)
  /-- sq.veto (R142): Drops unreleased tokens and restores snapshot S[n]. -/
  | sqVeto (a : BitVec 5) (b : BitVec 5)
  /-- gx.bind (R146): Ties a grammar context to a sequence and an image. -/
  | gxBind (d : BitVec 7) (a : BitVec 7) (b : BitVec 7)
  /-- gx.mask (R147): Reads a span of the current vocabulary mask. -/
  | gxMask (d : BitVec 6) (a : BitVec 7) (b : BitVec 7)
  /-- gx.peek (R148): Writes the count class of the current mask and a forced token. -/
  | gxPeek (d : BitVec 7) (a : BitVec 7)
  /-- gx.step (R149): Advances the grammar context by a token after checking it. -/
  | gxStep (a : BitVec 7) (b : BitVec 7)
  /-- map.fork (R121): Forks an ASID into a new one sharing its tree. -/
  | mapFork (a : BitVec 5) (b : BitVec 5) (c : BitVec 5) (r : BitVec 1)
  /-- map.set (R266): Stages a mapping edit in the gang's transaction. -/
  | mapSet (a : BitVec 5) (b : BitVec 5) (c : BitVec 5) (l : BitVec 1)
  /-- map.swap (R114): Applies the transaction and publishes a new generation. -/
  | mapSwap (a : BitVec 5) (b : BitVec 5) (h : BitVec 1)
  /-- map.drop (R265): Marks an ASID DROPPING. -/
  | mapDrop (a : BitVec 5) (b : BitVec 5)
  /-- map.ref (R265): Reads the reference count of a node or frame on a path. -/
  | mapRef (a : BitVec 5) (b : BitVec 5) (c : BitVec 5) (e : BitVec 3)
  /-- lnch.grid (R267): Creates a child grid. -/
  | lnchGrid (a : BitVec 5) (b : BitVec 5) (c : BitVec 5)
  /-- lnch.sig (R268): Signals a graph node as a predecessor completion would. -/
  | lnchSig (a : BitVec 5)
  /-- lnch.grant (R269): Enqueues a row on a Grant queue and returns a ticket. -/
  | lnchGrant (a : BitVec 5) (b : BitVec 5) (c : BitVec 5) (q : BitVec 6)
  /-- sys.srd (R211): Reads a system register. -/
  | sysSrd (s : BitVec 5) (i : BitVec 16)
  /-- sys.swr (R211): Writes a system register. -/
  | sysSwr (s : BitVec 5) (i : BitVec 16)
  /-- sys.trap (R213): Raises TRAPI or GDEAD precisely. -/
  | sysTrap (s : BitVec 5) (i : BitVec 16)
  /-- sys.eret (R156): Returns from a trap handler. -/
  | sysEret
  /-- ext (R175): Supplies a 25-bit payload to the following instruction. -/
  | ext (p : BitVec 25)
  /-- c.mov (R173): Compact form of ia.add vD, vS, 0. -/
  | cMov (d : BitVec 6) (s : BitVec 5)
  /-- c.iadd (R173): Compact integer add. -/
  | cIadd (d : BitVec 6) (s : BitVec 5)
  /-- c.isub (R173): Compact integer subtract. -/
  | cIsub (d : BitVec 6) (s : BitVec 5)
  /-- c.imul (R173): Compact integer multiply low. -/
  | cImul (d : BitVec 6) (s : BitVec 5)
  /-- c.and (R173): Compact AND. -/
  | cAnd (d : BitVec 6) (s : BitVec 5)
  /-- c.or (R173): Compact OR. -/
  | cOr (d : BitVec 6) (s : BitVec 5)
  /-- c.xor (R173): Compact XOR. -/
  | cXor (d : BitVec 6) (s : BitVec 5)
  /-- c.shl (R173): Compact shift left. -/
  | cShl (d : BitVec 6) (s : BitVec 5)
  /-- c.shr (R173): Compact shift right with zero fill. -/
  | cShr (d : BitVec 6) (s : BitVec 5)
  /-- c.sra (R173): Compact shift right with sign fill. -/
  | cSra (d : BitVec 6) (s : BitVec 5)
  /-- c.fadd (R173): Compact FP32 add. -/
  | cFadd (d : BitVec 6) (s : BitVec 5)
  /-- c.fsub (R173): Compact FP32 subtract. -/
  | cFsub (d : BitVec 6) (s : BitVec 5)
  /-- c.fmul (R173): Compact FP32 multiply. -/
  | cFmul (d : BitVec 6) (s : BitVec 5)
  /-- c.fmax (R173): Compact FP32 maximum. -/
  | cFmax (d : BitVec 6) (s : BitVec 5)
  /-- c.fmin (R173): Compact FP32 minimum. -/
  | cFmin (d : BitVec 6) (s : BitVec 5)
  /-- c.iaddi (R173): Compact add of a 5-bit immediate. -/
  | cIaddi (d : BitVec 6) (i : BitVec 5)
  /-- event (R26): The armed watchdog count is reached and WDOG is raised. -/
  | wdog (g : Nat)
  /-- event (R78): The holder slice performs a store or atomic after all other copies are invalidated. -/
  | holderSliceWrite (g : Nat)
  /-- event (R86): An L1 or remote copy is invalidated, meeting read sets. -/
  | lineInvalidation (who line : Nat)
  /-- event (R83): A line moves to a nearer holder slice and held requests are served. -/
  | lineMigration (line slice : Nat)
  /-- event (R81): A dirty line copy is written back to DRAM on eviction. -/
  | l2Eviction (line : Nat)
  /-- event (R71): Data for a load arrives and is written to its register. -/
  | loadCompletion (g : Nat)
  /-- event (R90): A deferred command starts in list order once non-speculative. -/
  | pendingCommandStart (g : Nat)
  /-- event (R254): The array forms and runs a pass of up to four quarters. -/
  | matrixPass (core : Nat)
  /-- event (R63): An engine operation completes and merges its events into the gang's flags. -/
  | engineOperationComplete (g cmd : Nat)
  /-- event (R247): A running engine command fails, invalidates its tile and writes an engine record. -/
  | runFailure (g cmd : Nat)
  /-- event (R28): Sparge spills a resident register block to the spill area. -/
  | spill (g : Nat)
  /-- event (R28): Sparge refills a register block from the spill area. -/
  | refill (g : Nat)
  /-- event (R120): Copies a shared frame and path for a write and publishes it by a hard swap. -/
  | copyOnWrite (leaf asid va : Nat)
  /-- event (R123): A released generation returns its retired nodes and frames to the pools. -/
  | generationRelease (leaf asid : Nat)
  /-- event (R15): A halted gang whose engine operations have completed retires. -/
  | gangRetire (g : Nat)
  /-- event (R278): The distributor places a waiting workgroup on a fitting core. -/
  | workgroupPlacement (leaf : Nat)
  /-- event (R279): A gang ready for 4,096 cycles without issuing becomes promoted. -/
  | promotion (g : Nat)
  /-- event (R276): A tenant's time slice expires and the dispatcher moves to the next tenant. -/
  | sliceEnd (leaf : Nat)
  /-- event (R163): The grace window runs out and a running-forward gang is saved whole. -/
  | graceWindowExpiry (g : Nat)
  /-- event (R164): A pre-empted workgroup's record and save areas are restored. -/
  | workgroupResume (wg : Nat)
  /-- event (R280): A Grant batch closes when its row count reaches the batch size. -/
  | grantBatchClose (q : Nat)
  /-- event (R280): A Grant batch's timeout expires and the batch closes. -/
  | grantTimeout (q : Nat)
  /-- event (R281): Grant writes a batch's list and launches its service grid once the buffer is free. -/
  | grantServiceLaunch (q : Nat)
  /-- event (R280): A write to a Grant registration record registers or requests unregistering a queue. -/
  | grantRegistrationWrite (leaf q off : Nat) (v : Word)
  /-- event (R280): A queue whose EN was cleared is unregistered once drained. -/
  | grantUnregister (q : Nat)
  /-- event (R271): A host write to KICK raises the producer index by the write-maximum rule. -/
  | kick (leaf q : Nat) (v : Word)
  /-- event (R270): Writing QCTL RST clears HALT and resets CONS and P. -/
  | rst (leaf q : Nat)
  /-- event (R270): A write to a register with no behaviour of its own stores the value. -/
  | registerWrite (win off : Nat) (v : Word)
  /-- event (R11): A GRID entry creates a seed group. -/
  | grid (leaf q : Nat)
  /-- event (R275): A GRAPH entry loads node records and launches the ready nodes. -/
  | graph (leaf q : Nat)
  /-- event (R273): A WAITTL entry waits until a timeline counter reaches a value. -/
  | waittl (leaf q : Nat)
  /-- event (R273): A SIGNAL entry stores an 8-byte value and optionally posts an interrupt. -/
  | signal (leaf q : Nat)
  /-- event (R273): A MAPOP entry performs a map fork and stores its status. -/
  | mapopFork (leaf q : Nat)
  /-- event (R273): A MAPOP entry stages its edits, swaps and stores its status. -/
  | mapopSetSwap (leaf q : Nat)
  /-- event (R273): A MAPOP entry drops an ASID and stores its status. -/
  | mapopDrop (leaf q : Nat)
  /-- event (R282): A host write to CASKKICK raises the Cask producer index. -/
  | caskkick (leaf : Nat) (v : Word)
  /-- event (R285): A Cask command snapshots, hashes and writes a shard with a signed manifest. -/
  | checkpoint (leaf : Nat)
  /-- event (R288): A Cask command restores a shard's step into a fresh ASID. -/
  | restore (leaf : Nat)
  /-- event (R287): A Cask command removes this device's manifest for a step and shard. -/
  | erase (leaf : Nat)
  /-- event (R296): A host write to RCONS frees ring space by the write-maximum rule. -/
  | rcons (leaf ring : Nat) (v : Word)
  /-- event (R296): Writing RCTL EN with 1 releases held egress entries. -/
  | rctlEnable (leaf ring : Nat)
  /-- event (R298): T microseconds after the oldest unsent event the vector sends its message. -/
  | coalesceTimerExpiry (leaf vec : Nat)
  /-- event (R298): Unmasking a vector sends its pending message. -/
  | msixUnmask (leaf vec : Nat)
  /-- event (R99): A host read through a register or memory window enters the order. -/
  | hostPortRead (win off len : Nat)
  /-- event (R99): A host write to device memory enters the order and invalidates copies. -/
  | hostPortWrite (leaf off : Nat) (bytes : List Byte)
  /-- event (R98): A host-window read completes and returns data. -/
  | hostReadCompletion (answer : HostAnswer)
  /-- event (R127): An ATS completion grants a translation or starts a page request. -/
  | atsCompletion (port : AtsPort) (pasid : Nat) (pages : AtsRange) (rd wr : Bool)
  /-- event (R127): A PRI response resends the ATS request or raises HOSTPG. -/
  | priResponse (who : Waiter) (code : Nat)
  /-- event (R127): No PRI response within the limit raises HOSTPG. -/
  | priLimitExpiry (who : Waiter)
  /-- event (R128): A host ATS invalidation rolls back read sets holding the translation. -/
  | atsInvalidationRequest (leaf pasid page count : Nat)
  /-- event (R128): The invalidation completes once accesses using the old translation are done. -/
  | atsInvalidationComplete (leaf : Nat)
  /-- event (R94): The home device records and forwards a replica request to the owner. -/
  | replicaRequest (page dev : Nat)
  /-- event (R94): A page replica arrives and the waiting load performs. -/
  | replicaArrival (come : PageArrival)
  /-- event (R95): A page's ownership moves to a requesting device. -/
  | handOver (come : PageArrival) (dev : Nat)
  /-- event (R96): A page's minimum residency ends and waiting requests proceed. -/
  | minimumResidencyExpiry (page : Nat)
  /-- event (R97): An unreachable peer page wait of 1 ms runs out and XLATE is raised. -/
  | peerWaitTimeout (who : Waiter)
  /-- event (R299): A peer link fails and its traffic is rerouted. -/
  | linkFailure (link : Nat)
  /-- event (R109): An uncorrectable memory error poisons a line and charges the owner. -/
  | uncorrectableError (place : ErrPlace)
  /-- event (R159): A correctable error or residue mismatch replays the instruction. -/
  | correctableError (g : Nat) (place : ArrayError)
  /-- event (R159): An uncorrectable error in gang state is handled as a transient fault. -/
  | gangStateError (g array : Nat)
  /-- event (R293): Creates a partition or replaces its budgets. -/
  | carve
  /-- event (R293): Frees a leaf partition. -/
  | dissolve
  /-- event (R301): Latches the accepted feature set and enables virtual functions. -/
  | start
  /-- event (R300): Returns a signed attestation report. -/
  | attest
  /-- event (R295): A mailbox submission with an unknown command code ends with BADCMD. -/
  | mailboxBadcmd
  /-- event (R302): A write to PWRCAP sets the clamped module power cap. -/
  | pwrcap (v : Word)
  /-- event (R302): Firmware changes the core clock by 100 MHz and writes a power record. -/
  | clockStep (up : Bool) (cause : Nat)
  /-- event (R302): A die reaches 115 °C, dispatch stops and every partition is pre-empted. -/
  | thermalShutdown
  /-- event (R293): Firmware retires a faulty core and enables a spare under its number. -/
  | spareCoreReplacement (core : Nat)
  /-- event (R300): At reset the boot chain verifies and measures firmware images. -/
  | secureBoot (image : Nat) (version : Nat) (sig : Nat)
  /-- event (R127): A reset of the function ends the state in which it sends no further page requests after a PRI Response Failure. -/
  | functionReset (leaf : Nat)
  /-- event (R273): A queue entry with a reserved kind completes without effect, writes a queue record with cause 1 and advances CONS and TLINE. -/
  | badEntry (leaf q : Nat)
deriving DecidableEq, Repr

end Sys2Proof
end

