-- ==== Sys2Proof/Decode.lean ====
section
/-! DEFINITION. The decoder: bytes to an instruction or a named rejection, total; and the encoder, from the
same encoding tables (R166 to R178). -/

namespace Sys2Proof

/-- Why bytes are no instruction; R152 makes every one of these ILLOP. -/
inductive DecodeError where
  /-- fewer bytes than the length bit asks for (the fetch then fails, R167) -/
  | truncated
  /-- a major the opcode map does not list (R177) -/
  | reservedMajor
  /-- a function or condition the major does not list (R177) -/
  | reservedFn
  /-- a field this instruction does not use is not at its required value (R169, R172); whether
  its ILLOP names the active lanes (R152) -/
  | unusedField (lanes : Bool)
  /-- the halfword 0x0000 (R174) -/
  | zeroHalfword
deriving DecidableEq, Repr

/-- `n` bits of `w` from bit `lo`, as the field of an instruction. -/
def bits (w lo n : Nat) : BitVec n := BitVec.ofNat n (w / 2 ^ lo)

/-- The instruction, when the fields it does not use hold what they must (R169). -/
def need (lanes : Bool) (ok : Bool) (i : Instr) : Except DecodeError Instr :=
  if ok then .ok i else .error (.unusedField lanes)

/-- Major 0x00: ia (R177). -/
noncomputable def decIa (w : Nat) : Except DecodeError Instr :=
  match w / 2 ^ 7 % 16 with
  | 0 => .ok (.iaAdd (bits w 11 7) (bits w 18 7) (bits w 25 7))
  | 1 => .ok (.iaSub (bits w 11 7) (bits w 18 7) (bits w 25 7))
  | 2 => .ok (.iaMullo (bits w 11 7) (bits w 18 7) (bits w 25 7))
  | 3 => .ok (.iaMulhi (bits w 11 7) (bits w 18 7) (bits w 25 7))
  | 4 => .ok (.iaMulhin (bits w 11 7) (bits w 18 7) (bits w 25 7))
  | 5 => .ok (.iaMin (bits w 11 7) (bits w 18 7) (bits w 25 7))
  | 6 => .ok (.iaMax (bits w 11 7) (bits w 18 7) (bits w 25 7))
  | 7 => .ok (.iaMinn (bits w 11 7) (bits w 18 7) (bits w 25 7))
  | 8 => .ok (.iaMaxn (bits w 11 7) (bits w 18 7) (bits w 25 7))
  | 9 => .ok (.iaAdds (bits w 11 7) (bits w 18 7) (bits w 25 7))
  | 10 => .ok (.iaAddsn (bits w 11 7) (bits w 18 7) (bits w 25 7))
  | 11 => .ok (.iaSubs (bits w 11 7) (bits w 18 7) (bits w 25 7))
  | 12 => .ok (.iaSubsn (bits w 11 7) (bits w 18 7) (bits w 25 7))
  | 13 => .ok (.iaAbsdiff (bits w 11 7) (bits w 18 7) (bits w 25 7))
  | _ => .error .reservedFn

/-- Major 0x01: il (R177). -/
noncomputable def decIl (w : Nat) : Except DecodeError Instr :=
  match w / 2 ^ 7 % 16 with
  | 0 => .ok (.ilAnd (bits w 11 7) (bits w 18 7) (bits w 25 7))
  | 1 => .ok (.ilOr (bits w 11 7) (bits w 18 7) (bits w 25 7))
  | 2 => .ok (.ilXor (bits w 11 7) (bits w 18 7) (bits w 25 7))
  | 3 => .ok (.ilAndn (bits w 11 7) (bits w 18 7) (bits w 25 7))
  | 4 => .ok (.ilOrn (bits w 11 7) (bits w 18 7) (bits w 25 7))
  | 5 => .ok (.ilShl (bits w 11 7) (bits w 18 7) (bits w 25 7))
  | 6 => .ok (.ilShr (bits w 11 7) (bits w 18 7) (bits w 25 7))
  | 7 => .ok (.ilSra (bits w 11 7) (bits w 18 7) (bits w 25 7))
  | 8 => .ok (.ilRotl (bits w 11 7) (bits w 18 7) (bits w 25 7))
  | 9 => .ok (.ilBfe (bits w 11 7) (bits w 18 7) (bits w 25 7))
  | 10 => need true (w / 2 ^ 25 % 128 == 112) (.ilPopc (bits w 11 7) (bits w 18 7))
  | 11 => need true (w / 2 ^ 25 % 128 == 112) (.ilClz (bits w 11 7) (bits w 18 7))
  | 12 => need true (w / 2 ^ 25 % 128 == 112) (.ilCtz (bits w 11 7) (bits w 18 7))
  | 13 => need true (w / 2 ^ 25 % 128 == 112) (.ilBrev (bits w 11 7) (bits w 18 7))
  | _ => .error .reservedFn

/-- Major 0x02: iai (R177). -/
noncomputable def decIai (w : Nat) : Except DecodeError Instr :=
  match w / 2 ^ 7 % 8 with
  | 0 => .ok (.iaiAddi (bits w 10 6) (bits w 16 6) (bits w 22 10))
  | 1 => .ok (.iaiMuli (bits w 10 6) (bits w 16 6) (bits w 22 10))
  | 2 => .ok (.iaiAndi (bits w 10 6) (bits w 16 6) (bits w 22 10))
  | 3 => .ok (.iaiOri (bits w 10 6) (bits w 16 6) (bits w 22 10))
  | 4 => .ok (.iaiXori (bits w 10 6) (bits w 16 6) (bits w 22 10))
  | 5 => .ok (.iaiShli (bits w 10 6) (bits w 16 6) (bits w 22 10))
  | 6 => .ok (.iaiShri (bits w 10 6) (bits w 16 6) (bits w 22 10))
  | _ => .ok (.iaiSrai (bits w 10 6) (bits w 16 6) (bits w 22 10))

/-- Major 0x03: fa (R177). -/
noncomputable def decFa (w : Nat) : Except DecodeError Instr :=
  match w / 2 ^ 7 % 16 with
  | 0 => .ok (.faAdd (bits w 11 7) (bits w 18 7) (bits w 25 7))
  | 1 => .ok (.faSub (bits w 11 7) (bits w 18 7) (bits w 25 7))
  | 2 => .ok (.faMul (bits w 11 7) (bits w 18 7) (bits w 25 7))
  | 3 => .ok (.faFmac (bits w 11 7) (bits w 18 7) (bits w 25 7))
  | 4 => .ok (.faFnmac (bits w 11 7) (bits w 18 7) (bits w 25 7))
  | 5 => .ok (.faMin (bits w 11 7) (bits w 18 7) (bits w 25 7))
  | 6 => .ok (.faMax (bits w 11 7) (bits w 18 7) (bits w 25 7))
  | 7 => need true (w / 2 ^ 25 % 128 == 112) (.faAbs (bits w 11 7) (bits w 18 7))
  | 8 => need true (w / 2 ^ 25 % 128 == 112) (.faNeg (bits w 11 7) (bits w 18 7))
  | 9 => .ok (.faCopysign (bits w 11 7) (bits w 18 7) (bits w 25 7))
  | _ => .error .reservedFn

/-- Major 0x04: fh (R177). -/
noncomputable def decFh (w : Nat) : Except DecodeError Instr :=
  match w / 2 ^ 7 % 16 with
  | 0 => .ok (.fhAdd (bits w 11 7) (bits w 18 7) (bits w 25 7))
  | 1 => .ok (.fhSub (bits w 11 7) (bits w 18 7) (bits w 25 7))
  | 2 => .ok (.fhMul (bits w 11 7) (bits w 18 7) (bits w 25 7))
  | 3 => .ok (.fhFmac (bits w 11 7) (bits w 18 7) (bits w 25 7))
  | 4 => .ok (.fhMin (bits w 11 7) (bits w 18 7) (bits w 25 7))
  | 5 => .ok (.fhMax (bits w 11 7) (bits w 18 7) (bits w 25 7))
  | 6 => .ok (.fhPk (bits w 11 7) (bits w 18 7) (bits w 25 7))
  | _ => .error .reservedFn

/-- Major 0x05: fx (R177). -/
noncomputable def decFx (w : Nat) : Except DecodeError Instr :=
  match w / 2 ^ 7 % 16 with
  | 0 => need true (w / 2 ^ 25 % 128 == 112) (.fxRcp (bits w 11 7) (bits w 18 7))
  | 1 => need true (w / 2 ^ 25 % 128 == 112) (.fxRsqrt (bits w 11 7) (bits w 18 7))
  | 2 => need true (w / 2 ^ 25 % 128 == 112) (.fxSqrt (bits w 11 7) (bits w 18 7))
  | 3 => need true (w / 2 ^ 25 % 128 == 112) (.fxExp2 (bits w 11 7) (bits w 18 7))
  | 4 => need true (w / 2 ^ 25 % 128 == 112) (.fxLog2 (bits w 11 7) (bits w 18 7))
  | 5 => need true (w / 2 ^ 25 % 128 == 112) (.fxSin (bits w 11 7) (bits w 18 7))
  | 6 => need true (w / 2 ^ 25 % 128 == 112) (.fxCos (bits w 11 7) (bits w 18 7))
  | 7 => need true (w / 2 ^ 25 % 128 == 112) (.fxTanh (bits w 11 7) (bits w 18 7))
  | 8 => need true (w / 2 ^ 25 % 128 == 112) (.fxAct (bits w 11 7) (bits w 18 7))
  | 9 => need true (w / 2 ^ 25 % 128 == 112) (.fxFloor (bits w 11 7) (bits w 18 7))
  | 10 => need true (w / 2 ^ 25 % 128 == 112) (.fxCeil (bits w 11 7) (bits w 18 7))
  | 11 => need true (w / 2 ^ 25 % 128 == 112) (.fxRint (bits w 11 7) (bits w 18 7))
  | 12 => need true (w / 2 ^ 25 % 128 == 112) (.fxTrunc (bits w 11 7) (bits w 18 7))
  | 13 => need true (w / 2 ^ 25 % 128 == 112) (.fxFract (bits w 11 7) (bits w 18 7))
  | 14 => need true (w / 2 ^ 25 % 128 == 112) (.fxClass (bits w 11 7) (bits w 18 7))
  | _ => .error .reservedFn

/-- Major 0x06: cv (R177). -/
noncomputable def decCv (w : Nat) : Except DecodeError Instr :=
  match w / 2 ^ 7 % 16 with
  | 0 => need true (w / 2 ^ 25 % 128 == 112) (.cvI2f (bits w 11 7) (bits w 18 7))
  | 1 => need true (w / 2 ^ 25 % 128 == 112) (.cvN2f (bits w 11 7) (bits w 18 7))
  | 2 => need true (w / 2 ^ 25 % 128 == 112) (.cvF2i (bits w 11 7) (bits w 18 7))
  | 3 => need true (w / 2 ^ 25 % 128 == 112) (.cvF2n (bits w 11 7) (bits w 18 7))
  | 4 => need true (w / 2 ^ 25 % 128 == 112) (.cvF2h (bits w 11 7) (bits w 18 7))
  | 5 => need true (w / 2 ^ 25 % 128 == 112) (.cvF2b (bits w 11 7) (bits w 18 7))
  | 6 => .ok (.cvH2f (bits w 11 7) (bits w 18 7) (bits w 25 7))
  | 7 => .ok (.cvB2f (bits w 11 7) (bits w 18 7) (bits w 25 7))
  | 8 => .ok (.cvPk8 (bits w 11 7) (bits w 18 7) (bits w 25 7))
  | 9 => .ok (.cvPk4 (bits w 11 7) (bits w 18 7) (bits w 25 7))
  | 10 => .ok (.cvUp8 (bits w 11 7) (bits w 18 7) (bits w 25 7))
  | 11 => .ok (.cvUp4 (bits w 11 7) (bits w 18 7) (bits w 25 7))
  | _ => .error .reservedFn

/-- Major 0x07: cmp (R177). -/
noncomputable def decCmp (w : Nat) : Except DecodeError Instr :=
  match w / 2 ^ 7 % 16 with
  | 0 => need true (w / 2 ^ 16 % 4 == 2) (.cmpFeq (bits w 11 5) (bits w 18 7) (bits w 25 7))
  | 1 => need true (w / 2 ^ 16 % 4 == 2) (.cmpFne (bits w 11 5) (bits w 18 7) (bits w 25 7))
  | 2 => need true (w / 2 ^ 16 % 4 == 2) (.cmpFlt (bits w 11 5) (bits w 18 7) (bits w 25 7))
  | 3 => need true (w / 2 ^ 16 % 4 == 2) (.cmpFle (bits w 11 5) (bits w 18 7) (bits w 25 7))
  | 4 => need true (w / 2 ^ 16 % 4 == 2) (.cmpFgt (bits w 11 5) (bits w 18 7) (bits w 25 7))
  | 5 => need true (w / 2 ^ 16 % 4 == 2) (.cmpFge (bits w 11 5) (bits w 18 7) (bits w 25 7))
  | 6 => need true (w / 2 ^ 16 % 4 == 2) (.cmpFun (bits w 11 5) (bits w 18 7) (bits w 25 7))
  | 7 => need true (w / 2 ^ 16 % 4 == 2) (.cmpFord (bits w 11 5) (bits w 18 7) (bits w 25 7))
  | 8 => need true (w / 2 ^ 16 % 4 == 2) (.cmpIeq (bits w 11 5) (bits w 18 7) (bits w 25 7))
  | 9 => need true (w / 2 ^ 16 % 4 == 2) (.cmpIne (bits w 11 5) (bits w 18 7) (bits w 25 7))
  | 10 => need true (w / 2 ^ 16 % 4 == 2) (.cmpIlt (bits w 11 5) (bits w 18 7) (bits w 25 7))
  | 11 => need true (w / 2 ^ 16 % 4 == 2) (.cmpIle (bits w 11 5) (bits w 18 7) (bits w 25 7))
  | 12 => need true (w / 2 ^ 16 % 4 == 2) (.cmpNlt (bits w 11 5) (bits w 18 7) (bits w 25 7))
  | 13 => need true (w / 2 ^ 16 % 4 == 2) (.cmpNle (bits w 11 5) (bits w 18 7) (bits w 25 7))
  | 14 => need true (w / 2 ^ 16 % 4 == 2) (.cmpTst (bits w 11 5) (bits w 18 7) (bits w 25 7))
  | _ => .error .reservedFn

/-- Major 0x08: `sel`, whose function field names the mask register (R177). -/
noncomputable def decSel (w : Nat) : Except DecodeError Instr := .ok (.sel (bits w 11 7) (bits w 18 7) (bits w 25 7) (bits w 7 4))

/-- Major 0x09: xl (R177). -/
noncomputable def decXl (w : Nat) : Except DecodeError Instr :=
  match w / 2 ^ 7 % 16 with
  | 0 => .ok (.xlShuf (bits w 11 7) (bits w 18 7) (bits w 25 7))
  | 1 => .ok (.xlShx (bits w 11 7) (bits w 18 7) (bits w 25 7))
  | 2 => .ok (.xlBcast (bits w 11 7) (bits w 18 7) (bits w 25 7))
  | 3 => need true (w / 2 ^ 25 % 128 == 112) (.xlRdf (bits w 11 7) (bits w 18 7))
  | 4 => need true (w / 2 ^ 25 % 128 == 112) (.xlRdl (bits w 11 7) (bits w 18 7))
  | 5 => need true (w / 2 ^ 17 % 2 == 0) (.xlWrl (bits w 11 6) (bits w 18 7) (bits w 25 7))
  | 6 => need true (w / 2 ^ 25 % 128 == 112) (.xlRadd (bits w 11 7) (bits w 18 7))
  | 7 => need true (w / 2 ^ 25 % 128 == 112) (.xlRmin (bits w 11 7) (bits w 18 7))
  | 8 => need true (w / 2 ^ 25 % 128 == 112) (.xlRmax (bits w 11 7) (bits w 18 7))
  | 9 => need true (w / 2 ^ 25 % 128 == 112) (.xlFradd (bits w 11 7) (bits w 18 7))
  | 10 => need true (w / 2 ^ 25 % 128 == 112) (.xlScan (bits w 11 7) (bits w 18 7))
  | 11 => need true (w / 2 ^ 16 % 4 == 2 && w / 2 ^ 25 % 128 == 112) (.xlBallot (bits w 11 5) (bits w 18 7))
  | 12 => need true (w / 2 ^ 16 % 4 == 2 && w / 2 ^ 25 % 128 == 112) (.xlVgrp (bits w 11 5) (bits w 18 7))
  | 13 => need true (w / 2 ^ 16 % 65536 == 57794) (.xlElect (bits w 11 5))
  | _ => .error .reservedFn

/-- Major 0x0A: dp (R177). -/
noncomputable def decDp (w : Nat) : Except DecodeError Instr :=
  match w / 2 ^ 7 % 16 with
  | 0 => .ok (.dpDot8f (bits w 11 7) (bits w 18 7) (bits w 25 7))
  | 1 => .ok (.dpDot8i (bits w 11 7) (bits w 18 7) (bits w 25 7))
  | 2 => .ok (.dpDot4f (bits w 11 7) (bits w 18 7) (bits w 25 7))
  | 3 => .ok (.dpDot4i (bits w 11 7) (bits w 18 7) (bits w 25 7))
  | 4 => .ok (.dpDot2 (bits w 11 7) (bits w 18 7) (bits w 25 7))
  | _ => .error .reservedFn

/-- Major 0x0B: shp (R177). -/
noncomputable def decShp (w : Nat) : Except DecodeError Instr :=
  match w / 2 ^ 7 % 16 with
  | 0 => need true (w / 2 ^ 25 % 128 == 112) (.shpTag (bits w 11 7) (bits w 18 7))
  | 1 => need true (w / 2 ^ 25 % 128 == 112) (.shpExpand (bits w 11 7) (bits w 18 7))
  | 2 => need true (w / 2 ^ 25 % 128 == 112) (.shpAff (bits w 11 7) (bits w 18 7))
  | 3 => need true (w / 2 ^ 25 % 128 == 112) (.shpUni (bits w 11 7) (bits w 18 7))
  | 4 => need true (w / 2 ^ 17 % 2 == 0 && w / 2 ^ 25 % 128 == 112) (.shpCmpr (bits w 11 6) (bits w 18 7))
  | _ => .error .reservedFn

/-- Major 0x0C: sa (R177). -/
noncomputable def decSa (w : Nat) : Except DecodeError Instr :=
  match w / 2 ^ 7 % 16 with
  | 0 => need false (w / 2 ^ 26 % 64 == 0) (.saAdd (bits w 11 5) (bits w 16 5) (bits w 21 5))
  | 1 => need false (w / 2 ^ 26 % 64 == 0) (.saSub (bits w 11 5) (bits w 16 5) (bits w 21 5))
  | 2 => need false (w / 2 ^ 26 % 64 == 0) (.saMul (bits w 11 5) (bits w 16 5) (bits w 21 5))
  | 3 => need false (w / 2 ^ 26 % 64 == 0) (.saMin (bits w 11 5) (bits w 16 5) (bits w 21 5))
  | 4 => need false (w / 2 ^ 26 % 64 == 0) (.saMax (bits w 11 5) (bits w 16 5) (bits w 21 5))
  | 5 => need false (w / 2 ^ 26 % 64 == 0) (.saMinn (bits w 11 5) (bits w 16 5) (bits w 21 5))
  | 6 => need false (w / 2 ^ 26 % 64 == 0) (.saMaxn (bits w 11 5) (bits w 16 5) (bits w 21 5))
  | 7 => need false (w / 2 ^ 26 % 64 == 0) (.saAnd (bits w 11 5) (bits w 16 5) (bits w 21 5))
  | 8 => need false (w / 2 ^ 26 % 64 == 0) (.saOr (bits w 11 5) (bits w 16 5) (bits w 21 5))
  | 9 => need false (w / 2 ^ 26 % 64 == 0) (.saXor (bits w 11 5) (bits w 16 5) (bits w 21 5))
  | 10 => need false (w / 2 ^ 26 % 64 == 0) (.saAndn (bits w 11 5) (bits w 16 5) (bits w 21 5))
  | 11 => need false (w / 2 ^ 26 % 64 == 0) (.saShl (bits w 11 5) (bits w 16 5) (bits w 21 5))
  | 12 => need false (w / 2 ^ 26 % 64 == 0) (.saShr (bits w 11 5) (bits w 16 5) (bits w 21 5))
  | 13 => need false (w / 2 ^ 26 % 64 == 0) (.saSra (bits w 11 5) (bits w 16 5) (bits w 21 5))
  | 14 => need false (w / 2 ^ 21 % 2048 == 0) (.saPopc (bits w 11 5) (bits w 16 5))
  | _ => need false (w / 2 ^ 21 % 2048 == 0) (.saFfs (bits w 11 5) (bits w 16 5))

/-- Major 0x0D: sai (R177). -/
noncomputable def decSai (w : Nat) : Except DecodeError Instr :=
  match w / 2 ^ 7 % 8 with
  | 0 => .ok (.saiAddi (bits w 10 5) (bits w 15 5) (bits w 20 12))
  | 1 => .ok (.saiAndi (bits w 10 5) (bits w 15 5) (bits w 20 12))
  | 2 => .ok (.saiOri (bits w 10 5) (bits w 15 5) (bits w 20 12))
  | 3 => .ok (.saiXori (bits w 10 5) (bits w 15 5) (bits w 20 12))
  | 4 => .ok (.saiShli (bits w 10 5) (bits w 15 5) (bits w 20 12))
  | 5 => .ok (.saiShri (bits w 10 5) (bits w 15 5) (bits w 20 12))
  | 6 => .ok (.saiSrai (bits w 10 5) (bits w 15 5) (bits w 20 12))
  | _ => need false (w / 2 ^ 15 % 32 == 0) (.saiLui (bits w 10 5) (bits w 20 12))

/-- Major 0x0E: mask (R177). -/
noncomputable def decMask (w : Nat) : Except DecodeError Instr :=
  match w / 2 ^ 7 % 16 with
  | 0 => need false (w / 2 ^ 16 % 65536 == 0) (.maskSave (bits w 11 5))
  | 1 => need false (w / 2 ^ 11 % 32 == 0 && w / 2 ^ 21 % 2048 == 0) (.maskRest (bits w 16 5))
  | 2 => need false (w / 2 ^ 11 % 32 == 0 && w / 2 ^ 21 % 32 == 0 && w / 2 ^ 27 % 32 == 0) (.maskSet (bits w 16 5) (bits w 26 1))
  | 3 => need false (w / 2 ^ 11 % 32 == 0 && w / 2 ^ 21 % 2048 == 0) (.maskAnd (bits w 16 5))
  | 4 => need false (w / 2 ^ 11 % 32 == 0 && w / 2 ^ 21 % 2048 == 0) (.maskAndn (bits w 16 5))
  | 5 => need false (w / 2 ^ 11 % 32 == 0 && w / 2 ^ 21 % 2048 == 0) (.maskOr (bits w 16 5))
  | 6 => need false (w / 2 ^ 11 % 2097152 == 0) (.maskFull)
  | _ => .error .reservedFn

/-- Major 0x0F: br (R177). -/
noncomputable def decBr (w : Nat) : Except DecodeError Instr :=
  match w / 2 ^ 7 % 8 with
  | 0 => need false (w / 2 ^ 10 % 32 == 0) (.brAl (bits w 15 17))
  | 1 => .ok (.brZ (bits w 10 5) (bits w 15 17))
  | 2 => .ok (.brNz (bits w 10 5) (bits w 15 17))
  | 3 => need false (w / 2 ^ 10 % 32 == 0) (.brXz (bits w 15 17))
  | 4 => need false (w / 2 ^ 10 % 32 == 0) (.brXnz (bits w 15 17))
  | 5 => .ok (.brVz (bits w 10 5) (bits w 15 17))
  | 6 => .ok (.brVnz (bits w 10 5) (bits w 15 17))
  | _ => .error .reservedFn

/-- Major 0x10: jmp (R177). -/
noncomputable def decJmp (w : Nat) : Except DecodeError Instr :=
  match w / 2 ^ 7 % 8 with
  | 0 => .ok (.jmpCall (bits w 10 3) (bits w 13 19))
  | 1 => need false (w / 2 ^ 18 % 16384 == 0) (.jmpCallx (bits w 10 3) (bits w 13 5))
  | 2 => need false (w / 2 ^ 10 % 4194304 == 0) (.jmpRet)
  | 3 => need false (w / 2 ^ 10 % 8 == 0 && w / 2 ^ 18 % 16384 == 0) (.jmpJx (bits w 13 5))
  | 4 => need false (w / 2 ^ 10 % 8 == 0) (.jmpJtab (bits w 13 5) (bits w 18 5) (bits w 23 9))
  | 5 => need true (w / 2 ^ 10 % 8 == 0 && w / 2 ^ 18 % 16384 == 0) (.jmpJv (bits w 13 5))
  | _ => .error .reservedFn

/-- Major 0x11: ctl (R177). -/
noncomputable def decCtl (w : Nat) : Except DecodeError Instr :=
  match w / 2 ^ 7 % 16 with
  | 0 => need false (w / 2 ^ 11 % 2097152 == 0) (.ctlNop)
  | 1 => need false (w / 2 ^ 11 % 2097152 == 0) (.ctlHalt)
  | 2 => need false (w / 2 ^ 11 % 2097152 == 0) (.ctlYield)
  | 3 => .ok (.ctlWait (bits w 11 5) (bits w 16 16))
  | 4 => need false (w / 2 ^ 11 % 2097152 == 0) (.ctlRefresh)
  | 5 => need false (w / 2 ^ 11 % 32 == 0) (.ctlIvl (bits w 16 16))
  | 6 => need false (w / 2 ^ 11 % 32 == 0) (.ctlBrk (bits w 16 16))
  | 7 => need false (w / 2 ^ 11 % 32 == 0) (.ctlWdog (bits w 16 16))
  | _ => .error .reservedFn

/-- Major 0x12: ld (R177). -/
noncomputable def decLd (w : Nat) : Except DecodeError Instr :=
  match w / 2 ^ 7 % 16 with
  | 0 => .ok (.ldB (bits w 11 6) (bits w 17 5) (bits w 22 6) (bits w 28 1) (bits w 29 3))
  | 1 => .ok (.ldBn (bits w 11 6) (bits w 17 5) (bits w 22 6) (bits w 28 1) (bits w 29 3))
  | 2 => .ok (.ldH (bits w 11 6) (bits w 17 5) (bits w 22 6) (bits w 28 1) (bits w 29 3))
  | 3 => .ok (.ldHn (bits w 11 6) (bits w 17 5) (bits w 22 6) (bits w 28 1) (bits w 29 3))
  | 4 => .ok (.ldW (bits w 11 6) (bits w 17 5) (bits w 22 6) (bits w 28 1) (bits w 29 3))
  | 5 => .ok (.ldD (bits w 11 6) (bits w 17 5) (bits w 22 6) (bits w 28 1) (bits w 29 3))
  | 6 => .ok (.ldQ (bits w 11 6) (bits w 17 5) (bits w 22 6) (bits w 28 1) (bits w 29 3))
  | _ => .error .reservedFn

/-- Major 0x13: st (R177). -/
noncomputable def decSt (w : Nat) : Except DecodeError Instr :=
  match w / 2 ^ 7 % 16 with
  | 0 => .ok (.stB (bits w 11 6) (bits w 17 5) (bits w 22 6) (bits w 28 1) (bits w 29 3))
  | 1 => .ok (.stH (bits w 11 6) (bits w 17 5) (bits w 22 6) (bits w 28 1) (bits w 29 3))
  | 2 => .ok (.stW (bits w 11 6) (bits w 17 5) (bits w 22 6) (bits w 28 1) (bits w 29 3))
  | 3 => .ok (.stD (bits w 11 6) (bits w 17 5) (bits w 22 6) (bits w 28 1) (bits w 29 3))
  | 4 => .ok (.stQ (bits w 11 6) (bits w 17 5) (bits w 22 6) (bits w 28 1) (bits w 29 3))
  | _ => .error .reservedFn

/-- Major 0x14: sm (R177). -/
noncomputable def decSm (w : Nat) : Except DecodeError Instr :=
  match w / 2 ^ 7 % 8 with
  | 0 => .ok (.smLdw (bits w 10 5) (bits w 15 5) (bits w 20 12))
  | 1 => .ok (.smLdd (bits w 10 5) (bits w 15 5) (bits w 20 12))
  | 2 => .ok (.smStw (bits w 10 5) (bits w 15 5) (bits w 20 12))
  | 3 => .ok (.smStd (bits w 10 5) (bits w 15 5) (bits w 20 12))
  | _ => .error .reservedFn

/-- Major 0x15: at (R177). -/
noncomputable def decAt (w : Nat) : Except DecodeError Instr :=
  match w / 2 ^ 7 % 16 with
  | 0 => .ok (.atAdd (bits w 11 6) (bits w 17 5) (bits w 22 6) (bits w 28 1) (bits w 29 3))
  | 1 => .ok (.atMin (bits w 11 6) (bits w 17 5) (bits w 22 6) (bits w 28 1) (bits w 29 3))
  | 2 => .ok (.atMax (bits w 11 6) (bits w 17 5) (bits w 22 6) (bits w 28 1) (bits w 29 3))
  | 3 => .ok (.atMinn (bits w 11 6) (bits w 17 5) (bits w 22 6) (bits w 28 1) (bits w 29 3))
  | 4 => .ok (.atMaxn (bits w 11 6) (bits w 17 5) (bits w 22 6) (bits w 28 1) (bits w 29 3))
  | 5 => .ok (.atAnd (bits w 11 6) (bits w 17 5) (bits w 22 6) (bits w 28 1) (bits w 29 3))
  | 6 => .ok (.atOr (bits w 11 6) (bits w 17 5) (bits w 22 6) (bits w 28 1) (bits w 29 3))
  | 7 => .ok (.atXor (bits w 11 6) (bits w 17 5) (bits w 22 6) (bits w 28 1) (bits w 29 3))
  | 8 => .ok (.atXchg (bits w 11 6) (bits w 17 5) (bits w 22 6) (bits w 28 1) (bits w 29 3))
  | 9 => .ok (.atCas (bits w 11 6) (bits w 17 5) (bits w 22 6) (bits w 28 1) (bits w 29 3))
  | 10 => .ok (.atInc (bits w 11 6) (bits w 17 5) (bits w 22 6) (bits w 28 1) (bits w 29 3))
  | 11 => .ok (.atFadd (bits w 11 6) (bits w 17 5) (bits w 22 6) (bits w 28 1) (bits w 29 3))
  | 12 => .ok (.atXadd (bits w 11 6) (bits w 17 5) (bits w 22 6) (bits w 28 1) (bits w 29 3))
  | 13 => .ok (.atXrd (bits w 11 6) (bits w 17 5) (bits w 22 6) (bits w 28 1) (bits w 29 3))
  | 14 => .ok (.atXclr (bits w 11 6) (bits w 17 5) (bits w 22 6) (bits w 28 1) (bits w 29 3))
  | _ => .error .reservedFn

/-- Major 0x16: spm (R177). -/
noncomputable def decSpm (w : Nat) : Except DecodeError Instr :=
  match w / 2 ^ 7 % 16 with
  | 0 => .ok (.spmLdw (bits w 11 6) (bits w 17 5) (bits w 22 6) (bits w 28 1) (bits w 29 3))
  | 1 => .ok (.spmLdd (bits w 11 6) (bits w 17 5) (bits w 22 6) (bits w 28 1) (bits w 29 3))
  | 2 => .ok (.spmLdq (bits w 11 6) (bits w 17 5) (bits w 22 6) (bits w 28 1) (bits w 29 3))
  | 3 => .ok (.spmStw (bits w 11 6) (bits w 17 5) (bits w 22 6) (bits w 28 1) (bits w 29 3))
  | 4 => .ok (.spmStd (bits w 11 6) (bits w 17 5) (bits w 22 6) (bits w 28 1) (bits w 29 3))
  | 5 => .ok (.spmStq (bits w 11 6) (bits w 17 5) (bits w 22 6) (bits w 28 1) (bits w 29 3))
  | 6 => .ok (.spmAdd (bits w 11 6) (bits w 17 5) (bits w 22 6) (bits w 28 1) (bits w 29 3))
  | 7 => .ok (.spmMin (bits w 11 6) (bits w 17 5) (bits w 22 6) (bits w 28 1) (bits w 29 3))
  | 8 => .ok (.spmMax (bits w 11 6) (bits w 17 5) (bits w 22 6) (bits w 28 1) (bits w 29 3))
  | 9 => .ok (.spmOr (bits w 11 6) (bits w 17 5) (bits w 22 6) (bits w 28 1) (bits w 29 3))
  | 10 => .ok (.spmXchg (bits w 11 6) (bits w 17 5) (bits w 22 6) (bits w 28 1) (bits w 29 3))
  | 11 => .ok (.spmCas (bits w 11 6) (bits w 17 5) (bits w 22 6) (bits w 28 1) (bits w 29 3))
  | 12 => .ok (.spmInc (bits w 11 6) (bits w 17 5) (bits w 22 6) (bits w 28 1) (bits w 29 3))
  | _ => .error .reservedFn

/-- Major 0x17: sync (R177). -/
noncomputable def decSync (w : Nat) : Except DecodeError Instr :=
  match w / 2 ^ 7 % 16 with
  | 0 => need false (w / 2 ^ 11 % 32768 == 0 && w / 2 ^ 28 % 16 == 0) (.syncBar (bits w 26 2))
  | 1 => need false (w / 2 ^ 16 % 65536 == 0) (.syncCmtmx (bits w 11 5))
  | 2 => need false (w / 2 ^ 16 % 65536 == 0) (.syncCmtcp (bits w 11 5))
  | 3 => need false (w / 2 ^ 21 % 2048 == 0) (.syncTlrd (bits w 11 5) (bits w 16 5))
  | 4 => need false (w / 2 ^ 11 % 2097152 == 0) (.syncIrrev)
  | _ => .error .reservedFn

/-- Major 0x18: mx (R177). -/
noncomputable def decMx (w : Nat) : Except DecodeError Instr :=
  match w / 2 ^ 7 % 16 with
  | 0 => need false (w / 2 ^ 16 % 1024 == 0 && w / 2 ^ 28 % 16 == 0) (.mxClaim (bits w 11 5) (bits w 26 2))
  | 1 => need false (w / 2 ^ 16 % 1024 == 0 && w / 2 ^ 28 % 16 == 0) (.mxRel (bits w 11 5) (bits w 26 2))
  | 2 => need false (w / 2 ^ 16 % 32768 == 0) (.mxZero (bits w 11 5) (bits w 31 1))
  | 3 => need false (w / 2 ^ 26 % 32 == 0) (.mxMma (bits w 11 5) (bits w 16 5) (bits w 21 5) (bits w 31 1))
  | 4 => need false (w / 2 ^ 26 % 32 == 0) (.mxMms (bits w 11 5) (bits w 16 5) (bits w 21 5) (bits w 31 1))
  | 5 => need false (w / 2 ^ 26 % 32 == 0) (.mxMmx (bits w 11 5) (bits w 16 5) (bits w 21 5) (bits w 31 1))
  | 6 => need false (w / 2 ^ 27 % 16 == 0) (.mxMmg (bits w 11 5) (bits w 16 5) (bits w 21 5) (bits w 26 1) (bits w 31 1))
  | 7 => need false (w / 2 ^ 28 % 8 == 0) (.mxSt (bits w 11 5) (bits w 16 5) (bits w 21 5) (bits w 27 1) (bits w 26 1) (bits w 31 1))
  | _ => .error .reservedFn

/-- Major 0x19: cp (R177). -/
noncomputable def decCp (w : Nat) : Except DecodeError Instr :=
  match w / 2 ^ 7 % 16 with
  | 0 => need false (w / 2 ^ 26 % 32 == 0) (.cpG2s (bits w 11 5) (bits w 16 5) (bits w 21 5) (bits w 31 1))
  | 1 => need false (w / 2 ^ 26 % 32 == 0) (.cpS2g (bits w 11 5) (bits w 16 5) (bits w 21 5) (bits w 31 1))
  | 2 => need false (w / 2 ^ 26 % 32 == 0) (.cpG2g (bits w 11 5) (bits w 16 5) (bits w 21 5) (bits w 31 1))
  | 3 => need false (w / 2 ^ 28 % 8 == 0) (.cpG2o (bits w 11 5) (bits w 16 5) (bits w 21 5) (bits w 26 2) (bits w 31 1))
  | 4 => need false (w / 2 ^ 28 % 8 == 0) (.cpS2o (bits w 11 5) (bits w 16 5) (bits w 21 5) (bits w 26 2) (bits w 31 1))
  | 5 => need false (w / 2 ^ 28 % 8 == 0) (.cpGat (bits w 11 5) (bits w 16 5) (bits w 21 5) (bits w 26 2) (bits w 31 1))
  | 6 => need false (w / 2 ^ 21 % 32 == 0 && w / 2 ^ 27 % 16 == 0) (.cpMeta (bits w 11 5) (bits w 16 5) (bits w 26 1) (bits w 31 1))
  | 7 => need false (w / 2 ^ 16 % 32768 == 0) (.cpAct (bits w 11 5) (bits w 31 1))
  | _ => .error .reservedFn

/-- Major 0x1A: sq (R177). -/
noncomputable def decSq (w : Nat) : Except DecodeError Instr :=
  match w / 2 ^ 7 % 16 with
  | 0 => if w / 2 ^ 11 % 32 == 0 && w / 2 ^ 21 % 2048 == 32 then .ok (.sqBindFree (bits w 16 5)) else need false (w / 2 ^ 26 % 64 == 0) (.sqBind (bits w 11 5) (bits w 16 5) (bits w 21 5))
  | 1 => need false (w / 2 ^ 26 % 64 == 0) (.sqFork (bits w 11 5) (bits w 16 5) (bits w 21 5))
  | 2 => need false (w / 2 ^ 26 % 64 == 0) (.sqSave (bits w 11 5) (bits w 16 5) (bits w 21 5))
  | 3 => need false (w / 2 ^ 21 % 2048 == 0) (.sqRoll (bits w 11 5) (bits w 16 5))
  | 4 => need false (w / 2 ^ 21 % 2048 == 0) (.sqRng (bits w 11 5) (bits w 16 5))
  | 5 => need false (w / 2 ^ 26 % 64 == 0) (.sqAcc (bits w 11 5) (bits w 16 5) (bits w 21 5))
  | 6 => need false (w / 2 ^ 21 % 2048 == 0) (.sqEmit (bits w 11 5) (bits w 16 5))
  | 7 => need false (w / 2 ^ 21 % 2048 == 0) (.sqRel (bits w 11 5) (bits w 16 5))
  | 8 => need false (w / 2 ^ 21 % 2048 == 0) (.sqVeto (bits w 11 5) (bits w 16 5))
  | _ => .error .reservedFn

/-- Major 0x1B: gx (R177). -/
noncomputable def decGx (w : Nat) : Except DecodeError Instr :=
  match w / 2 ^ 7 % 16 with
  | 0 => .ok (.gxBind (bits w 11 7) (bits w 18 7) (bits w 25 7))
  | 1 => need true (w / 2 ^ 17 % 2 == 0) (.gxMask (bits w 11 6) (bits w 18 7) (bits w 25 7))
  | 2 => need true (w / 2 ^ 25 % 128 == 112) (.gxPeek (bits w 11 7) (bits w 18 7))
  | 3 => need true (w / 2 ^ 11 % 128 == 112) (.gxStep (bits w 18 7) (bits w 25 7))
  | _ => .error .reservedFn

/-- Major 0x1C: map (R177). -/
noncomputable def decMap (w : Nat) : Except DecodeError Instr :=
  match w / 2 ^ 7 % 16 with
  | 0 => need false (w / 2 ^ 27 % 32 == 0) (.mapFork (bits w 11 5) (bits w 16 5) (bits w 21 5) (bits w 26 1))
  | 1 => need false (w / 2 ^ 27 % 32 == 0) (.mapSet (bits w 11 5) (bits w 16 5) (bits w 21 5) (bits w 26 1))
  | 2 => need false (w / 2 ^ 21 % 32 == 0 && w / 2 ^ 27 % 32 == 0) (.mapSwap (bits w 11 5) (bits w 16 5) (bits w 26 1))
  | 3 => need false (w / 2 ^ 21 % 2048 == 0) (.mapDrop (bits w 11 5) (bits w 16 5))
  | 4 => need false (w / 2 ^ 29 % 8 == 0) (.mapRef (bits w 11 5) (bits w 16 5) (bits w 21 5) (bits w 26 3))
  | _ => .error .reservedFn

/-- Major 0x1D: lnch (R177). -/
noncomputable def decLnch (w : Nat) : Except DecodeError Instr :=
  match w / 2 ^ 7 % 16 with
  | 0 => need false (w / 2 ^ 26 % 64 == 0) (.lnchGrid (bits w 11 5) (bits w 16 5) (bits w 21 5))
  | 1 => need false (w / 2 ^ 16 % 65536 == 0) (.lnchSig (bits w 11 5))
  | 2 => .ok (.lnchGrant (bits w 11 5) (bits w 16 5) (bits w 21 5) (bits w 26 6))
  | _ => .error .reservedFn

/-- Major 0x1E: sys (R177). -/
noncomputable def decSys (w : Nat) : Except DecodeError Instr :=
  match w / 2 ^ 7 % 16 with
  | 0 => .ok (.sysSrd (bits w 11 5) (bits w 16 16))
  | 1 => .ok (.sysSwr (bits w 11 5) (bits w 16 16))
  | 2 => .ok (.sysTrap (bits w 11 5) (bits w 16 16))
  | 3 => need false (w / 2 ^ 11 % 2097152 == 0) (.sysEret)
  | _ => .error .reservedFn

/-- Major 0x3F: the EXT prefix (R175). -/
noncomputable def decExt (w : Nat) : Except DecodeError Instr := .ok (.ext (bits w 7 25))

/-- A halfword with bit 0 clear: the CF forms (R173), the zero halfword refused (R174). -/
noncomputable def decCf (w : Nat) : Except DecodeError Instr :=
  match w / 2 ^ 1 % 16 with
  | 0 => if w % 2 ^ 16 == 0 then .error .zeroHalfword else .ok (.cMov (bits w 5 6) (bits w 11 5))
  | 1 => .ok (.cIadd (bits w 5 6) (bits w 11 5))
  | 2 => .ok (.cIsub (bits w 5 6) (bits w 11 5))
  | 3 => .ok (.cImul (bits w 5 6) (bits w 11 5))
  | 4 => .ok (.cAnd (bits w 5 6) (bits w 11 5))
  | 5 => .ok (.cOr (bits w 5 6) (bits w 11 5))
  | 6 => .ok (.cXor (bits w 5 6) (bits w 11 5))
  | 7 => .ok (.cShl (bits w 5 6) (bits w 11 5))
  | 8 => .ok (.cShr (bits w 5 6) (bits w 11 5))
  | 9 => .ok (.cSra (bits w 5 6) (bits w 11 5))
  | 10 => .ok (.cFadd (bits w 5 6) (bits w 11 5))
  | 11 => .ok (.cFsub (bits w 5 6) (bits w 11 5))
  | 12 => .ok (.cFmul (bits w 5 6) (bits w 11 5))
  | 13 => .ok (.cFmax (bits w 5 6) (bits w 11 5))
  | 14 => .ok (.cFmin (bits w 5 6) (bits w 11 5))
  | _ => .ok (.cIaddi (bits w 5 6) (bits w 11 5))

/-- A 32-bit word decodes by its major, then by its function (R177). -/
noncomputable def decode32 (w : Nat) : Except DecodeError Instr :=
  match w / 2 ^ 1 % 64 with
  | 0 => decIa w
  | 1 => decIl w
  | 2 => decIai w
  | 3 => decFa w
  | 4 => decFh w
  | 5 => decFx w
  | 6 => decCv w
  | 7 => decCmp w
  | 8 => decSel w
  | 9 => decXl w
  | 10 => decDp w
  | 11 => decShp w
  | 12 => decSa w
  | 13 => decSai w
  | 14 => decMask w
  | 15 => decBr w
  | 16 => decJmp w
  | 17 => decCtl w
  | 18 => decLd w
  | 19 => decSt w
  | 20 => decSm w
  | 21 => decAt w
  | 22 => decSpm w
  | 23 => decSync w
  | 24 => decMx w
  | 25 => decCp w
  | 26 => decSq w
  | 27 => decGx w
  | 28 => decMap w
  | 29 => decLnch w
  | 30 => decSys w
  | 63 => decExt w
  | _ => .error .reservedMajor

/-- Bytes at the instruction's address, lowest first: bit 0 of the first halfword gives the length,
and the first halfword is the low half of a word (R166). -/
noncomputable def decode : List Byte → Except DecodeError (Instr × List Byte)
  | b0 :: b1 :: rest =>
    if b0.toNat % 2 = 0 then
      (decCf (b0.toNat + 2 ^ 8 * b1.toNat)).map (fun i => (i, rest))
    else
      match rest with
      | b2 :: b3 :: rest' =>
        (decode32 (b0.toNat + 2 ^ 8 * b1.toNat + 2 ^ 16 * b2.toNat + 2 ^ 24 * b3.toNat)).map
          (fun i => (i, rest'))
      | _ => .error .truncated
  | _ => .error .truncated

/-- The bytes of a word of `n` bytes, lowest first. -/
def wordBytes : Nat → Nat → List Byte
  | 0, _ => []
  | n + 1, w => BitVec.ofNat 8 w :: wordBytes n (w / 2 ^ 8)

/-- The instruction the decoder reads from the bits `w`, numbered as the opcode table numbers them, bits
above `nbits` zero. -/
noncomputable def decodeTableWord (nbits w : Nat) : Option Instr :=
  match decode (wordBytes 4 (w % 2 ^ nbits)) with
  | .ok (i, _) => some i
  | .error _ => none

/-- A word of `n` bytes: the fixed bits `m`, and each field at its place (R168). -/
def enc0 (n m : Nat) : Option (Nat × Nat) := some (n, m)
def enc1 {w1 : Nat} (n m : Nat) (x1 : BitVec w1) (l1 : Nat) : Option (Nat × Nat) :=
  some (n, m + x1.toNat * 2 ^ l1)
def enc2 {w1 w2 : Nat} (n m : Nat) (x1 : BitVec w1) (l1 : Nat) (x2 : BitVec w2) (l2 : Nat) : Option (Nat × Nat) :=
  some (n, m + x1.toNat * 2 ^ l1 + x2.toNat * 2 ^ l2)
def enc3 {w1 w2 w3 : Nat} (n m : Nat) (x1 : BitVec w1) (l1 : Nat) (x2 : BitVec w2) (l2 : Nat) (x3 : BitVec w3) (l3 : Nat) : Option (Nat × Nat) :=
  some (n, m + x1.toNat * 2 ^ l1 + x2.toNat * 2 ^ l2 + x3.toNat * 2 ^ l3)
def enc4 {w1 w2 w3 w4 : Nat} (n m : Nat) (x1 : BitVec w1) (l1 : Nat) (x2 : BitVec w2) (l2 : Nat) (x3 : BitVec w3) (l3 : Nat) (x4 : BitVec w4) (l4 : Nat) : Option (Nat × Nat) :=
  some (n, m + x1.toNat * 2 ^ l1 + x2.toNat * 2 ^ l2 + x3.toNat * 2 ^ l3 + x4.toNat * 2 ^ l4)
def enc5 {w1 w2 w3 w4 w5 : Nat} (n m : Nat) (x1 : BitVec w1) (l1 : Nat) (x2 : BitVec w2) (l2 : Nat) (x3 : BitVec w3) (l3 : Nat) (x4 : BitVec w4) (l4 : Nat) (x5 : BitVec w5) (l5 : Nat) : Option (Nat × Nat) :=
  some (n, m + x1.toNat * 2 ^ l1 + x2.toNat * 2 ^ l2 + x3.toNat * 2 ^ l3 + x4.toNat * 2 ^ l4 + x5.toNat * 2 ^ l5)
def enc6 {w1 w2 w3 w4 w5 w6 : Nat} (n m : Nat) (x1 : BitVec w1) (l1 : Nat) (x2 : BitVec w2) (l2 : Nat) (x3 : BitVec w3) (l3 : Nat) (x4 : BitVec w4) (l4 : Nat) (x5 : BitVec w5) (l5 : Nat) (x6 : BitVec w6) (l6 : Nat) : Option (Nat × Nat) :=
  some (n, m + x1.toNat * 2 ^ l1 + x2.toNat * 2 ^ l2 + x3.toNat * 2 ^ l3 + x4.toNat * 2 ^ l4 + x5.toNat * 2 ^ l5 + x6.toNat * 2 ^ l6)

/-- The encoding of an instruction: its length in bytes and its word; `none` for an event, which has no
encoding. -/
def encode : Instr → Option (Nat × Nat)
  | .iaAdd d a b => enc3 4 0x1 d 11 a 18 b 25
  | .iaSub d a b => enc3 4 0x81 d 11 a 18 b 25
  | .iaMullo d a b => enc3 4 0x101 d 11 a 18 b 25
  | .iaMulhi d a b => enc3 4 0x181 d 11 a 18 b 25
  | .iaMulhin d a b => enc3 4 0x201 d 11 a 18 b 25
  | .iaMin d a b => enc3 4 0x281 d 11 a 18 b 25
  | .iaMax d a b => enc3 4 0x301 d 11 a 18 b 25
  | .iaMinn d a b => enc3 4 0x381 d 11 a 18 b 25
  | .iaMaxn d a b => enc3 4 0x401 d 11 a 18 b 25
  | .iaAdds d a b => enc3 4 0x481 d 11 a 18 b 25
  | .iaAddsn d a b => enc3 4 0x501 d 11 a 18 b 25
  | .iaSubs d a b => enc3 4 0x581 d 11 a 18 b 25
  | .iaSubsn d a b => enc3 4 0x601 d 11 a 18 b 25
  | .iaAbsdiff d a b => enc3 4 0x681 d 11 a 18 b 25
  | .ilAnd d a b => enc3 4 0x3 d 11 a 18 b 25
  | .ilOr d a b => enc3 4 0x83 d 11 a 18 b 25
  | .ilXor d a b => enc3 4 0x103 d 11 a 18 b 25
  | .ilAndn d a b => enc3 4 0x183 d 11 a 18 b 25
  | .ilOrn d a b => enc3 4 0x203 d 11 a 18 b 25
  | .ilShl d a b => enc3 4 0x283 d 11 a 18 b 25
  | .ilShr d a b => enc3 4 0x303 d 11 a 18 b 25
  | .ilSra d a b => enc3 4 0x383 d 11 a 18 b 25
  | .ilRotl d a b => enc3 4 0x403 d 11 a 18 b 25
  | .ilBfe d a b => enc3 4 0x483 d 11 a 18 b 25
  | .ilPopc d a => enc2 4 0xE0000503 d 11 a 18
  | .ilClz d a => enc2 4 0xE0000583 d 11 a 18
  | .ilCtz d a => enc2 4 0xE0000603 d 11 a 18
  | .ilBrev d a => enc2 4 0xE0000683 d 11 a 18
  | .iaiAddi d a i => enc3 4 0x5 d 10 a 16 i 22
  | .iaiMuli d a i => enc3 4 0x85 d 10 a 16 i 22
  | .iaiAndi d a i => enc3 4 0x105 d 10 a 16 i 22
  | .iaiOri d a i => enc3 4 0x185 d 10 a 16 i 22
  | .iaiXori d a i => enc3 4 0x205 d 10 a 16 i 22
  | .iaiShli d a i => enc3 4 0x285 d 10 a 16 i 22
  | .iaiShri d a i => enc3 4 0x305 d 10 a 16 i 22
  | .iaiSrai d a i => enc3 4 0x385 d 10 a 16 i 22
  | .faAdd d a b => enc3 4 0x7 d 11 a 18 b 25
  | .faSub d a b => enc3 4 0x87 d 11 a 18 b 25
  | .faMul d a b => enc3 4 0x107 d 11 a 18 b 25
  | .faFmac d a b => enc3 4 0x187 d 11 a 18 b 25
  | .faFnmac d a b => enc3 4 0x207 d 11 a 18 b 25
  | .faMin d a b => enc3 4 0x287 d 11 a 18 b 25
  | .faMax d a b => enc3 4 0x307 d 11 a 18 b 25
  | .faAbs d a => enc2 4 0xE0000387 d 11 a 18
  | .faNeg d a => enc2 4 0xE0000407 d 11 a 18
  | .faCopysign d a b => enc3 4 0x487 d 11 a 18 b 25
  | .fhAdd d a b => enc3 4 0x9 d 11 a 18 b 25
  | .fhSub d a b => enc3 4 0x89 d 11 a 18 b 25
  | .fhMul d a b => enc3 4 0x109 d 11 a 18 b 25
  | .fhFmac d a b => enc3 4 0x189 d 11 a 18 b 25
  | .fhMin d a b => enc3 4 0x209 d 11 a 18 b 25
  | .fhMax d a b => enc3 4 0x289 d 11 a 18 b 25
  | .fhPk d a b => enc3 4 0x309 d 11 a 18 b 25
  | .fxRcp d a => enc2 4 0xE000000B d 11 a 18
  | .fxRsqrt d a => enc2 4 0xE000008B d 11 a 18
  | .fxSqrt d a => enc2 4 0xE000010B d 11 a 18
  | .fxExp2 d a => enc2 4 0xE000018B d 11 a 18
  | .fxLog2 d a => enc2 4 0xE000020B d 11 a 18
  | .fxSin d a => enc2 4 0xE000028B d 11 a 18
  | .fxCos d a => enc2 4 0xE000030B d 11 a 18
  | .fxTanh d a => enc2 4 0xE000038B d 11 a 18
  | .fxAct d a => enc2 4 0xE000040B d 11 a 18
  | .fxFloor d a => enc2 4 0xE000048B d 11 a 18
  | .fxCeil d a => enc2 4 0xE000050B d 11 a 18
  | .fxRint d a => enc2 4 0xE000058B d 11 a 18
  | .fxTrunc d a => enc2 4 0xE000060B d 11 a 18
  | .fxFract d a => enc2 4 0xE000068B d 11 a 18
  | .fxClass d a => enc2 4 0xE000070B d 11 a 18
  | .cvI2f d a => enc2 4 0xE000000D d 11 a 18
  | .cvN2f d a => enc2 4 0xE000008D d 11 a 18
  | .cvF2i d a => enc2 4 0xE000010D d 11 a 18
  | .cvF2n d a => enc2 4 0xE000018D d 11 a 18
  | .cvF2h d a => enc2 4 0xE000020D d 11 a 18
  | .cvF2b d a => enc2 4 0xE000028D d 11 a 18
  | .cvH2f d a b => enc3 4 0x30D d 11 a 18 b 25
  | .cvB2f d a b => enc3 4 0x38D d 11 a 18 b 25
  | .cvPk8 d a b => enc3 4 0x40D d 11 a 18 b 25
  | .cvPk4 d a b => enc3 4 0x48D d 11 a 18 b 25
  | .cvUp8 d a b => enc3 4 0x50D d 11 a 18 b 25
  | .cvUp4 d a b => enc3 4 0x58D d 11 a 18 b 25
  | .cmpFeq d a b => enc3 4 0x2000F d 11 a 18 b 25
  | .cmpFne d a b => enc3 4 0x2008F d 11 a 18 b 25
  | .cmpFlt d a b => enc3 4 0x2010F d 11 a 18 b 25
  | .cmpFle d a b => enc3 4 0x2018F d 11 a 18 b 25
  | .cmpFgt d a b => enc3 4 0x2020F d 11 a 18 b 25
  | .cmpFge d a b => enc3 4 0x2028F d 11 a 18 b 25
  | .cmpFun d a b => enc3 4 0x2030F d 11 a 18 b 25
  | .cmpFord d a b => enc3 4 0x2038F d 11 a 18 b 25
  | .cmpIeq d a b => enc3 4 0x2040F d 11 a 18 b 25
  | .cmpIne d a b => enc3 4 0x2048F d 11 a 18 b 25
  | .cmpIlt d a b => enc3 4 0x2050F d 11 a 18 b 25
  | .cmpIle d a b => enc3 4 0x2058F d 11 a 18 b 25
  | .cmpNlt d a b => enc3 4 0x2060F d 11 a 18 b 25
  | .cmpNle d a b => enc3 4 0x2068F d 11 a 18 b 25
  | .cmpTst d a b => enc3 4 0x2070F d 11 a 18 b 25
  | .sel d a b k => enc4 4 0x11 d 11 a 18 b 25 k 7
  | .xlShuf d a b => enc3 4 0x13 d 11 a 18 b 25
  | .xlShx d a b => enc3 4 0x93 d 11 a 18 b 25
  | .xlBcast d a b => enc3 4 0x113 d 11 a 18 b 25
  | .xlRdf d a => enc2 4 0xE0000193 d 11 a 18
  | .xlRdl d a => enc2 4 0xE0000213 d 11 a 18
  | .xlWrl d a b => enc3 4 0x293 d 11 a 18 b 25
  | .xlRadd d a => enc2 4 0xE0000313 d 11 a 18
  | .xlRmin d a => enc2 4 0xE0000393 d 11 a 18
  | .xlRmax d a => enc2 4 0xE0000413 d 11 a 18
  | .xlFradd d a => enc2 4 0xE0000493 d 11 a 18
  | .xlScan d a => enc2 4 0xE0000513 d 11 a 18
  | .xlBallot d a => enc2 4 0xE0020593 d 11 a 18
  | .xlVgrp d a => enc2 4 0xE0020613 d 11 a 18
  | .xlElect d => enc1 4 0xE1C20693 d 11
  | .dpDot8f d a b => enc3 4 0x15 d 11 a 18 b 25
  | .dpDot8i d a b => enc3 4 0x95 d 11 a 18 b 25
  | .dpDot4f d a b => enc3 4 0x115 d 11 a 18 b 25
  | .dpDot4i d a b => enc3 4 0x195 d 11 a 18 b 25
  | .dpDot2 d a b => enc3 4 0x215 d 11 a 18 b 25
  | .shpTag d a => enc2 4 0xE0000017 d 11 a 18
  | .shpExpand d a => enc2 4 0xE0000097 d 11 a 18
  | .shpAff d a => enc2 4 0xE0000117 d 11 a 18
  | .shpUni d a => enc2 4 0xE0000197 d 11 a 18
  | .shpCmpr d a => enc2 4 0xE0000217 d 11 a 18
  | .saAdd d a b => enc3 4 0x19 d 11 a 16 b 21
  | .saSub d a b => enc3 4 0x99 d 11 a 16 b 21
  | .saMul d a b => enc3 4 0x119 d 11 a 16 b 21
  | .saMin d a b => enc3 4 0x199 d 11 a 16 b 21
  | .saMax d a b => enc3 4 0x219 d 11 a 16 b 21
  | .saMinn d a b => enc3 4 0x299 d 11 a 16 b 21
  | .saMaxn d a b => enc3 4 0x319 d 11 a 16 b 21
  | .saAnd d a b => enc3 4 0x399 d 11 a 16 b 21
  | .saOr d a b => enc3 4 0x419 d 11 a 16 b 21
  | .saXor d a b => enc3 4 0x499 d 11 a 16 b 21
  | .saAndn d a b => enc3 4 0x519 d 11 a 16 b 21
  | .saShl d a b => enc3 4 0x599 d 11 a 16 b 21
  | .saShr d a b => enc3 4 0x619 d 11 a 16 b 21
  | .saSra d a b => enc3 4 0x699 d 11 a 16 b 21
  | .saPopc d a => enc2 4 0x719 d 11 a 16
  | .saFfs d a => enc2 4 0x799 d 11 a 16
  | .saiAddi d a i => enc3 4 0x1B d 10 a 15 i 20
  | .saiAndi d a i => enc3 4 0x9B d 10 a 15 i 20
  | .saiOri d a i => enc3 4 0x11B d 10 a 15 i 20
  | .saiXori d a i => enc3 4 0x19B d 10 a 15 i 20
  | .saiShli d a i => enc3 4 0x21B d 10 a 15 i 20
  | .saiShri d a i => enc3 4 0x29B d 10 a 15 i 20
  | .saiSrai d a i => enc3 4 0x31B d 10 a 15 i 20
  | .saiLui d i => enc2 4 0x39B d 10 i 20
  | .maskSave d => enc1 4 0x1D d 11
  | .maskRest a => enc1 4 0x9D a 16
  | .maskSet a m => enc2 4 0x11D a 16 m 26
  | .maskAnd a => enc1 4 0x19D a 16
  | .maskAndn a => enc1 4 0x21D a 16
  | .maskOr a => enc1 4 0x29D a 16
  | .maskFull => enc0 4 0x31D
  | .brAl o => enc1 4 0x1F o 15
  | .brZ s o => enc2 4 0x9F s 10 o 15
  | .brNz s o => enc2 4 0x11F s 10 o 15
  | .brXz o => enc1 4 0x19F o 15
  | .brXnz o => enc1 4 0x21F o 15
  | .brVz s o => enc2 4 0x29F s 10 o 15
  | .brVnz s o => enc2 4 0x31F s 10 o 15
  | .jmpCall k o => enc2 4 0x21 k 10 o 13
  | .jmpCallx k s => enc2 4 0xA1 k 10 s 13
  | .jmpRet => enc0 4 0x121
  | .jmpJx s => enc1 4 0x1A1 s 13
  | .jmpJtab s t i => enc3 4 0x221 s 13 t 18 i 23
  | .jmpJv s => enc1 4 0x2A1 s 13
  | .ctlNop => enc0 4 0x23
  | .ctlHalt => enc0 4 0xA3
  | .ctlYield => enc0 4 0x123
  | .ctlWait s i => enc2 4 0x1A3 s 11 i 16
  | .ctlRefresh => enc0 4 0x223
  | .ctlIvl i => enc1 4 0x2A3 i 16
  | .ctlBrk i => enc1 4 0x323 i 16
  | .ctlWdog i => enc1 4 0x3A3 i 16
  | .ldB v s o n i => enc5 4 0x25 v 11 s 17 o 22 n 28 i 29
  | .ldBn v s o n i => enc5 4 0xA5 v 11 s 17 o 22 n 28 i 29
  | .ldH v s o n i => enc5 4 0x125 v 11 s 17 o 22 n 28 i 29
  | .ldHn v s o n i => enc5 4 0x1A5 v 11 s 17 o 22 n 28 i 29
  | .ldW v s o n i => enc5 4 0x225 v 11 s 17 o 22 n 28 i 29
  | .ldD v s o n i => enc5 4 0x2A5 v 11 s 17 o 22 n 28 i 29
  | .ldQ v s o n i => enc5 4 0x325 v 11 s 17 o 22 n 28 i 29
  | .stB v s o n i => enc5 4 0x27 v 11 s 17 o 22 n 28 i 29
  | .stH v s o n i => enc5 4 0xA7 v 11 s 17 o 22 n 28 i 29
  | .stW v s o n i => enc5 4 0x127 v 11 s 17 o 22 n 28 i 29
  | .stD v s o n i => enc5 4 0x1A7 v 11 s 17 o 22 n 28 i 29
  | .stQ v s o n i => enc5 4 0x227 v 11 s 17 o 22 n 28 i 29
  | .smLdw d a i => enc3 4 0x29 d 10 a 15 i 20
  | .smLdd d a i => enc3 4 0xA9 d 10 a 15 i 20
  | .smStw d a i => enc3 4 0x129 d 10 a 15 i 20
  | .smStd d a i => enc3 4 0x1A9 d 10 a 15 i 20
  | .atAdd v s o n i => enc5 4 0x2B v 11 s 17 o 22 n 28 i 29
  | .atMin v s o n i => enc5 4 0xAB v 11 s 17 o 22 n 28 i 29
  | .atMax v s o n i => enc5 4 0x12B v 11 s 17 o 22 n 28 i 29
  | .atMinn v s o n i => enc5 4 0x1AB v 11 s 17 o 22 n 28 i 29
  | .atMaxn v s o n i => enc5 4 0x22B v 11 s 17 o 22 n 28 i 29
  | .atAnd v s o n i => enc5 4 0x2AB v 11 s 17 o 22 n 28 i 29
  | .atOr v s o n i => enc5 4 0x32B v 11 s 17 o 22 n 28 i 29
  | .atXor v s o n i => enc5 4 0x3AB v 11 s 17 o 22 n 28 i 29
  | .atXchg v s o n i => enc5 4 0x42B v 11 s 17 o 22 n 28 i 29
  | .atCas v s o n i => enc5 4 0x4AB v 11 s 17 o 22 n 28 i 29
  | .atInc v s o n i => enc5 4 0x52B v 11 s 17 o 22 n 28 i 29
  | .atFadd v s o n i => enc5 4 0x5AB v 11 s 17 o 22 n 28 i 29
  | .atXadd v s o n i => enc5 4 0x62B v 11 s 17 o 22 n 28 i 29
  | .atXrd v s o n i => enc5 4 0x6AB v 11 s 17 o 22 n 28 i 29
  | .atXclr v s o n i => enc5 4 0x72B v 11 s 17 o 22 n 28 i 29
  | .spmLdw v s o n i => enc5 4 0x2D v 11 s 17 o 22 n 28 i 29
  | .spmLdd v s o n i => enc5 4 0xAD v 11 s 17 o 22 n 28 i 29
  | .spmLdq v s o n i => enc5 4 0x12D v 11 s 17 o 22 n 28 i 29
  | .spmStw v s o n i => enc5 4 0x1AD v 11 s 17 o 22 n 28 i 29
  | .spmStd v s o n i => enc5 4 0x22D v 11 s 17 o 22 n 28 i 29
  | .spmStq v s o n i => enc5 4 0x2AD v 11 s 17 o 22 n 28 i 29
  | .spmAdd v s o n i => enc5 4 0x32D v 11 s 17 o 22 n 28 i 29
  | .spmMin v s o n i => enc5 4 0x3AD v 11 s 17 o 22 n 28 i 29
  | .spmMax v s o n i => enc5 4 0x42D v 11 s 17 o 22 n 28 i 29
  | .spmOr v s o n i => enc5 4 0x4AD v 11 s 17 o 22 n 28 i 29
  | .spmXchg v s o n i => enc5 4 0x52D v 11 s 17 o 22 n 28 i 29
  | .spmCas v s o n i => enc5 4 0x5AD v 11 s 17 o 22 n 28 i 29
  | .spmInc v s o n i => enc5 4 0x62D v 11 s 17 o 22 n 28 i 29
  | .syncBar k => enc1 4 0x2F k 26
  | .syncCmtmx d => enc1 4 0xAF d 11
  | .syncCmtcp d => enc1 4 0x12F d 11
  | .syncTlrd d a => enc2 4 0x1AF d 11 a 16
  | .syncIrrev => enc0 4 0x22F
  | .mxClaim a k => enc2 4 0x31 a 11 k 26
  | .mxRel a k => enc2 4 0xB1 a 11 k 26
  | .mxZero a p => enc2 4 0x131 a 11 p 31
  | .mxMma a b c p => enc4 4 0x1B1 a 11 b 16 c 21 p 31
  | .mxMms a b c p => enc4 4 0x231 a 11 b 16 c 21 p 31
  | .mxMmx a b c p => enc4 4 0x2B1 a 11 b 16 c 21 p 31
  | .mxMmg a b c g p => enc5 4 0x331 a 11 b 16 c 21 g 26 p 31
  | .mxSt a b c n l p => enc6 4 0x3B1 a 11 b 16 c 21 n 27 l 26 p 31
  | .cpG2s a b c p => enc4 4 0x33 a 11 b 16 c 21 p 31
  | .cpS2g a b c p => enc4 4 0xB3 a 11 b 16 c 21 p 31
  | .cpG2g a b c p => enc4 4 0x133 a 11 b 16 c 21 p 31
  | .cpG2o a b c h p => enc5 4 0x1B3 a 11 b 16 c 21 h 26 p 31
  | .cpS2o a b c h p => enc5 4 0x233 a 11 b 16 c 21 h 26 p 31
  | .cpGat a b c h p => enc5 4 0x2B3 a 11 b 16 c 21 h 26 p 31
  | .cpMeta a b m p => enc4 4 0x333 a 11 b 16 m 26 p 31
  | .cpAct a p => enc2 4 0x3B3 a 11 p 31
  | .sqBind a b c => enc3 4 0x35 a 11 b 16 c 21
  | .sqBindFree b => enc1 4 0x4000035 b 16
  | .sqFork a b c => enc3 4 0xB5 a 11 b 16 c 21
  | .sqSave a b c => enc3 4 0x135 a 11 b 16 c 21
  | .sqRoll a b => enc2 4 0x1B5 a 11 b 16
  | .sqRng a b => enc2 4 0x235 a 11 b 16
  | .sqAcc a b c => enc3 4 0x2B5 a 11 b 16 c 21
  | .sqEmit a b => enc2 4 0x335 a 11 b 16
  | .sqRel a b => enc2 4 0x3B5 a 11 b 16
  | .sqVeto a b => enc2 4 0x435 a 11 b 16
  | .gxBind d a b => enc3 4 0x37 d 11 a 18 b 25
  | .gxMask d a b => enc3 4 0xB7 d 11 a 18 b 25
  | .gxPeek d a => enc2 4 0xE0000137 d 11 a 18
  | .gxStep a b => enc2 4 0x381B7 a 18 b 25
  | .mapFork a b c r => enc4 4 0x39 a 11 b 16 c 21 r 26
  | .mapSet a b c l => enc4 4 0xB9 a 11 b 16 c 21 l 26
  | .mapSwap a b h => enc3 4 0x139 a 11 b 16 h 26
  | .mapDrop a b => enc2 4 0x1B9 a 11 b 16
  | .mapRef a b c e => enc4 4 0x239 a 11 b 16 c 21 e 26
  | .lnchGrid a b c => enc3 4 0x3B a 11 b 16 c 21
  | .lnchSig a => enc1 4 0xBB a 11
  | .lnchGrant a b c q => enc4 4 0x13B a 11 b 16 c 21 q 26
  | .sysSrd s i => enc2 4 0x3D s 11 i 16
  | .sysSwr s i => enc2 4 0xBD s 11 i 16
  | .sysTrap s i => enc2 4 0x13D s 11 i 16
  | .sysEret => enc0 4 0x1BD
  | .ext p => enc1 4 0x7F p 7
  | .cMov d s => enc2 2 0x0 d 5 s 11
  | .cIadd d s => enc2 2 0x2 d 5 s 11
  | .cIsub d s => enc2 2 0x4 d 5 s 11
  | .cImul d s => enc2 2 0x6 d 5 s 11
  | .cAnd d s => enc2 2 0x8 d 5 s 11
  | .cOr d s => enc2 2 0xA d 5 s 11
  | .cXor d s => enc2 2 0xC d 5 s 11
  | .cShl d s => enc2 2 0xE d 5 s 11
  | .cShr d s => enc2 2 0x10 d 5 s 11
  | .cSra d s => enc2 2 0x12 d 5 s 11
  | .cFadd d s => enc2 2 0x14 d 5 s 11
  | .cFsub d s => enc2 2 0x16 d 5 s 11
  | .cFmul d s => enc2 2 0x18 d 5 s 11
  | .cFmax d s => enc2 2 0x1A d 5 s 11
  | .cFmin d s => enc2 2 0x1C d 5 s 11
  | .cIaddi d i => enc2 2 0x1E d 5 i 11
  | .wdog .. => none
  | .holderSliceWrite .. => none
  | .lineInvalidation .. => none
  | .lineMigration .. => none
  | .l2Eviction .. => none
  | .loadCompletion .. => none
  | .pendingCommandStart .. => none
  | .matrixPass .. => none
  | .engineOperationComplete .. => none
  | .runFailure .. => none
  | .spill .. => none
  | .refill .. => none
  | .copyOnWrite .. => none
  | .generationRelease .. => none
  | .gangRetire .. => none
  | .workgroupPlacement .. => none
  | .promotion .. => none
  | .sliceEnd .. => none
  | .graceWindowExpiry .. => none
  | .workgroupResume .. => none
  | .grantBatchClose .. => none
  | .grantTimeout .. => none
  | .grantServiceLaunch .. => none
  | .grantRegistrationWrite .. => none
  | .grantUnregister .. => none
  | .kick .. => none
  | .rst .. => none
  | .registerWrite .. => none
  | .grid .. => none
  | .graph .. => none
  | .waittl .. => none
  | .signal .. => none
  | .mapopFork .. => none
  | .mapopSetSwap .. => none
  | .mapopDrop .. => none
  | .caskkick .. => none
  | .checkpoint .. => none
  | .restore .. => none
  | .erase .. => none
  | .rcons .. => none
  | .rctlEnable .. => none
  | .coalesceTimerExpiry .. => none
  | .msixUnmask .. => none
  | .hostPortRead .. => none
  | .hostPortWrite .. => none
  | .hostReadCompletion .. => none
  | .atsCompletion .. => none
  | .priResponse .. => none
  | .priLimitExpiry .. => none
  | .atsInvalidationRequest .. => none
  | .atsInvalidationComplete .. => none
  | .replicaRequest .. => none
  | .replicaArrival .. => none
  | .handOver .. => none
  | .minimumResidencyExpiry .. => none
  | .peerWaitTimeout .. => none
  | .linkFailure .. => none
  | .uncorrectableError .. => none
  | .correctableError .. => none
  | .gangStateError .. => none
  | .carve => none
  | .dissolve => none
  | .start => none
  | .attest => none
  | .mailboxBadcmd => none
  | .pwrcap .. => none
  | .clockStep .. => none
  | .thermalShutdown => none
  | .spareCoreReplacement .. => none
  | .secureBoot .. => none
  | .functionReset .. => none
  | .badEntry .. => none

/-- The bytes of an instruction as the hardware stores them; none for an event. -/
def encodeBytes (i : Instr) : List Byte :=
  match encode i with
  | some (n, w) => wordBytes n w
  | none => []

end Sys2Proof
end

