-- ==== Sys2Proof/Machine/State.lean ====
section
/-! DEFINITION. The state of the device, whole: what one gang holds, what its workgroup, grid, core and
leaf hold, the memories, the die engines and the package.  Plain data throughout.  Tables are keyed by
Nat (`Tab`); an absent key reads as the default its reader names.  Also the reasons a step can stop, and
the state after reset. -/

namespace Sys2Proof.Machine

/-! ### Registers -/

/-- A vector register with its shape tag (R29): U holds one value, A a base and a stride, G one element
per lane. -/
inductive VReg where
  | u (base : Word)
  | a (base stride : Word)
  | g (elems : Vector Word 32)
deriving DecidableEq, Repr

/-- A link-stack entry: the return PC and the window shift `K` (R27). -/
structure Link where
  ret : Va := 0
  k : Nat := 0
deriving DecidableEq, Repr

/-- The registers of one gang that a checkpoint records and a rollback restores (R85, R87), and the
writable system registers whose writes a rollback undoes (R39). -/
structure Regs where
  pc : Va := 0
  /-- the execution mask (R34) -/
  exec : Word := 0
  /-- the format register (R35) -/
  fmt : Word := 0
  /-- s0–s31 (R32) -/
  s : Vector Word 32 := Vector.replicate 32 0
  /-- v0–v63, the window (R27) -/
  win : Vector VReg 64 := Vector.replicate 64 (.u 0)
  /-- the window stack below the window base, nearest register first; its length is the window base -/
  below : List VReg := []
  /-- the link stack, newest first; its length is CDEPTH (R27) -/
  links : List Link := []
  /-- flags and enables (R37) -/
  fflags : Word := 0
  /-- event counts (R38) -/
  fcount0 : Word := 0
  fcount1 : Word := 0
  fcount2 : Word := 0
  /-- spill-area base and limit (R28, R40) -/
  spbase : Va := 0
  splim : Va := 0
  /-- call-depth limit (R39) -/
  calllim : Word := 1024
  /-- the trap frame (R39, R154) -/
  tfPc : Word := 0
  tfExec : Word := 0
  tfFmt : Word := 0
  tfCode : Word := 0
  tfLanes : Word := 0
  tfAddr : Va := 0
  tfInfo : Word := 0
  /-- WDOG, and the watchdog's instruction count and loop window (R25, R26) -/
  wdog : Word := 0
  wdCount : Nat := 0
  wdWin : Option (Va × Va) := none
  /-- the armed count was reached: WDOG is due on this boundary (R26) -/
  wdDue : Bool := false
  /-- the latched high halves of TLMX, TLCP, CLK and TF_ADDR, until their next read (R39) -/
  hiTlmx : Option Word := none
  hiTlcp : Option Word := none
  hiClk : Option Word := none
  hiTfAddr : Option Word := none
  /-- commits issued on the gang's matrix and copy contexts: the last batch numbers (R101) -/
  commMx : Nat := 0
  commCp : Nat := 0
  /-- what a write of ROLLCNT adds to the count of rollbacks (R211) -/
  rollOff : Word := 0
deriving DecidableEq, Repr

/-- The synchronous deferred instructions, with their fields: they enter the pending list when they cannot run at once
(R88, R90, R246). -/
inductive SyncInstr where
  | mxClaim (a : BitVec 5) (kind : BitVec 2)
  | mxRel (a : BitVec 5) (kind : BitVec 2)
  | sqBind (a b c : BitVec 5)
  | sqBindFree (b : BitVec 5)
  | sqFork (a b c : BitVec 5)
  | sqSave (a b c : BitVec 5)
  | sqRoll (a b : BitVec 5)
  | sqRng (a b : BitVec 5)
  | sqAcc (a b c : BitVec 5)
  | gxBind (d a b : BitVec 7)
  | gxMask (d : BitVec 6) (a b : BitVec 7)
  | gxPeek (d a : BitVec 7)
  | gxStep (a b : BitVec 7)
  | lnchGrid (a b c : BitVec 5)
  | lnchSig (a : BitVec 5)
  | lnchGrant (a b c : BitVec 5) (q : BitVec 6)
deriving DecidableEq, Repr

/-- The spaces an access event reaches (R69): local DRAM by physical address, the scratchpad of a
workgroup, a g register of a workgroup, host memory by PASID and host address, peer memory by device and
physical address; and the places in a gang's order of a `ctl.wait`, by handle and value (R207), and of a synchronous
instruction in the pending list, with its prefix (R90). -/
inductive Space where
  | dram
  | scr (wg : Nat)
  | greg (wg : Nat)
  | host
  | peer
  | wait (handle n : Word)
  | cmd (i : SyncInstr) (pre : Option (BitVec 25))
deriving DecidableEq, Repr

/-- The functions of read-modify-writes (R240, R241, R243). -/
inductive RmwFn where
  | add
  | min
  | max
  | minn
  | maxn
  | and
  | or
  | xor
  | xchg
  | cas
  | inc
  | fadd
  | xadd
  | xrd
  | xclr
deriving DecidableEq, Repr

/-- A read-modify-write: its function, the register of its operand and result, its lanes, and the bytes of one
access; the lanes' operands are in the registers before it. -/
structure Rmw where
  fn : RmwFn := .add
  v : Nat := 0
  lanes : Word := 0
  size : Nat := 4
deriving DecidableEq, Repr

/-- The writes of one instruction of a gang that has issued and is not yet performed (R84): where each goes
(a virtual address for `dram`, an offset or index otherwise) and its bytes, none for a read-modify-write.  `seq`
is its place in the gang's program order.  The registers before it are those a failed translation goes back to;
the registers at the instruction after it are those of R85's replacement checkpoint. -/
structure PendWrite where
  seq : Nat := 0
  space : Space := .dram
  writes : List (Nat × List Byte) := []
  rmw : Option Rmw := none
  before : Regs := {}
  after : Regs := {}
deriving DecidableEq, Repr

/-- What a speculative read adds to a read set (R85): a line of local or peer memory, a scratchpad word, a
g register, a page translation of an ASID. -/
inductive ReadItem where
  | line (n : Nat)
  | scr (wg off : Nat)
  | greg (wg i : Nat)
  | trans (leaf asid page : Nat)
deriving DecidableEq, Repr

/-- A register checkpoint with its read set, each item with the program-order place of its read (R85). -/
structure Ckpt where
  seq : Nat := 0
  regs : Regs := {}
  pend : Nat := 0
  reads : List (Nat × ReadItem) := []
deriving DecidableEq, Repr

/-- What a load that has issued asks for (R237, R239): the register group, the lanes and their
addresses, the access size and sign extension; `scalar` for `sm`. -/
structure LoadReq where
  reg : Nat := 0
  scalar : Bool := false
  size : Nat := 4
  signed : Bool := false
  uniform : Bool := false
  lanes : Word := 0
  addrs : List Nat := []
  rc : Nat := 0
  nt : Bool := false
  /-- the prefix of the instruction, if it has one -/
  pre : Option (BitVec 25) := none
deriving DecidableEq, Repr

/-- What holds a gang that is not ready (R279). -/
inductive Wait where
  | none
  /-- at barrier `k`, in generation `gen` (R22) -/
  | bar (k gen : Nat)
  /-- in `ctl.wait` (R207) -/
  | timeline
  /-- in a claim of a kind, since its arrival at the core (R250) -/
  | claim (kind since : Nat)
  /-- for a unit that cannot take the instruction yet: a release whose number is in use (R250), a Grant queue that is
  full (R269) -/
  | unit
  /-- in `sq.emit` on a record, since its arrival at the unit (R140, R143) -/
  | emit (rec since : Nat)
  /-- for a load's data (R71) -/
  | load (r : LoadReq)
  /-- for an ATS completion of a host page, or for the answer to its page request since some cycle (R127) -/
  | ats (pasid page : Nat) (write : Bool) (pri : Option Nat)
  /-- for a host page denied to a speculative access: its page request follows once it is not (R127) -/
  | denied (pasid page : Nat) (write : Bool)
  /-- for a page request that failed: what it asked for, and TF_INFO of the HOSTPG to raise (R127) -/
  | atsFail (pasid page : Nat) (write : Bool) (info : Nat)
  /-- for a host read sent by the host port, to some places of host memory (R98) -/
  | host (r : LoadReq) (keys : List Nat)
  /-- for the completion of a host AtomicOp at some places of host memory, and its outcome: Unsupported Request or
  success (R242) -/
  | atomicOp (keys : List Nat)
  | atomicDone (ur : Bool)
  /-- for a page of another device: since when (R94, R95, R97) -/
  | peer (page : Nat) (write : Bool) (since : Nat)
  /-- for a page of another device, until the wait of R97 ran out -/
  | peerFail (page : Nat) (write : Bool)
  /-- a stall: spill or refill, a full pending list, a deferred or irrevocable instruction (R28, R89, R90) -/
  | stall
deriving DecidableEq, Repr

/-! ### Engine commands -/

/-- Operand formats and rounding an engine command keeps from its issue (R56). -/
structure CmdFmt where
  ea : Nat := 0
  eb : Nat := 0
  out : Nat := 0
  rm : Nat := 0
  sat : Bool := false
deriving DecidableEq, Repr

/-- The asynchronous commands (R246), operands resolved at issue. -/
inductive CmdOp where
  | zero (tile : Nat)
  /-- quarter operation: FN 3, 4 or 5; quarters started; tile, A slot, B slots, metadata slot, scale
  offset -/
  | mma (fn : Nat) (quarters : Nat) (tile a b b2 m o : Nat)
  | mmg (quarters : Nat) (off b n : Nat) (acc : Bool)
  | st (tile : Nat) (glb int : Bool) (base pitch : Nat)
  | g2s (dst src n : Nat)
  | s2g (dst src n : Nat)
  | g2g (dst src n : Nat)
  /-- slot load: source (global or scratchpad), pitch, shape -/
  | slot (slot : Nat) (glb : Bool) (src pitch shape : Nat)
  | gat (slot off n shape : Nat)
  | metaLd (slot : Nat) (glb : Bool) (src : Nat)
  | act (src : Nat)
  /-- a commit: the scalar register it writes, the batch number, and whether it issued at trap class (R101,
  R210) -/
  | commit (reg num : Nat) (trap : Bool)
deriving DecidableEq, Repr

/-- The failed state of one context of a gang, until ENGCMD is taken (R247). -/
structure EngFail where
  cause : Nat := 0
  tile : Nat := 0xFF
  inner : Nat := 0
  addr : Nat := 0
deriving DecidableEq, Repr

/-- Where a command stands (R90, R247). -/
inductive CmdSt where
  | pending
  | started
  /-- every event performed; completion not yet taken -/
  | ran
  /-- stopped by a run failure that is not yet reported -/
  | failed (f : EngFail)
deriving DecidableEq, Repr

/-- One command of a gang, in pending-list order until it completes (R90). -/
structure Cmd where
  id : Nat := 0
  op : CmdOp := .zero 0
  fmt : CmdFmt := {}
  pc : Va := 0
  seq : Nat := 0
  /-- matrix context (false) or copy context (true) -/
  copy : Bool := false
  /-- the batch it belongs to: one more than the commits issued before it (R101) -/
  batch : Nat := 0
  /-- DEP: the batches of the two contexts it waits for (R248) -/
  depMx : Nat := 0
  depCp : Nat := 0
  st : CmdSt := .pending
  /-- quarters not yet run by the array -/
  left : List Nat := []
  /-- events so far: NV, DZ, OF, UF, NX, RC counts (R63) -/
  ev : List Nat := []
  /-- the registers at the instruction after it (R85) -/
  after : Regs := {}
  /-- what a started command waits for: a host page or a page of another device (R95, R97, R127) -/
  hold : Wait := .none
deriving DecidableEq, Repr

/-- One staged edit of a transaction: the page, the level and the entry (R114). -/
structure Edit where
  page : Nat := 0
  lvl1 : Bool := false
  entry : BitVec 64 := 0
deriving DecidableEq, Repr

/-! ### Gangs, workgroups, grids -/

/-- Where a gang stands in its life (R15, R163). -/
inductive GangSt where
  /-- no gang: the key names nothing -/
  | vacant
  | live
  | halted
  | retired
  | saved
deriving DecidableEq, Repr

/-- A flashback point (R162): the PC of its `ctl.ivl`, the registers then, and whether it is still
valid; `tries` counts retries (R158). -/
structure Flash where
  valid : Bool := false
  regs : Regs := {}
  /-- the interval's SAVE mask (R41) -/
  save : Nat := 0
  /-- the place of its `ctl.ivl` in the gang's program order -/
  seq : Nat := 0
  /-- the offset of the interval's recipe, 0 with none (R41, R164) -/
  recipe : Nat := 0
  tries : Nat := 0
deriving DecidableEq, Repr

/-- The fault first raised, as trap entry or containment holds it (R154, R155, R158). -/
structure FaultRec where
  code : Nat := 0
  pc : Va := 0
  lanes : Word := 0
  addr : Va := 0
  info : Word := 0
  exec : Word := 0
  fmt : Word := 0
  /-- the PC an ignored fault resumes at (R158) -/
  resume : Va := 0
deriving DecidableEq, Repr

/-- One gang. -/
structure Gang where
  st : GangSt := .vacant
  wg : Nat := 0
  /-- slot within the workgroup (R9) -/
  slot : Nat := 0
  launched : Word := 0
  stream : Nat := 0
  r : Regs := {}
  wait : Wait := .none
  /-- host reads and AtomicOps sent that the gang no longer waits for, each by its places, oldest first: they are
  outstanding until the host answers (R98, R128) -/
  sent : List (List Nat) := []
  /-- the prefix in force for the word being executed (R175) -/
  ext : Option (BitVec 25) := none
  /-- trap class, its shadow of s28–s31, and the fault first raised (R154, R155) -/
  trap : Bool := false
  shadow : Vector Word 4 := Vector.replicate 4 0
  fault : FaultRec := {}
  /-- a recipe is running at trap class: the interval it must close with and its offset (R164) -/
  recipe : Option (Nat × Nat) := none
  /-- ASID and the generation pinned (R113) -/
  asid : Nat := 0
  gen : Nat := 0
  /-- number of the current interval (R41), 0 before the first `ctl.ivl` (DESIGN CHOICE, assumption 73), and the
  flashback point (R162) -/
  ivl : Nat := 0
  flash : Flash := {}
  rollcnt : Word := 0
  /-- speculation: level, rollbacks counted per checkpoint PC, order counter, unperformed writes,
  checkpoints oldest first (R84, R85, R91) -/
  level : Nat := 0
  rolls : List (Nat × Nat) := []
  seq : Nat := 0
  stores : List PendWrite := []
  ckpts : List Ckpt := []
  /-- engine commands in list order, and the two failed states (R90, R247) -/
  cmds : List Cmd := []
  failMx : Option EngFail := none
  failCp : Option EngFail := none
  /-- a release that has started and waits for its number's commands: kind and number (R250) -/
  releasing : Option (Nat × Nat) := none
  /-- counters of contexts 0 and 1 (R100, R102) -/
  tlMx : BitVec 64 := 0
  tlCp : BitVec 64 := 0
  /-- transaction of the Map Unit (R266) -/
  edits : List Edit := []
  /-- Sparge: stack blocks spilled, and a recorded spill fault with its block (R28, R161) -/
  spilled : Nat := 0
  spillFault : Option (Nat × Nat) := none
  refillFault : Option (Nat × Nat) := none
  /-- scheduling: priority, creation time, promoted mark, ready since, yielded (R279, R206) -/
  prio : Nat := 0
  born : Nat := 0
  promoted : Bool := false
  readySince : Nat := 0
  yielded : Bool := false
  lastIssue : Nat := 0
  /-- pre-emption: running forward to the next `ctl.ivl`, with the grace deadline (R163) -/
  forward : Option Nat := none
  saveVa : Nat := 0
  /-- spill area allocated at placement: VA and bytes (R40) -/
  spillVa : Nat := 0
  spillLen : Nat := 0
  /-- stopped for a save: its kind (R163) -/
  kind : Nat := 0
deriving DecidableEq, Repr

/-- A workgroup barrier: arrived-gang mask, the mask of arrivals that count toward the next generation, and
generation (R22). -/
structure Barrier where
  arrived : Word := 0
  next : Word := 0
  gen : Nat := 0
deriving DecidableEq, Repr

/-- Where a workgroup stands (R15, R163, R278). -/
inductive WgSt where
  | vacant
  | live
  | preempting
  | saved
  | retired
deriving DecidableEq, Repr

/-- One workgroup (R9). -/
structure Wg where
  st : WgSt := .vacant
  grid : Nat := 0
  core : Nat := 0
  x : Nat := 0
  y : Nat := 0
  z : Nat := 0
  gangs : List Nat := []
  /-- g0–g15 (R33) -/
  g : Vector Word 16 := Vector.replicate 16 0
  /-- writes of g registers in the present cycle: the gang, the register and the value; they take effect together when
  the cycle ends (R23, R76) -/
  gNext : List (Nat × Nat × Word) := []
  /-- scratchpad contents (R75) -/
  scr : List Host.Cell := []
  /-- 128-byte lines of the scratchpad that an uncorrectable error has marked (R109, R159) -/
  badScr : List Nat := []
  bars : Vector Barrier 4 := Vector.replicate 4 {}
  /-- held operand slots, tiles, metadata slots, tiles marked invalid (R249, R165) -/
  slots : Word := 0
  tiles : Word := 0
  metas : Word := 0
  badTiles : Word := 0
  /-- workgroup record and save areas while saved: VA and length (R165, R276) -/
  recVa : Nat := 0
  recLen : Nat := 0
  /-- what its save or its resumption waits for (R95, R97, R127) -/
  hold : Wait := .none
  killed : Bool := false
deriving DecidableEq, Repr

/-- A kernel descriptor as read at grid creation (R190, R191). -/
structure KDesc where
  sys : Bool := false
  handler : Option Va := none
  entry : Va := 0
  ivlVa : Nat := 0
  ivlN : Nat := 0
  patchN : Nat := 0
  patchVa : Nat := 0
  recipeVa : Nat := 0
  wx : Nat := 32
  wy : Nat := 1
  wz : Nat := 1
  gangs : Nat := 1
  scratch : Nat := 0
  regs : Nat := 64
  slots : Nat := 0
  spill : Nat := 0
  params : Nat := 0
  policy : Word := 0
deriving DecidableEq, Repr

/-- A patch latched at grid creation: VA of the instruction, field, value (R180). -/
structure Patch where
  va : Nat := 0
  field : Nat := 0
  value : Word := 0
deriving DecidableEq, Repr

/-- What created a seed group (R14). -/
inductive Seed where
  | child
  | queue
  | node (die node : Nat)
  | grant (q batch : Nat)
deriving DecidableEq, Repr

/-- One grid (R10 to R14). -/
structure Grid where
  live : Bool := false
  id : Word := 0
  parent : Nat := 0
  /-- the root of its tree -/
  root : Nat := 0
  seed : Seed := .child
  depth : Nat := 0
  k : KDesc := {}
  /-- the launch-parameter block (R170, R233), and its bytes when Grant has built it from a template (R281) -/
  params : Va := 0
  block : List Byte := []
  patches : List Patch := []
  nx : Nat := 1
  ny : Nat := 1
  nz : Nat := 1
  leaf : Nat := 0
  queue : Nat := 0
  asid : Nat := 0
  prio : Nat := 0
  born : Nat := 0
  /-- workgroups not yet placed start here; workgroups and children not yet retired -/
  nextWg : Nat := 0
  liveWgs : Nat := 0
  kids : Nat := 0
  /-- spawn-tree counter, held at the root (R14) -/
  spawn : Nat := 0
  killed : Bool := false
deriving DecidableEq, Repr

/-! ### Cores -/

/-- A quarter waiting at the array: the gang, the command and the quarter (R254). -/
structure Quarter where
  gang : Nat := 0
  cmd : Nat := 0
  q : Nat := 0
deriving DecidableEq, Repr

/-- One core: matrix resources and their bytes, the activation banks, the audit, residents (R67, R223,
R249, R277). -/
structure CoreSt where
  slots : List Host.Cell := []
  tiles : List Host.Cell := []
  metas : List Host.Cell := []
  /-- holders: number ↦ workgroup -/
  slotOwner : Tab Nat := []
  tileOwner : Tab Nat := []
  metaOwner : Tab Nat := []
  bank0 : List Host.Cell := []
  bank1 : List Host.Cell := []
  /-- current bank is bank1 -/
  bank : Bool := false
  /-- source VA of the current bank, once loaded (R165) -/
  actVa : Option Nat := none
  auditN : Word := 4096
  audits : Nat := 1
  quarters : List Quarter := []
  wgs : List Nat := []
  active : Bool := false
  /-- when its last workgroup left (R277) -/
  since : Nat := 0
  /-- retired after a fault and replaced by a spare (R293) -/
  spare : Bool := false
deriving DecidableEq, Repr

/-! ### Memory below the cores -/

/-- The owner tag of a line: partition and ASID; the device as well when the partition is another's (R109, R303). -/
structure OwnerTag where
  leaf : Nat := 0
  asid : Option Nat := none
  dev : Option Nat := none
deriving DecidableEq, Repr

/-- A 128-byte line: holder slice, dirty, poisoned, owner tag, L1 copies by core with their counts (0 for an
ordinary copy), the cores whose counted copy is used up while a read set holds it, remote copies by die (R79 to
R83, R92, R109).  The directory's sharer vector is read from the copies and the read sets. -/
structure Line where
  holder : Option Nat := none
  spent : List Nat := []
  dirty : Bool := false
  poison : Bool := false
  tag : Option OwnerTag := none
  l1 : Tab Nat := []
  remote : List Nat := []
deriving DecidableEq, Repr

/-- A page of a device: ownership as the home device records it, replicas, requests in arrival order,
residency (R94 to R96). -/
structure Page where
  owner : Nat := 0
  replicas : List Nat := []
  /-- the device, whether it asks for ownership, and the contents that come with a hand-over to this device -/
  requests : List (Nat × Bool × PageImage) := []
  residentUntil : Nat := 0
  here : Bool := false
  /-- the leaves dissolved since the page left this device: a tag of theirs that comes back is no one's (R109) -/
  gone : List Nat := []
deriving DecidableEq, Repr

/-- A translation in a die's address-translation cache: PASID, first host page, the logarithm of its size in 4 KiB
pages, rights to read and to write (R126, R127). -/
structure Atc where
  leaf : Nat := 0
  die : Nat := 0
  pasid : Nat := 0
  page : Nat := 0
  log : Nat := 0
  r : Bool := true
  w : Bool := false
deriving DecidableEq, Repr

/-! ### Address spaces -/

/-- The state of an ASID (R112). -/
inductive AsidSt where
  | free
  | live
  | readonly
  | dropping
deriving DecidableEq, Repr

/-- A node on a retire list, with the indices marked followed and held (R122). -/
structure Retired where
  node : Nat := 0
  followed : List Nat := []
  held : List Nat := []
deriving DecidableEq, Repr

/-- A generation record: number, root, pins, retire list (R112). -/
structure Gen where
  num : Nat := 1
  root : Nat := 0
  pins : Nat := 0
  retire : List Retired := []
deriving DecidableEq, Repr

/-- A recorded range of a hard swap: first and last 64 KiB page, and the generation it published
(R117). -/
structure Range where
  lo : Nat := 0
  hi : Nat := 0
  gen : Nat := 0
deriving DecidableEq, Repr

/-- One address space: state and generations, oldest first, the last one current (R112). -/
structure Asid where
  st : AsidSt := .free
  gens : List Gen := []
  /-- place of the current generation among all swaps, for ranges across the wrap of the number -/
  ranges : List Range := []
  /-- ordinal of the current generation among all the ASID has had: it never wraps, nor starts again -/
  ord : Nat := 0
deriving DecidableEq, Repr

/-- A pool: the region not yet taken, and the freed items in order (R124). -/
structure Pool where
  base : Nat := 0
  size : Nat := 0
  next : Nat := 0
  tail : List Nat := []
deriving DecidableEq, Repr

/-! ### Queues, rings and the function's registers -/

/-- What a running queue entry waits for (R272, R273). -/
inductive Running where
  | none
  /-- a GRID: its root grid -/
  | grid (key : Nat)
  /-- a GRAPH: die, first node, count, nodes not yet complete -/
  | graph (die first n left : Nat)
  /-- a WAITTL: handle and value -/
  | wait (handle : Word) (value : BitVec 64)
deriving DecidableEq, Repr

/-- One host queue (R270). -/
structure Queue where
  qbase : Va := 0
  en : Bool := false
  halt : Bool := false
  asid : BitVec 16 := 0
  prio : BitVec 2 := 0
  log2n : Nat := 4
  p : Word := 0
  cons : Word := 0
  tline : BitVec 64 := 0
  errbase : Va := 0
  errlog2 : Nat := 4
  errcount : Nat := 0
  spillpart : Word := 0
  savebase : Va := 0
  savesize : Word := 0
  run : Running := .none
  /-- spill areas in use: VA, bytes (R40) -/
  spills : List (Nat × Nat) := []
  /-- runs of the save region in use: VA, bytes (R276) -/
  saves : List (Nat × Nat) := []
  /-- data-loss, transient and program actions of the queue level (R157) -/
  policy : Word := 0x26
  /-- error records that wait for a host translation or a page of another device -/
  held : List (List Byte) := []
  /-- what the current entry waits for: a host page or a page of another device (R95, R97) -/
  hold : Wait := .none
deriving DecidableEq, Repr

/-- An egress or telemetry ring block, and entries the unit holds for it (R141, R296). -/
structure Ring where
  rbase : Va := 0
  en : Bool := false
  vec : Nat := 0
  log2n : Nat := 4
  prod : Word := 0
  cons : Word := 0
  /-- entries held inside the unit: bytes of each -/
  held : List (List Byte) := []
  /-- a write failed since EN was last written with 1 -/
  failed : Bool := false
deriving DecidableEq, Repr

/-- One MSI-X vector: table entry, mask, pending bit, events not yet sent and the oldest one's time
(R298). -/
structure Msix where
  addr : BitVec 64 := 0
  data : Word := 0
  masked : Bool := false
  pending : Bool := false
  events : Nat := 0
  since : Nat := 0
deriving DecidableEq, Repr

/-- A partition record as CARVE took it (R291). -/
structure PartRec where
  id : Nat := 0
  parent : Nat := 0
  leaf : Bool := false
  sliced : Bool := false
  leafNo : Nat := 0
  devnum : Nat := 0
  /-- per die: first core, count -/
  cores : List (Nat × Nat) := []
  groups : List Nat := []
  channels : List Nat := []
  dramBw : Nat := 0
  linkBw : Nat := 0
  share : Nat := 0
  slice : Nat := 1000
  e1 : Nat := 8
  e2 : Nat := 8
  residency : Nat := 20
  grace : Nat := 20
  priLimit : Nat := 1000
  actmax : Nat := 8
  actgap : Nat := 16
  grantFirst : Nat := 0
  grantCount : Nat := 0
  /-- per die: first unit, count in units of 256 nodes -/
  nodes : List (Nat × Nat) := []
  nodeBase : Nat := 0
  nodeSize : Nat := 0
  frameBase : Nat := 0
  frameSize : Nat := 0
  /-- the record's bytes, for M2 (R300) -/
  bytes : List Byte := []
deriving DecidableEq, Repr

/-- A page request: who asks, the PASID, the host page and the access type (R127). -/
structure PageAsk where
  who : Waiter
  pasid : Nat
  page : Nat
  write : Bool
deriving DecidableEq, Repr

/-- An access of the host port that waits: one of device memory that has been tried, or another event behind it. -/
inductive PortAccess where
  | read (win off len : Nat)
  | write (leaf off : Nat) (bytes : List Byte)
  | event (e : Instr)
deriving DecidableEq, Repr

/-- The end of a Cask command: where its status block goes, the block, and whether queue 0 is told (R284). -/
structure CaskDone where
  va : Nat := 0
  bytes : List Byte := []
  bad : Bool := false
deriving DecidableEq, Repr

/-- One leaf partition with its function (R290 to R298). -/
structure Leaf where
  live : Bool := false
  part : PartRec := {}
  /-- a record that takes effect at the next slice boundary (R293) -/
  nextPart : Option PartRec := none
  asids : Tab Asid := []
  /-- reference counts of nodes and frames by address (R119) -/
  refs : Tab Nat := []
  nodePool : Pool := {}
  framePool : Pool := {}
  /-- grid-identifier counter (R13) -/
  gridCtr : Word := 1
  queues : Tab Queue := []
  /-- Cask ring (R282) -/
  caskBase : Va := 0
  caskEn : Bool := false
  caskLog2 : Nat := 4
  caskP : Word := 0
  caskCons : Word := 0
  caskTl : BitVec 64 := 0
  rings : Tab Ring := []
  telem : Ring := {}
  errVec : Tab Byte := []
  caskVec : Byte := 0
  /-- what the current Cask command waits for (R95, R97) -/
  caskHold : Wait := .none
  /-- the current Cask command has had its effect, and its status block is still to be written (R284) -/
  caskDone : Option CaskDone := none
  coalesceT : Nat := 0
  coalesceN : Nat := 1
  msix : Tab Msix := []
  /-- Map-reclamation counter (R105) -/
  reclaim : BitVec 64 := 0
  /-- PASID table (R126, R295) -/
  pasids : Tab Word := []
  peerMask : Tab Byte := []
  /-- a PRI Response Failure stopped page requests until function reset (R127) -/
  priStopped : Bool := false
  /-- page requests sent and not answered, how many the host lets the function have, and those that wait, in arrival
  order: who asks, PASID, host page, access type (R127) -/
  priOut : List PageAsk := []
  priCap : Nat := 0xFFFFFFFF
  priQueue : List PageAsk := []
  /-- AtomicOp Requester Enable (R242) -/
  atomicOps : Bool := true
  /-- waiting ATS invalidations: PASID, first page, count (R128) -/
  atsInv : List (Nat × Nat × Nat) := []
  /-- distributor pointer, tenant whose slice runs (an ASID) and its end (R276, R278) -/
  rr : Nat := 0
  tenant : Nat := 0
  sliceEnd : Nat := 0
  /-- workgroups whose pre-emption the save region refused: the slice extends until they retire (R276) -/
  refused : List Nat := []
  /-- times of recent core activations and of the last deactivations, newest first, and the core cycle of the last
  activation (R277) -/
  acts : List Nat := []
  deacts : List Nat := []
  lastAct : Option Nat := none
  /-- actions of the partition level (R157) -/
  policy : Word := 0x26
deriving DecidableEq, Repr

/-! ### Die engines -/

/-- A grammar context (R146): the VA of its image, which each instruction reads in its own gang's ASID (R118), state and
stack, top last. -/
structure Gram where
  image : Nat := 0
  state : Nat := 0
  stack : List Byte := []
deriving DecidableEq, Repr

/-- A snapshot S[n] (R139). -/
structure Snap where
  pos : Nat := 0
  gram : Option Gram := none
  root : Nat := 0
  ctr : BitVec 64 := 0
  /-- the root and the place of the generation it was copied from -/
  src : Nat := 0
  ord : Nat := 0
deriving DecidableEq, Repr

/-- A sequence record (R131). -/
structure SeqRec where
  bound : Bool := false
  tag : BitVec 16 := 0
  leaf : Nat := 0
  asid : Nat := 0
  gram : Option Gram := none
  seed : BitVec 64 := 0
  ctr : BitVec 64 := 0
  e : Nat := 0
  rel : Nat := 0
  w : Nat := 0
  ring : Nat := 0
  /-- tokens at positions REL.. E−1 -/
  toks : List Word := []
  snaps : List Snap := []
deriving DecidableEq, Repr

/-- A row enqueued on a Grant queue (R281). -/
structure Row where
  va : Nat := 0
  tag : Word := 0
  ticket : BitVec 64 := 0
deriving DecidableEq, Repr

/-- A batch of a Grant queue: number, rows, whether its grid was launched or retired (R281). -/
structure Batch where
  k : Nat := 0
  rows : List Row := []
  launched : Bool := false
  retired : Bool := false
deriving DecidableEq, Repr

/-- One Grant queue: its registration record and its batches (R280, R281). -/
structure Grant where
  /-- the record's 64 bytes -/
  block : Tab Byte := []
  registered : Bool := false
  closing : Bool := false
  leaf : Nat := 0
  ticket : BitVec 64 := 0
  counter : BitVec 64 := 0
  rows : List Row := []
  since : Nat := 0
  batches : List Batch := []
  nextBatch : Nat := 1
  /-- what the next launch waits for (R95, R97, R127) -/
  hold : Wait := .none
deriving DecidableEq, Repr

/-- A graph node in scheduler SRAM (R16, R275). -/
structure Node where
  used : Bool := false
  desc : Nat := 0
  params : Nat := 0
  count : Nat := 0
  succ : List Nat := []
  leaf : Nat := 0
  queue : Nat := 0
  first : Nat := 0
  launched : Bool := false
  done : Bool := false
  /-- what its launch waits for (R95, R97, R127) -/
  hold : Wait := .none
deriving DecidableEq, Repr

/-- Module flash of one device: frames by hash, manifests by step and shard (R285, R286). -/
structure Store where
  frames : Tab (List Host.Cell) := []
  manifests : List (Nat × Nat × List Byte) := []
deriving DecidableEq, Repr

/-- A message the device sends outward: MSI-X messages, ATS and page requests, peer requests, register
reads answered. -/
inductive Msg where
  | msix (leaf vec : Nat) (addr : BitVec 64) (data : Word)
  | pfMsix (vec : Nat) (addr : BitVec 64) (data : Word)
  | ats (leaf pasid page : Nat) (write : Bool)
  | pri (leaf pasid page : Nat) (write : Bool)
  | read (win off : Nat) (bytes : List Byte)
  | replica (page owner requester : Nat)
  | owner (page requester : Nat)
  /-- a replica, or a page handed over, with its contents (R94, R95) -/
  | page (page requester : Nat) (image : PageImage)
  | atsDone (leaf : Nat)
deriving DecidableEq, Repr

/-- The boot chain's outcome (R300). -/
inductive Boot where
  | cold
  /-- the root firmware image is verified -/
  | rooted
  | ok
  | failed
deriving DecidableEq, Repr

/-- The clock: CLK's cycles of the 2.7 GHz reference, the part of a cycle not yet counted, and core cycles (R39,
R302). -/
structure Clock where
  ref : BitVec 64 := 0
  rem : Nat := 0
  core : Nat := 0
deriving DecidableEq, Repr

/-! ### The device -/

/-- The state of the device. -/
structure State where
  /-- the gang whose instruction is being executed -/
  cur : Nat := 0
  gangs : Tab Gang := []
  wgs : Tab Wg := []
  grids : Tab Grid := []
  leaves : Tab Leaf := []
  cores : Tab CoreSt := []
  /-- local DRAM by physical address, host memory by PASID × 2^64 + host VA, peer memory by device ×
  2^52 + physical address -/
  mem : List Host.Cell := []
  hostMem : List Host.Cell := []
  peerMem : List Host.Cell := []
  /-- lines, by line number (physical address / 128) -/
  lines : Tab Line := []
  /-- bytes of local DRAM before stores that changed them, newest first, with the next key then: what a grid
  created before may still fetch (R77) -/
  old : List (Nat × Byte × Nat) := []
  /-- pages of peer devices, by device × 2^36 + page -/
  pages : Tab Page := []
  atc : List Atc := []
  /-- sequence records by die × 16384 + index; Grant queues by die × 64 + queue; graph nodes by die ×
  65536 + node -/
  seqs : Tab SeqRec := []
  grants : Tab Grant := []
  nodes : Tab Node := []
  /-- flash, by device number -/
  flash : Tab Store := []
  /-- bytes left in this device's flash -/
  flashRoom : Nat := 32000000000000
  /-- partitions in force, by id (R291) -/
  parts : Tab PartRec := []
  devnum : Nat := 0
  /-- feature bits: offered, written, latched (R301) -/
  featOff : BitVec 256 := 0x1F
  featAcc : BitVec 256 := 0
  feat : BitVec 256 := 0
  started : Bool := false
  boot : Boot := .cold
  rollback : Nat := 0
  /-- PF window (R295) -/
  mbCmd : Byte := 0
  mbGo : Bool := false
  mbDone : Bool := false
  mbStat : Byte := 0
  mbVec : Byte := 0
  mbIn : Tab Byte := []
  mbOut : List Byte := []
  pwrcap : Nat := 2400
  pfMsix : Tab Msix := []
  /-- power and clock (R302) -/
  clockMhz : Nat := 2700
  thermal : Bool := false
  /-- peer links that are up (R299) -/
  links : List Nat := [0, 1, 2, 3, 4, 5, 6, 7, 8, 9, 10, 11, 12, 13, 14, 15]
  /-- spare cores left per die -/
  spares : List Nat := [2, 2, 2, 2]
  /-- the cycle clock (R39, R302) -/
  clk : Clock := {}
  /-- messages sent outward, newest first -/
  out : List Msg := []
  /-- next key for a gang, workgroup, grid or command -/
  nextKey : Nat := 1
  /-- events arriving from outside, in arrival order; the model's own input -/
  agenda : List Instr := []
  /-- accesses of the host port that wait, in arrival order: the oldest for a page of another device's, the others
  behind it (R94, R95, R99) -/
  port : List PortAccess := []
  portHold : Wait := .none
  /-- the gangs that the streams have chosen for the present cycle and that are still to issue, in their order; the model's
  own (R23, R250, R279) -/
  round : List Nat := []
  /-- the model's own choice: stores wait for HOLDER_SLICE_WRITE, loads for LOAD_COMPLETION -/
  holdStores : Bool := false
  holdLoads : Bool := false
  /-- the model's own choice: gangs run speculatively past a `ctl.wait` that is not complete (R207) -/
  specWaits : Bool := false
  /-- counter of free values: the model's own -/
  free : Nat := 0
deriving DecidableEq, Repr

/-- Why the machine stops at a step, with no state of the device to go on from. -/
inductive Fault where
  /-- an access to a physical address the package does not have: above the 160 GB of a die (R2).  Raised
  by the memory operations.  Safe: the spec gives no such memory. -/
  | noSuchMemory (pa : Nat)
deriving DecidableEq, Repr

/-- Why the model has no meaning for a step. -/
inductive Refusal where
  /-- the instruction has no meaning yet.  Raised by the dispatcher's arms alone.  Safe. -/
  | notModelled (mnemonic : String)
deriving DecidableEq, Repr

/-- The device after reset: no partition, no work, memory with nothing listed, each register at the
value the spec gives or the assumption log names. -/
def State.reset : State := {}

end Sys2Proof.Machine
end

