-- ==== Sys2Proof/Machine/Bits.lean ====
section
/-! DEFINITION. Bit fields, sign extension and byte order; tables by key; vectors built lane by lane. -/

namespace Sys2Proof.Machine

/-- `n` bits of `x` from bit `lo`. -/
def fld (x lo n : Nat) : Nat := x / 2 ^ lo % 2 ^ n

/-- Bit `i` of `x`. -/
def bitAt (x i : Nat) : Bool := x / 2 ^ i % 2 == 1

/-- The signed value of `x` read as `n` bits. -/
def signed (n x : Nat) : Int :=
  if x % 2 ^ n < 2 ^ (n - 1) then Int.ofNat (x % 2 ^ n) else Int.ofNat (x % 2 ^ n) - 2 ^ n

/-- An integer modulo 2^`n`. -/
def wrapInt (n : Nat) (i : Int) : Nat := (i % (2 ^ n : Int)).toNat

/-- A word from an integer, modulo 2^32. -/
def wordOf (i : Int) : Word := BitVec.ofInt 32 i

/-- The smaller and the larger of two naturals are core's; this is the number of set bits in the low
`n` bits of `x`. -/
def popBits : Nat → Nat → Nat
  | 0, _ => 0
  | n + 1, x => x % 2 + popBits n (x / 2)

/-- The index of the lowest set bit in the low `n` bits of `x`, or `n`. -/
def ctzBits : Nat → Nat → Nat
  | 0, _ => 0
  | n + 1, x => if x % 2 = 1 then 0 else 1 + ctzBits n (x / 2)

/-- The low `n` bits of `x` in reverse order. -/
def revBits : Nat → Nat → Nat
  | 0, _ => 0
  | n + 1, x => x % 2 * 2 ^ n + revBits n (x / 2)

/-- A vector from its elements. -/
def tab {α : Type} {n : Nat} (f : Fin n → α) : Vector α n := ⟨(List.ofFn f).toArray, by simp⟩

/-- The lanes 0–31, ascending. -/
def lanes32 : List (Fin 32) := List.ofFn id

/-- A word with bit L set where `p` holds of lane L. -/
def maskOf (p : Fin 32 → Bool) : Word :=
  BitVec.ofNat 32 ((lanes32.map (fun l => if p l then 2 ^ l.val else 0)).sum)

/-- Lane L is set in a mask. -/
def lane (m : Word) (l : Fin 32) : Bool := m.toNat / 2 ^ l.val % 2 == 1

/-- The lanes of a mask, ascending. -/
def lanesOf (m : Word) : List (Fin 32) := lanes32.filter (lane m)

/-- The lowest lane of a mask. -/
def lowest (m : Word) : Option (Fin 32) := (lanesOf m).head?

/-- The value of bytes, lowest first. -/
def leNat : List Byte → Nat
  | [] => 0
  | b :: t => b.toNat + 2 ^ 8 * leNat t

/-- The `n` low bytes of `x`, lowest first. -/
def leBytes : Nat → Nat → List Byte
  | 0, _ => []
  | n + 1, x => BitVec.ofNat 8 x :: leBytes n (x / 2 ^ 8)

/-- The value of bytes, highest first. -/
def beNat (l : List Byte) : Nat := leNat l.reverse

/-- The `n` low bytes of `x`, highest first. -/
def beBytes (n x : Nat) : List Byte := (leBytes n x).reverse

/-- `x` rounded up to a multiple of `n`. -/
def roundUp (x n : Nat) : Nat := (x + n - 1) / n * n

/-- ⌈x / n⌉. -/
def ceilDiv (x n : Nat) : Nat := (x + n - 1) / n

/-! ### Tables -/

/-- The entry at a key, or the default. -/
def tget {α : Type} (d : α) (t : Tab α) (k : Nat) : α :=
  match t with
  | [] => d
  | (j, x) :: r => if j = k then x else tget d r k

/-- The table with an entry put at a key. -/
def tput {α : Type} (t : Tab α) (k : Nat) (x : α) : Tab α :=
  match t with
  | [] => [(k, x)]
  | (j, y) :: r => if j = k then (k, x) :: r else if k < j then (k, x) :: (j, y) :: r else (j, y) :: tput r k x

/-- The table with a key's entry removed. -/
def tdel {α : Type} (t : Tab α) (k : Nat) : Tab α := t.filter (fun p => p.1 != k)

/-- A key stands in the table. -/
def thas {α : Type} (t : Tab α) (k : Nat) : Bool := t.any (fun p => p.1 == k)

/-- Every entry changed alike. -/
def tmap {α : Type} (t : Tab α) (f : Nat → α → α) : Tab α := t.map (fun p => (p.1, f p.1 p.2))

/-- The list with its n-th element replaced. -/
def lset {α : Type} (l : List α) (n : Nat) (x : α) : List α := l.set n x

/-- An element placed before the first one that it does not come after. -/
def insertBy {α : Type} (le : α → α → Bool) (x : α) : List α → List α
  | [] => [x]
  | y :: r => if le x y then x :: y :: r else y :: insertBy le x r

/-- The list in ascending order; equal ones keep theirs. -/
def sortBy {α : Type} (le : α → α → Bool) (l : List α) : List α := l.foldr (insertBy le) []

end Sys2Proof.Machine
end

