-- ==== Sys2Proof/Machine/Mem.lean ====
section
/-! DEFINITION. Byte memory in one canonical form: addresses strictly rising, no cell equal to what an
unlisted address reads as. -/

namespace Sys2Proof.Machine

/-- What an address nothing has written reads as.  The spec gives no contents of DRAM after power-on. -/
-- DESIGN CHOICE (assumption 2): zero.
def memDefault : Byte := 0

/-- The form of a memory: addresses strictly rising from `lo`, no default byte listed. -/
def memWfFrom (lo : Nat) : List Host.Cell → Bool
  | [] => true
  | (k, b) :: t => decide (lo ≤ k) && (b != memDefault) && memWfFrom (k + 1) t

/-- A memory in canonical form. -/
def Memory.wf (m : List Host.Cell) : Bool := memWfFrom 0 m

/-- The byte at an address. -/
def memRead (m : List Host.Cell) (a : Nat) : Byte :=
  match m with
  | [] => memDefault
  | (k, b) :: t => if k = a then b else if a < k then memDefault else memRead t a

/-- The memory with one byte written. -/
def memWrite (m : List Host.Cell) (a : Nat) (b : Byte) : List Host.Cell :=
  match m with
  | [] => if b = memDefault then [] else [(a, b)]
  | (k, c) :: t =>
    if a < k then (if b = memDefault then (k, c) :: t else (a, b) :: (k, c) :: t)
    else if k = a then (if b = memDefault then t else (a, b) :: t)
    else (k, c) :: memWrite t a b

/-- `n` bytes from an address, lowest first. -/
def memBytes (m : List Host.Cell) : Nat → Nat → List Byte
  | _, 0 => []
  | a, n + 1 => memRead m a :: memBytes m (a + 1) n

/-- The memory with bytes written from an address. -/
def memPut (m : List Host.Cell) (a : Nat) : List Byte → List Host.Cell
  | [] => m
  | b :: t => memPut (memWrite m a b) (a + 1) t

/-- The cells of `n` bytes from an address, at offsets from it. -/
def memCells (m : List Host.Cell) (a n : Nat) : List Host.Cell :=
  (m.filter (fun c => decide (a ≤ c.1) && decide (c.1 < a + n))).map (fun c => (c.1 - a, c.2))

/-- The memory with the `n` bytes from an address replaced by cells given at offsets from it. -/
def memReplace (m : List Host.Cell) (a n : Nat) (cells : List Host.Cell) : List Host.Cell :=
  m.filter (fun c => decide (c.1 < a)) ++ cells.map (fun c => (c.1 + a, c.2)) ++
    m.filter (fun c => decide (a + n ≤ c.1))

/-- The memory with `n` bytes from an address at the default. -/
def memClear (m : List Host.Cell) (a n : Nat) : List Host.Cell := memReplace m a n []

/-- The little-endian value of `n` bytes. -/
def memNat (m : List Host.Cell) (a n : Nat) : Nat := leNat (memBytes m a n)

end Sys2Proof.Machine
end

