-- ==== Sys2Proof/Machine/Spec.lean ====
section
/-! DEFINITION. Reading and writing the parts of the state by key; checkpoints, rollback and escalation
(R84 to R91). -/

namespace Sys2Proof.Machine

/-! ### Parts by key -/

def State.gangAt (s : State) (k : Nat) : Gang := tget {} s.gangs k
def State.setGangAt (s : State) (k : Nat) (g : Gang) : State := { s with gangs := tput s.gangs k g }
def State.wgAt (s : State) (k : Nat) : Wg := tget {} s.wgs k
def State.setWgAt (s : State) (k : Nat) (w : Wg) : State := { s with wgs := tput s.wgs k w }
def State.gridAt (s : State) (k : Nat) : Grid := tget {} s.grids k
def State.setGridAt (s : State) (k : Nat) (g : Grid) : State := { s with grids := tput s.grids k g }
def State.leafAt (s : State) (k : Nat) : Leaf := tget {} s.leaves k
def State.setLeafAt (s : State) (k : Nat) (l : Leaf) : State := { s with leaves := tput s.leaves k l }
def State.coreAt (s : State) (k : Nat) : CoreSt := tget {} s.cores k
def State.setCoreAt (s : State) (k : Nat) (c : CoreSt) : State := { s with cores := tput s.cores k c }

/-- The gang whose instruction is executed. -/
def State.gang (s : State) : Gang := s.gangAt s.cur
def State.setGang (s : State) (g : Gang) : State := s.setGangAt s.cur g
/-- Its registers. -/
def State.r (s : State) : Regs := s.gang.r
def State.setR (s : State) (r : Regs) : State := s.setGang { s.gang with r := r }
/-- Its workgroup, grid, core and leaf. -/
def State.wg (s : State) : Wg := s.wgAt s.gang.wg
def State.setWg (s : State) (w : Wg) : State := s.setWgAt s.gang.wg w
def State.grid (s : State) : Grid := s.gridAt s.wg.grid
def State.leafNo (s : State) : Nat := s.grid.leaf
def State.leaf (s : State) : Leaf := s.leafAt s.leafNo
def State.setLeaf (s : State) (l : Leaf) : State := s.setLeafAt s.leafNo l
def State.core (s : State) : CoreSt := s.coreAt s.wg.core
def State.setCore (s : State) (c : CoreSt) : State := s.setCoreAt s.wg.core c

/-- The keys of every gang. -/
def State.gangKeys (s : State) : List Nat := s.gangs.map (fun p => p.1)

/-- The gang holds no checkpoint and every older event of it has been performed (R89). -/
def Gang.quiet (g : Gang) : Bool := g.stores.isEmpty && g.ckpts.isEmpty
def State.quiet (s : State) : Bool := s.gang.quiet

/-! ### Time (R18, R39, R302) -/

/-- The clock after `n` cycles of a core clock of `mhz` MHz: CLK counts the 2.7 GHz reference. -/
def Clock.tick (c : Clock) (mhz n : Nat) : Clock :=
  { ref := c.ref + BitVec.ofNat 64 ((c.rem + n * 2700) / mhz), rem := (c.rem + n * 2700) % mhz, core := c.core + n }

/-- The core cycles an instruction occupies its stream go by. -/
def State.tick (s : State) (n : Nat) : State := { s with clk := s.clk.tick s.clockMhz n }

/-- CLK, by which times are measured. -/
def State.now (s : State) : Nat := s.clk.ref.toNat

/-! ### Rollback -/

/-- A count kept per key, raised by one. -/
def bump (t : Tab Nat) (k : Nat) : Tab Nat := tput t k (tget 0 t k + 1)

/-- Escalation after a rollback to a checkpoint at `pc` (R91): after E1 rollbacks at level 0 the gang
goes to level 1, after E2 further ones at level 1 to level 2. -/
def escalate (e1 e2 : Nat) (pc : Nat) (g : Gang) : Gang :=
  let rolls := bump g.rolls pc
  let n := tget 0 rolls pc
  if g.level = 0 && decide (e1 ≤ n) then { g with level := 1, rolls := [] }
  else if g.level = 1 && decide (e2 ≤ n) then { g with level := 2, rolls := [] }
  else { g with rolls := rolls }

/-- Stack blocks spilled once the window base is `base` again: those above it are in registers, and no more of
those below stay than the quota holds (R28, R87). -/
def keepSpilled (quota base spilled : Nat) : Nat := max (min spilled (base / 8)) ((base + 64 - quota) / 8)

/-- The places of a host read or an AtomicOp that has been sent (R98, R242). -/
def Wait.places : Wait → List (List Nat)
  | .host _ keys => [keys]
  | .atomicOp keys => [keys]
  | _ => []

/-- The gang waits for something else, or for nothing; a host access that it has sent stays outstanding (R128). -/
def Gang.unwait (g : Gang) (w : Wait) : Gang := { g with wait := w, sent := g.sent ++ g.wait.places }

/-- What a gang has issued from a place of its order on is discarded. -/
def Gang.discardFrom (g : Gang) (seq : Nat) : Gang :=
  { g.unwait .none with
    ext := none
    ckpts := g.ckpts.filter (fun d => decide (d.seq < seq))
    stores := g.stores.filter (fun w => decide (w.seq < seq))
    cmds := g.cmds.filter (fun x => decide (x.seq < seq) || x.st != .pending) }

/-- The registers a rollback restores: all but the events of started engine commands, which were merged
into every checkpoint when they came (R87, R212). -/
def rollTo (e1 e2 quota : Nat) (c : Ckpt) (g : Gang) : Gang :=
  escalate e1 e2 c.regs.pc.toNat
    { g.discardFrom c.seq with
      r := c.regs
      spilled := keepSpilled quota c.regs.below.length g.spilled
      rollcnt := g.rollcnt + 1 }

/-- The register quota of a gang (R28). -/
def State.quota (s : State) (g : Gang) : Nat := (s.gridAt (s.wgAt g.wg).grid).k.regs

/-- One gang rolls back to a checkpoint of its own, by the E1 and E2 of its partition. -/
def State.rollBack (s : State) (k : Nat) (c : Ckpt) : State :=
  let g := s.gangAt k
  let p := (s.leafAt (s.gridAt (s.wgAt g.wg).grid).leaf).part
  s.setGangAt k (rollTo p.e1 p.e2 (s.quota g) c g)

/-- One gang rolls back to its oldest checkpoint whose read set meets `hit` (R86). -/
def rollGang (hit : ReadItem → Bool) (s : State) (k : Nat) : State :=
  match (s.gangAt k).ckpts.find? (fun c => c.reads.any (fun p => hit p.2)) with
  | none => s
  | some c => s.rollBack k c

/-- Every gang but `me` whose read sets meet `hit` rolls back. -/
def rollOthers (me : Option Nat) (hit : ReadItem → Bool) (s : State) : State :=
  s.gangKeys.foldl (fun s k => if some k = me then s else rollGang hit s k) s

/-- A gang rolls back to its oldest checkpoint, if it holds one (R113, R163). -/
def rollOldest (s : State) (k : Nat) : State :=
  match (s.gangAt k).ckpts with
  | [] => s
  | c :: _ => s.rollBack k c

/-! ### Checkpoints (R85) -/

/-- The reads of a checkpoint that are still speculative: those no older than the oldest unperformed write, whose
own instruction's reads must keep their values until it performs (R72). -/
def Ckpt.still (lim : Nat) (c : Ckpt) : Ckpt := { c with reads := c.reads.filter (fun p => decide (lim ≤ p.1)) }

/-- Checkpoints leave the gang: the rollback count at the PC of each resets (R91). -/
def Gang.forget (gone : List Ckpt) (g : Gang) : Gang :=
  { g with rolls := g.rolls.filter (fun p => !(gone.any (fun c => c.regs.pc.toNat == p.1))) }

/-- Checkpoints retire when every event after them is non-speculative (R85). -/
def retireCkpts (g : Gang) : Gang :=
  let keep := match g.stores with
    | [] => []
    | w :: _ => (g.ckpts.map (Ckpt.still w.seq)).filter (fun c => !c.reads.isEmpty)
  { g with ckpts := keep }.forget (g.ckpts.filter (fun c => !(keep.any (fun d => d.seq == c.seq))))

/-- A write performs or a command starts at a place of the order: the checkpoints older than it retire, and when
speculative reads younger than it remain in them, one checkpoint at the instruction that follows it, with the
registers there, replaces them (R85). -/
def replaceCkpts (seq : Nat) (after : Regs) (g : Gang) : Gang :=
  let old := g.ckpts.filter (fun c => decide (c.seq ≤ seq))
  let later := g.ckpts.filter (fun c => decide (seq < c.seq))
  let young := (old.flatMap (fun c => c.reads)).filter (fun p => decide (seq < p.1))
  retireCkpts ({ g with
    ckpts := if young.isEmpty then later
      else { seq := seq + 1, regs := after, pend := g.cmds.length, reads := young } :: later }.forget old)

/-- A checkpoint stands beyond every unperformed write and every command that has not started. -/
-- DESIGN CHOICE (assumption 61): what "a point where no checkpoint yet stands" is.
def Gang.covered (g : Gang) : Bool :=
  match g.ckpts.getLast? with
  | none => false
  | some c => g.stores.all (fun w => decide (w.seq < c.seq))
      && g.cmds.all (fun x => x.st != .pending || decide (x.seq < c.seq))

/-- A speculative read now would need a fifth checkpoint (R85). -/
def Gang.full (g : Gang) : Bool := !g.stores.isEmpty && !g.covered && decide (4 ≤ g.ckpts.length)

/-- Reads join a checkpoint: the newest one, or one taken at this instruction first (R85). -/
def Gang.join (g : Gang) (items : List ReadItem) : Gang :=
  let c0 : Ckpt := { seq := g.seq, regs := g.r, pend := g.cmds.length, reads := [] }
  let cs := if g.covered || decide (4 ≤ g.ckpts.length) then g.ckpts else g.ckpts ++ [c0]
  let add := fun (c : Ckpt) => { c with reads := c.reads ++ (items.map (fun i => (g.seq, i))).filter (fun p => !c.reads.contains p) }
  { g with ckpts := cs.dropLast ++ (match cs.getLast? with
    | some c => [add c]
    | none => []) }

/-- A read that is speculative joins a read set: one with an older write unperformed, or, `held`, one whose own
instruction's write is not performed with it (R72, R84).  A gang at level 2 takes no checkpoint (R91). -/
def noteRead (s : State) (held : Bool) (items : List ReadItem) : State :=
  let g := s.gang
  if items.isEmpty || (g.stores.isEmpty && !held) || g.level == 2 then s else s.setGang (g.join items)

end Sys2Proof.Machine
end

