-- ==== Sys2Proof/Machine/Translate.lean ====
section
/-! DEFINITION. Translation trees: entries, walks, pools, reference counts, path copies, swaps, copy on
write, forks and releases (R110 to R124). -/

namespace Sys2Proof.Machine

/-! ### Entries -/

def entKind (e : Nat) : Nat := e % 4
def entW (e : Nat) : Bool := bitAt e 2
def entX (e : Nat) : Bool := bitAt e 3
def entC (e : Nat) : Bool := bitAt e 4
def entN (e : Nat) : Bool := bitAt e 5
def entHome (e : Nat) : Nat := fld e 8 3
/-- The PA field as an address (R111). -/
def entPa (e : Nat) : Nat := fld e 11 41 * 2 ^ 11
def entPeer (e : Nat) : Nat := fld e 52 12

/-- An entry from its fields. -/
def mkEnt (kind : Nat) (w x c n : Bool) (home pa peer : Nat) : Nat :=
  kind + (if w then 4 else 0) + (if x then 8 else 0) + (if c then 16 else 0) + (if n then 32 else 0)
    + home * 2 ^ 8 + pa / 2 ^ 11 * 2 ^ 11 + peer * 2 ^ 52

/-- A feature bit is in the latched set (R301). -/
def State.feature (s : State) (i : Nat) : Bool := bitAt s.feat.toNat i

/-- A table pointer or a frame of this device (R111). -/
def State.entLocal (s : State) (e : Nat) : Bool := entPeer e == s.devnum

/-- A PASID-table slot is valid (R126). -/
def State.pasidValid (s : State) (l slot : Nat) : Bool := bitAt (tget 0 (s.leafAt l).pasids slot).toNat 31

/-- R111: the entry breaks its form at this level. -/
def State.malformed (s : State) (l level e : Nat) : Bool :=
  let k := entKind e
  let pa := entPa e
  !(match level with
    | 0 => k == 0 || k == 2 || k == 3
    | 1 => true
    | _ => k == 0 || k == 1)
  || fld e 6 2 != 0
  || (entC e && entW e)
  || (k == 2 && fld pa 11 (if level == 1 then 13 else 5) != 0)
  || (k == 2 && s.entLocal e && entHome e != fld pa 38 2)
  || (k == 3 && (!s.pasidValid l (entPeer e) || !s.feature 1))
  || ((k == 1 || k == 2) && !s.entLocal e && !s.feature 2)

def entAt (m : List Host.Cell) (node i : Nat) : Nat := memNat m (node + 8 * i) 8

/-- VA bits that index a level (R110). -/
def vaIdx (level va : Nat) : Nat := fld va (16 + 8 * level) 8

/-- How a walk ends: at a frame or host window, with its level and the nodes of its path, root first; at an
entry of `KIND` 0; at a malformed entry. -/
inductive Walk where
  | hit (level e : Nat) (path : List Nat)
  | invalid (level : Nat)
  | bad (level : Nat)
deriving DecidableEq, Repr

/-- A walk from a node; the argument is the level plus one (R110). -/
def State.walkFrom (s : State) (l va : Nat) : Nat → Nat → List Nat → Walk
  | 0, _, _ => .invalid 0
  | level + 1, node, path =>
    let e := entAt s.mem node (vaIdx level va)
    if s.malformed l level e then .bad level
    else match entKind e with
      | 0 => .invalid level
      | 1 => s.walkFrom l va level (entPa e) (path ++ [node])
      | _ => .hit level e (path ++ [node])

def State.walk (s : State) (l root va : Nat) : Walk := s.walkFrom l va 4 root []

/-! ### Address spaces -/

def Leaf.asidAt (l : Leaf) (a : Nat) : Asid := tget {} l.asids a
def State.asidAt (s : State) (l a : Nat) : Asid := (s.leafAt l).asidAt a
def State.setAsid (s : State) (l a : Nat) (x : Asid) : State :=
  s.setLeafAt l { s.leafAt l with asids := tput (s.leafAt l).asids a x }

/-- The current generation record. -/
def Asid.cur (a : Asid) : Gen := a.gens.getLast?.getD {}
/-- The record of a pinned generation, or the current one when it is gone. -/
def Asid.pinned (a : Asid) (gen : Nat) : Gen := (a.gens.find? (fun g => g.num == gen)).getD a.cur
def Asid.isCur (a : Asid) (gen : Nat) : Bool := a.cur.num == gen
/-- The ordinal of a retained generation. -/
def Asid.ordOf (a : Asid) (gen : Nat) : Nat :=
  a.ord - ((a.gens.reverse.map (fun g => g.num)).idxOf gen)

/-- The generation after g (R112). -/
def nextGen (g : Nat) : Nat := if 0xFFFFFFFF ≤ g then 1 else g + 1

/-- Change the pins of one generation. -/
def Asid.pin (a : Asid) (gen : Nat) (f : Nat → Nat) : Asid :=
  { a with gens := a.gens.map (fun g => if g.num == gen then { g with pins := f g.pins } else g) }

/-- A gang pins the current generation in place of the one it pinned (R113). -/
def State.repin (s : State) (k : Nat) : State :=
  let g := s.gangAt k
  let l := (s.gridAt (s.wgAt g.wg).grid).leaf
  let a := s.asidAt l g.asid
  let c := a.cur.num
  let a := (a.pin g.gen (fun n => n - 1)).pin c (fun n => n + 1)
  (s.setAsid l g.asid a).setGangAt k { g with gen := c }

/-! ### Pools and counts -/

/-- A failed pool or count, by its status code (R265). -/
def stNOMEM : Nat := 1
def stREFSAT : Nat := 2
def stSTATE : Nat := 3
def stBADENT : Nat := 4
def stTXFULL : Nat := 5
/-- No status of R265: a node the operation reads lies in a poisoned line (R109). -/
def stLOST : Nat := 6

/-- Take an item of `unit` bytes from the head of a pool (R124). -/
def Pool.take (p : Pool) (unit : Nat) : Option (Nat × Pool) :=
  if p.next + unit ≤ p.size then some (p.base + p.next, { p with next := p.next + unit })
  else match p.tail with
    | [] => none
    | a :: t => some (a, { p with tail := t })

/-- The next item a pool gives, if it has one. -/
def Pool.head (p : Pool) (unit : Nat) : Option Nat := (p.take unit).map (fun x => x.1)

/-- The next `n` items a pool gives, as far as it has them. -/
def Pool.heads (unit : Nat) : Nat → Pool → List Nat
  | 0, _ => []
  | n + 1, p => match p.take unit with
    | some (a, p) => a :: Pool.heads unit n p
    | none => []

def Pool.free (p : Pool) (a : Nat) : Pool := { p with tail := p.tail ++ [a] }
def Pool.holds (p : Pool) (a : Nat) : Bool := decide (p.base ≤ a) && decide (a < p.base + p.size)
/-- A 64 KiB frame meets a pool's region. -/
def Pool.meets (p : Pool) (a : Nat) : Bool := p.size != 0 && decide (a < p.base + p.size) && decide (p.base < a + 65536)

/-- The Map Unit writes whole lines of a node: they bear its partition's tag with no ASID, as lines do that no
writer has tagged, and their poison is cleared (R109, R303). -/
def State.nodeLines (s : State) (a n : Nat) : State :=
  { s with lines := tmap s.lines (fun i x =>
      if a ≤ i * 128 ∧ i * 128 < a + n then { x with poison := false, tag := none, dirty := true } else x) }

/-- Take a node of 2,048 bytes, all zero (R124). -/
def State.takeNode (s : State) (l : Nat) : Except Nat (Nat × State) :=
  match (s.leafAt l).nodePool.take 2048 with
  | none => .error stNOMEM
  | some (a, p) =>
    .ok (a, ({ s.setLeafAt l { s.leafAt l with nodePool := p } with mem := memClear s.mem a 2048 } : State).nodeLines a 2048)

/-- The poison markers and owner tags of a node's poisoned lines go with its contents to another node (R109). -/
def State.keepMarks (s : State) (old new : Nat) : State :=
  { s with lines := (List.range 16).foldl (fun t i =>
      let x := tget ({} : Line) t (old / 128 + i)
      if x.poison then tput t (new / 128 + i) { tget ({} : Line) t (new / 128 + i) with poison := true, tag := x.tag, dirty := true }
      else t) s.lines }

/-- A line of a node is poisoned (R109). -/
def State.nodeLost (s : State) (a : Nat) : Bool := (List.range 16).any (fun i => (tget ({} : Line) s.lines (a / 128 + i)).poison)

/-- Take a fresh frame; `zero` clears it (R124). -/
-- DESIGN CHOICE (assumption 83): the lines of a frame that is cleared bear no ASID.
def State.takeFrame (s : State) (l : Nat) (zero : Bool) : Except Nat (Nat × State) :=
  match (s.leafAt l).framePool.take 65536 with
  | none => .error stNOMEM
  | some (a, p) =>
    let s' := s.setLeafAt l { s.leafAt l with framePool := p }
    .ok (a, if zero then { s' with
      mem := memClear s'.mem a 65536
      lines := s'.lines.filter (fun p => decide (p.1 < a / 128) || decide (a / 128 + 512 ≤ p.1)) } else s')

def State.count (s : State) (l a : Nat) : Nat := tget 0 (s.leafAt l).refs a

def State.setCount (s : State) (l a n : Nat) : State :=
  let x := s.leafAt l
  s.setLeafAt l { x with refs := if n = 0 then tdel x.refs a else tput x.refs a n }

/-- Add 1 to a count; past 0xFFFF_FFFF the operation fails (R119). -/
def State.addRef (s : State) (l a : Nat) : Except Nat State :=
  let n := s.count l a
  if 0xFFFFFFFF ≤ n then .error stREFSAT else .ok (s.setCount l a (n + 1))

/-- Add 1 to each count of a list, in order. -/
def State.addRefs (s : State) (l : Nat) : List Nat → Except Nat State
  | [] => .ok s
  | a :: t => match s.addRef l a with
    | .error e => .error e
    | .ok s' => s'.addRefs l t

/-- The counted targets of an entry at a level: a node, a local frame, or the 256 frames of a local 16 MiB
leaf (R119). -/
def State.targets (s : State) (level e : Nat) : List Nat :=
  match entKind e with
  | 1 => [entPa e]
  | 2 => if s.entLocal e then
      (if level = 1 then (List.range 256).map (fun i => entPa e + 65536 * i) else [entPa e]) else []
  | _ => []

def State.setEnt (s : State) (node i e : Nat) : State := { s with mem := memPut s.mem (node + 8 * i) (leBytes 8 e) }

/-! ### Reclamation (R123) -/

/-- Drop one reference on a frame; a reserved frame never enters a pool (R266). -/
def State.dropFrame (s : State) (l a : Nat) : State :=
  let n := s.count l a - 1
  let s := s.setCount l a n
  let x := s.leafAt l
  if n = 0 && x.framePool.holds a then s.setLeafAt l { x with framePool := x.framePool.free a } else s

def State.freeNode (s : State) (l a : Nat) : State :=
  let x := (s.setCount l a 0).leafAt l
  (s.setCount l a 0).setLeafAt l { x with nodePool := x.nodePool.free a }

/-- Drop one reference on a node; the first argument is its level plus one. -/
def State.dropNode (l : Nat) : Nat → State → Nat → State
  | 0, s, _ => s
  | level + 1, s, a =>
    let n := s.count l a - 1
    if n ≠ 0 then s.setCount l a n
    else
      let s := s.setCount l a 0
      let s := (List.range 256).foldl (fun s i =>
        let e := entAt s.mem a i
        if entKind e = 1 then State.dropNode l level s (entPa e)
        else (s.targets level e).foldl (fun s f => s.dropFrame l f) s) s
      s.freeNode l a

/-- Drop what an entry at a level points to. -/
def State.dropEnt (l level : Nat) (s : State) (e : Nat) : State :=
  if entKind e = 1 then State.dropNode l level s (entPa e)
  else (s.targets level e).foldl (fun s f => s.dropFrame l f) s

/-- Free a retired node: followed entries are freed in turn, held ones dropped (R123). -/
def State.freeRetired (l : Nat) (retire : List Retired) : Nat → State → Nat → State
  | 0, s, _ => s
  | level + 1, s, a =>
    let r := (retire.find? (fun r => r.node == a)).getD {}
    let s := (List.range 256).foldl (fun s i =>
      if r.followed.contains i then State.freeRetired l retire level s (entPa (entAt s.mem a i))
      else if r.held.contains i then State.dropEnt l level s (entAt s.mem a i)
      else s) s
    s.freeNode l a

/-- A generation of the ASID is ready to be released: the oldest, not current unless the ASID is dropping,
with no pin (R123). -/
def Asid.releasable (a : Asid) : Bool :=
  match a.gens with
  | [] => false
  | [g] => a.st == .dropping && g.pins == 0
  | g :: _ :: _ => g.pins == 0

/-- Release the oldest generation; the reclamation counter advances, and a dropped ASID becomes FREE with
its last generation (R105, R123). -/
def State.releaseGen (s : State) (l a : Nat) : State :=
  let x := s.asidAt l a
  match x.gens with
  | [] => s
  | g :: rest =>
    let s1 := if g.retire.isEmpty then State.dropNode l 4 s g.root
      else State.freeRetired l g.retire 4 s g.root
    let s2 := s1.setAsid l a (if rest.isEmpty then { ord := x.ord } else { x with gens := rest })
    let f := s2.leafAt l
    s2.setLeafAt l { f with reclaim := f.reclaim + 1 }

/-! ### Reading counts (R265) -/

/-- The nodes on the path of an address below a root, lowest level first, with the local frame it leads to. -/
def State.refPath (s : State) (root va : Nat) : List (Nat × Nat) × Option Nat :=
  let step := fun (n : Option Nat × List (Nat × Nat) × Option Nat) (level : Nat) =>
    match n.1 with
    | none => n
    | some node =>
      let e := entAt s.mem node (vaIdx level va)
      let seen := (level, node) :: n.2.1
      if entKind e = 1 then (some (entPa e), seen, none)
      else (none, seen, if entKind e = 2 && s.entLocal e then
        some (if level = 1 then entPa e + 65536 * vaIdx 0 va else entPa e) else none)
  ([3, 2, 1, 0].foldl step (some root, [], none)).2

/-- The count of the node at a level on the path of the current tree, or of the frame (sel 4); 0 when the
path does not reach it. -/
def State.refOf (s : State) (l a va sel : Nat) : Nat :=
  let x := s.asidAt l a
  if x.gens.isEmpty then 0 else
  let r := s.refPath x.cur.root va
  if sel = 4 then (match r.2 with | some f => s.count l f | none => 0)
  else match r.1.find? (fun p => p.1 == sel) with
    | some p => s.count l p.2
    | none => 0

/-- An entry above the item lies in a poisoned line (R109). -/
def State.refLost (s : State) (l a va sel : Nat) : Bool :=
  let x := s.asidAt l a
  !x.gens.isEmpty && (s.refPath x.cur.root va).1.any (fun p =>
    (sel == 4 || decide (sel < p.1)) && (tget ({} : Line) s.lines ((p.2 + 8 * vaIdx p.1 va) / 128)).poison)

/-! ### Path copies (R114, R122, R266) -/

/-- An edit as a swap applies it: VA, level 1, entry, and the frame taken for a fresh one. -/
structure REdit where
  va : Nat
  lvl1 : Bool
  entry : Nat
deriving DecidableEq, Repr

/-- The VA below which an edit falls: a 16 MiB range or a 64 KiB page. -/
def REdit.covers (e : REdit) (va : Nat) : Bool := if e.lvl1 then e.va / 2 ^ 24 == va / 2 ^ 24 else e.va / 2 ^ 16 == va / 2 ^ 16

/-- The edits that stand after each is staged in turn: a later edit of the same page or range replaces the
earlier ones, and a level-1 edit everything staged inside its range (R114). -/
def stand (es : List REdit) : List REdit :=
  es.foldl (fun acc e => acc.filter (fun f => !(if e.lvl1 then e.covers f.va else !f.lvl1 && e.covers f.va)) ++ [e]) []

/-- The indices at a level the edits pass or replace, ascending. -/
def editIdx (level : Nat) (es : List REdit) : List Nat :=
  (List.range 256).filter (fun i => es.any (fun e => vaIdx level e.va == i))

/-- What a rebuilt node leaves: its address, and whether the old node was retired. -/
structure Rebuilt where
  node : Nat
  retired : Bool
  list : List Retired

/-- Rebuild a node on the edited paths (R122).  The first argument is the level plus one; `old` is the
node of the current path, none where it is missing; `split` lets a 16 MiB leaf on the path be split for a
copy on write (R120). -/
def rebuild (l : Nat) (split : Bool) : Nat → State → Option Nat → Bool → List REdit → Except Nat (Rebuilt × State)
  | 0, _, _, _, _ => .error stBADENT
  | level + 1, s, old, above, es => do
    -- a copy on write moves the contents as they are (R109)
    if !split && old.any s.nodeLost then throw stLOST
    let (new, s) ← s.takeNode l
    let s := s.setCount l new 1
    let ents : List Nat := match old with
      | none => List.replicate 256 0
      | some o => (List.range 256).map (entAt s.mem o)
    let s := match old with
      | none => s
      | some o => ({ s with mem := memReplace s.mem new 2048 (memCells s.mem o 2048) } : State).keepMarks o new
    let cnt := match old with
      | none => 0
      | some o => s.count l o
    let shared := above || decide (1 < cnt)
    let idx := editIdx level es
    let s ← if shared then
        s.addRefs l (((List.range 256).filter (fun i => !idx.contains i)).flatMap
          (fun i => s.targets level (ents.getD i 0)))
      else pure s
    let s := match old with
      | some o => if shared && !above then s.setCount l o (cnt - 1) else s
      | none => s
    let go := fun (acc : State × List Nat × List Nat × List Retired) (i : Nat) => do
      let (s, fol, held, lst) := acc
      let here := es.filter (fun e => vaIdx level e.va == i)
      let e0 := ents.getD i 0
      let below := here.filter (fun e => decide (level = 0) == false && !(level == 1 && e.lvl1))
      let own := here.filter (fun e => level == 0 || (level == 1 && e.lvl1))
      match own.getLast? with
      | some e =>
        if below.isEmpty then do
          let s ← s.addRefs l (s.targets level e.entry)
          pure (s.setEnt new i e.entry, fol, held ++ [i], lst)
        else if entKind e.entry = 0 then do
          let (r, s) ← rebuild l split level s none false below
          pure (s.setEnt new i (mkEnt 1 false false false false 0 r.node s.devnum), fol, held ++ [i], lst ++ r.list)
        else .error stBADENT
      | none =>
        match entKind e0 with
        | 1 => do
          let (r, s) ← rebuild l split level s (some (entPa e0)) shared below
          pure (s.setEnt new i (mkEnt 1 false false false false 0 r.node s.devnum),
            (if r.retired then fol ++ [i] else fol), held, lst ++ r.list)
        | 0 => do
          let (r, s) ← rebuild l split level s none false below
          pure (s.setEnt new i (mkEnt 1 false false false false 0 r.node s.devnum), fol, held, lst ++ r.list)
        | _ =>
          if split then do
            -- a fresh leaf node maps the block's frames; the written one is then edited (R120)
            let (leafNode, s) ← s.takeNode l
            let s := s.setCount l leafNode 1
            let small := fun (j : Nat) => e0 + 65536 * j
            let w := below.headD ⟨0, false, 0⟩
            let wi := vaIdx 0 w.va
            let s ← s.addRefs l (((List.range 256).filter (fun j => j != wi)).flatMap
              (fun j => s.targets 0 (small j)))
            let s ← s.addRefs l (s.targets 0 w.entry)
            let s := (List.range 256).foldl (fun s j => s.setEnt leafNode j (if j = wi then w.entry else small j)) s
            pure (s.setEnt new i (mkEnt 1 false false false false 0 leafNode s.devnum), fol, held ++ [i], lst)
          else .error stBADENT
    let (s, fol, held, lst) ← idx.foldlM go (s, [], [], [])
    match old with
    | some o =>
      if shared then pure ({ node := new, retired := false, list := lst }, s)
      else pure ({ node := new, retired := true, list := { node := o, followed := fol, held := held } :: lst }, s)
    | none => pure ({ node := new, retired := false, list := lst }, s)

/-- The 64 KiB pages an edit affects. -/
def REdit.pages (e : REdit) : Nat × Nat :=
  if e.lvl1 then (e.va / 2 ^ 24 * 256, e.va / 2 ^ 24 * 256 + 255) else (e.va / 2 ^ 16, e.va / 2 ^ 16)

/-- A read set holds a translation of the ASID within the pages. -/
def inPages (l a lo hi : Nat) : ReadItem → Bool
  | .trans l' a' p => l' == l && a' == a && decide (lo ≤ p) && decide (p ≤ hi)
  | _ => false

/-- Shoot down the ranges: every read set that holds such a translation rolls back, and the partition's
address-translation-cache entries go (R86, R117). -/
-- DESIGN CHOICE (assumption 62): every entry of the partition goes, not those of the ranges alone.
def State.shoot (s : State) (l a : Nat) (rs : List (Nat × Nat)) : State :=
  rs.foldl (fun s r => rollOthers none (inPages l a r.1 r.2) s) { s with atc := s.atc.filter (fun t => t.leaf != l) }

/-- Record the ranges of a hard swap; past 64 the whole ASID is recorded (R117). -/
-- DESIGN CHOICE (assumption 100): no record is given up, also when no older generation is left, before the whole ASID is
-- recorded.
def addRanges (old : List Range) (ord : Nat) (rs : List (Nat × Nat)) : List Range :=
  let all := old ++ rs.map (fun r => { lo := r.1, hi := r.2, gen := ord })
  if 64 < all.length then [{ lo := 0, hi := 2 ^ 32 - 1, gen := ord }] else all

/-- Publish a new root as generation g + 1 (R112); a hard publication records its ranges and shoots them
down first (R117). -/
def State.publish (s : State) (l a root : Nat) (retire : List Retired) (hard : Bool) (rs : List (Nat × Nat)) : State :=
  let x := s.asidAt l a
  let ord := x.ord + 1
  let c := x.cur
  let gens := x.gens.dropLast ++ [{ c with retire := retire }, { num := nextGen c.num, root := root }]
  let s := s.setAsid l a { x with
    gens := gens, ord := ord, ranges := if hard then addRanges x.ranges ord rs else x.ranges }
  if hard then s.shoot l a rs else s

/-- R115: an edit that keeps a swap soft. -/
def softEdit (old new : Nat) : Bool :=
  entKind old == 0 && entKind new != 0 ||
  (entKind old == entKind new && entPa old == entPa new && entPeer old == entPeer new && entHome old == entHome new
    && entN old == entN new && entC old == entC new && (!entW old || entW new) && (!entX old || entX new))

/-- The entry an edit replaces, in a tree. -/
def State.oldEnt (s : State) (l root : Nat) (e : REdit) : Nat :=
  let step := fun (n : Option Nat × Nat) (level : Nat) =>
    match n.1 with
    | none => n
    | some node =>
      let x := entAt s.mem node (vaIdx level e.va)
      if entKind x = 1 then (some (entPa x), x) else (none, x)
  ((if e.lvl1 then [3, 2, 1] else [3, 2, 1, 0]).foldl step (some root, 0)).2 + 0 * l

/-- An edit asks for a fresh frame (R114, R266). -/
def REdit.fresh (e : REdit) : Bool := entKind e.entry == 2 && entPa e.entry == 0 && !e.lvl1

/-- The entry an edit replaces, in the tree that the edits before it, newest first, have left (R114). -/
def State.entBefore (s : State) (l root : Nat) (before : List REdit) (e : REdit) : Nat :=
  if e.lvl1 then
    match before.find? (fun f => e.covers f.va) with
    | some f => if f.lvl1 then f.entry else 1
    | none => s.oldEnt l root e
  else
    match before.find? (fun f => f.covers e.va) with
    | some f => if f.lvl1 then 0 else f.entry
    | none => s.oldEnt l root e

/-- Every edit keeps the swap soft (R115). -/
def State.softEdits (s : State) (l root : Nat) : List REdit → List REdit → Bool
  | _, [] => true
  | before, e :: t =>
    let old := s.entBefore l root before e
    softEdit old e.entry && !(e.fresh && entKind old != 0) && s.softEdits l root (e :: before) t

/-- The path of a 64 KiB edit meets a 16 MiB leaf or host window, in the tree that the edits before it, newest first,
have left (R114, R266). -/
def State.crosses (s : State) (l root : Nat) (before : List REdit) (e : REdit) : Bool :=
  !e.lvl1 && (match before.find? (fun f => f.lvl1 && f.covers e.va) with
    | some f => entKind f.entry != 0
    | none => match s.walk l root e.va with
      | .hit level _ _ => level == 1
      | _ => false)

/-- The first edit of a transaction that cannot be made as the edits apply in their order: its path is read from a
poisoned line (R109), or meets such a leaf (R114). -/
def State.badEdit (s : State) (l a root : Nat) : List REdit → List REdit → Option Nat
  | _, [] => none
  | before, e :: t =>
    if s.refLost l a e.va (if e.lvl1 || before.any (fun f => f.lvl1 && f.covers e.va) then 0 else 4) then some stLOST
    else if s.crosses l root before e then some stBADENT
    else s.badEdit l a root (e :: before) t

/-- Take the fresh frames of edits that name frame 0, in staging order, and fill in their home die (R114,
R122, R266). -/
-- DEDUCED (assumption 20): a fresh frame is local memory, so the entry's PEER becomes this device.
def State.freshFrames (s : State) (l : Nat) : List REdit → Except Nat (List REdit × State)
  | [] => .ok ([], s)
  | e :: t => do
    if e.fresh then do
      let (f, s) ← s.takeFrame l true
      let (t', s) ← s.freshFrames l t
      pure ({ e with entry := e.entry % 2 ^ 52 + f + fld f 38 2 * 2 ^ 8 + s.devnum * 2 ^ 52 } :: t', s)
    else do
      let (t', s) ← s.freshFrames l t
      pure (e :: t', s)

/-- Every gang pinned on the oldest retained generation rolls back to its oldest checkpoint and repins, a saved
one too; the generation is then released (R113). -/
def State.forcedRefresh (s : State) (l a : Nat) : State :=
  let x := s.asidAt l a
  match x.gens with
  | [] => s
  | old :: _ =>
    let s := s.gangKeys.foldl (fun s k =>
      let g := s.gangAt k
      if (g.st == .live || g.st == .halted || g.st == .saved) && g.asid == a && g.gen == old.num
          && (s.gridAt (s.wgAt g.wg).grid).leaf == l then (rollOldest s k).repin k else s) s
    if (s.asidAt l a).releasable then s.releaseGen l a else s

/-- Make room for one more generation (R112, R113). -/
def State.roomForGen (s : State) (l a : Nat) : State :=
  if 9 ≤ (s.asidAt l a).gens.length then s.forcedRefresh l a else s

/-- Apply a transaction to an ASID (R114 to R117). -/
def State.swap (s : State) (l a : Nat) (hard : Bool) (all : List REdit) : Except Nat State := do
  let es := stand all
  let s := s.roomForGen l a
  let root := (s.asidAt l a).cur.root
  let soft := s.softEdits l root [] all
  let (es, s) ← s.freshFrames l es
  let (r, s) ← rebuild l false 4 s (some root) false es
  pure (s.publish l a r.node r.list (hard || !soft) (es.map REdit.pages))

/-- R265, R266: a swap of a transaction: STATE, then BADENT, before any pool is touched. -/
def State.mapSwap (s : State) (l a : Nat) (hard : Bool) (es : List REdit) : Except Nat State :=
  let x := s.asidAt l a
  if x.st != .live then .error stSTATE
  else if es.isEmpty then .ok s
  else match s.badEdit l a x.cur.root [] es with
    | some e => .error e
    | none => s.swap l a hard es

/-- R121: a copy of a root, with count 1; every child of it gains a reference. -/
def State.copyRoot (s : State) (l root : Nat) : Except Nat (Nat × State) := do
  if s.nodeLost root then throw stLOST
  let (new, s) ← s.takeNode l
  let s ← s.addRefs l ((List.range 256).flatMap (fun i => s.targets 3 (entAt s.mem root i)))
  pure (new, { s.setCount l new 1 with mem := memReplace s.mem new 2048 (memCells s.mem root 2048) })

/-- R121, R265: fork an ASID into a FREE one, LIVE or READONLY, at generation 1. -/
def State.fork (s : State) (l src dst : Nat) (ro : Bool) : Except Nat State :=
  let x := s.asidAt l src
  if !(x.st == .live || x.st == .readonly) || (s.asidAt l dst).st != .free || 65535 < src || 65535 < dst then .error stSTATE
  else do
    let (root, s) ← s.copyRoot l x.cur.root
    pure (s.setAsid l dst { st := if ro then .readonly else .live, gens := [{ num := 1, root := root }], ord := (s.asidAt l dst).ord + 1 })

/-- R265: mark an ASID DROPPING; its generations are then released under R123. -/
def State.dropAsid (s : State) (l a : Nat) : Except Nat State :=
  let x := s.asidAt l a
  if x.st == .live || x.st == .readonly then .ok (s.setAsid l a { x with st := .dropping }) else .error stSTATE

/-- R120, R142: publish by a hard swap on a LIVE ASID a generation whose root is a copy of `root`. -/
def State.swapRoot (s : State) (l a root : Nat) : Except Nat State := do
  let s := s.roomForGen l a
  let old := (s.asidAt l a).cur.root
  let (new, s) ← s.copyRoot l root
  pure (s.publish l a new [{ node := old, followed := [], held := List.range 256 }] true [(0, 2 ^ 32 - 1)])

/-! ### Writes (R120) -/

/-- What a write to a leaf entry needs. -/
inductive WritePerm where
  | ok
  | cow
  | perm (info : Nat)
deriving DecidableEq, Repr

/-- R120's table, for a `KIND` 2 leaf met by a walk of the current tree. -/
def State.writePerm (s : State) (l a : Nat) (level e : Nat) (path : List Nat) (va : Nat) : WritePerm :=
  let st := (s.asidAt l a).st
  let frame := if level = 1 then entPa e + 65536 * vaIdx 0 va else entPa e
  let sharedFrame := s.entLocal e && decide (1 < s.count l frame)
  let shared := path.any (fun n => decide (1 < s.count l n)) || sharedFrame
  if entW e && (st == .live || st == .dropping) && !shared then .ok
  else if st == .readonly then .perm 5
  else if st == .dropping && (entC e || entW e) then .perm 17
  else if !entW e && !entC e then .perm (if st == .dropping then 17 else 1)
  else .cow

/-- The line number of a place in another device's memory, by device × 2^52 + physical address. -/
def peerLine (key : Nat) : Nat := 2 ^ 50 + key / 128

/-- Copy on write for the page of a write (R105, R120, R122): a fresh frame takes the contents, the path is
rebuilt, and a hard swap for that page publishes it. -/
def State.copyOnWrite (s : State) (l a va : Nat) : Except Nat State := do
  let s := s.roomForGen l a
  let root := (s.asidAt l a).cur.root
  match s.walk l root va with
  | .hit level e _ =>
    let src := if level = 1 then entPa e + 65536 * vaIdx 0 va else entPa e
    let (f, s) ← s.takeFrame l false
    let cells := if s.entLocal e then memCells s.mem src 65536
      else memCells s.peerMem (entPeer e * 2 ^ 52 + src) 65536
    let s := { s with mem := memReplace s.mem f 65536 cells }
    -- DESIGN CHOICE (assumption 78): a poisoned line keeps its marker and its owner tag (R109); any other bears the
    -- writer's (R303)
    let from' := if s.entLocal e then src / 128 else peerLine (entPeer e * 2 ^ 52 + src)
    let s := { s with lines := (List.range 512).foldl (fun t i =>
        let x := tget ({} : Line) t (from' + i)
        tput t (f / 128 + i) { tget ({} : Line) t (f / 128 + i) with
          poison := x.poison, tag := if x.poison then x.tag else some { leaf := l, asid := some a }
          dirty := true, l1 := [], remote := [] }) s.lines }
    let w := entKind e + 4 + (if entX e then 8 else 0) + (if entN e then 32 else 0) + fld f 38 2 * 2 ^ 8 + f
      + s.devnum * 2 ^ 52
    let ed : REdit := { va := va / 65536 * 65536, lvl1 := false, entry := w }
    let (r, s) ← rebuild l true 4 s (some root) false [ed]
    pure (s.publish l a r.node r.list true [ed.pages])
  | _ => .ok s

end Sys2Proof.Machine
end

