-- ==== Sys2Proof/Machine/Access.lean ====
section
/-! DEFINITION. Access events: where an address leads, what performing a write does to copies, owners and
read sets, and the accesses of gangs, engines, queues and rings (R69 to R79, R92 to R99, R109, R118, R303). -/

namespace Sys2Proof.Machine

/-! ### Trap codes (R152) -/

def tcILLOP : Nat := 0x01
def tcNONUNI : Nat := 0x02
def tcJTABR : Nat := 0x03
def tcMASKQ : Nat := 0x04
def tcALIGN : Nat := 0x05
def tcXLATE : Nat := 0x06
def tcPERM : Nat := 0x07
def tcHOSTPG : Nat := 0x08
def tcSTKOVF : Nat := 0x09
def tcSPILLF : Nat := 0x0A
def tcSPILLX : Nat := 0x0B
def tcGSTKOVF : Nat := 0x0C
def tcGDEAD : Nat := 0x0D
def tcSQERR : Nat := 0x0E
def tcENGCMD : Nat := 0x0F
def tcSLOT : Nat := 0x10
def tcWDOG : Nat := 0x11
def tcDATALOSS : Nat := 0x12
def tcTRAPI : Nat := 0x13
def tcBRK : Nat := 0x14
def tcPRIV : Nat := 0x15
def tcNEST : Nat := 0x16
def tcFPX : Nat := 0x17

/-! ### Where an address leads -/

/-- A place of the total order's memory: local DRAM, host memory by PASID and host address, the memory of
another device, a parameter block that Grant has built, by grid × 2^10 + offset. -/
inductive Loc where
  | dram (pa : Nat)
  | host (key : Nat)
  | peer (key : Nat)
  | block (key : Nat)
deriving DecidableEq, Repr

/-- What translating one access gives. -/
inductive Xl where
  | ok (loc : Loc) (noAlloc : Bool)
  | trap (code info : Nat)
  | cow
  | ats (pasid page : Nat)
  /-- a page of another device, and whether it must be owned (R94, R95) -/
  | page (key : Nat) (own : Bool)
  | hole (pa : Nat)
deriving DecidableEq, Repr

def Loc.plus (loc : Loc) (i : Nat) : Loc :=
  match loc with
  | .dram a => .dram (a + i)
  | .host a => .host (a + i)
  | .peer a => .peer (a + i)
  | .block a => .block (a + i)

def Loc.isHost : Loc → Bool
  | .host _ => true
  | _ => false

/-- The place in host memory of one that lies there. -/
def Loc.hostKey : Loc → Option Nat
  | .host k => some k
  | _ => none

/-- The line of a place; lines of other devices' memory are numbered from 2^50, those of built parameter blocks
from 2^60. -/
def Loc.line : Loc → Option Nat
  | .dram a => some (a / 128)
  | .peer a => some (peerLine a)
  | .block a => some (2 ^ 60 + a / 128)
  | .host _ => none

/-- The package has DRAM at a physical address: 160 GB from each die's base (R2). -/
def dramHas (pa : Nat) : Bool := decide (pa / 2 ^ 38 < 4) && decide (pa % 2 ^ 38 < 160000000000)

/-- The ownership record of a page, by home device × 2^36 + page; owned at home unless recorded (R94). -/
def State.pageAt (s : State) (key : Nat) : Page :=
  tget { owner := key / 2 ^ 36, here := key / 2 ^ 36 == s.devnum } s.pages key

/-- A cached translation covers a host page: it maps 2^`log` pages (R126). -/
def Atc.covers (t : Atc) (page : Nat) : Bool := t.page / 2 ^ t.log == page / 2 ^ t.log

/-- A die's address-translation cache holds a translation for the access (R127). -/
-- DESIGN CHOICE (assumption 63): with no die given, an engine's or a queue's access, any die's cache serves.
def State.atcHas (s : State) (l : Nat) (die : Option Nat) (pasid page : Nat) (write : Bool) : Bool :=
  s.atc.any (fun t => t.leaf == l && (match die with
    | some d => t.die == d
    | none => true) && t.pasid == pasid && t.covers page && (if write then t.w else t.r))

/-- A leaf may reach a device: its peer mask and feature (R299). -/
def State.mayReach (s : State) (l dev : Nat) : Bool :=
  bitAt (tget 0 (s.leafAt l).peerMask (dev / 8)).toNat (dev % 8)

/-- The page of a frame of this device that another device owns: a write to it must own it first (R95). -/
def State.frameAway (s : State) (pa : Nat) : Option Nat :=
  let key := s.devnum * 2 ^ 36 + pa / 65536
  if (s.pageAt key).owner != s.devnum then some key else none

/-- The first of the next `n` frames of a leaf's pool whose page is away. -/
-- DESIGN CHOICE (assumption 84): the pages of nodes are taken to be this device's own.
def State.framesAway (s : State) (l n : Nat) : Option Nat :=
  (Pool.heads 65536 n (s.leafAt l).framePool).findSome? s.frameAway

/-- The translation of one access by an ASID under a root (R110 to R129): the access writes, fetches or
reads.  `die` is the die whose address-translation cache it uses.  XLATE comes before PERM (R153). -/
-- DESIGN CHOICE (assumption 84): the owner of a page writes it while others hold replicas, and tells them nothing.
def State.xlate (s : State) (l a root : Nat) (die : Option Nat) (write fetch : Bool) (va : Nat) : Xl :=
  if (s.asidAt l a).st == .free then .trap tcXLATE 0xF4 else
  match s.walk l root va with
  | .invalid level => .trap tcXLATE (level * 16)
  | .bad level => .trap tcXLATE (level * 16 + 2)
  | .hit level e path =>
    if entKind e = 2 && !s.entLocal e && !s.mayReach l (entPeer e) then .trap tcXLATE (level * 16 + 3)
    else if fetch && !entX e then .trap tcPERM 2
    else if entKind e = 3 then
      if write && !entW e then .trap tcPERM (1 + (match (s.asidAt l a).st with | .readonly => 4 | .dropping => 16 | _ => 0))
      else
        let h := fld e 11 41 * 2 ^ 16 + va % (if level = 1 then 2 ^ 24 else 2 ^ 16)
        let pasid := (tget 0 (s.leafAt l).pasids (entPeer e)).toNat % 2 ^ 20
        if s.atcHas l die pasid (h / 4096) write then .ok (.host (pasid * 2 ^ 64 + h)) true
        else .ats pasid (h / 4096)
    else
      let pa := entPa e + va % (if level = 1 then 2 ^ 24 else 2 ^ 16)
      let perm := if write then s.writePerm l a level e path va else .ok
      let key := entPeer e * 2 ^ 36 + pa / 65536
      let p := s.pageAt key
      match perm with
      | .perm i => .trap tcPERM i
      | .cow =>
        -- a copy reads its page alone, and writes a fresh frame (R95, R120)
        if p.owner != s.devnum && !p.here then .page key false
        else match (s.roomForGen l a).framesAway l 1 with
          | some k => .page k true
          | none => .cow
      | .ok =>
        if p.owner != s.devnum && (write || !p.here) then .page key write
        else if s.entLocal e then (if dramHas pa then .ok (.dram pa) (entN e) else .hole pa)
        else .ok (.peer (entPeer e * 2 ^ 52 + pa)) (entN e)

/-- A gang's ASID record. -/
def State.myAsid (s : State) : Asid := s.asidAt s.leafNo s.gang.asid

/-- The access takes an implicit refresh first (R116 to R118). -/
def State.needsRefresh (s : State) (write fetch : Bool) (va : Nat) : Bool :=
  let a := s.myAsid
  let g := s.gang
  let ord := a.ordOf g.gen
  !a.isCur g.gen && a.st != .free && (write
    || a.ranges.any (fun r => decide (ord < r.gen) && decide (r.lo ≤ va / 65536) && decide (va / 65536 ≤ r.hi))
    || (match s.walk s.leafNo (a.pinned g.gen).root va with
        | .invalid _ => true
        | .hit _ e _ => fetch && !entX e
        | .bad _ => false))

/-- The die the gang runs on. -/
def State.die (s : State) : Nat := s.wg.core / 96

/-- Grids from `k` upward: the grid and its ancestors, nearest first. -/
def State.ancestors (s : State) : Nat → Nat → List Nat
  | 0, _ => []
  | f + 1, k => k :: (let g := s.gridAt k
    if g.seed = .child then s.ancestors f g.parent else [])

/-- The place of an address in a parameter block that Grant has built for a gang's grid, or for the nearest grid above
it that has one there. -/
def State.blockOf (s : State) (k va : Nat) : Option Nat :=
  (s.ancestors 13 (s.wgAt (s.gangAt k).wg).grid).findSome? (fun j =>
    let g := s.gridAt j
    if g.params.toNat ≤ va ∧ va < g.params.toNat + g.block.length then some (j * 2 ^ 10 + (va - g.params.toNat)) else none)

/-- Grant has built a block for a gang's grid or for a grid above it. -/
def State.hasBlocks (s : State) (k : Nat) : Bool :=
  (s.ancestors 13 (s.wgAt (s.gangAt k).wg).grid).any (fun j => !(s.gridAt j).block.isEmpty)

/-- An access that may be made leads to a built block where one lies. -/
-- DESIGN CHOICE (assumption 23): a block that Grant has built is the grid's own, at the template's address, and may be
-- accessed as the template may.
def Xl.inBlock (x : Xl) (b : Option Nat) : Xl :=
  match b, x with
  | some k, .ok _ _ => .ok (.block k) true
  | some k, .cow => .ok (.block k) true
  | _, x => x

/-- The translation of a gang's access under its pinned root. -/
def State.gxlate (s : State) (write fetch : Bool) (va : Nat) : Xl :=
  (s.xlate s.leafNo s.gang.asid (s.myAsid.pinned s.gang.gen).root (some s.die) write fetch va).inBlock (s.blockOf s.cur va)

/-! ### Performing -/

def State.readLoc (s : State) : Loc → Byte
  | .dram pa => memRead s.mem pa
  | .host k => memRead s.hostMem k
  | .peer k => memRead s.peerMem k
  | .block k => (s.gridAt (k / 2 ^ 10)).block.getD (k % 2 ^ 10) 0

def State.lineAt (s : State) (n : Nat) : Line := tget {} s.lines n

/-- A line of local or peer memory is poisoned (R109). -/
def State.poisoned (s : State) (loc : Loc) : Bool :=
  match loc.line with
  | some n => (s.lineAt n).poison
  | none => false

/-- The lines a run of bytes touches. -/
def lineRange (pa n : Nat) : List Nat :=
  if n = 0 then [] else (List.range ((pa + n - 1) / 128 - pa / 128 + 1)).map (fun i => pa / 128 + i)

/-- A run of a workgroup's scratchpad meets a line that an uncorrectable error has marked (R109, R159). -/
def State.scrBad (s : State) (w off n : Nat) : Bool := !(s.wgAt w).badScr.isEmpty && (lineRange off n).any (s.wgAt w).badScr.contains

/-! ### Slices, copies and read sets of a line (R78 to R86, R92) -/

/-- The home die of an address and its home slice (R81). -/
-- DESIGN CHOICE (assumption 64): of another device's address as well.
def homeDie (pa : Nat) : Nat := fld pa 38 2
def homeSlice (pa : Nat) : Nat := Nat.xor (Nat.xor (fld pa 7 9) (fld pa 16 9)) (fld pa 25 9)

/-- An address lies in the DRAM channels of a partition (R290). -/
def PartRec.hasChannel (p : PartRec) (pa : Nat) : Bool :=
  decide (pa / 2 ^ 38 < 4) && decide (pa % 2 ^ 38 / 2 ^ 32 < 37) && bitAt (p.channels.getD (pa / 2 ^ 38) 0) (pa % 2 ^ 38 / 2 ^ 32)

/-- The live leaf whose DRAM channels hold an address. -/
def State.leafOf (s : State) (pa : Nat) : Option Nat :=
  (s.leaves.find? (fun p => p.2.live && p.2.part.hasChannel pa)).map (fun p => p.1)

/-- The slice that takes up a line on behalf of a leaf: its home slice, or when that is not among the leaf's slice
groups on the home die, the lowest one that is (R81, R290). -/
-- DESIGN CHOICE (assumption 64): which of the leaf's slices holds a line whose home slice is another's.
def State.sliceFor (s : State) (l line : Nat) : Nat :=
  let groups := (s.leafAt l).part.groups.getD (homeDie (line * 128)) 0
  let home := homeSlice (line * 128)
  if bitAt groups (home / 16) then home
  else ((List.range 32).find? (fun g => bitAt groups g)).elim home (fun g => 16 * g)

/-- A gang of a core holds a line in a read set (R85). -/
def State.lineHeld (s : State) (core line : Nat) : Bool :=
  s.gangs.any (fun p => (s.wgAt p.2.wg).core == core
    && p.2.ckpts.any (fun c => c.reads.any (fun r => r.2 == .line line)))

/-- The sharer vector of a line's directory entry: the cores with a copy, and those whose gangs hold the line in a
read set (R82, R85). -/
def State.sharers (s : State) (line : Nat) : List Nat :=
  (((s.lineAt line).l1.map (fun p => p.1)).filter (fun c => !(s.lineAt line).spent.contains c)
    ++ (s.gangs.map (fun p => (s.wgAt p.2.wg).core)).filter (fun c => s.lineHeld c line)).eraseDups

/-- A line after a write is performed at its holder slice: every remote copy and every L1 copy invalidated, but that
of a storing core of the line's home die; dirty, tagged; a write of the whole line clears poison (R78, R82, R92,
R109, R303). -/
def Line.written (x : Line) (core : Option Nat) (die slice : Nat) (tag : OwnerTag) (whole : Bool) : Line :=
  let kept := fun (c : Nat) => core == some c && c / 96 == die
  { x with
    holder := some (x.holder.getD slice)
    dirty := true
    l1 := x.l1.filter (fun p => kept p.1)
    spent := x.spent.filter kept
    remote := []
    poison := x.poison && !whole
    tag := if x.poison && !whole then x.tag else some tag }

/-- The bytes a write changes, as they were (R77). -/
def oldBytes (m : List Host.Cell) (key pa : Nat) : List Byte → List (Nat × Byte × Nat)
  | [] => []
  | b :: t => if memRead m pa = b then oldBytes m key (pa + 1) t else (pa, memRead m pa, key) :: oldBytes m key (pa + 1) t

/-- What a write of `n` bytes from `a` does to the lines numbered from `base` on: copies go, and read sets of other
gangs that hold one roll back (R78, R86, R92).  `core` is the storing core whose L1 copy is updated (none for an
atomic or an engine), `me` the writing gang. -/
-- DESIGN CHOICE (assumption 65): a gang of the storing core rolls back as well, though its copy is updated.
def State.writeLines (s : State) (me core : Option Nat) (tag : OwnerTag) (base a n : Nat) : State :=
  let ls := lineRange a n
  let s := { s with lines := ls.foldl (fun t i =>
    tput t (base + i) ((tget ({} : Line) t (base + i)).written core (homeDie (i * 128)) (s.sliceFor tag.leaf (base + i)) tag
      (decide (a ≤ i * 128) && decide (i * 128 + 128 ≤ a + n)))) s.lines }
  rollOthers me (fun i => match i with
    | .line k => decide (base ≤ k) && ls.contains (k - base)
    | _ => false) s

/-- Perform one write to local DRAM. -/
def State.writeDram (s : State) (me core : Option Nat) (tag : OwnerTag) (pa : Nat) (bytes : List Byte) : State :=
  ({ s with mem := memPut s.mem pa bytes, old := oldBytes s.mem s.nextKey pa bytes ++ s.old } : State).writeLines
    me core tag 0 pa bytes.length

/-- Perform one write where it leads: a page of another device that this one owns is coherent as local memory is
(R94, R95). -/
def State.writeLoc (s : State) (me core : Option Nat) (tag : OwnerTag) (loc : Loc) (bytes : List Byte) : State :=
  match loc with
  | .dram pa => s.writeDram me core tag pa bytes
  | .host k => { s with hostMem := memPut s.hostMem k bytes }
  | .peer k => ({ s with peerMem := memPut s.peerMem k bytes } : State).writeLines me core tag (2 ^ 50) k bytes.length
  | .block k =>
    let g := s.gridAt (k / 2 ^ 10)
    let at' := k % 2 ^ 10
    (s.setGridAt (k / 2 ^ 10) { g with block := g.block.mapIdx (fun i b => if at' ≤ i then bytes.getD (i - at') b else b) }).writeLines
      me core tag (2 ^ 60) k bytes.length

/-- Perform a write to a workgroup's scratchpad (R75, R86). -/
def State.writeScr (s : State) (me : Option Nat) (w off : Nat) (bytes : List Byte) : State :=
  let x := s.wgAt w
  let s := s.setWgAt w { x with scr := memPut x.scr off bytes }
  rollOthers me (fun i => match i with
    | .scr w' o => w' == w && decide (off / 4 ≤ o) && decide (o ≤ (off + bytes.length - 1) / 4)
    | _ => false) s

/-- A write of a g register takes effect: the read sets of other gangs that hold it roll back (R76, R86). -/
def State.putG (s : State) (me w i : Nat) (v : Word) : State :=
  let x := s.wgAt w
  let s := s.setWgAt w { x with g := x.g.setIfInBounds i v }
  rollOthers (some me) (fun r => match r with
    | .greg w' j => w' == w && j == i
    | _ => false) s

/-- Perform a write to a g register: at once, or, while gangs are still to issue in the present cycle, with the cycle's
other writes when it ends (R23, R33, R76). -/
def State.writeG (s : State) (me w i : Nat) (v : Word) : State :=
  let x := s.wgAt w
  if s.round.isEmpty && x.gNext.isEmpty then s.putG me w i v
  else s.setWgAt w { x with gNext := x.gNext ++ [(me, i, v)] }

/-- The writes of a workgroup's g registers in the present cycle take effect in ascending gang slot (R23). -/
-- DESIGN CHOICE (assumption 36): an instruction that reads one g register and writes another has its read before all
-- writes of its cycle.
def State.settleG (s : State) (w : Nat) : State :=
  let x := s.wgAt w
  if x.gNext.isEmpty then s else
  (sortBy (fun a b => decide ((s.gangAt a.1).slot ≤ (s.gangAt b.1).slot)) x.gNext).foldl (fun s p => s.putG p.1 w p.2.1 p.2.2)
    (s.setWgAt w { x with gNext := [] })

/-- The present cycle ends. -/
def State.endCycle (s : State) : State := s.wgs.foldl (fun s p => s.settleG p.1) s

/-- A load reaches a line through the L1 of its core: a miss allocates a copy unless `noAlloc`, counted
RC − 1 when RC is 1–15; a hit on a counted copy decrements it once, and at 0 it invalidates itself, or while a read
set of the core holds it, once it does no more (R79). -/
-- DESIGN CHOICE (assumption 66): a load that does not allocate decrements a counted copy it finds.
def Line.loaded (x : Line) (core rc : Nat) (noAlloc held : Bool) : Line :=
  let x := if x.spent.contains core && !held then
      { x with l1 := tdel x.l1 core, spent := x.spent.filter (fun c => c != core) } else x
  if x.spent.contains core then x
  else if thas x.l1 core then
    match tget 0 x.l1 core with
    | 0 => x
    | 1 => if held then { x with spent := x.spent ++ [core] } else { x with l1 := tdel x.l1 core }
    | n + 1 => { x with l1 := tput x.l1 core n }
  else if noAlloc then x
  -- a count of RC − 1 = 0 invalidates the line after the fill, or when no read set of the core holds it
  else if rc = 1 then (if held then { x with l1 := tput x.l1 core 1, spent := x.spent ++ [core] } else x)
  else { x with l1 := tput x.l1 core (rc - 1) }

/-- The other lines in a line's set of a core's L1: 768 sets of 16 ways (R2). -/
-- DESIGN CHOICE (assumption 67): a line's set is its number modulo 768.
def State.l1Set (s : State) (core line : Nat) : List Nat :=
  (s.lines.filter (fun p => p.1 != line && p.1 % 768 == line % 768 && thas p.2.l1 core)).map (fun p => p.1)

/-- A load of a line must wait: it is not in the L1, and the 16 ways of its set all hold lines of read sets (R85). -/
def State.l1Full (s : State) (core line : Nat) : Bool :=
  !thas (s.lineAt line).l1 core && decide (16 ≤ (s.l1Set core line).length) && (s.l1Set core line).all (s.lineHeld core)

/-- One line of a load: its copy in the L1, in whose set a line that no read set holds makes room; the remote copy
on another die than its home; the slice that takes it up. -/
-- DESIGN CHOICE (assumption 67): the line that makes room is the lowest in number; with none, the load does not allocate.
def State.touchLine (s : State) (l core rc : Nat) (noAlloc : Bool) (n : Nat) : State :=
  let die := core / 96
  let x := (s.lineAt n).loaded core rc noAlloc (s.lineHeld core n)
  let x := if homeDie (n * 128) != die && !noAlloc && !x.remote.contains die then { x with remote := x.remote ++ [die] } else x
  let x := { x with holder := some (x.holder.getD (s.sliceFor l n)) }
  let put := fun (s : State) (x : Line) => { s with lines := tput s.lines n x }
  if !thas x.l1 core || (s.l1Set core n).length < 16 then put s x
  else match (s.l1Set core n).find? (fun m => !s.lineHeld core m) with
    | some m => put { s with lines := tput s.lines m { s.lineAt m with l1 := tdel (s.lineAt m).l1 core } } x
    | none => put s { x with l1 := tdel x.l1 core }

/-- One load instruction touches each of its lines once; a line allocates nothing when the load, or the page that led to
it, says so (R79). -/
def State.touchLines (s : State) (core rc : Nat) (noAlloc : Bool) (ns : List (Nat × Bool)) : State :=
  ((ns.map (fun p => p.1)).eraseDups).foldl (fun s n => s.touchLine s.leafNo core rc (noAlloc || ns.contains (n, true)) n) s

/-- Every byte of a 128-byte line is among runs of bytes. -/
def coveredBy (ws : List (Nat × Nat)) (base : Nat) : Bool :=
  (List.range 128).all (fun i => ws.any (fun w => decide (w.1 ≤ base + i) && decide (base + i < w.1 + w.2)))

/-- The line that an access leads to. -/
def Xl.line : Xl → Option Nat
  | .ok loc _ => loc.line
  | _ => none

/-- A poisoned line that one instruction or one engine operation has stored whole is poisoned no more
(R109); `xl` translates, the runs are virtual addresses and lengths.  A built block may begin or end in a line, which then
leads to two. -/
def State.healLines (s : State) (xl : Nat → Xl) (tag : OwnerTag) (ws : List (Nat × Nat)) : State :=
  ((ws.flatMap (fun w => (lineRange w.1 w.2).map (fun n => n * 128))).eraseDups).foldl (fun s base =>
    match (xl base).line with
    | some n =>
      let x := s.lineAt n
      if x.poison && coveredBy ws base && (List.range 128).all (fun i => (xl (base + i)).line == some n) then
        { s with lines := tput s.lines n { x with poison := false, tag := some tag } } else s
    | none => s) s

/-- A marked line of the scratchpad that one instruction or one engine operation has stored whole is marked no more
(R109). -/
def State.healScr (s : State) (w : Nat) (ws : List (Nat × Nat)) : State :=
  if (s.wgAt w).badScr.isEmpty then s else
  s.setWgAt w { s.wgAt w with badScr := (s.wgAt w).badScr.filter (fun n => !coveredBy ws (n * 128)) }

/-! ### Interrupts and rings (R298) -/

/-- Send a vector's message, or set its pending bit when it is masked. -/
def State.sendVec (s : State) (l v : Nat) : State :=
  let x := tget {} (s.leafAt l).msix v
  let y := { x with events := 0, pending := x.pending || x.masked }
  let s := s.setLeafAt l { s.leafAt l with msix := tput (s.leafAt l).msix v y }
  if x.masked then s else { s with out := .msix l v x.addr x.data :: s.out }

/-- An event on a vector: it sends when N events have accumulated, at once when T is 0 (R298). -/
-- DEDUCED (assumption 26): a vector the function does not have sends nothing.
def State.vecEvent (s : State) (l v : Nat) : State :=
  if 64 ≤ v then s else
  let f := s.leafAt l
  let x := tget {} f.msix v
  let y := { x with events := x.events + 1, since := if x.events = 0 then s.now else x.since }
  let s := s.setLeafAt l { f with msix := tput f.msix v y }
  if f.coalesceT = 0 || decide (f.coalesceN ≤ y.events) then s.sendVec l v else s

/-! ### Engine, queue and ring accesses -/

/-- Why an access by an engine or a queue fails: a trap code with its address, or a wait for a host page or
a page of another device. -/
inductive AccErr where
  | trap (code addr info : Nat)
  | ats (pasid page : Nat) (write : Bool) (va : Nat)
  | page (key : Nat) (write : Bool) (va : Nat)
  | hole (pa : Nat)
deriving DecidableEq, Repr

/-- What a page's home device is asked for: a replica, or ownership (R94, R95). -/
def State.pageAsk (s : State) (key : Nat) (own : Bool) : Msg :=
  if own then .owner key s.devnum else .replica key (s.pageAt key).owner s.devnum

/-- An access that must wait asks for what it waits for: a translation of the host, or a page (R94, R95, R127). -/
def State.ask (s : State) (l : Nat) (e : AccErr) : State :=
  match e with
  | .ats p g w _ => { s with out := .ats l p g w :: s.out }
  | .page k w _ => { s with out := s.pageAsk k w :: s.out }
  | _ => s

/-- The wait that an access begins at a time. -/
def AccErr.hold (e : AccErr) (now : Nat) : Wait :=
  match e with
  | .ats p g w _ => .ats p g w Option.none
  | .page k w _ => .peer k w now
  | _ => .none

/-- A wait is for what an access lacks. -/
def Wait.holds (w : Wait) (e : AccErr) : Bool :=
  match w, e with
  | .ats p g w _, .ats p' g' w' _ => p == p' && g == g' && w == w'
  | .peer k w _, .page k' w' _ => k == k' && w == w'
  | _, _ => false

/-- The trap code with which an access ends whose wait has failed (R97, R127). -/
def Wait.failed : Wait → Option Nat
  | .atsFail _ _ _ _ => some tcHOSTPG
  | .peerFail _ _ => some tcXLATE
  | _ => Option.none

/-- A wait has failed for what an access lacks: another access asks for itself. -/
def Wait.fails (w : Wait) (e : AccErr) : Bool :=
  match w, e with
  | .atsFail p g w _, .ats p' g' w' _ => p == p' && g == g' && w == w'
  | .peerFail k w, .page k' w' _ => k == k' && w == w'
  | _, _ => false

/-- The access waits for a host translation or a page of another device. -/
def AccErr.waits : AccErr → Bool
  | .ats _ _ _ _ => true
  | .page _ _ _ => true
  | _ => false

/-- What an attempt waits for whose access has failed, having waited for `w`; none when the attempt has failed. -/
def AccErr.next (e : AccErr) (w : Wait) (now : Nat) : Option Wait :=
  if !e.waits || w.fails e then Option.none else some (if w.holds e then w else e.hold now)

/-- The access asks, unless it has asked for the same already. -/
def State.askOnce (s : State) (l : Nat) (w : Wait) (e : AccErr) : State := if w.holds e then s else s.ask l e

/-- The address of an access that waits. -/
def AccErr.va : AccErr → Nat
  | .trap _ a _ => a
  | .ats _ _ _ a => a
  | .page _ _ a => a
  | .hole _ => 0

/-- The translation of an engine's access: the current generation of the ASID (R118).  `who` is the gang that issued the
command, whose die's translation cache and whose built blocks it uses. -/
def State.exlate (s : State) (l a : Nat) (write : Bool) (va : Nat) (who : Option Nat := none) : Xl :=
  (s.xlate l a (s.asidAt l a).cur.root (who.map (fun k => (s.wgAt (s.gangAt k).wg).core / 96)) write false va).inBlock
    (who.bind (fun k => s.blockOf k va))

/-- One byte-run that lies within a 4 KiB page. -/
def State.ereadRun (s : State) (l a va n : Nat) (who : Option Nat := none) : Except AccErr (List Byte) :=
  match s.exlate l a false va who with
  | .ok loc _ =>
    if (List.range n).any (fun i => s.poisoned (loc.plus i)) then .error (.trap tcDATALOSS va 0)
    else .ok ((List.range n).map (fun i => s.readLoc (loc.plus i)))
  | .trap c i => .error (.trap c va i)
  | .cow => .error (.trap tcPERM va 1)
  | .ats p g => .error (.ats p g false va)
  | .page k _ => .error (.page k false va)
  | .hole pa => .error (.hole pa)

/-- The runs of `n` bytes from `va` that stay within 4 KiB pages; the first argument bounds their number. -/
def pageRuns : Nat → Nat → Nat → List (Nat × Nat)
  | 0, _, _ => []
  | f + 1, va, n =>
    if n = 0 then [] else
    let k := min n (4096 - va % 4096)
    (va, k) :: pageRuns f ((va + k) % 2 ^ 48) (n - k)

def runsOf (va n : Nat) : List (Nat × Nat) := pageRuns (n / 4096 + 2) va n

/-- The runs of a gang's command: those of pages, byte by byte when a built block may begin or end in one. -/
def State.runsFor (s : State) (who : Option Nat) (va n : Nat) : List (Nat × Nat) :=
  if who.any s.hasBlocks then (runsOf va n).flatMap (fun r => (List.range r.2).map (fun i => (r.1 + i, 1))) else runsOf va n

/-- Read `n` bytes as an engine or a queue. -/
def State.eread (s : State) (l a va n : Nat) (who : Option Nat := none) : Except AccErr (List Byte) := do
  let rs ← (s.runsFor who va n).mapM (fun r => s.ereadRun l a r.1 r.2 who)
  pure rs.flatten

def State.ereadNat (s : State) (l a va n : Nat) (who : Option Nat := none) : Except AccErr Nat := do
  pure (leNat (← s.eread l a va n who))

/-- One write within a page: copies on write first when it must (R118, R120). -/
def State.ewriteRun (me : Option Nat) (tag : OwnerTag) (l a : Nat) (s : State) (va : Nat) (bytes : List Byte)
    (who : Option Nat := none) : Except AccErr State :=
  let go := fun (s : State) => match s.exlate l a true va who with
    | .ok loc _ => Except.ok (s.writeLoc me none tag loc bytes)
    | .trap c i => .error (.trap c va i)
    | .cow => .error (.trap tcXLATE va 5)
    | .ats p g => .error (.ats p g true va)
    | .page k own => .error (.page k own va)
    | .hole pa => .error (.hole pa)
  match s.exlate l a true va who with
  | .cow => match s.copyOnWrite l a va with
    | .ok s' => go s'
    | .error _ => .error (.trap tcXLATE va
        (match s.walk l (s.asidAt l a).cur.root va with
          | .hit lv _ _ => lv * 16 + 5
          | _ => 5))
  | _ => go s

/-- Write bytes as an engine or a queue; a line that bytes written one by one fill is stored whole (R109). -/
def State.ewrite (s : State) (me : Option Nat) (tag : OwnerTag) (l a va : Nat) (bytes : List Byte)
    (who : Option Nat := none) : Except AccErr State := do
  let (s, _) ← (s.runsFor who va bytes.length).foldlM (fun (acc : State × List Byte) r => do
    let s ← State.ewriteRun me tag l a acc.1 r.1 (acc.2.take r.2) who
    pure (s, acc.2.drop r.2)) (s, bytes)
  pure (if who.any s.hasBlocks then s.healLines (fun va => s.exlate l a true va who) tag [(va, bytes.length)] else s)

/-- Write bytes, or leave the state when the write fails. -/
def State.ewriteOr (s : State) (me : Option Nat) (tag : OwnerTag) (l a va : Nat) (bytes : List Byte) : State :=
  match s.ewrite me tag l a va bytes with
  | .ok s' => s'
  | .error _ => s

/-! ### Records -/

def State.queueAt (s : State) (l q : Nat) : Queue := tget {} (s.leafAt l).queues q
def State.setQueue (s : State) (l q : Nat) (x : Queue) : State :=
  s.setLeafAt l { s.leafAt l with queues := tput (s.leafAt l).queues q x }

/-- A queue's ASID and the owner tag of its own writes (R303). -/
def State.qAsid (s : State) (l q : Nat) : Nat := (s.queueAt l q).asid.toNat
def State.qTag (s : State) (l q : Nat) : OwnerTag := { leaf := l, asid := some (s.qAsid l q) }

/-- A record is written at the error ring's next place and counted, and its interrupt raised (R274); an error while
the write waits. -/
-- DESIGN CHOICE (assumption 9): a record whose write fails is lost; it is counted all the same, with no interrupt.
def State.recordNow (s : State) (l q : Nat) (bytes : List Byte) : Except AccErr State :=
  let x := s.queueAt l q
  let va := x.errbase.toNat + 32 * (x.errcount % 2 ^ x.errlog2)
  let count := fun (s : State) => s.setQueue l q { s.queueAt l q with errcount := (x.errcount + 1) % 2 ^ 24 }
  match s.ewrite none { leaf := l, asid := some x.asid.toNat } l x.asid.toNat va bytes with
  | .ok s =>
    let v := tget (0 : Byte) (s.leafAt l).errVec q
    .ok (if bitAt v.toNat 7 then (count s).vecEvent l (v.toNat % 64) else count s)
  | .error e => if e.waits then .error e else .ok (count s)

/-- The records a queue holds are written as far as they can be, oldest first. -/
def State.recordRetry (l q : Nat) : List (List Byte) → State → State
  | [], s => s.setQueue l q { s.queueAt l q with held := [] }
  | b :: t, s => match s.recordNow l q b with
    | .ok s => State.recordRetry l q t s
    | .error e => (s.setQueue l q { s.queueAt l q with held := b :: t }).ask l e

/-- Write a 32-byte record to a queue's error ring, after those that wait. -/
def State.record (s : State) (l q : Nat) (bytes : List Byte) : State :=
  let x := s.queueAt l q
  if x.held.isEmpty then State.recordRetry l q [bytes] s
  else s.setQueue l q { x with held := x.held ++ [bytes] }

/-- A queue record with its cause and detail (R274). -/
def State.queueRecord (s : State) (l q cause detail : Nat) : State :=
  s.record l q (leBytes 1 0 ++ leBytes 1 8 ++ leBytes 1 cause ++ leBytes 21 0 ++ leBytes 4 detail ++ leBytes 4 0)

/-- Write one telemetry record at the ring's next place, which overwrites its oldest (R296); an error while the
write waits. -/
def State.telemetryNow (s : State) (l : Nat) (bytes : List Byte) : Except AccErr State :=
  let f := s.leafAt l
  let r := f.telem
  let a := (s.queueAt l 0).asid.toNat
  match s.ewrite none { leaf := l, asid := some a } l a (r.rbase.toNat + 32 * (r.prod.toNat % 2 ^ r.log2n)) bytes with
  | .ok s => .ok ((s.setLeafAt l { s.leafAt l with telem := { (s.leafAt l).telem with prod := r.prod + 1 } }).vecEvent l r.vec)
  | .error e =>
    if e.waits then .error e else
    let s := s.setLeafAt l { f with telem := { r with failed := true } }
    .ok (if r.failed then s else s.queueRecord l 0 6 0x40)

/-- The telemetry records that wait are written as far as they can be, oldest first. -/
def State.telemetryRetry (l : Nat) : List (List Byte) → State → State
  | [], s => s.setLeafAt l { s.leafAt l with telem := { (s.leafAt l).telem with held := [] } }
  | b :: t, s => match s.telemetryNow l b with
    | .ok s => State.telemetryRetry l t s
    | .error e => (s.setLeafAt l { s.leafAt l with telem := { (s.leafAt l).telem with held := b :: t } }).ask l e

/-- Append a record to the leaf's telemetry ring, after those that wait. -/
def State.telemetry (s : State) (l : Nat) (bytes : List Byte) : State :=
  let r := (s.leafAt l).telem
  if !r.en then s
  else if r.held.isEmpty then State.telemetryRetry l [bytes] s
  else s.setLeafAt l { s.leafAt l with telem := { r with held := r.held ++ [bytes] } }

end Sys2Proof.Machine
end

