-- ==== Sys2Proof/Config.lean ====
section
/-! DEFINITION. What one implementation of the Z4 fixes, and the free values: constants with no body, so
no proof can lean on a value the spec leaves open. -/

namespace Sys2Proof.Config

/-- R28, R109: a load from the spill area returns an undefined byte, and so does a line after an uncorrectable error;
the argument is the free-value counter the step reads and advances. -/
opaque freeByte : Nat → Byte

/-- R42, R158: what a register holds of which nothing is known: one an ignored error has damaged, or one below a window
base that a save area names anew. -/
opaque freeWord : Nat → Word

/-- R300: ECDSA P-521 signature by the fused identity key, over a SHA-512 digest (as a number);
132 bytes as one number, byte 0 first. -/
opaque identitySign : Nat → Nat

/-- R288: does the identity key's signature (second argument) of this digest (first) verify? -/
opaque identityVerify : Nat → Nat → Bool

/-- R300: does the fused Rhatik key verify this image digest's signature? -/
opaque rhatikVerify : Nat → Nat → Bool

/-- R300: the serial number, 16 bytes as one number. -/
opaque serialNumber : BitVec 128

/-- R77: does a fetch of code changed under a running grid see the old value?  The argument is the free-value
counter. -/
opaque fetchOld : Nat → Bool

/-- R300: the digests M0 (root image) and M1 (function image) the boot chain measures, as numbers. -/
opaque measureRoot : Nat
opaque measureFunction : Nat

/-- R295: TEMP, the highest die temperature, at the n-th reading. -/
opaque temperature : Nat → Byte

end Sys2Proof.Config
end

