-- ==== Sys2Proof/Machine/Float.lean ====
section
/-! DEFINITION. Floating values taken exactly, exact sums, and every rounding and narrowing of the number
formats (R44 to R61). -/

namespace Sys2Proof.Machine

/-- An exact value: a NaN, an infinity, or (−1)^neg × m × 2^e; a zero keeps its sign. -/
inductive Num where
  | nan
  | inf (neg : Bool)
  | fin (neg : Bool) (m : Nat) (e : Int)
deriving DecidableEq, Repr

/-- Event bits as FFLAGS numbers them (R37). -/
def evNV : Nat := 1
def evDZ : Nat := 2
def evOF : Nat := 4
def evUF : Nat := 8
def evNX : Nat := 16
def evRC : Nat := 32

/-- A binary format with an exponent field of `ew` bits and a mantissa of `mw` bits. -/
structure FpFmt where
  ew : Nat
  mw : Nat
  bias : Nat
deriving DecidableEq, Repr

def f32 : FpFmt := ⟨8, 23, 127⟩
def f16 : FpFmt := ⟨5, 10, 15⟩
def bf16 : FpFmt := ⟨8, 7, 127⟩
/-- R50. -/
def f8a : FpFmt := ⟨4, 3, 7⟩
def f8b : FpFmt := ⟨5, 2, 15⟩
def f4 : FpFmt := ⟨2, 1, 1⟩

/-- The exponent of the unit of a subnormal. -/
def FpFmt.qmin (f : FpFmt) : Int := 1 - (f.bias : Int) - f.mw
/-- The bits of +∞. -/
def FpFmt.infBits (f : FpFmt) : Nat := (2 ^ f.ew - 1) * 2 ^ f.mw
/-- The sign bit. -/
def FpFmt.signBit (f : FpFmt) : Nat := 2 ^ (f.ew + f.mw)
/-- The canonical NaN (R45, R47). -/
def FpFmt.nanBits (f : FpFmt) : Nat := f.infBits + 2 ^ (f.mw - 1)

/-- The value of finite bits: sign, exponent field, mantissa field. -/
def finVal (f : FpFmt) (neg : Bool) (e m : Nat) : Num :=
  if e = 0 then .fin neg m f.qmin else .fin neg (2 ^ f.mw + m) (f.qmin + (e - 1 : Nat))

/-- The value an IEEE format's bits denote (R44, R47). -/
def ofIeee (f : FpFmt) (x : Nat) : Num :=
  let neg := bitAt x (f.ew + f.mw)
  let e := fld x f.mw f.ew
  let m := x % 2 ^ f.mw
  if e = 2 ^ f.ew - 1 then (if m = 0 then .inf neg else .nan) else finVal f neg e m

/-- FP32 bits. -/
def ofF32 (w : Word) : Num := ofIeee f32 w.toNat

/-- The value a narrow code denotes; the code of negative zero is reserved and reads as NaN (R50, R53). -/
def ofNarrow (f : FpFmt) (x : Nat) : Num :=
  if x % (2 * f.signBit) = f.signBit then .nan
  else finVal f (bitAt x (f.ew + f.mw)) (fld x f.mw f.ew) (x % 2 ^ f.mw)

/-- A subnormal 16-bit input as zero of its sign (R48). -/
def flushIn (f : FpFmt) (x : Nat) : Num :=
  if fld x f.mw f.ew = 0 then .fin (bitAt x (f.ew + f.mw)) 0 0 else ofIeee f x

/-- Round m × 2^e, or a value just above it when `st`, to a multiple of 2^q: the multiple, and whether
the result is inexact.  Modes: 0 nearest-even, 1 toward zero, 2 down, 3 up (R35). -/
def quant (rm : Nat) (neg : Bool) (m : Nat) (e : Int) (st : Bool) (q : Int) : Nat × Bool :=
  let d := (q - e).toNat
  let n := if q ≤ e then m * 2 ^ (e - q).toNat else m / 2 ^ d
  let r := if q ≤ e then 0 else m % 2 ^ d
  let half := if q ≤ e then 1 else 2 ^ (d - 1)
  let inexact := r != 0 || st
  let up := match rm with
    | 0 => decide (half < r) || (r == half && decide (e < q) && (st || n % 2 == 1))
    | 1 => false
    | 2 => neg && inexact
    | _ => !neg && inexact
  (if up then n + 1 else n, inexact)

/-- The exponent of the leading bit of m × 2^e, m ≠ 0. -/
def topExp (m : Nat) (e : Int) : Int := e + (Nat.log2 m : Int)

/-- Tininess after rounding: rounded to the mantissa width with unbounded exponent, the magnitude lies
below the smallest normal (R44, R51). -/
def tiny (f : FpFmt) (rm : Nat) (neg : Bool) (m : Nat) (e : Int) (st : Bool) : Bool :=
  let t := topExp m e
  let emin : Int := 1 - (f.bias : Int)
  decide (t < emin) &&
    !(t == emin - 1 && (quant rm neg m e st (t - f.mw)).1 == 2 ^ (f.mw + 1))

/-- The overflowed result of an IEEE format (R44). -/
def overflowBits (f : FpFmt) (rm : Nat) (neg : Bool) : Nat :=
  let toInf := match rm with
    | 0 => true
    | 1 => false
    | 2 => neg
    | _ => !neg
  (if neg then f.signBit else 0) + (if toInf then f.infBits else f.infBits - 1)

/-- One rounding into an IEEE format: bits and events (R44).  With `flush`, a tiny result is delivered as
zero of its sign (R48, R52). -/
def roundFin (f : FpFmt) (flush : Bool) (rm : Nat) (neg : Bool) (m : Nat) (e : Int) (st : Bool) : Nat × Nat :=
  let sgn := if neg then f.signBit else 0
  if m = 0 then (sgn, 0) else
  let q := max (topExp m e - f.mw) f.qmin
  let r := quant rm neg m e st q
  let b := (q - f.qmin).toNat * 2 ^ f.mw + r.1
  let tn := tiny f rm neg m e st
  if f.infBits ≤ b then (overflowBits f rm neg, evOF + evNX)
  else if tn && flush then (sgn, evUF + evNX)
  else (sgn + b, (if tn && r.2 then evUF else 0) + (if r.2 then evNX else 0))

/-- An exact value rounded into an IEEE format. -/
def roundTo (f : FpFmt) (flush : Bool) (rm : Nat) (x : Num) : Nat × Nat :=
  match x with
  | .nan => (f.nanBits, 0)
  | .inf neg => ((if neg then f.signBit else 0) + f.infBits, 0)
  | .fin neg m e => roundFin f flush rm neg m e false

/-- Rounding to FP32 under R44. -/
def roundF32 (rm : Nat) (x : Num) : Word × Nat :=
  let r := roundTo f32 false rm x
  (BitVec.ofNat 32 r.1, r.2)

/-- Narrowing to F8A, F8B or F4 (R51): the code and events. -/
def narrowTo (f : FpFmt) (rm : Nat) (x : Num) : Nat × Nat :=
  let maxCode := f.signBit - 1
  match x with
  | .nan => (f.signBit, 0)
  | .inf neg => ((if neg then f.signBit else 0) + maxCode, evOF + evNX)
  | .fin neg m e =>
    if m = 0 then (0, 0) else
    let sgn := if neg then f.signBit else 0
    let t := topExp m e
    let u := quant rm neg m e false (t - f.mw)
    -- the rounded value with unbounded exponent, as a code number
    let ub : Int := (t - f.mw - f.qmin) * 2 ^ f.mw + u.1
    if (maxCode : Int) < ub && decide (f.qmin + (f.mw : Int) ≤ t) then (sgn + maxCode, evOF + evNX)
    else
      let q := max (t - f.mw) f.qmin
      let r := quant rm neg m e false q
      let b := (q - f.qmin).toNat * 2 ^ f.mw + r.1
      let tn := tiny f rm neg m e false
      ((if b = 0 then 0 else sgn + b),
        (if tn && r.2 then evUF else 0) + (if r.2 then evNX else 0))

/-- Rounding to an integer per mode: its value and whether it changed. -/
def toInt (rm : Nat) (neg : Bool) (m : Nat) (e : Int) : Int × Bool :=
  let r := quant rm neg m e false 0
  ((if neg then -(r.1 : Int) else r.1), r.2)

/-- Conversion to an integer of bounds lo..hi (R55). -/
def toIntSat (rm : Nat) (lo hi : Int) (x : Num) : Int × Nat :=
  match x with
  | .nan => (0, evNV)
  | .inf neg => (if neg then lo else hi, evNV)
  | .fin neg m e =>
    let r := toInt rm neg m e
    if r.1 < lo then (lo, evNV) else if hi < r.1 then (hi, evNV)
    else (r.1, if r.2 then evNX else 0)

/-- An integer as an exact value. -/
def ofInt (i : Int) : Num := .fin (decide (i < 0)) i.natAbs 0

/-! ### Products and exact sums -/

/-- A term of an exact sum: its value, and whether it is a product 0 × ∞ (R57). -/
structure Term where
  x : Num
  bad : Bool := false
deriving DecidableEq, Repr

def termOf (x : Num) : Term := { x := x }

/-- The exact product of two terms; a scale is a factor like any other (R57, R60). -/
-- DESIGN CHOICE (assumption 76): a product of a NaN, a zero and an infinity is 0 × ∞ when the zero meets the infinity first.
def mulTerm (a b : Term) : Term :=
  match a.x, b.x with
  | .nan, _ => { x := .nan, bad := a.bad || b.bad }
  | _, .nan => { x := .nan, bad := a.bad || b.bad }
  | .inf s, .inf t => { x := .inf (s != t) }
  | .inf s, .fin t m _ => if m = 0 then { x := .nan, bad := true } else { x := .inf (s != t) }
  | .fin s m _, .inf t => if m = 0 then { x := .nan, bad := true } else { x := .inf (s != t) }
  | .fin s m e, .fin t n f => { x := .fin (s != t) (m * n) (e + f) }

def mulNum (a b : Num) : Term := mulTerm (termOf a) (termOf b)

def Num.isNan : Num → Bool
  | .nan => true
  | _ => false

def Num.isInf (s : Bool) : Num → Bool
  | .inf t => s == t
  | _ => false

def Num.isZero : Num → Bool
  | .fin _ m _ => m == 0
  | _ => false

def Num.sign : Num → Bool
  | .nan => false
  | .inf s => s
  | .fin s _ _ => s

/-- The negation of a value. -/
def Num.neg : Num → Num
  | .nan => .nan
  | .inf s => .inf (!s)
  | .fin s m e => .fin (!s) m e

/-- The least exponent among finite nonzero terms, at most `e`. -/
def minExp (e : Int) : List Term → Int
  | [] => e
  | t :: r => match t.x with
    | .fin _ m f => if m = 0 then minExp e r else minExp (min e f) r
    | _ => minExp e r

/-- The sum of finite terms in units of 2^e. -/
def sumUnits (e : Int) : List Term → Int
  | [] => 0
  | t :: r => (match t.x with
    | .fin s m f => if m = 0 then 0 else
        (if s then -1 else 1) * (m * 2 ^ (f - e).toNat : Nat)
    | _ => 0) + sumUnits e r

/-- An exact sum (R57): the value before its one rounding, and NV where R57 sets it. -/
def exactSum (rm : Nat) (ts : List Term) : Num × Nat :=
  if ts.any (fun t => t.bad) then (.nan, evNV)
  else if ts.any (fun t => t.x.isNan) then (.nan, 0)
  else if ts.any (fun t => t.x.isInf false) && ts.any (fun t => t.x.isInf true) then (.nan, evNV)
  else if ts.any (fun t => t.x.isInf false) then (.inf false, 0)
  else if ts.any (fun t => t.x.isInf true) then (.inf true, 0)
  else
    let e := minExp (match ts.find? (fun t => !t.x.isZero) with
      | some t => (match t.x with | .fin _ _ f => f | _ => 0)
      | none => 0) ts
    let i := sumUnits e ts
    if i = 0 then
      if ts.all (fun t => t.x.isZero && t.x.sign) then (.fin true 0 0, 0)
      else if ts.all (fun t => t.x.isZero && !t.x.sign) then (.fin false 0 0, 0)
      else (.fin (rm == 2) 0 0, 0)
    else (.fin (decide (i < 0)) i.natAbs e, 0)

/-- An exact sum rounded once to FP32. -/
def sumF32 (rm : Nat) (ts : List Term) : Word × Nat :=
  let x := exactSum rm ts
  let r := roundF32 rm x.1
  (r.1, x.2 ||| r.2)

/-! ### Comparison -/

/-- Are two values not NaN, the first below the second? −0 and +0 compare equal. -/
def Num.lt (a b : Num) : Bool :=
  match a, b with
  | .nan, _ => false
  | _, .nan => false
  | .inf s, .inf t => s && !t
  | .inf s, .fin _ _ _ => s
  | .fin _ _ _, .inf t => !t
  | .fin s m e, .fin t n f =>
    let lo := min e f
    let i : Int := (if s then -1 else 1) * (m * 2 ^ (e - lo).toNat : Nat)
    let j : Int := (if t then -1 else 1) * (n * 2 ^ (f - lo).toNat : Nat)
    decide (i < j)

def Num.eq (a b : Num) : Bool := !a.isNan && !b.isNan && !a.lt b && !b.lt a

/-- R46's minimum or maximum of two bit patterns of one format: −0 orders below +0, a single NaN yields
the other operand. -/
def minMax (f : FpFmt) (isMax : Bool) (x y : Nat) (a b : Num) : Nat :=
  if a.isNan && b.isNan then f.nanBits
  else if a.isNan then y
  else if b.isNan then x
  else
    let less := a.lt b || (a.eq b && a.sign && !b.sign)
    if less != isMax then x else y

/-! ### Division and square root -/

/-- The quotient of two nonzero finite magnitudes to at least `k` bits, with a sticky bit. -/
def divSticky (k m n : Nat) (e f : Int) : Nat × Int × Bool :=
  let sh := k + Nat.log2 n + 1
  (m * 2 ^ sh / n, e - f - sh, m * 2 ^ sh % n != 0)

/-- The integer square root, bit by bit from bit `k − 1`. -/
def isqrtFrom : Nat → Nat → Nat → Nat
  | 0, _, r => r
  | k + 1, n, r => isqrtFrom k n (if (r + 2 ^ k) * (r + 2 ^ k) ≤ n then r + 2 ^ k else r)

/-- ⌊√n⌋. -/
def isqrt (n : Nat) : Nat := isqrtFrom (Nat.log2 n / 2 + 1) n 0

/-- A division rounded to FP32 (R44, R45, R137): 0/0 and ∞/∞ are invalid; a finite nonzero value over
zero raises DZ. -/
def divF32 (rm : Nat) (a b : Num) : Word × Nat :=
  match a, b with
  | .nan, _ => (0x7FC00000, 0)
  | _, .nan => (0x7FC00000, 0)
  | .inf _, .inf _ => (0x7FC00000, evNV)
  | .inf s, .fin t _ _ => roundF32 rm (.inf (s != t))
  | .fin s _ _, .inf t => roundF32 rm (.fin (s != t) 0 0)
  | .fin s m e, .fin t n f =>
    if n = 0 then (if m = 0 then (0x7FC00000, evNV)
      else ((roundF32 rm (.inf (s != t))).1, evDZ))
    else if m = 0 then roundF32 rm (.fin (s != t) 0 0)
    else
      let d := divSticky 30 m n e f
      let r := roundFin f32 false rm (s != t) d.1 d.2.1 d.2.2
      (BitVec.ofNat 32 r.1, r.2)

end Sys2Proof.Machine
end

