-- ==== Sys2Proof/Machine/Flags.lean ====
section
/-! DEFINITION. The sticky flags, their enables and the event counts (R37, R38, R63). -/

namespace Sys2Proof.Machine

/-- The union of event sets. -/
def evAll (evs : List Nat) : Nat := evs.foldl Nat.lor 0 % 64

/-- A 16-bit count raised, stopping at 0xFFFF (R38). -/
def satAdd (c n : Nat) : Nat := min 0xFFFF (c + n)

/-- How many of the event sets hold a bit. -/
def evCount (bit : Nat) (evs : List Nat) : Nat := (evs.filter (fun e => bitAt e bit)).length

/-- A count register with counts added to its halves. -/
def addCounts (r : Word) (hi lo : Nat) : Word :=
  BitVec.ofNat 32 (satAdd (r.toNat / 2 ^ 16) hi * 2 ^ 16 + satAdd (r.toNat % 2 ^ 16) lo)

/-- The six counts of a merge: NV, DZ, OF, UF, NX, RC. -/
def Regs.mergeCounts (r : Regs) (n : Nat → Nat) : Regs :=
  { r with
    fflags := BitVec.ofNat 32 (Nat.lor r.fflags.toNat
      ((List.range 6).map (fun i => if n i = 0 then 0 else 2 ^ i)).sum)
    fcount0 := addCounts r.fcount0 (n 1) (n 0)
    fcount1 := addCounts r.fcount1 (n 3) (n 2)
    fcount2 := addCounts r.fcount2 (n 5) (n 4) }

/-- The events of one instruction, one set for each active lane and used sub-element, ORed into the flags
and added to the counts (R37, R38). -/
def Regs.mergeEvents (r : Regs) (evs : List Nat) : Regs :=
  if evAll evs = 0 then r else r.mergeCounts (fun i => evCount i evs)

/-- The enables of FFLAGS. -/
def Regs.enables (r : Regs) : Nat := fld r.fflags.toNat 8 6

/-- The enabled events among those an instruction raised (R37). -/
def Regs.fpx (r : Regs) (evs : List Nat) : Nat := Nat.land (evAll evs) r.enables

/-- A value written to FFLAGS: reserved bits ignored (R37). -/
def fflagsWrite (v : Word) : Word := v &&& 0x3F3F

/-- A value written to WDOG: bits [30:28] store 0 (R25). -/
def wdogWrite (v : Word) : Word := v &&& 0x8FFFFFFF

/-- A value written to `fmt`: bits [31:16] store 0 (R35). -/
def fmtWrite (v : Word) : Word := v &&& 0xFFFF

end Sys2Proof.Machine
end

