-- ==== Sys2Proof/Machine/Sched.lean ====
section
/-! DEFINITION. Descriptors, the creation of grids, and the chain by which gangs, workgroups, grids, seed
groups, graph nodes and queue entries retire or are killed (R10 to R16, R158, R190, R191, R275). -/

namespace Sys2Proof.Machine

/-! ### Kernel descriptors (R190, R191) -/

/-- A kernel descriptor from its 128 bytes, or the offset of its first bad field. -/
-- DESIGN CHOICE (assumption 104): bits [63:48] of its VA fields are ignored.
def parseDesc (b : List Byte) : Except Nat KDesc :=
  let f := fun (o n : Nat) => leNat ((b.drop o).take n)
  let flags := f 0x04 4
  let hva := f 0x10 8
  let x := f 0x38 2
  let y := f 0x3A 2
  let z := f 0x3C 2
  let pol := f 0x50 4
  let bad : List (Bool × Nat) := [
    (f 0 4 != 0x4B44584A, 0x00),
    (fld flags 2 30 != 0 || bitAt flags 1 != (hva != 0), 0x04),
    (f 0x08 8 % 2 != 0, 0x08),
    (hva % 2 != 0, 0x10),
    (f 0x18 8 % 4 != 0, 0x18),
    (decide (65536 < f 0x20 4), 0x20),
    (decide (64 < f 0x24 4), 0x24),
    (f 0x28 8 % 4 != 0, 0x28),
    (x == 0, 0x38), (y == 0, 0x3A), (z == 0 || decide (1024 < x * y * z), 0x3C),
    (f 0x3E 2 != ceilDiv (x * y * z) 32, 0x3E),
    (decide (262144 < f 0x40 4) || f 0x40 4 % 128 != 0, 0x40),
    (f 0x44 2 % 8 != 0 || decide (f 0x44 2 < 64) || decide (256 < f 0x44 2), 0x44),
    (decide (32 < f 0x46 2), 0x46),
    (f 0x48 4 % 1152 != 0, 0x48),
    (decide (1024 < f 0x4C 4), 0x4C),
    (fld pol 6 2 != 0 || fld pol 14 18 != 0, 0x50)]
    ++ (List.range 40).map (fun i => (f (0x58 + i) 1 != 0, 0x58 + i))
  match bad.find? (fun p => p.1) with
  | some p => .error p.2
  | none => .ok {
      sys := bitAt flags 0
      handler := if bitAt flags 1 then some (BitVec.ofNat 48 hva) else none
      entry := BitVec.ofNat 48 (f 0x08 8)
      ivlVa := f 0x18 8, ivlN := f 0x20 4, patchN := f 0x24 4, patchVa := f 0x28 8, recipeVa := f 0x30 8
      wx := x, wy := y, wz := z, gangs := f 0x3E 2, scratch := f 0x40 4, regs := f 0x44 2
      slots := f 0x46 2, spill := f 0x48 4, params := f 0x4C 4, policy := BitVec.ofNat 32 pol }

/-! ### Creation -/

/-- The word of a parameter block, which Grant may have built (R281). -/
-- DESIGN CHOICE (assumption 11): an index beyond the block takes the word that memory has there.
def Grid.paramWord (s : State) (g : Grid) (w : Nat) (who : Option Nat := none) : Except AccErr Nat :=
  if 4 * w + 4 ≤ g.block.length then .ok (leNat ((g.block.drop (4 * w)).take 4))
  else s.ereadNat g.leaf g.asid ((g.params.toNat + 4 * w) % 2 ^ 48) 4 who

/-- The patches of a kernel with the values they take from the parameter block, latched at creation
(R180, R181); an error when the table or a value cannot be read.  `who` is the gang that launches the grid. -/
-- DESIGN CHOICE (assumption 11): the `.text` section of a kernel starts at its entry rounded down to 64 KiB; byte 0x5 of an
-- entry is not looked at, and an odd offset names no instruction.
def State.latchPatches (s : State) (g : Grid) (who : Option Nat := none) : Except AccErr (List Patch) :=
  (List.range g.k.patchN).mapM (fun i => do
    let b ← s.eread g.leaf g.asid ((g.k.patchVa + 8 * i) % 2 ^ 48) 8 who
    let v ← g.paramWord s (leNat ((b.drop 6).take 2)) who
    pure { va := (g.k.entry.toNat / 65536 * 65536 + leNat (b.take 4)) % 2 ^ 48
           field := leNat ((b.drop 4).take 1), value := BitVec.ofNat 32 v })

/-- The workgroups of a grid. -/
def Grid.total (g : Grid) : Nat := g.nx * g.ny * g.nz

/-- Create a grid: its identifier (R13) and its place in the spawn tree (R14). The argument carries everything
else. -/
def State.newGrid (s : State) (g : Grid) : Nat × State :=
  let k := s.nextKey
  let f := s.leafAt g.leaf
  let id := f.gridCtr
  let next : Word := if id = 0xFFFFFFFF then 1 else id + 1
  let root := if g.seed = .child then g.root else k
  let s := { s with nextKey := k + 1 }
  let s := s.setLeafAt g.leaf { f with gridCtr := next }
  let s := s.setGridAt k { g with
    live := true, id := id, root := root, born := s.now,
    spawn := if g.seed = .child then 0 else 1 }
  if g.seed = .child then
    let s := s.setGridAt g.parent { s.gridAt g.parent with kids := (s.gridAt g.parent).kids + 1 }
    (k, s.setGridAt root { s.gridAt root with spawn := (s.gridAt root).spawn + 1 })
  else (k, s)

/-! ### Completion of queue entries and graph nodes -/

/-- The entry of a queue completes: CONS and TLINE advance at the same moment (R272); a halted queue
advances neither (R158). -/
def State.entryComplete (s : State) (l q : Nat) : State :=
  let x := s.queueAt l q
  if x.halt then s.setQueue l q { x with run := .none, hold := .none }
  else s.setQueue l q { x with run := .none, hold := .none, cons := x.cons + 1, tline := x.tline + 1 }

def State.nodeAt (s : State) (i : Nat) : Node := tget {} s.nodes i
def State.setNode (s : State) (i : Nat) (n : Node) : State := { s with nodes := tput s.nodes i n }

/-- A GRAPHCNT record (R16, R274): byte 3 marks a `lnch.sig`, with its PC and grid. -/
def State.graphcnt (s : State) (l q done found mark : Nat) (grid pc : Nat) : State :=
  s.record l q (leBytes 1 0 ++ leBytes 1 8 ++ leBytes 1 4 ++ leBytes 1 mark ++ leBytes 4 grid ++ leBytes 8 pc
    ++ leBytes 8 0 ++ leBytes 2 done ++ leBytes 2 found ++ leBytes 4 0)

/-- A descriptor as a queue, a node or Grant reads it; an error gives the detail of its record (R273), and the access
that failed. -/
def State.readDesc (s : State) (l a va : Nat) : Except (Nat × Option AccErr) KDesc :=
  if va % 128 ≠ 0 then .error (0xFFFFFFFF, none) else
  match s.eread l a va 128 with
  | .error e => .error (0xFFFFFFFF, some e)
  | .ok b => match parseDesc b with
    | .error o => .error (o, none)
    | .ok k => .ok k

/-- The descriptor of a seed grid, of one gang (R11). -/
def State.seedDesc (s : State) (l a va : Nat) : Except (Nat × Option AccErr) KDesc := do
  let k ← s.readDesc l a va
  if k.gangs = 1 then pure k else throw (0x3E, none)

/-- A grid with its patches latched (R180). -/
def State.withPatches (s : State) (g : Grid) : Except (Nat × Option AccErr) Grid :=
  match s.latchPatches g with
  | .ok ps => .ok { g with patches := ps }
  | .error e => .error (0xFFFFFFFF, some e)

/-- A node of a running graph is over: the entry completes with its last node, and its nodes are free (R16,
R273).  A node of no running graph is freed. -/
def State.nodeOver (s : State) (i : Nat) : State :=
  let n := s.nodeAt i
  let x := s.queueAt n.leaf n.queue
  let free := fun (s : State) => ({ s with nodes := tdel s.nodes i } : State)
  match x.run with
  | .graph d first m left =>
    if d ≠ i / 65536 ∨ i % 65536 < first ∨ first + m ≤ i % 65536 then free s
    else if left ≤ 1 then
      let s := { s with nodes := s.nodes.filter (fun p =>
        decide (p.1 < d * 65536 + first) || decide (d * 65536 + first + m ≤ p.1)) }
      s.entryComplete n.leaf n.queue
    else s.setQueue n.leaf n.queue { x with run := .graph d first m (left - 1) }
  | _ => free s

/-- One predecessor of a node completes: the counter goes down; at 0 already, GRAPHCNT (R16).  The second
result says that the node is now ready. -/
def State.signalNode (s : State) (from' : Nat) (i : Nat) (mark grid pc : Nat) : State × Bool :=
  let n := s.nodeAt i
  if n.count = 0 then (s.graphcnt n.leaf n.queue from' (i % 65536) mark grid pc, false)
  else (s.setNode i { n with count := n.count - 1 }, n.count == 1)

/-- Numbers in ascending order. -/
def ascending (l : List Nat) : List Nat := sortBy (fun a b => decide (a ≤ b)) l

/-- The seed grid of a node (R11, R16). -/
def State.nodeGrid (s : State) (i : Nat) : Except (Nat × Option AccErr) Grid := do
  let n := s.nodeAt i
  let x := s.queueAt n.leaf n.queue
  let k ← s.seedDesc n.leaf x.asid.toNat n.desc
  s.withPatches {
    seed := .node (i / 65536) (i % 65536), k := k, params := BitVec.ofNat 48 n.params, leaf := n.leaf,
    queue := n.queue, asid := x.asid.toNat, prio := x.prio.toNat }

/-- The successors of a node are signalled; those now ready, in the order of the list. -/
def State.signalAll (s : State) (i : Nat) : State × List Nat :=
  (s.nodeAt i).succ.foldl (fun (acc : State × List Nat) j =>
    let r := acc.1.signalNode (i % 65536) j 0 0 0
    (r.1, if r.2 then acc.2 ++ [j] else acc.2)) (s, [])

/-- Launch ready nodes in ascending index as seed groups (R11, R16).  A node whose descriptor or patches cannot
start a seed group completes at once; one whose access waits stays ready.  The fuel bounds such completions. -/
-- DESIGN CHOICE (assumption 12): a node that cannot start writes the queue record of R273 and completes.
def State.launchNodes : Nat → State → List Nat → State
  | 0, s, _ => s
  | _, s, [] => s
  | f + 1, s, i :: rest =>
    let n := s.nodeAt i
    match s.nodeGrid i with
    | .ok g => State.launchNodes f ((s.setNode i { n with launched := true, hold := .none }).newGrid g).2 rest
    | .error (detail, e) =>
      match e.bind (fun e => (e.next n.hold s.now).map (fun h => (e, h))) with
      | some (e, h) => State.launchNodes f ((s.setNode i { n with hold := h }).askOnce n.leaf n.hold e) rest
      | none =>
        let s := s.queueRecord n.leaf n.queue 2 detail
        let s := s.setNode i { n with launched := true, done := true, hold := .none }
        let r := s.signalAll i
        State.launchNodes f (r.1.nodeOver i) (ascending (rest ++ r.2))

/-- The nodes of a queue's graph that are ready and not launched, whose wait is over. -/
def State.readyNodes (s : State) (l q : Nat) : List Nat :=
  ascending ((s.nodes.filter (fun p => p.2.used && p.2.leaf == l && p.2.queue == q && p.2.count == 0 && !p.2.launched
    && (p.2.hold == .none || p.2.hold.failed.isSome))).map (fun p => p.1))

/-- A node's seed group has completed: its successors are signalled, and the entry completes with its last
node (R16, R273); a halted queue's graph goes no further (R158). -/
def State.nodeComplete (s : State) (i : Nat) : State :=
  let n := s.nodeAt i
  let s := s.setNode i { n with done := true }
  if (s.queueAt n.leaf n.queue).halt then s.nodeOver i else
  let r := s.signalAll i
  State.launchNodes 65537 (r.1.nodeOver i) (ascending r.2)

def State.grantAt (s : State) (q : Nat) : Grant := tget {} s.grants q
def State.setGrant (s : State) (q : Nat) (g : Grant) : State := { s with grants := tput s.grants q g }

/-- The leading retired batches leave the list, and the counter reaches the last ticket of the last of them
(R281). -/
def grantAdvance : List Batch → BitVec 64 → List Batch × BitVec 64
  | [], c => ([], c)
  | b :: t, c =>
    if b.retired then grantAdvance t (match b.rows.getLast? with | some r => r.ticket | none => c)
    else (b :: t, c)

/-- A batch's service grid has retired (R106, R281). -/
def State.grantRetired (s : State) (q k : Nat) : State :=
  let g := s.grantAt q
  let bs := g.batches.map (fun b => if b.k = k then { b with retired := true } else b)
  let r := grantAdvance bs g.counter
  s.setGrant q { g with batches := r.1, counter := r.2 }

/-- A seed group is complete (R14). -/
def State.seedComplete (s : State) (g : Grid) : State :=
  match g.seed with
  | .child => s
  | .queue => if (s.queueAt g.leaf g.queue).run == .grid g.root then s.entryComplete g.leaf g.queue else s
  | .node d n => s.nodeComplete (d * 65536 + n)
  | .grant q k => s.grantRetired q k

/-- A grid retires when all its workgroups and every grid it created have retired; the spawn-tree counter
goes down (R14, R15).  The fuel bounds the depth of the tree. -/
def State.retireGrid : Nat → State → Nat → State
  | 0, s, _ => s
  | f + 1, s, k =>
    let g := s.gridAt k
    if g.live && g.liveWgs == 0 && decide (g.total ≤ g.nextWg) && g.kids == 0 then
      let s := s.setGridAt k { g with live := false }
      -- with no grid running, no changed code can be fetched as it was (R77)
      let s := { s with old := if s.grids.any (fun p => p.2.live) then s.old else [] }
      let s := s.setGridAt g.root { s.gridAt g.root with spawn := (s.gridAt g.root).spawn - 1 }
      if g.seed = .child then
        let s := s.setGridAt g.parent { s.gridAt g.parent with kids := (s.gridAt g.parent).kids - 1 }
        State.retireGrid f s g.parent
      else s.seedComplete (s.gridAt k)
    else s

/-! ### Workgroups -/

/-- A barrier completes when every gang that has not retired has arrived; the arrivals that counted toward the next
generation stand in it (R22).  The first argument bounds the generations that complete. -/
def State.barRun (w k : Nat) : Nat → State → State
  | 0, s => s
  | n + 1, s =>
    let x := s.wgAt w
    let b := (x.bars.toList.getD k {})
    let open' := x.gangs.filter (fun j => (s.gangAt j).st != .retired)
    if !open'.isEmpty && open'.all (fun j => bitAt b.arrived.toNat (s.gangAt j).slot)
    then State.barRun w k n (s.setWgAt w { x with bars := x.bars.setIfInBounds k { arrived := b.next, gen := b.gen + 1 } })
    else s

def State.barCheck (s : State) (w k : Nat) : State := State.barRun w k 2 s

/-- The cores of a leaf, by number in the package, ascending. -/
def PartRec.coreList (p : PartRec) : List Nat :=
  (p.cores.mapIdx (fun d x => (List.range x.2).map (fun i => d * 96 + x.1 + i))).flatten

/-- The times of a list that lie within the window of R277. -/
def recent (now : Nat) (l : List Nat) : List Nat := l.filter (fun t => decide (now < t + 270))

/-- When an idle core deactivates: once its last workgroup has left, and a window after the ACTMAX-th deactivation before
it (R277). -/
def Leaf.deactivates (f : Leaf) (since : Nat) : Nat :=
  match (f.deacts.drop (f.part.actmax - 1)).head? with
  | some t => max since (t + 270)
  | none => since

/-- Cores whose last workgroup has left deactivate in the order in which they were left, each at the time the ramp lets it,
as far as those times have come (R277). -/
def State.settleRamp (s : State) (l : Nat) : State :=
  let left := (s.leafAt l).part.coreList.filter (fun c => (s.coreAt c).active && (s.coreAt c).wgs.isEmpty)
  (sortBy (fun a b => decide ((s.coreAt a).since ≤ (s.coreAt b).since)) left).foldl (fun s c =>
    let x := s.coreAt c
    let f := s.leafAt l
    let t := f.deactivates x.since
    if t ≤ s.now then
      (s.setCoreAt c { x with active := false }).setLeafAt l { f with deacts := (t :: f.deacts).take 96 }
    else s) s

/-- Release what a workgroup holds on its core, which deactivates with its last one (R15, R249, R277). -/
def State.leaveCore (s : State) (w : Nat) : State :=
  let x := s.wgAt w
  let c := s.coreAt x.core
  let own := fun (t : Tab Nat) => t.filter (fun p => p.2 != w)
  let rest := c.wgs.filter (fun k => k != w)
  (s.setCoreAt x.core { c with
    slotOwner := own c.slotOwner, tileOwner := own c.tileOwner, metaOwner := own c.metaOwner,
    wgs := rest, since := if rest.isEmpty then s.now else c.since }).settleRamp (s.gridAt x.grid).leaf

/-- A workgroup retires when all its gangs have (R15). -/
def State.retireWg (s : State) (w : Nat) : State :=
  let x := s.wgAt w
  if x.st != .retired && x.st != .vacant && x.gangs.all (fun j => (s.gangAt j).st == .retired) then
    let s := s.leaveCore w
    let s := s.setWgAt w { x with st := .retired, scr := [], g := Vector.replicate 16 0, gNext := [], slots := 0, tiles := 0, metas := 0, badTiles := 0 }
    let g := s.gridAt x.grid
    let s := s.setGridAt x.grid { g with liveWgs := g.liveWgs - 1 }
    State.retireGrid 13 s x.grid
  else s

/-- A gang retires: it unpins its generation, its transaction is discarded, its spill area is released,
and barriers, workgroup and grid follow (R15, R22, R40, R113, R266). -/
def State.retireGang (s : State) (k : Nat) : State :=
  let g := s.gangAt k
  let x := s.wgAt g.wg
  let gr := s.gridAt x.grid
  let a := s.asidAt gr.leaf g.asid
  let s := s.setAsid gr.leaf g.asid (a.pin g.gen (fun n => n - 1))
  let q := s.queueAt gr.leaf gr.queue
  let s := s.setQueue gr.leaf gr.queue { q with spills := q.spills.filter (fun p => !(p == (g.spillVa, g.spillLen) && g.spillLen != 0)) }
  let s := s.setGangAt k { g with st := .retired, edits := [], wait := .none, stores := [], ckpts := [] }
  let s := [0, 1, 2, 3].foldl (fun s b => s.barCheck g.wg b) s
  s.retireWg g.wg

/-! ### Killing (R158) -/

/-- A gang is stopped: unperformed events and commands not started are discarded, started ones run on. -/
def Gang.killed (g : Gang) : Gang :=
  if g.st == .live || g.st == .halted || g.st == .saved then
    { g.unwait .none with
      st := .halted, ext := none, stores := [], ckpts := [], trap := false, forward := none,
      cmds := g.cmds.filter (fun c => c.st != .pending), failMx := none, failCp := none, releasing := none }
  else g

/-- Kill a workgroup; a saved one is off its core and retires at once. -/
def State.killWg (s : State) (w : Nat) : State :=
  let x := s.wgAt w
  if x.st == .vacant || x.st == .retired then s else
  let s := x.gangs.foldl (fun s k => s.setGangAt k (s.gangAt k).killed) s
  let s := s.setWgAt w { x with killed := true, st := if x.st == .saved then .live else x.st }
  if x.st == .saved then
    let gr := s.gridAt x.grid
    let q := s.queueAt gr.leaf gr.queue
    let s := s.setQueue gr.leaf gr.queue { q with saves := q.saves.filter (fun p => p != (x.recVa, x.recLen)) }
    x.gangs.foldl (fun s k => if (s.gangAt k).st == .retired then s else s.retireGang k) s
  else s

/-- A grid is `k` or one of its descendants. -/
def State.under (s : State) (k : Nat) : Nat → Nat → Bool
  | 0, _ => false
  | f + 1, j => if j = k then true else
    let g := s.gridAt j
    if g.seed = .child then s.under k f g.parent else false

/-- Kill a grid and its descendants: their workgroups, and the placement of those not placed yet. -/
def State.killGrid (s : State) (k : Nat) : State :=
  let ks := (s.grids.map (fun p => p.1)).filter (fun j => (s.gridAt j).live && s.under k 13 j)
  let s := ks.foldl (fun s j => let g := s.gridAt j; s.setGridAt j { g with killed := true, nextWg := g.total }) s
  let ws := (s.wgs.map (fun p => p.1)).filter (fun w => ks.contains (s.wgAt w).grid)
  let s := ws.foldl (fun s w => s.killWg w) s
  ks.reverse.foldl (fun s j => State.retireGrid 13 s j) s

/-- The nodes of a queue's graph that have not launched are discarded; the entry ends with those that have. -/
def State.dropNodes (s : State) (l q : Nat) : State :=
  match (s.queueAt l q).run with
  | .graph d first m _ =>
    let mine := fun (i : Nat) => decide (d * 65536 + first ≤ i) && decide (i < d * 65536 + first + m)
    let left := (s.nodes.filter (fun p => mine p.1 && p.2.launched && !p.2.done)).length
    let s := { s with nodes := s.nodes.filter (fun p => !mine p.1 || (p.2.launched && !p.2.done)) }
    if left = 0 then s.entryComplete l q else s.setQueue l q { s.queueAt l q with run := .graph d first m left }
  | _ => s

/-- Kill self at queue level: every grid of the current command, and the queue halts (R158). -/
def State.killQueue (s : State) (l q : Nat) : State :=
  let x := s.queueAt l q
  let s := (s.setQueue l q { x with halt := true }).dropNodes l q
  let roots := (s.grids.filter (fun p => p.2.live && p.2.leaf == l && p.2.queue == q
    && (match p.2.seed with | .queue => true | .node _ _ => true | _ => false))).map (fun p => p.1)
  let s := roots.foldl (fun s k => s.killGrid k) s
  match (s.queueAt l q).run with
  | .wait _ _ => s.entryComplete l q
  | _ => s

/-- Kill self at partition level (R158): queues halt, the partition's workgroups are discarded without
records, Grant queues lose their batches and their counters reach the last ticket. -/
def State.killPartition (s : State) (l : Nat) : State :=
  let f := s.leafAt l
  let s := s.setLeafAt l { f with queues := (List.range 64).map (fun q =>
    (q, { tget ({} : Queue) f.queues q with halt := true, run := .none, spills := [], saves := [] })) }
  let mine := fun (k : Nat) => (s.gridAt k).leaf == l && (s.gridAt k).live
  let ws := (s.wgs.map (fun p => p.1)).filter (fun w => mine (s.wgAt w).grid && (s.wgAt w).st != .retired)
  let s := ws.foldl (fun s w =>
    let x := s.wgAt w
    let s := x.gangs.foldl (fun s k =>
      let g := s.gangAt k
      let a := s.asidAt l g.asid
      let s := if g.st == .retired then s else s.setAsid l g.asid (a.pin g.gen (fun n => n - 1))
      s.setGangAt k { g.killed with st := .retired, cmds := [], edits := [] }) s
    let s := s.leaveCore w
    let c := s.coreAt x.core
    let s := s.setCoreAt x.core { c with quarters := c.quarters.filter (fun t => !x.gangs.contains t.gang) }
    s.setWgAt w { x with st := .retired, killed := true, gNext := [] }) s
  let s := { s with
    grids := tmap s.grids (fun _ g => if g.leaf == l && g.live then { g with live := false, killed := true, spawn := 0, kids := 0, liveWgs := 0 } else g)
    nodes := s.nodes.filter (fun p => p.2.leaf != l)
    grants := tmap s.grants (fun _ g => if g.leaf == l then { g with rows := [], batches := [], counter := g.ticket } else g) }
  s

end Sys2Proof.Machine
end

