-- ==== Sys2Proof/Machine/Ops.lean ====
section
/-! DEFINITION. The shared operations of every meaning: retiring an instruction, stalling, taking an
exception, containment, and returning from an exception (R26, R152 to R158). -/

namespace Sys2Proof.Machine

abbrev Out := Host.Outcome State Fault Refusal

/-! ### Program counter and watchdog -/

/-- The address of the word itself: after its EXT, when it has one (R176). -/
def State.wordPc (s : State) : Va := if s.gang.ext.isSome then s.r.pc + 4 else s.r.pc

/-- The address that follows an instruction whose last word has `len` bytes (R166). -/
def State.nextPc (s : State) (len : Nat) : Va := s.wordPc + BitVec.ofNat 48 len

/-- The armed count of WDOG, none when it is disarmed (R25). -/
def armedAt (wdog : Word) : Option Nat :=
  if bitAt wdog.toNat 31 && fld wdog.toNat 0 24 != 0 then some (fld wdog.toNat 0 24 * 2 ^ fld wdog.toNat 24 4) else none

/-- The watchdog's count and window after an instruction retires outside trap class (R26): `pc` is the
instruction's address, `word` that of the word after its prefix, `jump` where it transfers to. -/
-- DESIGN CHOICE (assumption 68): the window of a backward branch with a prefix ends at the branch's own word.
def Regs.watch (r : Regs) (pc word : Va) (jump : Option Va) : Regs :=
  let win := match jump with
    | some t => if t ≤ word then some (t, word) else r.wdWin
    | none => r.wdWin
  let inside := match win with
    | some (lo, hi) => decide (lo ≤ pc) && decide (pc ≤ hi)
    | none => false
  if inside then
    { r with wdWin := win, wdCount := r.wdCount + 1, wdDue := armedAt r.wdog == some (r.wdCount + 1) }
  else { r with wdWin := none, wdCount := 0, wdDue := false }

/-- The count starts again, with an empty window (R26). -/
def Regs.watchReset (r : Regs) : Regs := { r with wdWin := none, wdCount := 0, wdDue := false }

/-- The gang moves past the instruction it has executed: to `jump` when it transfers, else to the next
address; the watchdog counts; the prefix is used up. -/
def Gang.advance (g : Gang) (len : Nat) (jump : Option Va) : Gang :=
  let word := if g.ext.isSome then g.r.pc + 4 else g.r.pc
  let r := if g.trap then g.r else g.r.watch g.r.pc word jump
  { g with
    r := { r with pc := jump.getD (word + BitVec.ofNat 48 len) }
    ext := none, wait := .none, promoted := false, seq := g.seq + 1 }

/-- Retire an instruction of `len` bytes that occupied its stream for `cost` cycles (R18). -/
def State.advance (s : State) (cost len : Nat) (jump : Option Va := none) : State :=
  (s.setGang (s.gang.advance len jump)).tick cost

def State.retire (s : State) (cost : Nat := 1) (len : Nat := 4) (jump : Option Va := none) : Out :=
  .next (s.advance cost len jump)

/-- Nothing happens: the gang waits and tries the instruction again (R89, R90, R279). -/
def State.stallAs (s : State) (w : Wait) : Out :=
  .next ((s.setGang { s.gang with ext := none, wait := w }).tick 1)

def State.stall (s : State) : Out :=
  s.stallAs (match s.gang.wait with
    | .none => .stall
    | w => w)

/-! ### Containment (R157, R158) -/

/-- The fault class of a code: program 0, data loss 2 (R152); a transient fault is class 1 and has no code
(R159). -/
def faultClass (code : Nat) : Nat := if code = tcDATALOSS then 2 else 0

/-- The action of a class in a policy word, at a bit base (R190). -/
def actionAt (policy : Word) (base cls : Nat) : Nat := fld policy.toNat (base + 2 * cls) 2

/-- The containment levels of a gang, in order: level number, action, and the grid for levels 1 and 2. -/
-- DESIGN CHOICE (assumption 3): no access of R294, R295 or a ring sets the words of the queue and the partition: they keep
-- the defaults.
def State.levels (s : State) (cls : Nat) : List (Nat × Nat × Nat) :=
  let g := s.gang
  let k := (s.wgAt g.wg).grid
  let gr := s.gridAt k
  let up := (s.ancestors 13 k).tail
  [(0, actionAt gr.k.policy 0 cls, k), (1, actionAt gr.k.policy 8 cls, k)]
  ++ up.map (fun j => (2, actionAt (s.gridAt j).k.policy 8 cls, j))
  ++ [(3, actionAt (s.queueAt gr.leaf gr.queue).policy 0 cls, 0),
      (4, (let a := actionAt (s.leafAt gr.leaf).policy 0 cls
           if a = 3 then 2 else a), 0)]

/-- Apply kill self at a level. -/
def State.killAt (s : State) (level grid : Nat) : State :=
  let g := s.gang
  let gr := s.gridAt (s.wgAt g.wg).grid
  match level with
  | 0 => s.killWg g.wg
  | 1 => s.killGrid grid
  | 2 => s.killGrid grid
  -- a Grant service grid is of no command: its own tree goes with the queue (R280)
  | 3 => (s.killQueue gr.leaf gr.queue).killGrid gr.root
  | _ => s.killPartition gr.leaf

/-- The error record of an absorption (R158). -/
-- DESIGN CHOICE (assumption 103): its TF_PC is the whole PC of 48 bits.
def State.errorRecord (s : State) (f : FaultRec) (code hcode level action : Nat) : State :=
  let g := s.gang
  let gr := s.gridAt (s.wgAt g.wg).grid
  s.record gr.leaf gr.queue (leBytes 1 code ++ leBytes 1 (level + 8 * action) ++ leBytes 1 hcode ++ leBytes 1 g.slot
    ++ leBytes 4 gr.id.toNat ++ leBytes 8 f.pc.toNat ++ leBytes 6 f.addr.toNat ++ leBytes 2 g.asid
    ++ leBytes 4 f.info.toNat ++ leBytes 4 f.lanes.toNat)

/-- A commit that a handler issued to one of s28–s31 and that has not started writes no register any more: those
registers return from the shadow (R156, R158). -/
-- DESIGN CHOICE (assumption 96): the commit closes its batch all the same.
def Cmd.unshadowed (c : Cmd) : Cmd :=
  match c.op with
  | .commit reg num true => { c with op := .commit (if 28 ≤ reg then 32 else reg) num false }
  | _ => c

/-- What a gang waits for that resumes at an address: at its own instruction it has arrived at its barrier and waits on
(R22). -/
def Gang.waitAt (g : Gang) (pc : Va) : Wait :=
  match g.wait with
  | .bar k gen => if pc = g.r.pc then .bar k gen else .none
  | _ => .none

/-- The gang resumes after an ignored fault (R158). -/
-- DEDUCED (assumption 15): a fault of a recipe leaves the recipe running.
-- DESIGN CHOICE (assumption 93): the watchdog's count and window stay, as R26 names `sys.eret` alone.
def Gang.ignore (g : Gang) (f : FaultRec) : Gang :=
  if g.recipe.isSome then { g.unwait .none with r := { g.r with pc := f.resume }, ext := none, promoted := false } else
  let r := if g.trap then
      { g.r with
        s := (List.range 4).foldl (fun v i => v.setIfInBounds (28 + i) (g.shadow.toList.getD i 0)) g.r.s
        exec := f.exec, fmt := f.fmt }
    else g.r
  { g.unwait (g.waitAt f.resume) with
    r := { r with pc := f.resume }, trap := false, ext := none, recipe := none, promoted := false
    releasing := none
    cmds := if g.trap then g.cmds.map Cmd.unshadowed else g.cmds }

/-- The gang starts its interval's recipe, at trap class, to go on after the `ctl.ivl` at its PC (R164). -/
def Gang.startRecipe (g : Gang) (base off : Nat) : Gang :=
  { g with
    trap := true, recipe := some (g.ivl, off), fault := { resume := g.r.pc }
    r := { g.r with pc := BitVec.ofNat 48 (base + off) } }

/-- The gang is back at its flashback point: what it issued since is discarded, and its registers are those it had there
(R5, R6, R162). -/
-- DEDUCED (assumption 14): every register returns, those outside the SAVE mask and those below the window among them.
def Gang.toPoint (g : Gang) (quota : Nat) : Gang :=
  { g.discardFrom g.flash.seq with
    trap := false, recipe := none, releasing := none, promoted := false
    spilled := keepSpilled quota g.flash.regs.below.length g.spilled
    r := g.flash.regs }

/-- A gang at its flashback point goes on behind the `ctl.ivl` there, with the registers it had and at level 0; the
watchdog counts the `ctl.ivl`, as it did the first time (R6, R26, R91, R164). -/
-- DEDUCED (assumption 14): with every register there, no recipe runs.
def Gang.reenter (g : Gang) : Gang :=
  { g with r := { g.r.watch g.r.pc g.r.pc none with pc := g.r.pc + 4 }, level := 0, rolls := [] }

/-- The gang rewinds to its flashback point and stops there (R162, R163). -/
def Gang.stopAtPoint (g : Gang) (quota : Nat) : Gang := { g.toPoint quota with st := .saved, kind := 1, forward := none }

/-- The gang stops where it stands, to be saved whole: a release that waits starts again (R163, R250). -/
def Gang.stopHere (g : Gang) : Gang := { g with st := .saved, kind := 0, ext := none, forward := none, releasing := none }

/-- A gang that an ignored fault has brought out of trap class while its pre-emption is pending is dealt with according to
its state: at a valid point it stops, waiting at its barrier it stops where it stands, else it runs forward
(R155, R163). -/
def Gang.outOfTrap (g : Gang) (quota : Nat) : Gang :=
  if g.forward.isNone || g.trap || g.st != .live then g
  else if g.flash.valid then g.stopAtPoint quota
  else match g.wait with
    | .bar _ _ => g.stopHere
    | _ => g

/-- The gang rewinds to its flashback point and re-executes, a halted one too (R158, R162); one that has stopped for a
pre-emption, whose pre-emption is pending, or whose workgroup is being pre-empted when it has halted, stops there (R163). -/
def State.rewind (s : State) : Gang :=
  let g := s.gang
  let stops := g.st == .saved || g.forward.isSome || (g.st == .halted && s.wg.st == .preempting)
  let g := { g with flash := { g.flash with tries := g.flash.tries + 1 } }
  if stops then g.stopAtPoint (s.quota s.gang) else { (g.toPoint (s.quota s.gang)).reenter with st := .live }

/-- A fault goes to the containment levels: the first whose action is not kill parent absorbs it. `hcode`
is the handler's own fault code; `cls` the class. -/
-- DESIGN CHOICE (assumption 29): the record of a transient fault gives DATALOSS as its code when the action is kill self,
-- the level's own or one that a retry has turned into, and 0 for ignore and retry.
def State.contain (s : State) (f : FaultRec) (hcode cls : Nat) : State :=
  match (s.levels cls).find? (fun p => p.2.1 != 3) with
  | none => s
  | some (level, action, grid) =>
    let g := s.gang
    let canRetry := g.flash.valid && decide (g.flash.tries < 3)
    let act := if action = 1 && !canRetry then 2 else action
    let code := if cls = 1 && act = 2 then tcDATALOSS else f.code
    let s := s.errorRecord f code hcode level act
    match act with
    | 0 => s.setGang ((s.gang.ignore f).outOfTrap (s.quota s.gang))
    | 1 => s.setGang s.rewind
    | _ => s.killAt level grid

/-! ### Taking an exception (R154, R155) -/

/-- Trap entry: the trap frame is written, s28–s31 go to the shadow and hold code, lanes, address and
information, the gang enters trap class and jumps to the handler. -/
def Gang.enterTrap (g : Gang) (f : FaultRec) (handler : Va) : Gang :=
  let lo : Word := f.addr.setWidth 32
  { g with
    shadow := #v[g.r.s[28], g.r.s[29], g.r.s[30], g.r.s[31]]
    trap := true
    fault := f
    ext := none
    wait := .none
    promoted := false
    releasing := none
    r := { g.r with
      s := (((g.r.s.set 28 (BitVec.ofNat 32 f.code)).set 29 f.lanes).set 30 lo).set 31 f.info
      tfPc := f.pc.setWidth 32
      tfExec := g.r.exec
      tfFmt := g.r.fmt
      tfCode := BitVec.ofNat 32 f.code
      tfLanes := f.lanes
      tfAddr := f.addr
      tfInfo := f.info
      pc := handler } }

/-- Take a trap: one of a recipe goes to containment (R164); at trap class the fault first raised does (R155); with a handler
the gang enters it; with none it goes straight to containment (R154). -/
def State.takeTrap (s : State) (f : FaultRec) : State :=
  let g := s.gang
  if g.recipe.isSome then s.contain f 0 (faultClass f.code)
  else if g.trap then s.contain g.fault f.code (faultClass g.fault.code)
  else match (s.gridAt (s.wgAt g.wg).grid).k.handler with
    | some h => s.setGang (g.enterTrap f h)
    | none => s.contain f 0 (faultClass f.code)

/-- The record of a precise fault at the current instruction, whose last word has `len` bytes. -/
def State.faultAt (s : State) (len code : Nat) (lanes : Word) (addr info : Nat) : FaultRec :=
  { code := code, pc := s.r.pc, lanes := lanes, addr := BitVec.ofNat 48 addr, info := BitVec.ofNat 32 info,
    exec := s.r.exec, fmt := s.r.fmt, resume := s.nextPc len }

/-- Raise a precise trap. A trap of a speculative instruction waits until the gang holds no checkpoint
(R87, R154). -/
def State.raise (s : State) (len code : Nat) (lanes : Word := 0) (addr : Nat := 0) (info : Nat := 0) : Out :=
  if s.quiet then .next ((s.takeTrap (s.faultAt len code lanes addr info)).tick 1) else s.stall

/-- ILLOP with the lanes of a lane family, or with none (R152). -/
def State.illop (s : State) (len : Nat) (laneFamily : Bool) (info : Nat := 0) : Out :=
  s.raise len tcILLOP (if laneFamily then s.r.exec else 0) 0 info

/-- A boundary trap after an instruction that completed: TF_PC is the next PC; when the watchdog's count
was reached as well, TF_INFO[31] says so (R152, R153). -/
def State.boundary (s : State) (code info : Nat) : State :=
  let g := s.gang
  let due := g.r.wdDue
  let s := s.setGang { g with r := { g.r with wdDue := false } }
  s.takeTrap { code := code, pc := g.r.pc, info := BitVec.ofNat 32 (info + if due then 2 ^ 31 else 0),
               exec := g.r.exec, fmt := g.r.fmt, resume := g.r.pc }

/-- Retire an instruction with its floating events, from the state `s0` before it to the state `s` with its
effects: flags and counts merge, and an enabled event turns into FPX on the boundary (R37). -/
def State.retireEv (s0 s : State) (cost len : Nat) (evs : List Nat) : Out :=
  let s1 := s.setR (s.r.mergeEvents evs)
  let s2 := s1.advance cost len
  let x := s1.r.fpx evs
  if x = 0 then .next s2
  else if s0.quiet then .next (s2.boundary tcFPX x)
  else s0.stall

/-! ### Returning from an exception (R156, R214) -/

/-- The gang after `sys.eret`, with bits [47:32] of the PC kept; a target with bit 0 set is ALIGN, raised
by the meaning. -/
def Gang.eret (g : Gang) : Gang :=
  let hi : BitVec 16 := (g.r.pc >>> 32).setWidth 16
  { g with
    trap := false
    ext := none
    wait := .none
    recipe := none
    promoted := false
    seq := g.seq + 1
    cmds := g.cmds.map Cmd.unshadowed
    r := { g.r.watchReset with
      pc := hi ++ g.r.tfPc
      exec := g.r.tfExec &&& g.launched
      fmt := fmtWrite g.r.tfFmt
      s := (((g.r.s.set 28 g.shadow[0]).set 29 g.shadow[1]).set 30 g.shadow[2]).set 31 g.shadow[3] } }

end Sys2Proof.Machine
end

