-- ==== Sys2Proof/Machine/Operands.lean ====
section
/-! DEFINITION. Operand selectors, shape tags, merging writes, and the frame every lane instruction shares
(R29 to R33, R170 to R172, R215). -/

namespace Sys2Proof.Machine

/-! ### Shapes (R29 to R31) -/

/-- Lane L's value. -/
def VReg.at (v : VReg) (l : Fin 32) : Word :=
  match v with
  | .u b => b
  | .a b t => b + BitVec.ofNat 32 l.val * t
  | .g e => e[l]

def VReg.isU : VReg → Bool
  | .u _ => true
  | _ => false

def VReg.isA : VReg → Bool
  | .a _ _ => true
  | _ => false

def VReg.isG : VReg → Bool
  | .g _ => true
  | _ => false

/-- An affine result; a stride of 0 is recorded as U (R29). -/
def VReg.affine (base stride : Word) : VReg := if stride = 0 then .u base else .a base stride

/-- The tag code of R29. -/
def VReg.code : VReg → Nat
  | .u _ => 0
  | .a _ _ => 1
  | .g _ => 2

/-- A general result from its lanes. -/
def VReg.gen (f : Fin 32 → Word) : VReg := .g (tab f)

/-- R31: merge a result into the old register under an active mask. -/
def VReg.merge (old new : VReg) (m launched : Word) : VReg :=
  if m = 0 then old
  else if m = launched && !new.isG then new
  else match old, new with
    | .u x, .u y => if x = y && m != launched then .u x else .gen (fun l => if lane m l then new.at l else old.at l)
    | .a x t, .a y w => if x = y && t = w && m != launched then .a x t else .gen (fun l => if lane m l then new.at l else old.at l)
    | _, _ => .gen (fun l => if lane m l then new.at l else old.at l)

/-- R30's first rule and its default: U when every vector source is U, else G. -/
def VReg.like (srcs : List VReg) (f : Fin 32 → Word) : VReg :=
  if srcs.all VReg.isU then .u (f 0) else .gen f

/-! ### Selectors (R170, R171) -/

/-- How an instruction reads an operand: a 32-bit word, FP32, or a pair of 16-bit values in FP16 or BF16. -/
inductive OpKind where
  | int
  | fp
  | pair (bf : Bool)
deriving DecidableEq, Repr

/-- The constants 0x70–0x78. -/
def constOf (k : OpKind) (i : Nat) : Word :=
  let both := fun (h : Nat) => BitVec.ofNat 32 (h * 65537)
  match k with
  | .int => [0, 1, 2, 4, 0xFFFFFFFF, 8, 16, 255, 65535].getD i 0
  | .fp => [0, 0x3F800000, 0x40000000, 0x40800000, 0xBF800000, 0x3F000000, 0x3E800000, 0x3FB8AA3B, 0x3F317218].getD i 0
  | .pair false => both ([0, 0x3C00, 0x4000, 0x4400, 0xBC00, 0x3800, 0x3400, 0x3DC5, 0x398C].getD i 0)
  | .pair true => both ([0, 0x3F80, 0x4000, 0x4080, 0xBF80, 0x3F00, 0x3E80, 0x3FB9, 0x3F31].getD i 0)

/-- The immediate of 0x7C: an FP32 operand or a pair takes the payload as bits [31:7], any other the
payload sign-extended (R171). -/
def extImm (k : OpKind) (p : BitVec 25) : Word :=
  match k with
  | .int => p.signExtend 32
  | _ => BitVec.ofNat 32 (p.toNat * 128)

/-- A g register as the gang reads it: its own unperformed write, its own write of the present cycle, or the workgroup's
value at the cycle's beginning (R23, R84). -/
def State.gReg (s : State) (i : Nat) : Word :=
  let mine := s.gang.stores.filter (fun w => w.space == .greg s.gang.wg && w.writes.any (fun p => p.1 == i))
  match mine.getLast? with
  | some w => BitVec.ofNat 32 (leNat ((w.writes.map (fun p => p.2)).headD []))
  | none => match (s.wg.gNext.filter (fun p => p.1 == s.cur && p.2.1 == i)).getLast? with
    | some p => p.2.2
    | none => s.wg.g.toList.getD i 0

/-- A scalar register. -/
def Regs.sreg (r : Regs) (i : BitVec 5) : Word := r.s[i.toNat]'(i.isLt)
def Regs.setS (r : Regs) (i : BitVec 5) (v : Word) : Regs := { r with s := r.s.set i.toNat v (i.isLt) }
/-- s(i+1) of a pair whose first is not s31. -/
def Regs.sreg1 (r : Regs) (i : BitVec 5) : Word := r.sreg (i + 1)
def Regs.setPair (r : Regs) (i : BitVec 5) (lo hi : Word) : Regs := (r.setS i lo).setS (i + 1) hi
/-- A vector register of the window. -/
def Regs.vreg (r : Regs) (i : BitVec 6) : VReg := r.win[i.toNat]'(i.isLt)
def Regs.setV (r : Regs) (i : BitVec 6) (v : VReg) : Regs := { r with win := r.win.set i.toNat v (i.isLt) }

/-- What a selector names as a source (R29, R170). -/
def State.src (s : State) (k : OpKind) (o : BitVec 7) : VReg :=
  let n := o.toNat
  if n < 0x40 then s.r.vreg (o.setWidth 6)
  else if n < 0x60 then .u (s.r.sreg (o.setWidth 5))
  else if n < 0x70 then .u (s.gReg (n - 0x60))
  else if n < 0x79 then .u (constOf k (n - 0x70))
  else if n = 0x79 then .a 0 1
  else if n = 0x7A then .u (BitVec.ofNat 32 s.gang.slot)
  else if n = 0x7B then .u (s.grid.params.setWidth 32)
  else .u (extImm k (s.gang.ext.getD 0))

/-- Selectors that name no source, or a destination that cannot be written, are ILLOP (R170). -/
def srcSel (o : BitVec 7) : Bool := decide (o.toNat < 0x7D)
def dstSel (o : BitVec 7) : Bool := decide (o.toNat ≤ 0x70)

/-- 0x7C stands among the sources exactly when an EXT precedes (R172). -/
def State.extFits (s : State) (srcs : List (BitVec 7)) : Bool :=
  s.gang.ext.isSome == srcs.any (fun o => o == 0x7C)

/-- The g registers among selectors read. -/
def gSel (w : Nat) (srcs : List (BitVec 7)) : List ReadItem :=
  srcs.filterMap (fun o => if 0x60 ≤ o.toNat && o.toNat < 0x70 then some (.greg w (o.toNat - 0x60)) else none)

/-! ### Destinations -/

/-- The registers after a result is written to a vector or scalar selector under a mask; a g register is
written as an event, 0x70 discards (R31, R33, R170). -/
def Regs.writeSel (r : Regs) (launched : Word) (o : BitVec 7) (v : VReg) (m : Word) : Regs :=
  let n := o.toNat
  if n < 0x40 then r.setV (o.setWidth 6) ((r.vreg (o.setWidth 6)).merge v m launched)
  else if n < 0x60 then (match lowest m with
    | some l => r.setS (o.setWidth 5) (v.at l)
    | none => r)
  else r

/-! ### Writes in program order (R84) -/

/-- Performing a write ends the flashback point's validity (R162). -/
def Gang.wrote (g : Gang) : Gang := { g with flash := { g.flash with valid := false } }

/-- Implicit refresh and copy on write before a gang's writes to virtual addresses are translated
(R113, R116 to R118, R120): the gang repins the current generation, and a page that must be copied is. -/
def State.prepare (s : State) (write : Bool) (vas : List Nat) : State :=
  let s := if vas.any (s.needsRefresh write false) then s.repin s.cur else s
  if !write then s else
  vas.foldl (fun s va => match s.gxlate true false va with
    | .cow => (match s.copyOnWrite s.leafNo s.gang.asid va with
      | .ok s' => s'.repin s'.cur
      | .error _ => s)
    | _ => s) s

/-- The owner tag of a gang's writes (R303). -/
def State.myTag (s : State) : OwnerTag := { leaf := s.leafNo, asid := some s.gang.asid }

/-- A write of the gang would refresh its translations or copy a page: younger work replays after it (R113,
R120). -/
def State.turns (s : State) (va : Nat) : Bool := s.needsRefresh true false va || s.gxlate true false va == .cow

/-- The pieces of a gang's writes that each lead to one place: bytes where a built block may begin or end in one. -/
def State.pieces (s : State) (writes : List (Nat × List Byte)) : List (Nat × List Byte) :=
  if s.hasBlocks s.cur then writes.flatMap (fun p => p.2.mapIdx (fun i b => ((p.1 + i) % 2 ^ 48, [b]))) else writes

/-- Perform one instruction's writes at their position of the order (R78, R84); none when a translation
fails then, or the gang's younger work must wait for it. -/
def State.performWrite (s : State) (w : PendWrite) : Option State :=
  match w.space with
  | .scr k =>
    let s' := w.writes.foldl (fun s p => s.writeScr (some s.cur) k p.1 p.2) s
    let s' := s'.healScr k (w.writes.map (fun p => (p.1, p.2.length)))
    some (s'.setGang s'.gang.wrote)
  | .greg k =>
    let s' := w.writes.foldl (fun s p => s.writeG s.cur k p.1 (BitVec.ofNat 32 (leNat p.2))) s
    some (s'.setGang s'.gang.wrote)
  | _ =>
    if !s.gang.ckpts.isEmpty && w.writes.any (fun p => s.turns p.1) then none else
    let s := s.prepare true (w.writes.map (fun p => p.1))
    let r := (s.pieces w.writes).foldl (fun (acc : Option State) p =>
      acc.bind (fun s => match s.gxlate true false p.1 with
        -- a host window is written only with no checkpoint (R98)
        | .ok (.host h) _ => if s.gang.ckpts.isEmpty then some (s.writeLoc (some s.cur) none s.myTag (.host h) p.2) else none
        | .ok loc _ => some (s.writeLoc (some s.cur) (some s.wg.core) s.myTag loc p.2)
        | _ => none)) (some s)
    r.map (fun s =>
      let s := s.healLines (s.gxlate true false) s.myTag (w.writes.map (fun p => (p.1, p.2.length)))
      s.setGang s.gang.wrote)

/-- A read of the gang may not perform yet: its level holds it behind an older write, or it would need a fifth
checkpoint (R85, R91). -/
def Gang.holdsRead (g : Gang) (level : Nat) : Bool := (decide (level ≤ g.level) && !g.stores.isEmpty) || g.full

/-- An ordered instruction's writes: performed at once when nothing holds them, or when they must be (`now`), else
queued behind the older ones; a gang at level 2 holds none (R91).  `s0` is the state before the instruction, `s` the
state after it retired. -/
def State.order (s0 s : State) (now : Bool) (space : Space) (writes : List (Nat × List Byte)) : State :=
  if writes.isEmpty then s else
  let w : PendWrite := { seq := s0.gang.seq, space := space, writes := writes, before := s0.r, after := s.r }
  if (now || !s0.holdStores || s0.gang.level == 2) && s0.gang.stores.isEmpty then
    (s.performWrite w).getD (s.setGang { s.gang with stores := s.gang.stores ++ [w] })
  else s.setGang { s.gang with stores := s.gang.stores ++ [w] }

/-! ### The frame of a lane instruction (R215) -/

/-- The issue cost of a vector instruction (R18). -/
def vecCost (cheap : Bool) (m : Word) : Nat := if cheap then 1 else max 1 (popBits 32 m.toNat)

/-- The checks of the encoding that depend on the state: reserved selectors, and EXT with 0x7C (R170,
R172). -/
def State.vrOk (s : State) (d : BitVec 7) (srcs : List (BitVec 7)) : Bool :=
  dstSel d && srcs.all srcSel && s.extFits srcs

/-- The write of a g register by a lane instruction: the lowest active lane's value, none with no lane active
(R33). -/
def gWrite (d : BitVec 7) (v : VReg) (exec : Word) : List (Nat × List Byte) :=
  match lowest exec with
  | some l => if 0x60 ≤ d.toNat ∧ d.toNat < 0x70 then [(d.toNat - 0x60, leBytes 4 (v.at l).toNat)] else []
  | none => []

/-- The state after the result of a lane instruction is delivered: registers, flags and counts, the g register as an
event, performed at once when it must be (`now`), the cost of R18.  `srcs` are the selectors read. -/
def State.delivered (s : State) (len : Nat) (d : BitVec 7) (srcs : List (BitVec 7)) (cheap : Bool) (v : VReg)
    (evs : List Nat) (now : Bool) : State :=
  let g := gWrite d v s.r.exec
  let u := noteRead s (!g.isEmpty && s.holdStores && !now) (gSel s.gang.wg srcs)
  let r := u.r.writeSel u.gang.launched d v u.r.exec
  u.order ((u.setR (r.mergeEvents evs)).advance (vecCost cheap s.r.exec) len) now (.greg u.gang.wg) g

/-- Deliver the result of a lane instruction; an enabled event traps on the boundary after all of it, once the gang is
non-speculative (R37). -/
def State.deliver (s : State) (len : Nat) (d : BitVec 7) (srcs : List (BitVec 7)) (cheap : Bool) (v : VReg)
    (evs : List Nat) : Out :=
  let x := s.r.fpx evs
  if x = 0 then .next (s.delivered len d srcs cheap v evs false)
  else if s.quiet then .next ((s.delivered len d srcs cheap v evs true).boundary tcFPX x)
  else s.stall

/-- A lane instruction of two sources with no event: its result is `f` of them. -/
def State.lane2 (s : State) (len : Nat) (d a b : BitVec 7) (f : VReg → VReg → VReg) : Out :=
  if s.vrOk d [a, b] then
    let x := s.src .int a
    let y := s.src .int b
    let v := f x y
    s.deliver len d [a, b] (!x.isG && !y.isG && !v.isG) v []
  else s.illop len true

end Sys2Proof.Machine
end

