-- ==== Sys2Proof/Machine/FloatLane.lean ====
section
/-! DEFINITION. The floating lane families fa and fh (R220, R221). -/

namespace Sys2Proof.Machine

/-- The rounding mode of `fmt` (R35). -/
def Regs.rm (r : Regs) : Nat := fld r.fmt.toNat 12 2
/-- The element formats and flags of `fmt`. -/
def Regs.fea (r : Regs) : Nat := fld r.fmt.toNat 0 4
def Regs.feb (r : Regs) : Nat := fld r.fmt.toNat 4 4
def Regs.fout (r : Regs) : Nat := fld r.fmt.toNat 8 4
def Regs.h16 (r : Regs) : Bool := bitAt r.fmt.toNat 14
def Regs.sat (r : Regs) : Bool := bitAt r.fmt.toNat 15

/-- A lane instruction whose lanes compute alone, with events: the sources with how each is read, whether
D is read as an accumulator, and the function of the values of one lane, which gives the result and one
event set for each used sub-element (R215, R62). `ok` is a further encoding check (R36). -/
def State.laneEv (s : State) (len : Nat) (ok : Bool) (d : BitVec 7) (ops : List (OpKind × BitVec 7)) (acc : Option OpKind)
    (f : List Word → Word × List Nat) : Out :=
  if ok && s.vrOk d (ops.map (fun p => p.2)) then
    let all := ops ++ (match acc with
      | some k => [(k, d)]
      | none => [])
    let xs := all.map (fun p => s.src p.1 p.2)
    let at' := fun (l : Fin 32) => f (xs.map (fun x => x.at l))
    let v := VReg.like xs (fun l => (at' l).1)
    s.deliver len d (all.map (fun p => p.2)) (xs.all (fun x => !x.isG) && !v.isG) v
      ((lanesOf s.r.exec).flatMap (fun l => (at' l).2))
  else s.illop len true

/-- A result with one event set. -/
def one (p : Word × Nat) : Word × List Nat := (p.1, [p.2])

/-- The value of an operand in a lane's list. -/
def fv (xs : List Word) (i : Nat) : Num := ofF32 (xs.getD i 0)

/-- An FP32 NaN of any payload or sign as the canonical one (R45). -/
def canon (w : Word) (x : Word) : Word := if (ofF32 w).isNan then 0x7FC00000 else x

/-! ### fa (R220) -/

def faAdd (rm : Nat) (xs : List Word) : Word × List Nat := one (sumF32 rm [termOf (fv xs 0), termOf (fv xs 1)])
def faSub (rm : Nat) (xs : List Word) : Word × List Nat := one (sumF32 rm [termOf (fv xs 0), termOf (fv xs 1).neg])
def faMul (rm : Nat) (xs : List Word) : Word × List Nat := one (sumF32 rm [mulNum (fv xs 0) (fv xs 1)])
def faFmac (rm : Nat) (xs : List Word) : Word × List Nat :=
  one (sumF32 rm [termOf (fv xs 2), mulNum (fv xs 0) (fv xs 1)])
def faFnmac (rm : Nat) (xs : List Word) : Word × List Nat :=
  one (sumF32 rm [termOf (fv xs 2), mulNum (fv xs 0).neg (fv xs 1)])
def faMinMax (isMax : Bool) (xs : List Word) : Word × List Nat :=
  (BitVec.ofNat 32 (minMax f32 isMax (xs.getD 0 0).toNat (xs.getD 1 0).toNat (fv xs 0) (fv xs 1)), [])
def faAbs (xs : List Word) : Word × List Nat := (canon (xs.getD 0 0) (xs.getD 0 0 &&& 0x7FFFFFFF), [])
def faNeg (xs : List Word) : Word × List Nat := (canon (xs.getD 0 0) (xs.getD 0 0 ^^^ 0x80000000), [])
def faCopysign (xs : List Word) : Word × List Nat :=
  (canon (xs.getD 0 0) ((xs.getD 0 0 &&& 0x7FFFFFFF) ||| (xs.getD 1 0 &&& 0x80000000)), [])

def execFaAdd (d a b : BitVec 7) (s : State) : Out := s.laneEv 4 true d [(.fp, a), (.fp, b)] none (faAdd s.r.rm)
def execFaSub (d a b : BitVec 7) (s : State) : Out := s.laneEv 4 true d [(.fp, a), (.fp, b)] none (faSub s.r.rm)
def execFaMul (d a b : BitVec 7) (s : State) : Out := s.laneEv 4 true d [(.fp, a), (.fp, b)] none (faMul s.r.rm)
def execFaFmac (d a b : BitVec 7) (s : State) : Out := s.laneEv 4 true d [(.fp, a), (.fp, b)] (some .fp) (faFmac s.r.rm)
def execFaFnmac (d a b : BitVec 7) (s : State) : Out := s.laneEv 4 true d [(.fp, a), (.fp, b)] (some .fp) (faFnmac s.r.rm)
def execFaMin (d a b : BitVec 7) (s : State) : Out := s.laneEv 4 true d [(.fp, a), (.fp, b)] none (faMinMax false)
def execFaMax (d a b : BitVec 7) (s : State) : Out := s.laneEv 4 true d [(.fp, a), (.fp, b)] none (faMinMax true)
def execFaAbs (d a : BitVec 7) (s : State) : Out := s.laneEv 4 true d [(.fp, a)] none faAbs
def execFaNeg (d a : BitVec 7) (s : State) : Out := s.laneEv 4 true d [(.fp, a)] none faNeg
def execFaCopysign (d a b : BitVec 7) (s : State) : Out := s.laneEv 4 true d [(.fp, a), (.fp, b)] none faCopysign

/-! ### fh (R221, R48) -/

/-- The 16-bit format `fmt.H16` selects. -/
def Regs.hfmt (r : Regs) : FpFmt := if r.h16 then bf16 else f16

/-- Half `h` of a word. -/
def half (w : Word) (h : Nat) : Nat := fld w.toNat (16 * h) 16

/-- Both halves of a result computed alone, each with its events. -/
def halves (f : Nat → Nat × Nat) : Word × List Nat :=
  (BitVec.ofNat 32 ((f 0).1 + (f 1).1 * 65536), [(f 0).2, (f 1).2])

/-- An exact sum rounded and flushed in a 16-bit format (R48, R57). -/
def sumH (f : FpFmt) (rm : Nat) (ts : List Term) : Nat × Nat :=
  let x := exactSum rm ts
  let r := roundTo f true rm x.1
  (r.1, Nat.lor x.2 r.2)

/-- Operand i, half h, flushed. -/
def hv (f : FpFmt) (xs : List Word) (i h : Nat) : Num := flushIn f (half (xs.getD i 0) h)

def fhAdd (f : FpFmt) (rm : Nat) (xs : List Word) : Word × List Nat :=
  halves (fun h => sumH f rm [termOf (hv f xs 0 h), termOf (hv f xs 1 h)])
def fhSub (f : FpFmt) (rm : Nat) (xs : List Word) : Word × List Nat :=
  halves (fun h => sumH f rm [termOf (hv f xs 0 h), termOf (hv f xs 1 h).neg])
def fhMul (f : FpFmt) (rm : Nat) (xs : List Word) : Word × List Nat :=
  halves (fun h => sumH f rm [mulNum (hv f xs 0 h) (hv f xs 1 h)])
def fhFmac (f : FpFmt) (rm : Nat) (xs : List Word) : Word × List Nat :=
  halves (fun h => sumH f rm [termOf (hv f xs 2 h), mulNum (hv f xs 0 h) (hv f xs 1 h)])
/-- A flushed element as bits. -/
def flushBits (f : FpFmt) (x : Nat) : Nat := if fld x f.mw f.ew = 0 then x / f.signBit % 2 * f.signBit else x
def fhMinMax (f : FpFmt) (isMax : Bool) (xs : List Word) : Word × List Nat :=
  let v := halves (fun h => (minMax f isMax (flushBits f (half (xs.getD 0 0) h)) (flushBits f (half (xs.getD 1 0) h))
    (hv f xs 0 h) (hv f xs 1 h), 0))
  (v.1, [])
/-- Narrowing FP32 to a 16-bit format (R52). -/
def narrowH (f : FpFmt) (rm : Nat) (w : Word) : Nat × Nat := roundTo f true rm (ofF32 w)
def fhPk (f : FpFmt) (rm : Nat) (xs : List Word) : Word × List Nat := halves (fun h => narrowH f rm (xs.getD h 0))

def execFhAdd (d a b : BitVec 7) (s : State) : Out :=
  s.laneEv 4 true d [(.pair s.r.h16, a), (.pair s.r.h16, b)] none (fhAdd s.r.hfmt s.r.rm)
def execFhSub (d a b : BitVec 7) (s : State) : Out :=
  s.laneEv 4 true d [(.pair s.r.h16, a), (.pair s.r.h16, b)] none (fhSub s.r.hfmt s.r.rm)
def execFhMul (d a b : BitVec 7) (s : State) : Out :=
  s.laneEv 4 true d [(.pair s.r.h16, a), (.pair s.r.h16, b)] none (fhMul s.r.hfmt s.r.rm)
def execFhFmac (d a b : BitVec 7) (s : State) : Out :=
  s.laneEv 4 true d [(.pair s.r.h16, a), (.pair s.r.h16, b)] (some (.pair s.r.h16)) (fhFmac s.r.hfmt s.r.rm)
def execFhMin (d a b : BitVec 7) (s : State) : Out :=
  s.laneEv 4 true d [(.pair s.r.h16, a), (.pair s.r.h16, b)] none (fhMinMax s.r.hfmt false)
def execFhMax (d a b : BitVec 7) (s : State) : Out :=
  s.laneEv 4 true d [(.pair s.r.h16, a), (.pair s.r.h16, b)] none (fhMinMax s.r.hfmt true)
def execFhPk (d a b : BitVec 7) (s : State) : Out :=
  s.laneEv 4 true d [(.fp, a), (.fp, b)] none (fhPk s.r.hfmt s.r.rm)

end Sys2Proof.Machine
end

