-- ==== Sys2Proof/Machine/Conv.lean ====
section
/-! DEFINITION. Element formats and the conversion family cv (R36, R49 to R55, R224 to R226). -/

namespace Sys2Proof.Machine

/-- Element formats by code (R36). -/
inductive Elem where
  | fp32
  | ieee (f : FpFmt)
  | narrow (f : FpFmt)
  | int (lo hi : Int) (bits : Nat)
deriving DecidableEq, Repr

/-- The element format of a code; none for a reserved code (R36, R54). -/
def elemOf (code : Nat) : Option Elem :=
  match code with
  | 0 => some .fp32
  | 1 => some (.ieee f16)
  | 2 => some (.ieee bf16)
  | 3 => some (.narrow f8a)
  | 4 => some (.narrow f8b)
  | 5 => some (.narrow f4)
  | 6 => some (.int (-128) 127 8)
  | 7 => some (.int 0 255 8)
  | 8 => some (.int (-8) 7 4)
  | 9 => some (.int 0 15 4)
  | 10 => some (.int (-2147483648) 2147483647 32)
  | _ => none

/-- The integer an integer code denotes. -/
def intOf (lo : Int) (bits x : Nat) : Int := if lo < 0 then signed bits x else Int.ofNat (x % 2 ^ bits)

/-- The value of element data, exactly, and whether it is a reserved code (R49, R50, R53, R54). -/
def decodeElem (e : Elem) (x : Nat) : Num × Bool :=
  match e with
  | .fp32 => (ofIeee f32 x, false)
  | .ieee f => (ofIeee f x, false)
  | .narrow f => (ofNarrow f x, (ofNarrow f x).isNan)
  | .int lo _ bits => (ofInt (intOf lo bits x), false)

/-- An exact value narrowed to an element format: the code and events (R51, R52, R55). -/
def encodeElem (e : Elem) (rm : Nat) (x : Num) : Nat × Nat :=
  match e with
  | .fp32 => roundTo f32 false rm x
  | .ieee f => roundTo f true rm x
  | .narrow f => narrowTo f rm x
  | .int lo hi bits => let r := toIntSat rm lo hi x; (wrapInt bits r.1, r.2)

/-! ### cv, single values (R224) -/

def cvI2f (rm : Nat) (xs : List Word) : Word × List Nat := one (roundF32 rm (ofInt (xs.getD 0 0).toInt))
def cvN2f (rm : Nat) (xs : List Word) : Word × List Nat := one (roundF32 rm (ofInt (xs.getD 0 0).toNat))
def cvF2i (rm : Nat) (xs : List Word) : Word × List Nat :=
  let r := toIntSat rm (-2 ^ 31) (2 ^ 31 - 1) (fv xs 0)
  (wordOf r.1, [r.2])
def cvF2n (rm : Nat) (xs : List Word) : Word × List Nat :=
  let r := toIntSat rm 0 (2 ^ 32 - 1) (fv xs 0)
  (wordOf r.1, [r.2])
def cvF2x (f : FpFmt) (rm : Nat) (xs : List Word) : Word × List Nat :=
  let r := narrowH f rm (xs.getD 0 0)
  (BitVec.ofNat 32 r.1, [r.2])
/-- Widening is exact (R49). -/
def cvX2f (f : FpFmt) (xs : List Word) : Word × List Nat :=
  ((roundF32 0 (ofIeee f (half (xs.getD 0 0) ((xs.getD 1 0).toNat % 2)))).1, [])

def execCvI2f (d a : BitVec 7) (s : State) : Out := s.laneEv 4 true d [(.int, a)] none (cvI2f s.r.rm)
def execCvN2f (d a : BitVec 7) (s : State) : Out := s.laneEv 4 true d [(.int, a)] none (cvN2f s.r.rm)
def execCvF2i (d a : BitVec 7) (s : State) : Out := s.laneEv 4 true d [(.fp, a)] none (cvF2i s.r.rm)
def execCvF2n (d a : BitVec 7) (s : State) : Out := s.laneEv 4 true d [(.fp, a)] none (cvF2n s.r.rm)
def execCvF2h (d a : BitVec 7) (s : State) : Out := s.laneEv 4 true d [(.fp, a)] none (cvF2x f16 s.r.rm)
def execCvF2b (d a : BitVec 7) (s : State) : Out := s.laneEv 4 true d [(.fp, a)] none (cvF2x bf16 s.r.rm)
def execCvH2f (d a b : BitVec 7) (s : State) : Out := s.laneEv 4 true d [(.pair false, a), (.int, b)] none (cvX2f f16)
def execCvB2f (d a b : BitVec 7) (s : State) : Out := s.laneEv 4 true d [(.pair true, a), (.int, b)] none (cvX2f bf16)

/-! ### cv.pk and cv.up (R225, R226) -/

/-- EA names a format `pk8`, `up8` (8-bit) or `pk4`, `up4` (4-bit) accepts. -/
def okElem (wide : Bool) (code : Nat) : Bool :=
  if wide then code == 3 || code == 4 || code == 6 || code == 7 else code == 5 || code == 8 || code == 9

/-- The exact product narrowed and shifted in from the top. -/
def cvPk (e : Elem) (rm w : Nat) (xs : List Word) : Word × List Nat :=
  let t := mulNum (fv xs 0) (fv xs 1)
  let c := encodeElem e rm t.x
  (BitVec.ofNat 32 ((xs.getD 2 0).toNat / 2 ^ w + c.1 * 2 ^ (32 - w)), [Nat.lor c.2 (if t.bad then evNV else 0)])

/-- One element widened; a reserved code gives a NaN with NV and RC. -/
def cvUp (e : Elem) (w : Nat) (xs : List Word) : Word × List Nat :=
  let i := (xs.getD 1 0).toNat % (32 / w)
  let r := decodeElem e (fld (xs.getD 0 0).toNat (w * i) w)
  ((roundF32 0 r.1).1, [if r.2 then evNV + evRC else 0])

def execCvPk8 (d a b : BitVec 7) (s : State) : Out :=
  s.laneEv 4 (okElem true s.r.fea) d [(.fp, a), (.fp, b)] (some .int) (cvPk ((elemOf s.r.fea).getD .fp32) s.r.rm 8)
def execCvUp8 (d a b : BitVec 7) (s : State) : Out :=
  s.laneEv 4 (okElem true s.r.fea) d [(.int, a), (.int, b)] none (cvUp ((elemOf s.r.fea).getD .fp32) 8)
def execCvPk4 (d a b : BitVec 7) (s : State) : Out :=
  s.laneEv 4 (okElem false s.r.fea) d [(.fp, a), (.fp, b)] (some .int) (cvPk ((elemOf s.r.fea).getD .fp32) s.r.rm 4)
def execCvUp4 (d a b : BitVec 7) (s : State) : Out :=
  s.laneEv 4 (okElem false s.r.fea) d [(.int, a), (.int, b)] none (cvUp ((elemOf s.r.fea).getD .fp32) 4)

end Sys2Proof.Machine
end

