-- ==== Sys2Proof/Machine/CrossLane.lean ====
section
/-! DEFINITION. Cross-lane operations (R61, R229, R230). -/

namespace Sys2Proof.Machine

/-- Deliver a vector result written under a mask of its own (R31), costed under `exec` (R229, R232). -/
def State.deliverM (s : State) (d : BitVec 6) (srcs : List (BitVec 7)) (cheap : Bool) (v : VReg) (m : Word) : Out :=
  let s := noteRead s false (gSel s.gang.wg srcs)
  (s.setR (s.r.setV d ((s.r.vreg d).merge v m s.gang.launched))).retire (vecCost cheap s.r.exec)

/-- A cross-lane function: the result from A, B and the active lanes, lowest first (R229). -/
def State.cross (s : State) (k : OpKind) (d a : BitVec 7) (b : Option (BitVec 7))
    (f : VReg → VReg → List (Fin 32) → VReg × List Nat) : Out :=
  let srcs := a :: b.toList
  if s.vrOk d srcs then
    let x := s.src k a
    let y := match b with
      | some o => s.src .int o
      | none => .u 0
    let r := f x y (lanesOf s.r.exec)
    s.deliver 4 d srcs (!x.isG && !y.isG && !r.1.isG) r.1 r.2
  else s.illop 4 true

/-- The lane a word names: modulo 32. -/
def laneNo (w : Word) : Fin 32 := ⟨w.toNat % 32, Nat.mod_lt _ (by decide)⟩
/-- The lane L XOR k. -/
def laneXor (l : Fin 32) (w : Word) : Fin 32 := ⟨Nat.xor l.val (w.toNat % 32) % 32, Nat.mod_lt _ (by decide)⟩

def xlShuf (x y : VReg) (_ : List (Fin 32)) : VReg × List Nat :=
  (match x, y with
    | .u b, _ => .u b
    | _, .u c => .u (x.at (laneNo c))
    | _, _ => .gen (fun l => x.at (laneNo (y.at l))), [])
def xlShx (x y : VReg) (_ : List (Fin 32)) : VReg × List Nat :=
  (match x with
    | .u b => .u b
    | _ => .gen (fun l => x.at (laneXor l (y.at l))), [])
/-- A U result formed from the active lanes; nothing is written when there is none. -/
def xlUni (ls : List (Fin 32)) (f : Fin 32 → List (Fin 32) → Word × List Nat) : VReg × List Nat :=
  match ls with
  | [] => (.u 0, [])
  | l :: t => (.u (f l t).1, (f l t).2)
def xlBcast (x y : VReg) (ls : List (Fin 32)) : VReg × List Nat := xlUni ls (fun l _ => (x.at (laneNo (y.at l)), []))
def xlRdf (x _ : VReg) (ls : List (Fin 32)) : VReg × List Nat := xlUni ls (fun l _ => (x.at l, []))
def xlRdl (x _ : VReg) (ls : List (Fin 32)) : VReg × List Nat := xlUni ls (fun l t => (x.at (t.getLastD l), []))
def xlRadd (x _ : VReg) (ls : List (Fin 32)) : VReg × List Nat :=
  xlUni ls (fun l t => (t.foldl (fun acc j => acc + x.at j) (x.at l), []))
/-- R46 applied pairwise in ascending lane order (R61). -/
def xlRminmax (isMax : Bool) (x _ : VReg) (ls : List (Fin 32)) : VReg × List Nat :=
  xlUni ls (fun l t => (t.foldl (fun acc j =>
    BitVec.ofNat 32 (minMax f32 isMax acc.toNat (x.at j).toNat (ofF32 acc) (ofF32 (x.at j)))) (canon (x.at l) (x.at l)), []))
/-- The ordered sum of R61; each addition belongs to the lane it adds. -/
def xlFradd (rm : Nat) (x _ : VReg) (ls : List (Fin 32)) : VReg × List Nat :=
  xlUni ls (fun l t => t.foldl (fun acc j =>
    let r := sumF32 rm [termOf (ofF32 acc.1), termOf (ofF32 (x.at j))]
    (r.1, acc.2 ++ [r.2])) (canon (x.at l) (x.at l), []))
def xlScan (x _ : VReg) (ls : List (Fin 32)) : VReg × List Nat :=
  (.gen (fun l => (ls.filter (fun j => decide (j ≤ l))).foldl (fun acc j => acc + x.at j) 0), [])

def execXlShuf (d a b : BitVec 7) (s : State) : Out := s.cross .int d a (some b) xlShuf
def execXlShx (d a b : BitVec 7) (s : State) : Out := s.cross .int d a (some b) xlShx
def execXlBcast (d a b : BitVec 7) (s : State) : Out := s.cross .int d a (some b) xlBcast
def execXlRdf (d a : BitVec 7) (s : State) : Out := s.cross .int d a none xlRdf
def execXlRdl (d a : BitVec 7) (s : State) : Out := s.cross .int d a none xlRdl
def execXlRadd (d a : BitVec 7) (s : State) : Out := s.cross .int d a none xlRadd
def execXlRmin (d a : BitVec 7) (s : State) : Out := s.cross .fp d a none (xlRminmax false)
def execXlRmax (d a : BitVec 7) (s : State) : Out := s.cross .fp d a none (xlRminmax true)
def execXlFradd (d a : BitVec 7) (s : State) : Out := s.cross .fp d a none (xlFradd s.r.rm)

/-- Own tag G, whatever A is (R216). -/
def execXlScan (d a : BitVec 7) (s : State) : Out := s.cross .int d a none xlScan

/-- Lane l = B mod 32 of the lowest active lane receives A of the lowest active lane (R229). -/
def execXlWrl (d : BitVec 6) (a b : BitVec 7) (s : State) : Out :=
  if s.vrOk 0 [a, b] then
    let x := s.src .int a
    let y := s.src .int b
    match lowest s.r.exec with
    | none => s.deliverM d [a, b] true (.u 0) 0
    | some j =>
      let l := laneNo (y.at j)
      let m := maskOf (fun i => i == l) &&& s.gang.launched
      let v := VReg.like [x, y] (fun _ => x.at j)
      s.deliverM d [a, b] (!x.isG && !y.isG && !v.isG) v m
  else s.illop 4 true

/-! ### Mask writers (R230) -/

/-- `ballot`, `vgrp` and `elect` write scalar registers, whatever `exec` is. -/
def State.maskWriter (s : State) (ok : Bool) (a : BitVec 7) (f : Regs → VReg → Regs) : Out :=
  if ok && srcSel a && s.extFits [a] then
    let x := s.src .int a
    let s' := noteRead s false (gSel s.gang.wg [a])
    (s'.setR (f s'.r x)).retire (vecCost (!x.isG) s.r.exec)
  else s.illop 4 true

def execXlBallot (d : BitVec 5) (a : BitVec 7) (s : State) : Out :=
  s.maskWriter true a (fun r x => r.setS d (maskOf (fun l => lane r.exec l && x.at l != 0)))

def execXlVgrp (d : BitVec 5) (a : BitVec 7) (s : State) : Out :=
  s.maskWriter (d != 31) a (fun r x => match lowest r.exec with
    | none => r.setPair d 0 0
    | some j => r.setPair d (maskOf (fun l => lane r.exec l && x.at l == x.at j)) (x.at j))

def execXlElect (d : BitVec 5) (s : State) : Out :=
  s.maskWriter true 0x70 (fun r _ => r.setS d (match lowest r.exec with
    | none => 0
    | some j => BitVec.ofNat 32 (2 ^ j.val)))

end Sys2Proof.Machine
end

