-- ==== Sys2Proof/Machine/DotShape.lean ====
section
/-! DEFINITION. Dot products and shape operations (R58, R59, R231, R232). -/

namespace Sys2Proof.Machine

/-! ### dp (R58, R59, R231) -/

/-- The products of a floating dot step: n elements of `w` bits. A reserved code reads as a NaN and counts
NV and RC once for each element read. -/
def dotTerms (ea eb : Elem) (w n : Nat) (a b : Word) : List Term :=
  (List.range n).map (fun i => mulNum (decodeElem ea (fld a.toNat (w * i) w)).1 (decodeElem eb (fld b.toNat (w * i) w)).1)

/-- The reserved codes among n elements, one event set each (R53). -/
def dotReserved (e : Elem) (w n : Nat) (a : Word) : List Nat :=
  (List.range n).filterMap (fun i => if (decodeElem e (fld a.toNat (w * i) w)).2 then some (evNV + evRC) else none)

def dotF (ea eb : Elem) (rm w n : Nat) (xs : List Word) : Word × List Nat :=
  let a := xs.getD 0 0
  let b := xs.getD 1 0
  let r := sumF32 rm (termOf (fv xs 2) :: dotTerms ea eb w n a b)
  (r.1, dotReserved ea w n a ++ dotReserved eb w n b ++ [r.2])

def elemInt (e : Elem) (x : Nat) : Int :=
  match e with
  | .int lo _ bits => intOf lo bits x
  | _ => 0

/-- An integer accumulation: modulo 2^32, or clamped with OF when SAT is 1 (R59). -/
def accInt (sat : Bool) (t : Int) : Word × Nat :=
  if sat then
    (if t < -2 ^ 31 then (wordOf (-2 ^ 31), evOF) else if 2 ^ 31 - 1 < t then (wordOf (2 ^ 31 - 1), evOF) else (wordOf t, 0))
  else (wordOf t, 0)

def dotI (ea eb : Elem) (sat : Bool) (w n : Nat) (xs : List Word) : Word × List Nat :=
  let a := (xs.getD 0 0).toNat
  let b := (xs.getD 1 0).toNat
  one (accInt sat ((xs.getD 2 0).toInt
    + ((List.range n).map (fun i => elemInt ea (fld a (w * i) w) * elemInt eb (fld b (w * i) w))).sum))

/-- `dot2`: 16-bit elements flushed, the FP32 result flushed when tiny (R48). -/
def dot2 (f : FpFmt) (rm : Nat) (xs : List Word) : Word × List Nat :=
  let x := exactSum rm [termOf (fv xs 2), mulNum (hv f xs 0 0) (hv f xs 1 0), mulNum (hv f xs 0 1) (hv f xs 1 1)]
  let r := roundTo f32 true rm x.1
  (BitVec.ofNat 32 r.1, [Nat.lor x.2 r.2])

/-- An element format of `fmt`, or FP32 for a reserved code (the form is then refused). -/
def Regs.elemA (r : Regs) : Elem := (elemOf r.fea).getD .fp32
def Regs.elemB (r : Regs) : Elem := (elemOf r.feb).getD .fp32
def f8Code (c : Nat) : Bool := c == 3 || c == 4
def i8Code (c : Nat) : Bool := c == 6 || c == 7
def i4Code (c : Nat) : Bool := c == 8 || c == 9

def execDpDot8f (d a b : BitVec 7) (s : State) : Out :=
  s.laneEv 4 (f8Code s.r.fea && f8Code s.r.feb) d [(.int, a), (.int, b)] (some .fp) (dotF s.r.elemA s.r.elemB s.r.rm 8 4)
def execDpDot8i (d a b : BitVec 7) (s : State) : Out :=
  s.laneEv 4 (i8Code s.r.fea && i8Code s.r.feb) d [(.int, a), (.int, b)] (some .int) (dotI s.r.elemA s.r.elemB s.r.sat 8 4)
def execDpDot4f (d a b : BitVec 7) (s : State) : Out :=
  s.laneEv 4 (s.r.fea == 5 && s.r.feb == 5) d [(.int, a), (.int, b)] (some .fp) (dotF s.r.elemA s.r.elemB s.r.rm 4 8)
def execDpDot4i (d a b : BitVec 7) (s : State) : Out :=
  s.laneEv 4 (i4Code s.r.fea && i4Code s.r.feb) d [(.int, a), (.int, b)] (some .int) (dotI s.r.elemA s.r.elemB s.r.sat 4 8)
def execDpDot2 (d a b : BitVec 7) (s : State) : Out :=
  s.laneEv 4 true d [(.pair s.r.h16, a), (.pair s.r.h16, b)] (some .fp) (dot2 s.r.hfmt s.r.rm)

/-! ### shp (R232) -/

/-- The values of all 32 lanes with the tag they allow: A when affine, G otherwise. -/
def shpAff (x : VReg) : VReg :=
  if lanes32.all (fun l => x.at l == x.at 0 + BitVec.ofNat 32 l.val * (x.at 1 - x.at 0))
  then .affine (x.at 0) (x.at 1 - x.at 0) else .gen (fun l => x.at l)

def shpUni (x : VReg) : VReg := if lanes32.all (fun l => x.at l == x.at 0) then .u (x.at 0) else .gen (fun l => x.at l)

/-- The position of a lane among the active ones. -/
def rankIn (ls : List (Fin 32)) (l : Fin 32) : Nat := (ls.filter (fun j => decide (j < l))).length

def execShpTag (d a : BitVec 7) (s : State) : Out :=
  if s.vrOk d [a] then s.deliver 4 d [a] true (.u (BitVec.ofNat 32 (s.src .int a).code)) [] else s.illop 4 true

def execShpExpand (d a : BitVec 7) (s : State) : Out :=
  if s.vrOk d [a] then
    let x := s.src .int a
    let ls := lanesOf s.r.exec
    s.deliver 4 d [a] false (.gen (fun l => x.at ⟨rankIn ls l % 32, Nat.mod_lt _ (by decide)⟩)) []
  else s.illop 4 true

def execShpAff (d a : BitVec 7) (s : State) : Out :=
  if s.vrOk d [a] then s.deliver 4 d [a] (!(s.src .int a).isG) (shpAff (s.src .int a)) [] else s.illop 4 true

/-- Of an A source with a nonzero stride the elements differ, so the result is G; the cost is 1 cycle for a
U or A source all the same. -/
def execShpUni (d a : BitVec 7) (s : State) : Out :=
  if s.vrOk d [a] then s.deliver 4 d [a] (!(s.src .int a).isG) (shpUni (s.src .int a)) [] else s.illop 4 true

/-- Lane k of D receives the k-th active lane of A, under the mask 2^n − 1. -/
def execShpCmpr (d : BitVec 6) (a : BitVec 7) (s : State) : Out :=
  if s.vrOk 0 [a] then
    let x := s.src .int a
    let ls := lanesOf s.r.exec
    s.deliverM d [a] false (.gen (fun l => x.at (ls.getD l.val 0))) (BitVec.ofNat 32 (2 ^ ls.length - 1))
  else s.illop 4 true

end Sys2Proof.Machine
end

