-- ==== Sys2Proof/Machine/Fetch.lean ====
section
/-! DEFINITION. What a gang's address leads to when it is not plain data: stalls for host pages and pages of
other devices, faults; and the fetch path (R77, R97, R116, R127, R166, R167). -/

namespace Sys2Proof.Machine

/-- The gang's core sends an ATS request and the gang waits for its completion (R127). -/
def State.askAts (s : State) (pasid page : Nat) (write : Bool) : Out :=
  ({ s with out := .ats s.leafNo pasid page write :: s.out } : State).stallAs (.ats pasid page write none)

/-- A page request is sent, unless the function sends none any more; beyond what the host lets it have outstanding it
waits in arrival order (R127). -/
def State.sendPri (s : State) (l : Nat) (a : PageAsk) : State :=
  let f := s.leafAt l
  if f.priStopped then s
  else if f.priCap ≤ f.priOut.length then s.setLeafAt l { f with priQueue := f.priQueue ++ [a] }
  else { s.setLeafAt l { f with priOut := f.priOut ++ [a] } with out := .pri l a.pasid a.page a.write :: s.out }

/-- The gang waits for an ATS completion, or for the page request that follows a denial; HOSTPG when that
request has failed (R127).  `onTrap` raises with a code and its information. -/
def State.waitAts (s : State) (pasid page : Nat) (write : Bool) (onTrap : Nat → Nat → Out) : Out :=
  match s.gang.wait with
  | .atsFail p g w info => if p == pasid && g == page && w == write then onTrap tcHOSTPG info else s.askAts pasid page write
  | .ats p g w pri => if p == pasid && g == page && w == write then s.stallAs (.ats p g w pri)
      else s.askAts pasid page write
  | .denied p g w =>
    if p == pasid && g == page && w == write then
      if s.quiet then (s.sendPri s.leafNo { who := .gang s.cur, pasid := p, page := g, write := w }).stallAs (.ats p g w (some s.now))
      else s.stallAs (.denied p g w)
    else s.askAts pasid page write
  | _ => s.askAts pasid page write

/-- The level of the entry at which the walk of an address under a root stops (R129). -/
def State.levelUnder (s : State) (root va : Nat) : Nat :=
  match s.walk s.leafNo root va with
  | .hit level _ _ => level
  | .invalid level => level
  | .bad level => level

/-- That level under the gang's pinned root, by which its own accesses translate (R113). -/
def State.levelOf (s : State) (va : Nat) : Nat := s.levelUnder (s.myAsid.pinned s.gang.gen).root va

/-- The gang asks and waits. -/
def State.askPage (s : State) (key : Nat) (own : Bool) : Out :=
  ({ s with out := s.pageAsk key own :: s.out } : State).stallAs (.peer key own s.now)

/-- The gang waits for a page of another device; when the wait of R97 has run out, XLATE with cause 3, and the `level`
of the entry that names the device. -/
def State.waitPage (s : State) (level key : Nat) (own : Bool) (onTrap : Nat → Nat → Out) : Out :=
  match s.gang.wait with
  | .peerFail k w => if k == key && w == own then onTrap tcXLATE (level * 16 + 3) else s.askPage key own
  | .peer k w since => if k == key && w == own then s.stallAs (.peer k w since) else s.askPage key own
  | _ => s.askPage key own

/-- A fault raised while fetching: an ignore resumes at the instruction's own PC (R158). -/
def State.raiseFetch (s : State) (code addr info : Nat) : Out :=
  if s.quiet then
    .next ((s.takeTrap { s.faultAt 0 code 0 addr info with resume := s.r.pc }).tick 1)
  else s.stall

/-- Bytes of code at a place: those stored, or for a grid that ran before they were changed possibly those before,
which a free value decides (R77). -/
-- DESIGN CHOICE (assumption 69): code in host memory or another device's is always fetched as it stands.
def State.codeBytes (s : State) (loc : Loc) (n : Nat) : State × List Byte :=
  match loc with
  | .dram pa =>
    let now := fun (i : Nat) => memRead s.mem (pa + i)
    let before := fun (i : Nat) =>
      ((s.old.filter (fun r => r.1 == pa + i && decide (s.wg.grid < r.2.2))).getLast?).map (fun r => r.2.1)
    if (List.range n).any (fun i => (before i).isSome) then
      ({ s with free := s.free + 1 }, (List.range n).map (fun i => if Config.fetchOld s.free then (before i).getD (now i) else now i))
    else (s, (List.range n).map now)
  | _ => (s, (List.range n).map (fun i => s.readLoc (loc.plus i)))

/-- Read `n` bytes by the fetch path (R77, R167), and go on with them; `onTrap` raises. -/
def State.fetched (s : State) (va n : Nat) (onTrap : State → Nat → Nat → Out) (k : State → List Byte → Out) : Out :=
  let refresh := s.needsRefresh false true va
  if refresh && !s.quiet then s.stall else
  let s := if refresh then s.repin s.cur else s
  match s.gxlate false true va with
  | .ok loc _ => k (s.codeBytes loc n).1 (s.codeBytes loc n).2
  | .trap c i => onTrap s c i
  | .cow => s.stall
  | .ats p g => s.waitAts p g false (onTrap s)
  | .page key own => s.waitPage (s.levelOf va) key own (onTrap s)
  | .hole pa => .fault (.noSuchMemory pa)

end Sys2Proof.Machine
end

