-- ==== Sys2Proof/Machine/IntLane.lean ====
section
/-! DEFINITION. The integer and logical lane families ia, il and iai (R217 to R219). -/

namespace Sys2Proof.Machine

/-! ### Results of the integer functions (R217 to R219) -/

/-- A word function of two sources lane by lane, tagged by R30's first rule. -/
def word2 (f : Word → Word → Word) (x y : VReg) : VReg := .like [x, y] (fun l => f (x.at l) (y.at l))

/-- A word function of one source. -/
def word1 (f : Word → Word) (x : VReg) : VReg := .like [x] (fun l => f (x.at l))

/-- Addition: base and stride combine term by term (R30, R217). -/
def addV (x y : VReg) : VReg :=
  match x, y with
  | .u b, .u c => .u (b + c)
  | .u b, .a c t => .affine (b + c) t
  | .a b t, .u c => .affine (b + c) t
  | .a b t, .a c w => .affine (b + c) (t + w)
  | _, _ => .gen (fun l => x.at l + y.at l)

def subV (x y : VReg) : VReg :=
  match x, y with
  | .u b, .u c => .u (b - c)
  | .u b, .a c t => .affine (b - c) (-t)
  | .a b t, .u c => .affine (b - c) t
  | .a b t, .a c w => .affine (b - c) (t - w)
  | _, _ => .gen (fun l => x.at l - y.at l)

/-- Multiplication: affine when one factor is U (R217). -/
def mulV (x y : VReg) : VReg :=
  match x, y with
  | .u b, .u c => .u (b * c)
  | .u b, .a c t => .affine (b * c) (b * t)
  | .a b t, .u c => .affine (b * c) (t * c)
  | _, _ => .gen (fun l => x.at l * y.at l)

/-- Shift left by an unsigned count: affine when the count is U (R30, R219). -/
def shlW (a c : Word) : Word := if c.toNat < 32 then a <<< c.toNat else 0
def shlV (x y : VReg) : VReg :=
  match x, y with
  | .u b, .u c => .u (shlW b c)
  | .a b t, .u c => .affine (shlW b c) (shlW t c)
  | _, _ => .gen (fun l => shlW (x.at l) (y.at l))

def shrW (a c : Word) : Word := if c.toNat < 32 then a >>> c.toNat else 0
def sraW (a c : Word) : Word :=
  if c.toNat < 32 then a.sshiftRight c.toNat else if a.msb then 0xFFFFFFFF else 0
def minS (a b : Word) : Word := if a.toInt < b.toInt then a else b
def maxS (a b : Word) : Word := if a.toInt < b.toInt then b else a
def minU (a b : Word) : Word := if a.toNat < b.toNat then a else b
def maxU (a b : Word) : Word := if a.toNat < b.toNat then b else a

/-- An integer clamped to lo..hi, as a word. -/
def clampW (lo hi x : Int) : Word := wordOf (if x < lo then lo else if hi < x then hi else x)
def mulhiW (a b : Word) : Word := wordOf (a.toInt * b.toInt / 2 ^ 32)
def mulhinW (a b : Word) : Word := BitVec.ofNat 32 (a.toNat * b.toNat / 2 ^ 32)
def addsW (a b : Word) : Word := clampW (-2 ^ 31) (2 ^ 31 - 1) (a.toInt + b.toInt)
def addsnW (a b : Word) : Word := clampW 0 (2 ^ 32 - 1) (a.toNat + b.toNat : Nat)
def subsW (a b : Word) : Word := clampW (-2 ^ 31) (2 ^ 31 - 1) (a.toInt - b.toInt)
def subsnW (a b : Word) : Word := BitVec.ofNat 32 (a.toNat - b.toNat)
def absdiffW (a b : Word) : Word := BitVec.ofNat 32 (a.toInt - b.toInt).natAbs
def rotlW (a b : Word) : Word := a.rotateLeft (b.toNat % 32)
/-- The bit field of R219: position b[4:0], width b[13:8]. -/
def bfeW (a b : Word) : Word := BitVec.ofNat 32 (fld a.toNat (fld b.toNat 0 5) (fld b.toNat 8 6))
def popcW (a : Word) : Word := BitVec.ofNat 32 (popBits 32 a.toNat)
def clzW (a : Word) : Word := BitVec.ofNat 32 (ctzBits 32 (revBits 32 a.toNat))
def ctzW (a : Word) : Word := BitVec.ofNat 32 (ctzBits 32 a.toNat)
def brevW (a : Word) : Word := BitVec.ofNat 32 (revBits 32 a.toNat)

/-- An `il` function of one source. -/
def State.lane1 (s : State) (len : Nat) (d a : BitVec 7) (f : VReg → VReg) : Out :=
  if s.vrOk d [a] then
    let x := s.src .int a
    let v := f x
    s.deliver len d [a] (!x.isG && !v.isG) v []
  else s.illop len true

/-- An `iai` instruction: the immediate counts as a U source; an EXT's 25-bit value replaces IMM10, which
must then be 0 (R175, R218). `shift` limits it to 0–31. -/
def State.laneImm (s : State) (shift : Bool) (d a : BitVec 6) (i : BitVec 10) (f : VReg → VReg → VReg) : Out :=
  let imm : Word := match s.gang.ext with
    | some p => p.signExtend 32
    | none => i.signExtend 32
  if (s.gang.ext.isSome && i != 0) || (shift && !decide (imm.toNat < 32)) then s.illop 4 true
  else
    let x := s.r.vreg a
    let v := f x (.u imm)
    s.deliver 4 (d.setWidth 7) [] (!x.isG && !v.isG) v []

/-! ### ia (R217) -/

def execIaAdd (d a b : BitVec 7) (s : State) : Out := s.lane2 4 d a b addV
def execIaSub (d a b : BitVec 7) (s : State) : Out := s.lane2 4 d a b subV
def execIaMullo (d a b : BitVec 7) (s : State) : Out := s.lane2 4 d a b mulV
def execIaMulhi (d a b : BitVec 7) (s : State) : Out := s.lane2 4 d a b (word2 mulhiW)
def execIaMulhin (d a b : BitVec 7) (s : State) : Out := s.lane2 4 d a b (word2 mulhinW)
def execIaMin (d a b : BitVec 7) (s : State) : Out := s.lane2 4 d a b (word2 minS)
def execIaMax (d a b : BitVec 7) (s : State) : Out := s.lane2 4 d a b (word2 maxS)
def execIaMinn (d a b : BitVec 7) (s : State) : Out := s.lane2 4 d a b (word2 minU)
def execIaMaxn (d a b : BitVec 7) (s : State) : Out := s.lane2 4 d a b (word2 maxU)
def execIaAdds (d a b : BitVec 7) (s : State) : Out := s.lane2 4 d a b (word2 addsW)
def execIaAddsn (d a b : BitVec 7) (s : State) : Out := s.lane2 4 d a b (word2 addsnW)
def execIaSubs (d a b : BitVec 7) (s : State) : Out := s.lane2 4 d a b (word2 subsW)
def execIaSubsn (d a b : BitVec 7) (s : State) : Out := s.lane2 4 d a b (word2 subsnW)
def execIaAbsdiff (d a b : BitVec 7) (s : State) : Out := s.lane2 4 d a b (word2 absdiffW)

/-! ### il (R219) -/

def execIlAnd (d a b : BitVec 7) (s : State) : Out := s.lane2 4 d a b (word2 (· &&& ·))
def execIlOr (d a b : BitVec 7) (s : State) : Out := s.lane2 4 d a b (word2 (· ||| ·))
def execIlXor (d a b : BitVec 7) (s : State) : Out := s.lane2 4 d a b (word2 (· ^^^ ·))
def execIlAndn (d a b : BitVec 7) (s : State) : Out := s.lane2 4 d a b (word2 (fun a b => a &&& ~~~b))
def execIlOrn (d a b : BitVec 7) (s : State) : Out := s.lane2 4 d a b (word2 (fun a b => a ||| ~~~b))
def execIlShl (d a b : BitVec 7) (s : State) : Out := s.lane2 4 d a b shlV
def execIlShr (d a b : BitVec 7) (s : State) : Out := s.lane2 4 d a b (word2 shrW)
def execIlSra (d a b : BitVec 7) (s : State) : Out := s.lane2 4 d a b (word2 sraW)
def execIlRotl (d a b : BitVec 7) (s : State) : Out := s.lane2 4 d a b (word2 rotlW)
def execIlBfe (d a b : BitVec 7) (s : State) : Out := s.lane2 4 d a b (word2 bfeW)
def execIlPopc (d a : BitVec 7) (s : State) : Out := s.lane1 4 d a (word1 popcW)
def execIlClz (d a : BitVec 7) (s : State) : Out := s.lane1 4 d a (word1 clzW)
def execIlCtz (d a : BitVec 7) (s : State) : Out := s.lane1 4 d a (word1 ctzW)
def execIlBrev (d a : BitVec 7) (s : State) : Out := s.lane1 4 d a (word1 brevW)

/-! ### iai (R218) -/

def execIaiAddi (d a : BitVec 6) (i : BitVec 10) (s : State) : Out := s.laneImm false d a i addV
def execIaiMuli (d a : BitVec 6) (i : BitVec 10) (s : State) : Out := s.laneImm false d a i mulV
def execIaiAndi (d a : BitVec 6) (i : BitVec 10) (s : State) : Out := s.laneImm false d a i (word2 (· &&& ·))
def execIaiOri (d a : BitVec 6) (i : BitVec 10) (s : State) : Out := s.laneImm false d a i (word2 (· ||| ·))
def execIaiXori (d a : BitVec 6) (i : BitVec 10) (s : State) : Out := s.laneImm false d a i (word2 (· ^^^ ·))
def execIaiShli (d a : BitVec 6) (i : BitVec 10) (s : State) : Out := s.laneImm true d a i shlV
def execIaiShri (d a : BitVec 6) (i : BitVec 10) (s : State) : Out := s.laneImm true d a i (word2 shrW)
def execIaiSrai (d a : BitVec 6) (i : BitVec 10) (s : State) : Out := s.laneImm true d a i (word2 sraW)

end Sys2Proof.Machine
end

