-- ==== Sys2Proof/Machine/Scalar.lean ====
section
/-! DEFINITION. Scalar arithmetic, the execution mask and the format register: families sa, sai and mask
(R197 to R200). -/

namespace Sys2Proof.Machine

/-- An instruction whose format accepts no EXT raises ILLOP after one (R175, R176). -/
def State.noExt (s : State) (k : Out) : Out := if s.gang.ext.isSome then s.illop 4 true else k

/-- An instruction that only writes registers (R197). -/
def State.setRegs (s : State) (r : Regs) : Out := (s.setR r).retire

/-! ### sa (R198) -/

/-- `sa` writes sD and nothing else. -/
def State.sa (s : State) (d : BitVec 5) (v : Word) : Out := s.noExt (s.setRegs (s.r.setS d v))

def execSaAdd (d a b : BitVec 5) (s : State) : Out := s.sa d (s.r.sreg a + s.r.sreg b)
def execSaSub (d a b : BitVec 5) (s : State) : Out := s.sa d (s.r.sreg a - s.r.sreg b)
def execSaMul (d a b : BitVec 5) (s : State) : Out := s.sa d (s.r.sreg a * s.r.sreg b)
def execSaMin (d a b : BitVec 5) (s : State) : Out := s.sa d (minS (s.r.sreg a) (s.r.sreg b))
def execSaMax (d a b : BitVec 5) (s : State) : Out := s.sa d (maxS (s.r.sreg a) (s.r.sreg b))
def execSaMinn (d a b : BitVec 5) (s : State) : Out := s.sa d (minU (s.r.sreg a) (s.r.sreg b))
def execSaMaxn (d a b : BitVec 5) (s : State) : Out := s.sa d (maxU (s.r.sreg a) (s.r.sreg b))
def execSaAnd (d a b : BitVec 5) (s : State) : Out := s.sa d (s.r.sreg a &&& s.r.sreg b)
def execSaOr (d a b : BitVec 5) (s : State) : Out := s.sa d (s.r.sreg a ||| s.r.sreg b)
def execSaXor (d a b : BitVec 5) (s : State) : Out := s.sa d (s.r.sreg a ^^^ s.r.sreg b)
def execSaAndn (d a b : BitVec 5) (s : State) : Out := s.sa d (s.r.sreg a &&& ~~~(s.r.sreg b))
def execSaShl (d a b : BitVec 5) (s : State) : Out := s.sa d (shlW (s.r.sreg a) (s.r.sreg b))
def execSaShr (d a b : BitVec 5) (s : State) : Out := s.sa d (shrW (s.r.sreg a) (s.r.sreg b))
def execSaSra (d a b : BitVec 5) (s : State) : Out := s.sa d (sraW (s.r.sreg a) (s.r.sreg b))
def execSaPopc (d a : BitVec 5) (s : State) : Out := s.sa d (BitVec.ofNat 32 (popBits 32 (s.r.sreg a).toNat))
def execSaFfs (d a : BitVec 5) (s : State) : Out := s.sa d (BitVec.ofNat 32 (ctzBits 32 (s.r.sreg a).toNat))

/-! ### sai (R199) -/

/-- An immediate field, or the payload of an EXT that replaces it, the field then 0 (R169, R175). -/
def State.imm (s : State) {n : Nat} (i : BitVec n) : Option Word :=
  match s.gang.ext with
  | none => some (i.signExtend 32)
  | some p => if i = 0 then some (p.signExtend 32) else none

/-- `sai` writes sD from the immediate; none of the immediates it accepts is ILLOP. -/
def State.sai (s : State) (d : BitVec 5) (i : BitVec 12) (f : Word → Option Word) : Out :=
  match s.imm i with
  | none => s.illop 4 true
  | some x => match f x with
    | none => s.illop 4 false
    | some v => s.setRegs (s.r.setS d v)

/-- A shift count of 0–31 (R199). -/
def shiftImm (f : Word → Word → Word) (a i : Word) : Option Word := if i.toNat < 32 then some (f a i) else none

def execSaiAddi (d a : BitVec 5) (i : BitVec 12) (s : State) : Out := s.sai d i (fun x => some (s.r.sreg a + x))
def execSaiAndi (d a : BitVec 5) (i : BitVec 12) (s : State) : Out := s.sai d i (fun x => some (s.r.sreg a &&& x))
def execSaiOri (d a : BitVec 5) (i : BitVec 12) (s : State) : Out := s.sai d i (fun x => some (s.r.sreg a ||| x))
def execSaiXori (d a : BitVec 5) (i : BitVec 12) (s : State) : Out := s.sai d i (fun x => some (s.r.sreg a ^^^ x))
def execSaiShli (d a : BitVec 5) (i : BitVec 12) (s : State) : Out := s.sai d i (shiftImm shlW (s.r.sreg a))
def execSaiShri (d a : BitVec 5) (i : BitVec 12) (s : State) : Out := s.sai d i (shiftImm shrW (s.r.sreg a))
def execSaiSrai (d a : BitVec 5) (i : BitVec 12) (s : State) : Out := s.sai d i (shiftImm sraW (s.r.sreg a))
def execSaiLui (d : BitVec 5) (i : BitVec 12) (s : State) : Out := s.sai d i (fun x => some (x <<< 7))

/-! ### mask (R34, R35, R200) -/

/-- A value written to `exec`: ANDed with `launched` (R8). -/
def State.withExec (s : State) (v : Word) : Out := s.noExt (s.setRegs { s.r with exec := v &&& s.gang.launched })

def execMaskSave (d : BitVec 5) (s : State) : Out :=
  s.noExt (if d = 31 then s.illop 4 false else s.setRegs (s.r.setPair d s.r.exec s.r.fmt))
def execMaskRest (a : BitVec 5) (s : State) : Out :=
  s.noExt (if a = 31 then s.illop 4 false
    else s.setRegs { s.r with exec := s.r.sreg a &&& s.gang.launched, fmt := fmtWrite (s.r.sreg1 a) })
def execMaskSet (a : BitVec 5) (m : BitVec 1) (s : State) : Out :=
  if m = 0 then s.withExec (s.r.sreg a) else s.noExt (s.setRegs { s.r with fmt := fmtWrite (s.r.sreg a) })
def execMaskAnd (a : BitVec 5) (s : State) : Out := s.withExec (s.r.exec &&& s.r.sreg a)
def execMaskAndn (a : BitVec 5) (s : State) : Out := s.withExec (s.r.exec &&& ~~~(s.r.sreg a))
def execMaskOr (a : BitVec 5) (s : State) : Out := s.withExec (s.r.exec ||| s.r.sreg a)
def execMaskFull (s : State) : Out := s.withExec s.gang.launched

end Sys2Proof.Machine
end

