-- ==== Sys2Proof/Machine/LoadStore.lean ====
section
/-! DEFINITION. Memory addressing, the checks of a memory instruction, loads and stores: families ld, st and
sm (R28, R70 to R73, R79, R84, R98, R233 to R239). -/

namespace Sys2Proof.Machine

/-! ### Addresses (R233) -/

/-- The data segment: bits [47:32] of the launch-parameter block's VA. -/
def State.seg (s : State) : Nat := s.grid.params.toNat / 2 ^ 32

/-- The displacement of an ME instruction: IMM3 units of the size, or an EXT's 20-bit offset. -/
def State.disp (s : State) (i : BitVec 3) (size : Nat) : Int :=
  match s.gang.ext with
  | none => Int.ofNat (i.toNat * size)
  | some p => signed 20 p.toNat

/-- sS, a lane's offset and the displacement, as a sum. -/
def State.meSum (s : State) (base : BitVec 5) (o : BitVec 6) (n : BitVec 1) (i : BitVec 3) (size : Nat) (l : Fin 32) : Int :=
  Int.ofNat (s.r.sreg base).toNat + (if n = 1 then 0 else ((s.r.vreg o).at l).toInt) + s.disp i size

/-- A lane's VA. -/
def State.meVa (s : State) (base : BitVec 5) (o : BitVec 6) (n : BitVec 1) (i : BitVec 3) (size : Nat) (l : Fin 32) : Nat :=
  wrapInt 48 (Int.ofNat (s.seg * 2 ^ 32) + s.meSum base o n i size l)

/-- A lane's scratchpad offset. -/
def State.meOff (s : State) (base : BitVec 5) (o : BitVec 6) (n : BitVec 1) (i : BitVec 3) (size : Nat) (l : Fin 32) : Nat :=
  wrapInt 32 (s.meSum base o n i size l)

/-- The encoding checks of an ME instruction whose group has `k` registers; only loads take RC and NT
(R175, R234). -/
def State.meOk (s : State) (load : Bool) (v : BitVec 6) (k : Nat) (o : BitVec 6) (n : BitVec 1) (i : BitVec 3) : Bool :=
  (n != 1 || o == 0) && decide (v.toNat + k ≤ 64)
  && (match s.gang.ext with
    | none => true
    | some p => i == 0 && (load || fld p.toNat 20 5 == 0))

/-- Every active lane addresses the same bytes (R236). -/
def State.meUniform (s : State) (o : BitVec 6) (n : BitVec 1) : Bool := n == 1 || (s.r.vreg o).isU

/-! ### The checks of R235 -/

/-- The first lane with a failing check decides the code; with it go the lanes that meet the code, and the
lowest one's address and information (R153). -/
def pickFault (ls : List (Fin 32)) (f : Fin 32 → List (Nat × Nat × Nat)) : Option (Nat × Word × Nat × Nat) :=
  (ls.flatMap f).head?.map (fun t =>
    (t.1, BitVec.ofNat 32 ((ls.filter (fun l => (f l).any (fun u => u.1 == t.1))).map (fun l => 2 ^ l.val)).sum, t.2.1, t.2.2))

/-- Raise the fault of some lanes; a scalar access names none. -/
def State.raiseLanes (s : State) (scalar : Bool) (t : Nat × Word × Nat × Nat) : Out :=
  s.raise 4 t.1 (if scalar then 0 else t.2.1) t.2.2.1 t.2.2.2

/-- The access meets the gang's spill area (R28). -/
def Regs.inSpill (r : Regs) (va size : Nat) : Bool :=
  decide (va < r.splim.toNat) && decide (r.spbase.toNat < va + size)

/-- A load meets the spill area of a gang of its address space, its own among them (R28). -/
def State.inSpill (s : State) (va size : Nat) : Bool :=
  s.r.inSpill va size || s.gangs.any (fun p => p.2.st != .vacant && p.2.st != .retired && p.2.asid == s.gang.asid
    && (s.gridAt (s.wgAt p.2.wg).grid).leaf == s.leafNo && p.2.r.inSpill va size)

/-- Alignment and SPILLX (R235, checks 2 and 3). -/
def State.alignFault (s : State) (write : Bool) (size : Nat) (ls : List (Fin 32)) (va : Fin 32 → Nat) :
    Option (Nat × Word × Nat × Nat) :=
  pickFault ls (fun l =>
    (if va l % size ≠ 0 then [(tcALIGN, va l, 0)] else [])
    ++ (if write && s.r.inSpill (va l) size then [(tcSPILLX, va l, 0)] else []))

/-- The level of the leaf entry of a write that its copy fails for (R129). -/
def State.leafLevel (s : State) (va : Nat) : Nat :=
  match s.walk s.leafNo (s.myAsid.pinned s.gang.gen).root va with
  | .hit lv _ _ => lv
  | _ => 0

/-- The translation faults of a lane's address: those of its walk, a copy on write that cannot be made (`fails`), and
the failed wait for the page `failed`. -/
def State.xlCode (s : State) (write : Bool) (fails : Nat → Bool) (failed : Option Xl) (va : Nat) : List (Nat × Nat × Nat) :=
  match s.gxlate write false va with
  | .trap c i => [(c, va, i)]
  | .cow => if fails va then [(tcXLATE, va, 5 + s.leafLevel va * 16)] else []
  | x => if failed == some x then (match x, s.gang.wait with
      | .page k own, .peerFail k' own' => if k == k' && own == own' then [(tcXLATE, va, s.levelOf va * 16 + 3)] else []
      | .ats p g, .atsFail p' g' w info => if p == p' && g == g' && w == write then [(tcHOSTPG, va, info)] else []
      | _, _ => []) else []

/-- A page of the host or of another device holds up an access. -/
def Xl.waits : Xl → Bool
  | .ats _ _ => true
  | .page _ _ => true
  | _ => false

/-- The first lane that cannot go on: the instruction waits on it, or traps with the code of its first fault, naming every
lane that meets that code (R129, R153).  A failed wait is a fault of the lanes that lead to the page of the first lane that
waits.  `more` gives the further faults of a lane, which rank with those of its translation. -/
def State.xlStop (s : State) (scalar write : Bool) (ls : List (Fin 32)) (va : Fin 32 → Nat) (fails : Nat → Bool)
    (more : Nat → List (Nat × Nat × Nat)) : Option Out :=
  let xl := fun (l : Fin 32) => s.gxlate write false (va l)
  let failed := (ls.find? (fun l => (xl l).waits)).map xl
  let code := fun (l : Fin 32) => s.xlCode write fails failed (va l) ++ more (va l)
  match ls.find? (fun l => (xl l).waits || !(code l).isEmpty || (match xl l with
      | .hole _ => true
      | _ => false)) with
  | none => none
  | some l =>
    if !(code l).isEmpty then (pickFault ls code).map (s.raiseLanes scalar) else
    let trap := fun (c i : Nat) => s.raise 4 c 0 (va l) i
    match xl l with
    | .ats p g => some (s.waitAts p g write trap)
    | .page k own => some (s.waitPage (s.levelOf (va l)) k own trap)
    | .hole pa => some (.fault (.noSuchMemory pa))
    | _ => none

/-- The places the lanes reach once every one translates. -/
def State.locsOf (s : State) (write : Bool) (ls : List (Fin 32)) (va : Fin 32 → Nat) : List (Fin 32 × Loc × Bool) :=
  ls.filterMap (fun l => match s.gxlate write false (va l) with
    | .ok loc na => some (l, loc, na)
    | _ => none)

/-- Translate every lane (R235, check 4): refresh and copy on write first, which need a gang that is
non-speculative; then go on.  A copy that fails is a fault of its lane, and ranks with those of the others. -/
def State.translate (s : State) (scalar write : Bool) (ls : List (Fin 32)) (va : Fin 32 → Nat)
    (more : State → Nat → List (Nat × Nat × Nat)) (k : State → List (Fin 32 × Loc × Bool) → Out) : Out :=
  let refresh := ls.any (fun l => s.needsRefresh write false (va l))
  if refresh && !s.quiet then s.stall else
  let s := if refresh then s.repin s.cur else s
  let t := if write then s.prepare true (ls.map va) else s
  match s.xlStop scalar write ls va (fun a => t.gxlate true false a == .cow) (more s) with
  | some o => o
  | none =>
    match t.xlStop scalar write ls va (fun _ => true) (more t) with
    | some o => o
    | none => k t (t.locsOf write ls va)

/-- An access has no faults beside those of its translation. -/
def noMore (_ : State) (_ : Nat) : List (Nat × Nat × Nat) := []

/-! ### Loads -/

/-- The places that unperformed read-modify-writes of the gang are to change: no younger read of them performs
(R84). -/
def State.rmwBytes (s : State) : List Loc :=
  s.gang.stores.flatMap (fun w => match w.space, w.rmw with
    | .dram, some m => w.writes.flatMap (fun p => match s.gxlate false false p.1 with
        | .ok loc _ => (List.range m.size).map loc.plus
        | _ => [])
    | _, _ => [])

/-- The gang's own unperformed writes as places and bytes, newest first (R84). -/
def State.ownWrites (s : State) : List (Loc × Byte) :=
  (s.gang.stores.flatMap (fun w => if w.space == .dram then
      w.writes.flatMap (fun p => match s.gxlate false false p.1 with
        | .ok loc _ => (List.range p.2.length).map (fun i => (loc.plus i, p.2.getD i 0))
        | _ => [])
    else [])).reverse

/-- A byte as the gang reads it. -/
def State.byteAt (s : State) (own : List (Loc × Byte)) (loc : Loc) : Byte :=
  match own.find? (fun p => p.1 == loc) with
  | some p => p.2
  | none => s.readLoc loc

/-- The place of byte `i` of an access whose first byte leads to `loc`: it may lie on the other side of an end of a built
block. -/
def State.locPlus (s : State) (va : Nat) (loc : Loc) (i : Nat) : Loc :=
  if s.hasBlocks s.cur then (match s.gxlate false false (va + i) with
    | .ok loc _ => loc
    | _ => loc.plus i) else loc.plus i

/-- The registers a load's bytes fill, one value for each lane: the words of the group. -/
def loadWord (size : Nat) (sgn : Bool) (bytes : List Byte) (j : Nat) : Word :=
  if 4 ≤ size then BitVec.ofNat 32 (leNat ((bytes.drop (4 * j)).take 4))
  else if sgn then wordOf (signed (8 * size) (leNat bytes))
  else BitVec.ofNat 32 (leNat bytes)

/-- How many registers a load of `size` bytes fills. -/
def groupOf (size : Nat) : Nat := if size ≤ 4 then 1 else size / 4

/-- Write the registers of a load (R31, R236, R237, R239). -/
def LoadReq.write (q : LoadReq) (r : Regs) (launched : Word) (bytes : Fin 32 → List Byte) : Regs :=
  if q.scalar then
    if q.size = 8 then r.setPair (BitVec.ofNat 5 q.reg) (loadWord 8 false (bytes 0) 0) (loadWord 8 false (bytes 0) 1)
    else r.setS (BitVec.ofNat 5 q.reg) (loadWord 4 false (bytes 0) 0)
  else (List.range (groupOf q.size)).foldl (fun r j =>
    let d := BitVec.ofNat 6 (q.reg + j)
    let new : VReg := if q.uniform then (match lowest q.lanes with
        | some l => .u (loadWord q.size q.signed (bytes l) j)
        | none => .u 0)
      else .gen (fun l => loadWord q.size q.signed (bytes l) j)
    r.setV d ((r.vreg d).merge new q.lanes launched)) r

/-- The lanes of a load and their addresses. -/
def LoadReq.lanesL (q : LoadReq) : List (Fin 32) := if q.scalar then [0] else lanesOf q.lanes
def LoadReq.va (q : LoadReq) (l : Fin 32) : Nat := q.addrs.getD l.val 0

/-- The pages a load's lanes are translated by. -/
def State.pagesOf (s : State) (q : LoadReq) : List ReadItem :=
  (q.lanesL.map (fun l => ReadItem.trans s.leafNo s.gang.asid (q.va l / 65536))).eraseDups

/-- The faults of a lane that meets a poisoned line (R109). -/
def State.lossCode (s : State) (xs : List (Fin 32 × Loc × Bool)) (va : Fin 32 → Nat) (l : Fin 32) : List (Nat × Nat × Nat) :=
  match xs.find? (fun x => x.1 == l) with
  | some x => if s.poisoned x.2.1 then [(tcDATALOSS, va l, 0)] else []
  | none => []

/-- Read the bytes of a load whose lanes reach `xs`, and retire it. -/
def State.readNow (s : State) (q : LoadReq) (xs : List (Fin 32 × Loc × Bool)) : Out :=
  let own := s.ownWrites
  let bytes := fun (l : Fin 32) => match xs.find? (fun x => x.1 == l) with
    | some x => (List.range q.size).map (fun i =>
        -- the spill area's bytes are undefined (R28)
        if s.inSpill (q.va l + i) 1 then Config.freeByte (s.free + 16 * l.val + i) else s.byteAt own (s.locPlus (q.va l) x.2.1 i))
    | none => []
  let spill := q.lanesL.any (fun l => s.inSpill (q.va l) q.size)
  let lines := xs.filterMap (fun x => x.2.1.line.map (fun n => (n, x.2.2)))
  let s := noteRead s false (((lines.map (fun p => p.1)).eraseDups).map ReadItem.line ++ s.pagesOf q)
  let s := s.touchLines s.wg.core q.rc q.nt lines
  let s := if spill then { s with free := s.free + 512 } else s
  -- a host access is irrevocable (R89, R162)
  let s := if xs.any (fun x => x.2.1.isHost) then s.setGang s.gang.wrote else s
  (s.setR (q.write s.r s.gang.launched bytes)).retire (if q.scalar || q.uniform then 1 else vecCost false q.lanes)

/-- Why a load whose lanes reach `xs` must wait: the L1 has no room for a line (R85), or an older
read-modify-write is to change what it reads (R84). -/
def State.loadHeld (s : State) (q : LoadReq) (xs : List (Fin 32 × Loc × Bool)) : Bool :=
  (!q.nt && xs.any (fun x => !x.2.2 && x.2.1.line.any (s.l1Full s.wg.core)))
  || (let busy := s.rmwBytes
      !busy.isEmpty && xs.any (fun x => (List.range q.size).any (fun i => busy.contains (x.2.1.plus i))))

/-- Perform a load and retire it: translate, meet poison, read, join the read set. A load of a host window waits
until nothing older does, with its translation in the read set (R98). -/
def State.loadNow (s : State) (q : LoadReq) : Out :=
  if s.gang.holdsRead 1 then s.stall else
  s.translate q.scalar false q.lanesL q.va noMore (fun s xs =>
    if xs.any (fun x => x.2.1.isHost) && !s.quiet then (noteRead s false (s.pagesOf q)).stall
    else if s.loadHeld q xs then s.stall
    else match pickFault q.lanesL (s.lossCode xs q.va) with
      | some t => s.raiseLanes q.scalar t
      | none => s.readNow q xs)

/-- Issue a load: it performs at once, or waits for its completion when completions are held. -/
def State.load (s : State) (q : LoadReq) : Out :=
  if s.holdLoads then s.stallAs (.load q) else s.loadNow q

/-- `ld` (R237). -/
def State.ld (s : State) (v : BitVec 6) (b : BitVec 5) (o : BitVec 6) (n : BitVec 1) (i : BitVec 3) (size : Nat) (sgn : Bool) : Out :=
  if !s.meOk true v (groupOf size) o n i then s.illop 4 true else
  let ls := lanesOf s.r.exec
  let va := s.meVa b o n i size
  if ls.isEmpty then s.retire else
  match s.alignFault false size ls va with
  | some t => s.raiseLanes false t
  | none => s.load {
      reg := v.toNat, size := size, signed := sgn, uniform := s.meUniform o n, lanes := s.r.exec,
      addrs := lanes32.map va, pre := s.gang.ext
      rc := (match s.gang.ext with | some p => fld p.toNat 20 4 | none => 0)
      nt := (match s.gang.ext with | some p => bitAt p.toNat 24 | none => false) }

def execLdB (v : BitVec 6) (b : BitVec 5) (o : BitVec 6) (n : BitVec 1) (i : BitVec 3) (s : State) : Out := s.ld v b o n i 1 true
def execLdBn (v : BitVec 6) (b : BitVec 5) (o : BitVec 6) (n : BitVec 1) (i : BitVec 3) (s : State) : Out := s.ld v b o n i 1 false
def execLdH (v : BitVec 6) (b : BitVec 5) (o : BitVec 6) (n : BitVec 1) (i : BitVec 3) (s : State) : Out := s.ld v b o n i 2 true
def execLdHn (v : BitVec 6) (b : BitVec 5) (o : BitVec 6) (n : BitVec 1) (i : BitVec 3) (s : State) : Out := s.ld v b o n i 2 false
def execLdW (v : BitVec 6) (b : BitVec 5) (o : BitVec 6) (n : BitVec 1) (i : BitVec 3) (s : State) : Out := s.ld v b o n i 4 false
def execLdD (v : BitVec 6) (b : BitVec 5) (o : BitVec 6) (n : BitVec 1) (i : BitVec 3) (s : State) : Out := s.ld v b o n i 8 false
def execLdQ (v : BitVec 6) (b : BitVec 5) (o : BitVec 6) (n : BitVec 1) (i : BitVec 3) (s : State) : Out := s.ld v b o n i 16 false

/-! ### Stores -/

/-- The bytes of a register group in one lane. -/
def Regs.groupBytes (r : Regs) (v : BitVec 6) (size : Nat) (l : Fin 32) : List Byte :=
  if size < 4 then leBytes size ((r.vreg v).at l).toNat
  else (List.range (size / 4)).flatMap (fun j => leBytes 4 ((r.vreg (BitVec.ofNat 6 (v.toNat + j))).at l).toNat)

/-- No register of a group is general. -/
def Regs.groupFlat (r : Regs) (v : BitVec 6) (k : Nat) : Bool :=
  (List.range k).all (fun j => !(r.vreg (BitVec.ofNat 6 (v.toNat + j))).isG)

/-- Retire a store and give its writes their place (R84). A gang that is non-speculative checks its
translation first; any other queues the writes, which are checked when they perform (R118). -/
def State.store (s : State) (scalar : Bool) (cost : Nat) (ls : List (Fin 32)) (va : Fin 32 → Nat) (bytes : Fin 32 → List Byte) : Out :=
  let writes := ls.map (fun l => (va l, bytes l))
  let go := fun (s : State) => (Host.Outcome.next (s.order (s.advance cost 4) false .dram writes) : Out)
  if s.quiet then s.translate scalar true ls va noMore (fun s _ => go s) else go s

/-- `st` (R238). -/
def State.st (s : State) (v : BitVec 6) (b : BitVec 5) (o : BitVec 6) (n : BitVec 1) (i : BitVec 3) (size : Nat) : Out :=
  if !s.meOk false v (groupOf size) o n i then s.illop 4 true else
  let ls := lanesOf s.r.exec
  let va := s.meVa b o n i size
  if ls.isEmpty then s.retire else
  match s.alignFault true size ls va with
  | some t => s.raiseLanes false t
  | none => s.store false (vecCost (s.r.groupFlat v (groupOf size) && (n == 1 || !(s.r.vreg o).isG)) s.r.exec) ls va
      (s.r.groupBytes v size)

def execStB (v : BitVec 6) (b : BitVec 5) (o : BitVec 6) (n : BitVec 1) (i : BitVec 3) (s : State) : Out := s.st v b o n i 1
def execStH (v : BitVec 6) (b : BitVec 5) (o : BitVec 6) (n : BitVec 1) (i : BitVec 3) (s : State) : Out := s.st v b o n i 2
def execStW (v : BitVec 6) (b : BitVec 5) (o : BitVec 6) (n : BitVec 1) (i : BitVec 3) (s : State) : Out := s.st v b o n i 4
def execStD (v : BitVec 6) (b : BitVec 5) (o : BitVec 6) (n : BitVec 1) (i : BitVec 3) (s : State) : Out := s.st v b o n i 8
def execStQ (v : BitVec 6) (b : BitVec 5) (o : BitVec 6) (n : BitVec 1) (i : BitVec 3) (s : State) : Out := s.st v b o n i 16

/-! ### sm (R239) -/

/-- An `sm` address. -/
def State.smVa (s : State) (a : BitVec 5) (x : Word) : Nat :=
  wrapInt 48 (Int.ofNat (s.seg * 2 ^ 32) + Int.ofNat (s.r.sreg a).toNat + x.toInt)

/-- The encoding and alignment checks of `sm`, then its access. -/
def State.sm (s : State) (d a : BitVec 5) (i : BitVec 12) (pair write : Bool) (k : Nat → Out) : Out :=
  match s.imm i with
  | none => s.illop 4 true
  | some x =>
    if pair && d == 31 then s.illop 4 false else
    let va := s.smVa a x
    match s.alignFault write (if pair then 8 else 4) [0] (fun _ => va) with
    | some t => s.raiseLanes true t
    | none => k va

def execSmLdw (d a : BitVec 5) (i : BitVec 12) (s : State) : Out :=
  s.sm d a i false false (fun va => s.load { reg := d.toNat, scalar := true, size := 4, addrs := [va], pre := s.gang.ext })
def execSmLdd (d a : BitVec 5) (i : BitVec 12) (s : State) : Out :=
  s.sm d a i true false (fun va => s.load { reg := d.toNat, scalar := true, size := 8, addrs := [va], pre := s.gang.ext })
def execSmStw (d a : BitVec 5) (i : BitVec 12) (s : State) : Out :=
  s.sm d a i false true (fun va => s.store true 1 [0] (fun _ => va) (fun _ => leBytes 4 (s.r.sreg d).toNat))
def execSmStd (d a : BitVec 5) (i : BitVec 12) (s : State) : Out :=
  s.sm d a i true true (fun va => s.store true 1 [0] (fun _ => va)
    (fun _ => leBytes 4 (s.r.sreg d).toNat ++ leBytes 4 (s.r.sreg1 d).toNat))

end Sys2Proof.Machine
end

