-- ==== Sys2Proof/Machine/Rmw.lean ====
section
/-! DEFINITION. What read-modify-writes compute, exact accumulator cells among them, and those that wait for their
place in a gang's order (R64 to R66, R84, R240, R241, R243). -/

namespace Sys2Proof.Machine

/-- What one lane's event does: from the old bytes, the new bytes, the word returned and the events
raised. -/
structure AtomRes where
  new : List Byte
  ret : Word := 0
  ev : Nat := 0

/-- The bounded increment (R240). -/
def incW (m v : Word) : Word := if v.toNat ≤ m.toNat then 0 else m + 1

/-- `at.fadd`: round(m + v) with its events (R240). -/
def faddRes (r : Regs) (v : BitVec 6) (l : Fin 32) (old : List Byte) : AtomRes :=
  let m : Word := BitVec.ofNat 32 (leNat old)
  let x := sumF32 r.rm [termOf (ofF32 m), termOf (ofF32 ((r.vreg v).at l))]
  { new := leBytes 4 x.1.toNat, ret := m, ev := x.2 }

/-! ### Exact accumulator cells (R64 to R66, R241) -/

/-- An FP32 addend in units of 2^-280, and whether its magnitude reaches 2^96. -/
def cellAddend (x : Num) : Int × Bool :=
  match x with
  | .fin neg m e =>
    let k : Nat := (e + 280).toNat
    let v : Int := Int.ofNat (m * 2 ^ k)
    (if neg then -v else v, decide (2 ^ 96 * 2 ^ 280 ≤ m * 2 ^ k))
  | _ => (0, false)

/-- R65: the cell after an addend. -/
def cellAdd (x : Num) (old : List Byte) : List Byte :=
  let value := leNat (old.take 48)
  let status := leNat ((old.drop 48).take 4)
  let bit : Nat := match x with
    | .nan => 1
    | .inf false => 2
    | .inf true => 4
    | .fin _ _ _ => if (cellAddend x).2 then 8 else 0
  leBytes 48 (wrapInt 384 (Int.ofNat value + (cellAddend x).1)) ++ leBytes 4 (Nat.lor status bit) ++ old.drop 52

/-- R66: the value of a cell. -/
def cellRead (rm : Nat) (old : List Byte) : Word × Nat :=
  let status := leNat ((old.drop 48).take 4)
  let v := signed 384 (leNat (old.take 48))
  if bitAt status 3 || (bitAt status 1 && bitAt status 2) then (0x7FC00000, evNV)
  else if bitAt status 0 then (0x7FC00000, 0)
  else if bitAt status 1 then (0x7F800000, 0)
  else if bitAt status 2 then (0xFF800000, 0)
  else if v = 0 then (0, 0)
  else roundF32 rm (.fin (decide (v < 0)) v.natAbs (-280))

/-! ### The functions (R240, R243) -/

/-- One lane's event of a function, with its operand in vV and its old bytes. -/
def RmwFn.apply (fn : RmwFn) (r : Regs) (v : BitVec 6) (l : Fin 32) (old : List Byte) : AtomRes :=
  let x := (r.vreg v).at l
  let word := fun (f : Word → Word) =>
    let m : Word := BitVec.ofNat 32 (leNat old)
    ({ new := leBytes 4 (f m).toNat, ret := m } : AtomRes)
  match fn with
  | .add => word (· + x)
  | .min => word (fun m => minS m x)
  | .max => word (fun m => maxS m x)
  | .minn => word (fun m => minU m x)
  | .maxn => word (fun m => maxU m x)
  | .and => word (· &&& x)
  | .or => word (· ||| x)
  | .xor => word (· ^^^ x)
  | .xchg => word (fun _ => x)
  | .cas => word (fun m => if m = x then (r.vreg (v + 1)).at l else m)
  | .inc => word (fun m => incW m x)
  | .fadd => faddRes r v l old
  | .xadd => { new := cellAdd (ofF32 x) old }
  | .xrd => { new := old, ret := (cellRead r.rm old).1, ev := (cellRead r.rm old).2 }
  | .xclr => { new := List.replicate 64 0 }

/-- The bytes of one access. -/
def RmwFn.size : RmwFn → Nat
  | .xadd => 64
  | .xrd => 64
  | .xclr => 64
  | _ => 4

/-- The registers of the operand's group. -/
def RmwFn.group : RmwFn → Nat
  | .cas => 2
  | _ => 1

/-- The functions that PCIe carries (R242). -/
def RmwFn.onHost : RmwFn → Bool
  | .add => true
  | .xchg => true
  | .cas => true
  | _ => false

/-- The function writes vV. -/
def RmwFn.returns : RmwFn → Bool
  | .xadd => false
  | .xclr => false
  | _ => true

/-- The function raises events. -/
def RmwFn.floats : RmwFn → Bool
  | .fadd => true
  | .xrd => true
  | _ => false

/-- vV after the lanes have performed; `r0` are the registers before. -/
def RmwFn.put (fn : RmwFn) (r0 : Regs) (launched : Word) (v : BitVec 6) (rs : List (Fin 32 × AtomRes)) (r : Regs) : Regs :=
  if fn.returns then
    r.setV v ((r0.vreg v).merge (.gen (fun l => ((rs.find? (fun p => p.1 == l)).map (fun p => p.2.ret)).getD 0)) r0.exec launched)
  else r

/-! ### Waiting for their place (R84, R88) -/

/-- A read-modify-write issues behind older events of its gang: it takes its place in the order, and its vV is known
once it has performed. -/
def State.queueRmw (s : State) (space : Space) (fn : RmwFn) (v : BitVec 6) (addrs : List Nat) : Out :=
  let t := s.advance (vecCost false s.r.exec) 4
  let w : PendWrite := {
    seq := s.gang.seq, space := space, writes := addrs.map (fun a => (a, [])), before := s.r, after := t.r
    rmw := some { fn := fn, v := v.toNat, lanes := s.r.exec, size := fn.size } }
  .next (t.setGang { t.gang with stores := t.gang.stores ++ [w] })

/-- A change of registers reaches every record of them that a gang holds at the places of its order in `p`. -/
def Gang.mapRegs (p : Nat → Bool) (m : Regs → Regs) (g : Gang) : Gang :=
  let on := fun (q : Nat) (r : Regs) => if p q then m r else r
  { g with
    r := m g.r
    ckpts := g.ckpts.map (fun c => { c with regs := on c.seq c.regs })
    stores := g.stores.map (fun w => { w with before := on w.seq w.before, after := on (w.seq + 1) w.after })
    cmds := g.cmds.map (fun c => { c with after := on (c.seq + 1) c.after }) }

/-- A register result that comes late: it reaches what the gang has recorded after the place `seq`. -/
def Gang.mapLater (seq : Nat) (m : Regs → Regs) (g : Gang) : Gang := g.mapRegs (fun q => decide (seq < q)) m

end Sys2Proof.Machine
end

