-- ==== Sys2Proof/Machine/Engine.lean ====
section
/-! DEFINITION. The asynchronous engine commands of a gang: timeline counters, the pending list, the failed
state, completion and run failure (R56, R63, R90, R100 to R104, R212, R246 to R248). -/

namespace Sys2Proof.Machine

/-! ### Timeline counters (R100 to R103) -/

/-- The counter a handle names for the issuing gang; none where R100 makes it ILLOP. -/
def State.counterOf (s : State) (h : Word) : Option (BitVec 64) :=
  let idx := fld h.toNat 0 28
  match fld h.toNat 28 4 with
  | 0 => (s.wg.gangs[idx]?).map (fun k => (s.gangAt k).tlMx)
  | 1 => (s.wg.gangs[idx]?).map (fun k => (s.gangAt k).tlCp)
  | 2 => if idx < 64 then some (tget ({} : Grant) s.grants (s.die * 64 + idx)).counter else none
  | 3 => if idx < 64 then some (s.queueAt s.leafNo idx).tline else none
  | 4 => if idx = 0 then some s.leaf.reclaim else none
  | 5 => if idx = 0 then some s.leaf.caskTl else none
  | _ => none

/-- The serial-number test of R103. -/
def reached (lo n : Word) : Bool := decide ((lo - n).toNat < 2 ^ 31)

/-- The batch of a context that is being formed next is one more than the commits issued (R101). -/
def Regs.comm (r : Regs) (copy : Bool) : Nat := if copy then r.commCp else r.commMx

/-- The counter of a context: every batch before the oldest outstanding command's (R102). -/
def Gang.counterNow (g : Gang) (copy : Bool) : Nat :=
  ((g.cmds.filter (fun c => c.copy == copy)).map (fun c => c.batch - 1)).foldl min (g.r.comm copy)

/-- The handle names the gang's own matrix or copy context (R207). -/
def State.ownContext (s : State) (h : Word) : Option Bool :=
  if fld h.toNat 0 28 ≠ s.gang.slot then none
  else match fld h.toNat 28 4 with
    | 0 => some false
    | 1 => some true
    | _ => none

/-- Bring both counters up to date. -/
def Gang.count (g : Gang) : Gang :=
  { g with tlMx := BitVec.ofNat 64 (g.counterNow false), tlCp := BitVec.ofNat 64 (g.counterNow true) }

/-! ### The failed state (R247) -/

/-- TF_INFO of ENGCMD. -/
def engInfo (engine cause tile inner : Nat) : Nat := engine + cause * 2 ^ 4 + tile * 2 ^ 8 + inner * 2 ^ 16

/-- A pending ENGCMD of a context is raised before the instruction goes on, as a class D fault. -/
def State.withEng (s : State) (copy : Bool) (k : Out) : Out :=
  match (if copy then s.gang.failCp else s.gang.failMx) with
  | none => k
  | some f =>
    if s.quiet then
      (s.setGang (if copy then { s.gang with failCp := none } else { s.gang with failMx := none })).raise 4 tcENGCMD 0 f.addr
        (engInfo (if copy then 1 else 0) f.cause f.tile f.inner)
    else s.stall

/-- ENGCMD of an ill-formed command, at issue (cause 1). -/
def State.engIll (s : State) (copy : Bool) (tile : Nat := 0xFF) : Out :=
  s.raise 4 tcENGCMD 0 0 (engInfo (if copy then 1 else 0) 1 tile 0)

/-! ### Issue (R90, R246, R248) -/

/-- Formats and rounding in force at issue (R56). -/
def Regs.cmdFmt (r : Regs) : CmdFmt :=
  { ea := fld r.fmt.toNat 0 4, eb := fld r.fmt.toNat 4 4, out := fld r.fmt.toNat 8 4, rm := fld r.fmt.toNat 12 2,
    sat := bitAt r.fmt.toNat 15 }

/-- A synchronous instruction that has entered the pending list: it keeps its place among the gang's unperformed
events. -/
def PendWrite.sync (w : PendWrite) : Option (SyncInstr × Option (BitVec 25)) :=
  match w.space with
  | .cmd i pre => some (i, pre)
  | _ => none

/-- How many commands of the gang have not started; the pending list holds 16. -/
def Gang.pendingCount (g : Gang) : Nat :=
  (g.cmds.filter (fun c => c.st == .pending)).length + (g.stores.filter (fun w => w.sync.isSome)).length

/-- A command enters the list as its instruction retires. -/
def State.enlist (s : State) (c : Cmd) : Out :=
  let t := s.advance 1 4
  .next (t.setGang { t.gang with cmds := t.gang.cmds ++ [{ c with after := t.r }] })

/-- An asynchronous instruction retires once its command is in the pending list, and stalls while the list
is full. -/
def State.issue (s : State) (copy : Bool) (dep : Bool) (op : CmdOp) : Out :=
  let g := s.gang
  if 16 ≤ g.pendingCount then s.stall else
  let c : Cmd := {
    op := op, fmt := g.r.cmdFmt, pc := g.r.pc, seq := g.seq, copy := copy, batch := g.r.comm copy + 1
    depMx := if dep then g.r.commMx else 0
    depCp := if dep then g.r.commCp else 0 }
  s.enlist c

/-! ### Synchronous engine instructions (R246) -/

/-- Nothing older of the gang waits: no checkpoint, no unperformed write, no command that has not started
(R89, R90). -/
def State.ready (s : State) : Bool := s.quiet && s.gang.pendingCount == 0

/-- An irrevocable instruction goes on once it may issue (R89). -/
def State.alone (s : State) (k : Out) : Out := if s.ready then k else s.stall

/-- A synchronous deferred instruction runs once its command may start; until then it stands in the pending list, and the
gang goes on past it. -/
-- DESIGN CHOICE (assumption 97): it runs at once when nothing older of the gang waits.
def State.sync (s : State) (i : SyncInstr) (k : Out) : Out :=
  if s.ready then k
  else if 16 ≤ s.gang.pendingCount then s.stall
  else
    let t := s.advance 1 4
    let w : PendWrite := { seq := s.gang.seq, space := .cmd i s.gang.ext, before := s.r, after := t.r }
    .next (t.setGang { t.gang with stores := t.gang.stores ++ [w] })

/-- Its command has completed: the flashback point has ended with its start (R162). -/
def State.synced (s : State) (r : Regs) : Out := ((s.setGang s.gang.wrote).setR r).retire

/-- An access of a synchronous instruction, which translates under the current root, failed; `onTrap` raises with a code,
its address and its information (R118, R129). -/
def State.accStopBy (s : State) (e : AccErr) (onTrap : Nat → Nat → Nat → Out) : Out :=
  match e with
  | .trap c va info => onTrap c va info
  | .ats p g w va => s.waitAts p g w (fun c info => onTrap c va info)
  | .page key w va => s.waitPage (s.levelUnder s.myAsid.cur.root va) key w (fun c info => onTrap c va info)
  | .hole pa => .fault (.noSuchMemory pa)

def State.accStop (s : State) (e : AccErr) : Out := s.accStopBy e (fun c va info => s.raise 4 c 0 va info)

/-- The flashback point has ended when an access of a started command waits (R162, R246). -/
-- DESIGN CHOICE (assumption 97): one whose access fails with a trap has performed nothing and leaves the point as it is.
def State.waitStarted (s : State) (e : AccErr) : State := if e.waits then s.setGang s.gang.wrote else s

/-- An access of a command that has started failed. -/
def State.cmdStop (s : State) (e : AccErr) : Out := (s.waitStarted e).accStop e

/-! ### What a command names (R249, R250) -/

/-- The numbers a command names, by kind: 0 slot, 1 tile, 2 metadata slot. -/
def CmdOp.names (fmt : CmdFmt) : CmdOp → List (Nat × Nat)
  | .zero t => [(1, t)]
  | .mma fn _ t a b b2 m _ => [(1, t), (0, a), (0, b)]
      ++ (if fn = 4 then (0, b2) :: (List.range (if fmt.ea = 5 ∨ fmt.ea = 8 ∨ fmt.ea = 9 then 4
          else if fmt.ea = 1 ∨ fmt.ea = 2 then 1 else 2)).map (fun i => (2, m + i)) else [])
  | .mmg _ _ b _ _ => [(0, b)]
  | .st t _ _ _ _ => [(1, t)]
  | .g2s _ _ _ => []
  | .s2g _ _ _ => []
  | .g2g _ _ _ => []
  | .slot n _ _ _ _ => [(0, n)]
  | .gat n _ _ _ => [(0, n)]
  | .metaLd n _ _ => [(2, n)]
  | .act _ => []
  | .commit _ _ _ => []

/-- The tile a command names, 0xFF when it names none. -/
def CmdOp.tile : CmdOp → Nat
  | .zero t => t
  | .mma _ _ t _ _ _ _ _ => t
  | .st t _ _ _ _ => t
  | _ => 0xFF

/-- The command writes its tile. -/
def CmdOp.writesTile : CmdOp → Bool
  | .zero _ => true
  | .mma _ _ _ _ _ _ _ _ => true
  | _ => false

/-- The command runs in the array. -/
def CmdOp.quarters : CmdOp → List Nat
  | .mma _ q _ _ _ _ _ _ => (List.range 4).filter (fun i => bitAt q i)
  | .mmg q _ _ _ _ => (List.range 4).filter (fun i => bitAt q i)
  | _ => []

def CmdOp.inArray : CmdOp → Bool
  | .mma _ _ _ _ _ _ _ _ => true
  | .mmg _ _ _ _ _ => true
  | _ => false

/-! ### Starting (R85, R90, R162, R248) -/

/-- The command at the head of the pending list. -/
def Gang.nextCmd (g : Gang) : Option Cmd := g.cmds.find? (fun c => c.st == .pending)

/-- The synchronous instruction of the pending list that may start: all that is older is performed or has started
(R90). -/
def Gang.nextSync (g : Gang) : Option (PendWrite × SyncInstr × Option (BitVec 25)) :=
  match g.stores with
  | [] => none
  | w :: _ => w.sync.bind (fun p =>
      if g.cmds.all (fun c => c.st != .pending || decide (w.seq < c.seq)) then some (w, p.1, p.2) else none)

/-- It may start: every older event is performed, no checkpoint stands before it, and the batches its DEP
names are complete. -/
def Gang.canStart (g : Gang) : Bool :=
  match g.nextCmd with
  | none => false
  | some c => g.stores.all (fun w => decide (c.seq < w.seq)) && decide (c.depMx ≤ g.counterNow false)
      && decide (c.depCp ≤ g.counterNow true)

/-- The pending list with its head started. -/
def startHead (id : Nat) : List Cmd → List Cmd
  | [] => []
  | c :: t => if c.st == .pending then { c with st := .started, id := id, left := c.op.quarters } :: t else c :: startHead id t

/-- A command leaves the list. -/
def Gang.dropCmd (g : Gang) (id : Nat) : Gang := { g with cmds := g.cmds.filter (fun c => !(c.st != .pending && c.id == id)) }

/-- A commit starts: its scalar register takes the batch number, where the gang keeps it now: in the shadow when a
handler has taken the gang since (R154). -/
def Gang.startCommit (g : Gang) (c : Cmd) (reg num : Nat) (trap : Bool) : Gang :=
  let g := { g with cmds := g.cmds.filter (fun x => x.seq != c.seq) }
  let n := BitVec.ofNat 32 num
  if 32 ≤ reg then g
  else if g.trap && !trap && decide (28 ≤ reg) then { g with shadow := g.shadow.setIfInBounds (reg - 28) n }
  else g.mapLater c.seq (fun r => r.setS (BitVec.ofNat 5 reg) n)

/-- A command starts: checkpoints before it retire, the flashback point ends; its quarters wait at the array.
A command of a failed context is discarded without events. -/
def State.startCmd (s : State) (k : Nat) : State :=
  let g := s.gangAt k
  match g.nextCmd with
  | none => s
  | some c =>
    let g := (replaceCkpts c.seq c.after g).wrote
    match c.op with
    | .commit reg num trap => s.setGangAt k (g.startCommit c reg num trap).count
    | op =>
      let id := s.nextKey
      let s := { s with nextKey := id + 1 }
      let g := { g with cmds := startHead id g.cmds }
      if (if c.copy then g.failCp else g.failMx).isSome then s.setGangAt k (g.dropCmd id).count
      else
        let core := (s.wgAt g.wg).core
        let cs := s.coreAt core
        let s := s.setGangAt k g
        s.setCoreAt core { cs with quarters := cs.quarters ++ op.quarters.map (fun q => { gang := k, cmd := id, q := q }) }

/-! ### Completion (R63, R212) -/

/-- Add one event set to the six counts. -/
def addEv (n : Nat) (e : Nat) (l : List Nat) : List Nat :=
  (List.range 6).map (fun i => l.getD i 0 + if bitAt e i then n else 0)

/-- Merge an operation's events into the gang and every checkpoint it holds, its flashback point among them (R158,
R212). -/
def Gang.mergeOp (g : Gang) (ev : List Nat) : Gang :=
  if ev.all (fun n => n == 0) then g else
  let m := fun (r : Regs) => r.mergeCounts (fun i => ev.getD i 0)
  { g.mapRegs (fun _ => true) m with flash := { g.flash with regs := m g.flash.regs } }

/-- A command completes: its events merge, it leaves the list, the counters advance. -/
def State.completeCmd (s : State) (k : Nat) (c : Cmd) (ev : List Nat) : State :=
  s.setGangAt k (((s.gangAt k).mergeOp ev).dropCmd c.id).count

/-! ### Run failure (R247) -/

/-- The engine record. -/
def State.engineRecord (s : State) (k : Nat) (c : Cmd) (f : EngFail) : State :=
  let g := s.gangAt k
  let gr := s.gridAt (s.wgAt g.wg).grid
  s.record gr.leaf gr.queue (leBytes 1 0x0F ++ leBytes 1 0x07 ++ leBytes 1 ((if c.copy then 1 else 0) + 16 * f.cause)
    ++ leBytes 1 g.slot ++ leBytes 4 gr.id.toNat ++ leBytes 8 c.pc.toNat ++ leBytes 6 f.addr ++ leBytes 2 g.asid
    ++ leBytes 4 (f.inner + 256 * f.tile) ++ leBytes 4 c.batch)

/-- A commit. -/
def CmdOp.isCommit : CmdOp → Bool
  | .commit _ _ _ => true
  | _ => false

/-- The command and the later ones of its context are discarded, their waiting quarters with them; a commit stays,
for it counts from its issue (R207). -/
def State.discardAfter (s : State) (k : Nat) (c : Cmd) : State :=
  let g := s.gangAt k
  let gone := fun (x : Cmd) => x.id == c.id && x.st != .pending
    || (x.copy == c.copy && decide (c.seq < x.seq) && !x.op.isCommit)
  let ids := (g.cmds.filter (fun x => gone x && x.st != .pending)).map (fun x => x.id)
  let core := (s.wgAt g.wg).core
  let cs := s.coreAt core
  let s := s.setCoreAt core { cs with quarters := cs.quarters.filter (fun q => !(q.gang == k && ids.contains q.cmd)) }
  s.setGangAt k ({ g with cmds := g.cmds.filter (fun x => !gone x) }).count

/-- A run failure's effects, in order. -/
-- DESIGN CHOICE (assumption 70): the arithmetic events of a command that fails reach no flag and no count.
def State.failCmd (s : State) (k : Nat) (c : Cmd) (f : EngFail) : State :=
  let w := (s.gangAt k).wg
  let x := s.wgAt w
  let s := if c.op.writesTile then
      s.setWgAt w { x with badTiles := x.badTiles ||| BitVec.ofNat 32 (2 ^ c.op.tile) } else s
  let s := s.engineRecord k c f
  let s := s.discardAfter k c
  let g := s.gangAt k
  s.setGangAt k (if c.copy then { g with failCp := g.failCp.or (some f) } else { g with failMx := g.failMx.or (some f) })

end Sys2Proof.Machine
end

