-- ==== Sys2Proof/Machine/Array.lean ====
section
/-! DEFINITION. The matrix array: the arithmetic of a quarter, the audit, and the forming of passes (R57 to
R60, R63, R67, R68, R251 to R255). -/

namespace Sys2Proof.Machine

/-! ### Formats (R251) -/

/-- The bits of an element, and whether the format is an integer one. -/
def Elem.width : Elem → Nat
  | .fp32 => 32
  | .ieee f => f.ew + f.mw + 1
  | .narrow f => f.ew + f.mw + 1
  | .int _ _ b => b
def Elem.isInt : Elem → Bool
  | .int _ _ _ => true
  | _ => false

/-- The format pairs the array accepts. -/
def pairOk (a b : Nat) : Bool :=
  let h := fun c => c == 1 || c == 2
  (h a && h b) || (f8Code a && f8Code b) || (a == 5 && b == 5) || (i8Code a && i8Code b) || (i4Code a && i4Code b)

/-- The formats and modes of a matrix operation. -/
structure MFmt where
  ea : Elem
  eb : Elem
  w : Nat
  rm : Nat
  sat : Bool

def CmdFmt.m (f : CmdFmt) : MFmt :=
  let ea := (elemOf f.ea).getD .fp32
  { ea := ea, eb := (elemOf f.eb).getD .fp32, w := ea.width, rm := f.rm, sat := f.sat }

/-- Elements of a 64-byte row. -/
def MFmt.k (m : MFmt) : Nat := 512 / m.w

/-- A packed row as a number; element i of it. -/
def rowNat (bytes : List Byte) : Nat := leNat bytes
def elemAt (row w i : Nat) : Nat := fld row (w * i) w

/-! ### One element (R57, R59, R60) -/

/-- A product of two elements with its scales, whose signs and zeros count (R57). -/
def MFmt.prod (m : MFmt) (sc : Option (Word × Word)) (p : Nat × Nat) : Term :=
  let t := mulNum (decodeElem m.ea p.1).1 (decodeElem m.eb p.2).1
  match sc with
  | none => t
  | some (x, y) => mulTerm (mulTerm (termOf (ofF32 x)) (termOf (ofF32 y))) t

/-- The new word of a tile element: the accumulator, when there is one, and the products of a chunk. -/
def MFmt.acc (m : MFmt) (acc : Option Word) (sc : Option (Word × Word)) (ps : List (Nat × Nat)) : Word × Nat :=
  if m.ea.isInt then
    let t := (match acc with | some a => a.toInt | none => 0)
      + (ps.map (fun p => elemInt m.ea p.1 * elemInt m.eb p.2)).sum
    if acc.isNone then (wordOf t, 0) else accInt m.sat t
  else sumF32 m.rm ((match acc with | some a => [termOf (ofF32 a)] | none => []) ++ ps.map (m.prod sc))

/-- The audit's reference for the element (R67). -/
def MFmt.ref (m : MFmt) (acc : Option Word) (sc : Option (Word × Word)) (ps : List (Nat × Nat)) : Word :=
  if m.ea.isInt then (m.acc acc none ps).1
  else
    let t := ps.foldl (fun t p => (sumF32 0 [termOf (ofF32 t), m.prod none p]).1) (0 : Word)
    let x := match sc with
      | none => termOf (ofF32 t)
      | some (x, y) => mulTerm (mulTerm (termOf (ofF32 x)) (termOf (ofF32 y))) (termOf (ofF32 t))
    (sumF32 0 [termOf (ofF32 (acc.getD 0)), x]).1

/-- |result − reference|, exactly (R68). -/
def deviation (isInt : Bool) (x y : Word) : Num :=
  if isInt then .fin false (x.toInt - y.toInt).natAbs 0 else
  let a := ofF32 x
  let b := ofF32 y
  if a.isNan && b.isNan then .fin false 0 0
  else if a.isNan || b.isNan then .inf false
  else if (a.isInf true || a.isInf false) && x == y then .fin false 0 0
  else match (exactSum 0 [termOf a, termOf b.neg]).1 with
    | .fin _ m e => .fin false m e
    | _ => .inf false

/-! ### A quarter -/

/-- One row of a quarter: its accumulators, its scales, and the raw A elements with the B row each meets. -/
structure MRow where
  acc : Option (List Word)
  sa : Option Word := none
  as : List (Nat × Nat) := []

/-- The rows of a quarter computed: each row's 64 words, the event counts, and the audit's largest deviation
with its place, when it is audited.  `bs` holds the packed rows of B; `first` says that the quarter reads them now, and
not for an earlier row. -/
-- DESIGN CHOICE (assumption 75): each quarter of an operation reads, and counts, the elements of B for itself.
def MFmt.rows (m : MFmt) (bs : List Nat) (sb : List Word) (rows : List (Nat × MRow)) (first audit : Bool) :
    List (Nat × List Word) × List Nat × (Num × Nat × Nat) :=
  let b := fun (k : Nat) => bs.getD k 0
  let cell := fun (r : MRow) (n : Nat) =>
    let acc := r.acc.map (fun l => l.getD n 0)
    let sc := r.sa.map (fun x => (x, sb.getD n 0))
    let ps := r.as.map (fun p => (p.1, elemAt (b p.2) m.w n))
    (acc, sc, ps)
  let out := rows.map (fun p => (p.1, (List.range 64).map (fun n => let c := cell p.2 n; m.acc c.1 c.2.1 c.2.2)))
  let ev := out.foldl (fun l p => p.2.foldl (fun l x => addEv 1 x.2 l) l) [0, 0, 0, 0, 0, 0]
  -- a reserved code counts once for each element read (R63)
  let rsv := fun (e : Elem) (x : Nat) => (decodeElem e x).2
  let na := (rows.map (fun p => (p.2.as.filter (fun q => rsv m.ea q.1)).length)).sum
  let used := (rows.flatMap (fun p => p.2.as.map (fun q => q.2))).eraseDups
  let nb := (used.map (fun k => ((List.range 64).filter (fun n => rsv m.eb (elemAt (b k) m.w n))).length)).sum
  let ev := addEv (na + if first then nb else 0) (evNV + evRC) ev
  let dev := if !audit then (Num.fin false 0 0, 0, 0) else
    rows.foldl (fun best p => (List.range 64).foldl (fun best n =>
      let c := cell p.2 n
      let d := deviation m.ea.isInt (m.acc c.1 c.2.1 c.2.2).1 (m.ref c.1 c.2.1 c.2.2)
      if best.1.lt d then (d, p.1, n) else best) best) (Num.fin false 0 0, (rows.head?.map (fun p => p.1)).getD 0, 0)
  (out.map (fun p => (p.1, p.2.map (fun x => x.1))), ev, dev)

/-- How a quarter's run ends. -/
inductive QRes where
  | done (s : State) (ev : List Nat)
  | fail (s : State) (f : EngFail)
  | wait
  /-- waits for a host page or a page of another device -/
  | access (e : AccErr)
  | hole (pa : Nat)

/-- An access error of a command. -/
def qErr (s : State) (tile : Nat) : AccErr → QRes
  | .trap c a _ => .fail s { cause := 2, tile := tile, inner := c, addr := a }
  | .ats p g w va => .access (.ats p g w va)
  | .page k w va => .access (.page k w va)
  | .hole pa => .hole pa

/-- The count of a quarter that joins a pass and does not run to its end (R67, R254). -/
-- DESIGN CHOICE (assumption 85): such a quarter has no audit record, though its count be a multiple of AUDITN.
def State.countQuarter (s : State) (core : Nat) : State :=
  s.setCoreAt core { s.coreAt core with audits := (s.coreAt core).audits + 1 }

/-- The quarter's count, and an audit record when it is audited (R67, R68). -/
def State.auditQuarter (s : State) (core : Nat) (leaf : Nat) (fmt : CmdFmt) (dev : Num × Nat × Nat) : State :=
  let c := s.coreAt core
  let s' := s.setCoreAt core { c with audits := c.audits + 1 }
  if c.audits % c.auditN.toNat = 0 then
    s'.telemetry leaf (leBytes 8 s.now ++ leBytes 8 c.audits ++ leBytes 4 (roundF32 3 dev.1).1.toNat ++ leBytes 2 (core % 96)
      ++ leBytes 1 (core / 96) ++ leBytes 1 1 ++ leBytes 4 (dev.2.1 * 64 + dev.2.2) ++ leBytes 4 (fmt.ea + 16 * fmt.eb))
  else s'

def CoreSt.audited (c : CoreSt) : Bool := c.audits % c.auditN.toNat == 0

/-- An access error of a started command: it waits, having asked for what it lacks, or its wait has failed (R95, R97,
R127, R247). -/
def State.holdCmd (s : State) (k : Nat) (c : Cmd) (e : AccErr) : State :=
  if c.hold.holds e then s else
  let g := s.gangAt k
  (s.setGangAt k { g with cmds := g.cmds.map (fun x => if x.st != .pending && x.id == c.id then { x with hold := e.hold s.now } else x) }).ask
    (s.gridAt (s.wgAt g.wg).grid).leaf e

/-- A run whose access waits fails when the wait has. -/
def Cmd.settle (c : Cmd) (s : State) (r : QRes) : QRes :=
  match r with
  | .access e => (match if c.hold.fails e then c.hold.failed else none with
    | some code => .fail s { cause := 2, tile := c.op.tile, inner := code, addr := e.va }
    | none => .access e)
  | r => r

/-- Row k of a B slot. -/
def CoreSt.bRow (c : CoreSt) (slot w k : Nat) : Nat := rowNat (memBytes c.slots (4096 * slot + 8 * w * k) (8 * w))
def CoreSt.aRow (c : CoreSt) (slot i : Nat) : Nat := rowNat (memBytes c.slots (4096 * slot + 64 * i) 64)
def CoreSt.tileRow (c : CoreSt) (t i : Nat) : List Word :=
  (List.range 64).map (fun n => BitVec.ofNat 32 (memNat c.tiles (16384 * t + 256 * i + 4 * n) 4))

/-- The 2-bit index of stored value j in row i (R253). -/
def CoreSt.metaIdx (c : CoreSt) (m s i j : Nat) : Nat := fld (memNat c.metas (512 * m + (2 * (s * i + j)) / 8) 1) ((2 * (s * i + j)) % 8) 2

/-- The metadata of a row is well formed. -/
def CoreSt.metaOk (c : CoreSt) (m s i : Nat) : Bool :=
  (List.range (s / 2)).all (fun g => decide (c.metaIdx m s i (2 * g) < c.metaIdx m s i (2 * g + 1)))

/-- A quarter of `mma`, `mms` or `mmx` (R252, R253). -/
def State.runMma (s : State) (k : Nat) (c : Cmd) (fn t a b b2 m o q : Nat) : QRes :=
  let w := (s.gangAt k).wg
  let x := s.wgAt w
  let core := x.core
  let cs := s.coreAt core
  let mf := c.fmt.m
  let rows := (List.range 16).map (fun i => 16 * q + i)
  if bitAt x.badTiles.toNat t then .fail s { cause := 4, tile := t }
  else if fn = 5 && s.scrBad w o 512 then .fail s { cause := 2, tile := t, inner := tcDATALOSS, addr := o }
  else if fn = 4 && rows.any (fun i => !cs.metaOk m mf.k i) then .fail s { cause := 5, tile := t }
  else
    let scale := fun (off : Nat) => (BitVec.ofNat 32 (memNat x.scr off 4) : Word)
    let row := fun (i : Nat) =>
      let ar := cs.aRow a i
      ({
      acc := some (cs.tileRow t i)
      sa := if fn = 5 then some (scale (o + 4 * i)) else none
      as := (List.range mf.k).map (fun j =>
        (elemAt ar mf.w j, if fn = 4 then 4 * (j / 2) + cs.metaIdx m mf.k i j else j)) } : MRow)
    let sb := if fn = 5 then (List.range 64).map (fun n => scale (o + 256 + 4 * n)) else []
    let bs := (List.range mf.k).map (cs.bRow b mf.w) ++ (if fn = 4 then (List.range mf.k).map (cs.bRow b2 mf.w) else [])
    let r := mf.rows bs sb (rows.map (fun i => (i, row i))) true cs.audited
    let tiles := r.1.foldl (fun mem p => memPut mem (16384 * t + 256 * p.1) (p.2.flatMap (fun v => leBytes 4 v.toNat))) cs.tiles
    let s := s.setCoreAt core { cs with tiles := tiles }
    .done (s.auditQuarter core (s.gridAt x.grid).leaf c.fmt r.2.2) r.2.1

/-- A quarter of `mmg`: its handled entries in ascending order (R255).  The accumulator of the audit record
names the entry. -/
def State.runMmg (s : State) (k : Nat) (c : Cmd) (off b n : Nat) (acc : Bool) (q : Nat) : QRes :=
  let g := s.gangAt k
  let x := s.wgAt g.wg
  let l := (s.gridAt x.grid).leaf
  let core := x.core
  let mf := c.fmt.m
  let js := ((List.range 16).map (fun i => 16 * q + i)).filter (fun j => decide (j < n))
  let tag : OwnerTag := { leaf := l, asid := some g.asid }
  let audit := (s.coreAt core).audited
  let entry := fun (j base : Nat) => memNat x.scr (off + base + 8 * j) 8
  let go := fun (acc' : Except QRes (State × List Nat × (Num × Nat × Nat))) (j : Nat) =>
    match acc' with
    | .error e => .error e
    | .ok (s, ev, dev) =>
      if s.scrBad g.wg (off + 8 * j) 8 || s.scrBad g.wg (off + 512 + 8 * j) 8 then
        .error (.fail s { cause := 2, inner := tcDATALOSS, addr := off + 8 * j }) else
      let ga := entry j 0
      let sc := entry j 512
      if ga % 64 ≠ 0 || sc % 128 ≠ 0 || ga / 2 ^ 48 ≠ 0 || sc / 2 ^ 48 ≠ 0 then .error (.fail s { cause := 3 }) else
      match s.eread l g.asid ga 64 (some k) with
      | .error e => .error (qErr s 0xFF e)
      | .ok ab =>
        match (if acc then s.eread l g.asid sc 256 (some k) else .ok []) with
        | .error e => .error (qErr s 0xFF e)
        | .ok old =>
          let ar := rowNat ab
          let row : MRow := {
            acc := if acc then some ((List.range 64).map (fun n => BitVec.ofNat 32 (leNat ((old.drop (4 * n)).take 4)))) else none
            as := (List.range mf.k).map (fun i => (elemAt ar mf.w i, i)) }
          let r := mf.rows ((List.range mf.k).map ((s.coreAt core).bRow b mf.w)) [] [(j, row)] (some j == js.head?) audit
          match s.ewrite none tag l g.asid sc (r.1.flatMap (fun p => p.2.flatMap (fun v => leBytes 4 v.toNat))) (some k) with
          | .error e => .error (qErr s 0xFF e)
          | .ok s => .ok (s, (List.range 6).map (fun i => ev.getD i 0 + r.2.1.getD i 0), if dev.1.lt r.2.2.1 then r.2.2 else dev)
  if js.isEmpty then .done s [] else
  match js.foldl go (.ok (s, [0, 0, 0, 0, 0, 0], (Num.fin false 0 0, js.headD 0, 0))) with
  | .error e => e
  | .ok (s, ev, dev) => .done (s.auditQuarter core l c.fmt dev) ev

/-- Run one quarter of a command. -/
def State.runQuarter (s : State) (k : Nat) (c : Cmd) (q : Nat) : QRes :=
  match c.op with
  | .mma fn _ t a b b2 m o => s.runMma k c fn t a b b2 m o q
  | .mmg _ off b n acc => s.runMmg k c off b n acc q
  | _ => .done s []

/-! ### Passes (R254) -/

def Gang.cmdAt (g : Gang) (id : Nat) : Option Cmd := g.cmds.find? (fun c => c.st != .pending && c.id == id)
def Gang.mapCmd (g : Gang) (id : Nat) (f : Cmd → Cmd) : Gang :=
  { g with cmds := g.cmds.map (fun c => if c.st != .pending && c.id == id then f c else c) }

/-- An older command of the gang that names the tile and does not run in the array has yet to run (R104,
R257). -/
def Gang.tileHeld (g : Gang) (c : Cmd) : Bool :=
  c.op.tile != 0xFF && g.cmds.any (fun x => decide (x.seq < c.seq) && x.op.tile == c.op.tile && !x.op.inArray
    && (match x.st with | .ran => false | .failed _ => false | _ => true))

/-- An older command of the same context has failed: the command is to be discarded (R247). -/
def Gang.doomed (g : Gang) (c : Cmd) : Bool :=
  g.cmds.any (fun x => x.copy == c.copy && decide (x.seq < c.seq) && (match x.st with
    | .failed _ => true
    | _ => false))

/-- A waiting quarter may join a pass. -/
def State.qReady (s : State) (q : Quarter) : Bool :=
  match (s.gangAt q.gang).cmdAt q.cmd with
  | some c => !(s.gangAt q.gang).tileHeld c && !(s.gangAt q.gang).doomed c
  | none => false

/-- The tile a waiting quarter writes. -/
def State.qTile (s : State) (q : Quarter) : Nat :=
  match (s.gangAt q.gang).cmdAt q.cmd with
  | some c => c.op.tile
  | none => 0xFF

/-- An older waiting quarter of the same gang, left out of the pass, writes the same tile (R60, R254). -/
def State.qBehind (s : State) (left : List Quarter) (q : Quarter) : Bool :=
  left.any (fun p => p.gang == q.gang && s.qTile p == s.qTile q && s.qTile q != 0xFF)

/-- Two quarters fit one pass (R254). -/
def State.qFits (s : State) (ps : List Quarter) (q : Quarter) : Bool :=
  match ps with
  | [] => true
  | p :: _ =>
    match (s.gangAt p.gang).cmdAt p.cmd, (s.gangAt q.gang).cmdAt q.cmd with
    | some a, some b =>
      (s.gangAt p.gang).wg == (s.gangAt q.gang).wg && a.fmt.ea == b.fmt.ea && a.fmt.eb == b.fmt.eb && a.fmt.rm == b.fmt.rm
      && (match a.op, b.op with
        | .mma fa _ _ _ sa ta _ _, .mma fb _ _ _ sb tb _ _ => fa == fb && sa == sb && ta == tb
        | _, _ => false)
      && ps.all (fun r => match (s.gangAt r.gang).cmdAt r.cmd with
        | some c => !(c.op.tile == b.op.tile && r.q == q.q)
        | none => true)
    | _, _ => false

/-- The quarters of the pass that forms from a waiting list, oldest first; `left` are those left out. -/
def State.formPass (s : State) : List Quarter → List Quarter → List Quarter → List Quarter
  | acc, _, [] => acc
  | acc, left, q :: t => if 4 ≤ acc.length then acc
      else if s.qReady q && s.qFits acc q && !s.qBehind left q then s.formPass (acc ++ [q]) left t
      else s.formPass acc (left ++ [q]) t

/-- Waiting quarters leave a core. -/
def State.dropQuarters (s : State) (core : Nat) (p : Quarter → Bool) : State :=
  let cs := s.coreAt core
  s.setCoreAt core { cs with quarters := cs.quarters.filter (fun x => !p x) }

/-- Run one quarter of a pass: its command ends its run with its last quarter, or fails.  A quarter of a command that has
failed, or is to be discarded, takes its count alone (R67, R247). -/
def runOne (acc : Except Nat State) (q : Quarter) : Except Nat State :=
  match acc with
  | .error pa => .error pa
  | .ok s =>
    match (s.gangAt q.gang).cmdAt q.cmd with
    | none => .ok s
    | some c =>
      let core := (s.wgAt (s.gangAt q.gang).wg).core
      if c.st != .started || (s.gangAt q.gang).doomed c then .ok ((s.countQuarter core).dropQuarters core (fun x => x == q)) else
      match c.settle s (s.runQuarter q.gang c q.q) with
      | .wait => .ok s
      | .access e => .ok (s.holdCmd q.gang c e)
      | .hole pa => .error pa
      | .fail s f =>
        let s := (s.countQuarter core).dropQuarters core (fun x => x.gang == q.gang && x.cmd == q.cmd)
        .ok (s.setGangAt q.gang ((s.gangAt q.gang).mapCmd q.cmd (fun c => { c with st := .failed f, left := [] })))
      | .done s ev =>
        let s := s.dropQuarters core (fun x => x == q)
        let left := c.left.filter (fun i => i != q.q)
        .ok (s.setGangAt q.gang ((s.gangAt q.gang).mapCmd q.cmd (fun c =>
          { c with ev := (List.range 6).map (fun i => c.ev.getD i 0 + ev.getD i 0), left := left,
                   st := if left.isEmpty then .ran else .started })))

/-- The array forms a pass from the core's waiting quarters and runs it. -/
def execMatrixPass (core : Nat) (s : State) : Out :=
  match (s.formPass [] [] (s.coreAt core).quarters).foldl runOne (.ok s) with
  | .ok s => .next s
  | .error pa => .fault (.noSuchMemory pa)

end Sys2Proof.Machine
end

