-- ==== Sys2Proof/Machine/Scratch.lean ====
section
/-! DEFINITION. The scratchpad family spm (R69, R75, R84, R88, R109, R243). -/

namespace Sys2Proof.Machine

/-- The checks of a scratchpad access: alignment, then the extent (R75, R235). -/
def State.scrFault (s : State) (size : Nat) (ls : List (Fin 32)) (off : Fin 32 → Nat) : Option (Nat × Word × Nat × Nat) :=
  (pickFault ls (fun l => if off l % size ≠ 0 then [(tcALIGN, off l, 0)] else [])).or
  (pickFault ls (fun l => if s.grid.k.scratch < off l + size then [(tcXLATE, off l, 0xF1)] else []))

/-- The gang's own unperformed scratchpad writes, newest first (R84). -/
def State.ownScr (s : State) : List (Nat × Byte) :=
  (s.gang.stores.flatMap (fun w => if w.space == .scr s.gang.wg then
      w.writes.flatMap (fun p => (List.range p.2.length).map (fun i => (p.1 + i, p.2.getD i 0)))
    else [])).reverse

/-- A scratchpad byte as the gang reads it. -/
def State.scrByte (s : State) (own : List (Nat × Byte)) (a : Nat) : Byte :=
  match own.find? (fun p => p.1 == a) with
  | some p => p.2
  | none => memRead s.wg.scr a

/-- The frame of an `spm` instruction: encoding, active lanes, checks. -/
def State.spm (s : State) (v : BitVec 6) (k : Nat) (b : BitVec 5) (o : BitVec 6) (n : BitVec 1) (i : BitVec 3) (size : Nat)
    (go : List (Fin 32) → (Fin 32 → Nat) → Out) : Out :=
  if !s.meOk false v k o n i then s.illop 4 true else
  let ls := lanesOf s.r.exec
  let off := s.meOff b o n i size
  if ls.isEmpty then s.retire else
  match s.scrFault size ls off with
  | some t => s.raiseLanes false t
  | none => go ls off

/-- A line of an access is marked by an uncorrectable error (R109, R159). -/
def State.scrLoss (s : State) (size : Nat) (ls : List (Fin 32)) (off : Fin 32 → Nat) : Option (Nat × Word × Nat × Nat) :=
  pickFault ls (fun l => if s.scrBad s.gang.wg (off l) size then [(tcDATALOSS, off l, 0)] else [])

/-- The scratchpad words that unperformed read-modify-writes of the gang are to change (R84). -/
def State.rmwScrs (s : State) : List Nat :=
  s.gang.stores.flatMap (fun w => if w.space == .scr s.gang.wg && w.rmw.isSome then w.writes.map (fun p => p.1 / 4) else [])

/-- A scratchpad load. -/
def State.spmLd (s : State) (v : BitVec 6) (b : BitVec 5) (o : BitVec 6) (n : BitVec 1) (i : BitVec 3) (size : Nat) : Out :=
  s.spm v (groupOf size) b o n i size (fun ls off =>
    let words := (ls.flatMap (fun l => (List.range (groupOf size)).map (fun j => off l / 4 + j))).eraseDups
    if s.gang.holdsRead 1 || s.rmwScrs.any words.contains then s.stall else
    match s.scrLoss size ls off with
    | some t => s.raiseLanes false t
    | none =>
      let own := s.ownScr
      let q : LoadReq := { reg := v.toNat, size := size, uniform := s.meUniform o n, lanes := s.r.exec }
      let bytes := fun (l : Fin 32) => (List.range size).map (fun i => s.scrByte own (off l + i))
      let s := noteRead s false (words.map (ReadItem.scr s.gang.wg))
      (s.setR (q.write s.r s.gang.launched bytes)).retire (if q.uniform then 1 else vecCost false s.r.exec))

/-- A scratchpad store. -/
def State.spmSt (s : State) (v : BitVec 6) (b : BitVec 5) (o : BitVec 6) (n : BitVec 1) (i : BitVec 3) (size : Nat) : Out :=
  s.spm v (groupOf size) b o n i size (fun ls off =>
    let cost := vecCost (s.r.groupFlat v (groupOf size) && (n == 1 || !(s.r.vreg o).isG)) s.r.exec
    .next (s.order (s.advance cost 4) false (.scr s.gang.wg) (ls.map (fun l => (off l, s.r.groupBytes v size l)))))

/-- The lanes of a read-modify-write perform in ascending order, each seeing its elders' results. -/
def scrLanes (w : Nat) (off : Fin 32 → Nat) (f : Fin 32 → List Byte → AtomRes) :
    State → List (Fin 32) → State × List (Fin 32 × AtomRes)
  | s, [] => (s, [])
  | s, l :: t =>
    let r := f l (memBytes (s.wgAt w).scr (off l) 4)
    let u := scrLanes w off f (s.writeScr (some s.cur) w (off l) r.new) t
    (u.1, (l, r) :: u.2)

/-- A scratchpad read-modify-write returns the old word: it performs when the gang is non-speculative, and takes its
place in the order before (R88). -/
def State.spmRmw (s : State) (fn : RmwFn) (v : BitVec 6) (b : BitVec 5) (o : BitVec 6) (n : BitVec 1) (i : BitVec 3) : Out :=
  s.spm v fn.group b o n i 4 (fun ls off =>
    if !s.quiet then s.queueRmw (.scr s.gang.wg) fn v (ls.map off) else
    match s.scrLoss 4 ls off with
    | some t => s.raiseLanes false t
    | none =>
      let r := scrLanes s.gang.wg off (fn.apply s.r v) s ls
      let t := r.1.setGang r.1.gang.wrote
      (t.setR (fn.put s.r s.gang.launched v r.2 t.r)).retire (vecCost false s.r.exec))

def execSpmLdw (v : BitVec 6) (b : BitVec 5) (o : BitVec 6) (n : BitVec 1) (i : BitVec 3) (s : State) : Out := s.spmLd v b o n i 4
def execSpmLdd (v : BitVec 6) (b : BitVec 5) (o : BitVec 6) (n : BitVec 1) (i : BitVec 3) (s : State) : Out := s.spmLd v b o n i 8
def execSpmLdq (v : BitVec 6) (b : BitVec 5) (o : BitVec 6) (n : BitVec 1) (i : BitVec 3) (s : State) : Out := s.spmLd v b o n i 16
def execSpmStw (v : BitVec 6) (b : BitVec 5) (o : BitVec 6) (n : BitVec 1) (i : BitVec 3) (s : State) : Out := s.spmSt v b o n i 4
def execSpmStd (v : BitVec 6) (b : BitVec 5) (o : BitVec 6) (n : BitVec 1) (i : BitVec 3) (s : State) : Out := s.spmSt v b o n i 8
def execSpmStq (v : BitVec 6) (b : BitVec 5) (o : BitVec 6) (n : BitVec 1) (i : BitVec 3) (s : State) : Out := s.spmSt v b o n i 16
def execSpmAdd (v : BitVec 6) (b : BitVec 5) (o : BitVec 6) (n : BitVec 1) (i : BitVec 3) (s : State) : Out := s.spmRmw .add v b o n i
def execSpmMin (v : BitVec 6) (b : BitVec 5) (o : BitVec 6) (n : BitVec 1) (i : BitVec 3) (s : State) : Out := s.spmRmw .min v b o n i
def execSpmMax (v : BitVec 6) (b : BitVec 5) (o : BitVec 6) (n : BitVec 1) (i : BitVec 3) (s : State) : Out := s.spmRmw .max v b o n i
def execSpmOr (v : BitVec 6) (b : BitVec 5) (o : BitVec 6) (n : BitVec 1) (i : BitVec 3) (s : State) : Out := s.spmRmw .or v b o n i
def execSpmXchg (v : BitVec 6) (b : BitVec 5) (o : BitVec 6) (n : BitVec 1) (i : BitVec 3) (s : State) : Out := s.spmRmw .xchg v b o n i
def execSpmCas (v : BitVec 6) (b : BitVec 5) (o : BitVec 6) (n : BitVec 1) (i : BitVec 3) (s : State) : Out := s.spmRmw .cas v b o n i
def execSpmInc (v : BitVec 6) (b : BitVec 5) (o : BitVec 6) (n : BitVec 1) (i : BitVec 3) (s : State) : Out := s.spmRmw .inc v b o n i

end Sys2Proof.Machine
end

