-- ==== Sys2Proof/Machine/Atomic.lean ====
section
/-! DEFINITION. Atomics on device, peer and host memory: family at (R72, R74, R78, R240 to R242). -/

namespace Sys2Proof.Machine

/-- Invalidate a line in every L1, the issuing core's included (R78). -/
def State.writeAtomic (s : State) (loc : Loc) (bytes : List Byte) : State :=
  s.writeLoc (some s.cur) none s.myTag loc bytes

/-- The bytes at a place. -/
def State.bytesAt (s : State) (loc : Loc) (n : Nat) : List Byte := (List.range n).map (fun i => s.readLoc (loc.plus i))

/-- The lanes perform in ascending order (R72, R240). -/
def atomLanes (f : Fin 32 → List Byte → AtomRes) (size : Nat) :
    State → List (Fin 32 × Loc × Bool) → State × List (Fin 32 × AtomRes)
  | s, [] => (s, [])
  | s, x :: t =>
    let r := f x.1 (s.bytesAt x.2.1 size)
    let u := atomLanes f size (s.writeAtomic x.2.1 r.new) t
    (u.1, (x.1, r) :: u.2)

/-- TF_INFO of the PERM of a host AtomicOp that is refused (R242): a write, denied by the host, and what the ASID's state
adds (R129). -/
def permAtomicOp (st : AsidSt) : Nat :=
  9 + (match st with
    | .readonly => 4
    | .dropping => 16
    | _ => 0)

/-- The PERM of an address whose access through a host window is no AtomicOp that may be sent, or whose completion
reported Unsupported Request (R242). -/
def State.opFault (s : State) (fn : RmwFn) (va : Nat) : List (Nat × Nat × Nat) :=
  match s.gxlate true false va with
  | .ok (.host _) _ =>
    if fn.onHost && s.leaf.atomicOps && s.gang.wait != .atomicDone true then [] else [(tcPERM, va, permAtomicOp s.myAsid.st)]
  | _ => []

/-- A read-modify-write that holds nothing up performs and retires. -/
def State.atomNow (s : State) (fn : RmwFn) (v : BitVec 6) (xs : List (Fin 32 × Loc × Bool)) : Out :=
  let r := atomLanes (fn.apply s.r v) fn.size s xs
  let t := r.1.setGang r.1.gang.wrote
  let t := t.setR (fn.put s.r s.gang.launched v r.2 t.r)
  t.retireEv t (vecCost false s.r.exec) 4 (r.2.map (fun p => p.2.ev))

/-- A host AtomicOp has its completion, or completions are not held. -/
def State.opDone (s : State) : Bool := !s.holdLoads || s.gang.wait == .atomicDone false

/-- The frame of an `at` instruction: it performs when the gang is non-speculative, and takes its place in the order
before (R88). -/
def State.atomic (s : State) (fn : RmwFn) (v : BitVec 6) (b : BitVec 5) (o : BitVec 6) (n : BitVec 1) (i : BitVec 3) : Out :=
  if !s.meOk false v fn.group o n i then s.illop 4 true else
  let ls := lanesOf s.r.exec
  let va := s.meVa b o n i fn.size
  if ls.isEmpty then s.retire else
  match s.alignFault true fn.size ls va with
  | some t => s.raiseLanes false t
  | none =>
    if !s.quiet then s.queueRmw .dram fn v (ls.map va) else
    s.translate false true ls va (fun s va => s.opFault fn va) (fun s xs =>
      match pickFault ls (s.lossCode xs va) with
      | some t => s.raiseLanes false t
      | none =>
        if xs.any (fun x => x.2.1.isHost) && !s.opDone then s.stallAs (.atomicOp (xs.filterMap (fun x => x.2.1.hostKey)))
        else s.atomNow fn v xs)

def execAtAdd (v : BitVec 6) (b : BitVec 5) (o : BitVec 6) (n : BitVec 1) (i : BitVec 3) (s : State) : Out := s.atomic .add v b o n i
def execAtMin (v : BitVec 6) (b : BitVec 5) (o : BitVec 6) (n : BitVec 1) (i : BitVec 3) (s : State) : Out := s.atomic .min v b o n i
def execAtMax (v : BitVec 6) (b : BitVec 5) (o : BitVec 6) (n : BitVec 1) (i : BitVec 3) (s : State) : Out := s.atomic .max v b o n i
def execAtMinn (v : BitVec 6) (b : BitVec 5) (o : BitVec 6) (n : BitVec 1) (i : BitVec 3) (s : State) : Out := s.atomic .minn v b o n i
def execAtMaxn (v : BitVec 6) (b : BitVec 5) (o : BitVec 6) (n : BitVec 1) (i : BitVec 3) (s : State) : Out := s.atomic .maxn v b o n i
def execAtAnd (v : BitVec 6) (b : BitVec 5) (o : BitVec 6) (n : BitVec 1) (i : BitVec 3) (s : State) : Out := s.atomic .and v b o n i
def execAtOr (v : BitVec 6) (b : BitVec 5) (o : BitVec 6) (n : BitVec 1) (i : BitVec 3) (s : State) : Out := s.atomic .or v b o n i
def execAtXor (v : BitVec 6) (b : BitVec 5) (o : BitVec 6) (n : BitVec 1) (i : BitVec 3) (s : State) : Out := s.atomic .xor v b o n i
def execAtXchg (v : BitVec 6) (b : BitVec 5) (o : BitVec 6) (n : BitVec 1) (i : BitVec 3) (s : State) : Out := s.atomic .xchg v b o n i
def execAtCas (v : BitVec 6) (b : BitVec 5) (o : BitVec 6) (n : BitVec 1) (i : BitVec 3) (s : State) : Out := s.atomic .cas v b o n i
def execAtInc (v : BitVec 6) (b : BitVec 5) (o : BitVec 6) (n : BitVec 1) (i : BitVec 3) (s : State) : Out := s.atomic .inc v b o n i
def execAtFadd (v : BitVec 6) (b : BitVec 5) (o : BitVec 6) (n : BitVec 1) (i : BitVec 3) (s : State) : Out := s.atomic .fadd v b o n i
def execAtXadd (v : BitVec 6) (b : BitVec 5) (o : BitVec 6) (n : BitVec 1) (i : BitVec 3) (s : State) : Out := s.atomic .xadd v b o n i
def execAtXrd (v : BitVec 6) (b : BitVec 5) (o : BitVec 6) (n : BitVec 1) (i : BitVec 3) (s : State) : Out := s.atomic .xrd v b o n i
def execAtXclr (v : BitVec 6) (b : BitVec 5) (o : BitVec 6) (n : BitVec 1) (i : BitVec 3) (s : State) : Out := s.atomic .xclr v b o n i

end Sys2Proof.Machine
end

