-- ==== Sys2Proof/Machine/Grant.lean ====
section
/-! DEFINITION. Grant queues: registration, batches and service grids (R106, R280, R281). -/

namespace Sys2Proof.Machine

/-! ### Registration records (R280) -/

/-- A field of a registration record. -/
def Grant.f (g : Grant) (o n : Nat) : Nat := leNat ((List.range n).map (fun i => tget (0 : Byte) g.block (o + i)))

def Grant.size (g : Grant) : Nat := g.f 0x18 2
def Grant.nbuf (g : Grant) : Nat := g.f 0x1A 1
def Grant.hostQueue (g : Grant) : Nat := g.f 0x2C 1 % 64
def Grant.en (g : Grant) : Bool := bitAt (g.f 0x28 4) 31

/-- The leaf holds Grant queue `q` of its die (R291). -/
def PartRec.hasGrant (p : PartRec) (q : Nat) : Bool :=
  decide (p.grantFirst ≤ q % 64) && decide (q % 64 < p.grantFirst + p.grantCount)

/-- The fields are within their limits. -/
def Grant.legal (g : Grant) : Bool :=
  decide (16 ≤ g.size) && decide (g.size ≤ 256) && decide (1 ≤ g.nbuf) && decide (g.nbuf ≤ 16)
    && decide (1 ≤ g.f 0x1C 4) && decide (g.f 0x1C 4 ≤ 1000000) && g.f 0x10 8 % 128 == 0
    && decide (16 ≤ g.f 0x20 8) && decide (g.f 0x20 8 ≤ 1024)

/-- The bits a word of the record can hold: VAs of 48 bits, and the fields the layout names. -/
def grantMask (off : Nat) : Nat :=
  match off with
  | 0x04 => 0xFFFF
  | 0x0C => 0xFFFF
  | 0x14 => 0xFFFF
  | 0x18 => 0x03FFFFFF
  | 0x28 => 0x80000000
  | 0x2C => 0x3F
  | o => if o < 0x28 then 0xFFFFFFFF else 0

/-- A write to a registration record.  `q` is die × 64 + queue. -/
-- DESIGN CHOICE (assumption 22): EN is not set over fields outside their limits.
def execGrantRegistrationWrite (l q off : Nat) (v : Word) (s : State) : Out :=
  let g := s.grantAt q
  if !(s.leafAt l).live || 256 ≤ q || !(s.leafAt l).part.hasGrant q || off % 4 ≠ 0 || 64 ≤ off then .next s
  else if g.en || g.closing then
    if g.en && off = 0x28 && !bitAt v.toNat 31 then
      .next (s.setGrant q { g with block := tput g.block 0x2B 0, closing := g.registered })
    else .next s
  else
    let bs := leBytes 4 (Nat.land v.toNat (grantMask off))
    let g := { g with block := (List.range 4).foldl (fun t i => tput t (off + i) (bs.getD i 0)) g.block, leaf := l }
    if !g.en then .next (s.setGrant q g)
    else if g.legal && s.feature 4 then .next (s.setGrant q { g with registered := true })
    else .next (s.setGrant q { g with block := tput g.block 0x2B 0 })

/-- A queue whose EN was cleared is unregistered once it holds no open batch and its grids have retired. -/
def execGrantUnregister (q : Nat) (s : State) : Out :=
  let g := s.grantAt q
  if g.closing && g.rows.isEmpty && g.batches.isEmpty then
    .next (s.setGrant q { g with registered := false, closing := false })
  else .next s

/-! ### Batches (R280, R281) -/

/-- The timeout of the open batch has run out. -/
def State.grantDue (s : State) (q : Nat) : Bool :=
  let g := s.grantAt q
  !g.rows.isEmpty && decide (g.since + g.f 0x1C 4 * 2700 / 1000 ≤ s.now)

/-- The queue takes another row now (R269, R280). -/
def State.grantOpen (s : State) (q : Nat) : Bool :=
  let g := s.grantAt q
  !g.closing && decide (g.rows.length < g.size) && !s.grantDue q

/-- The open batch closes. -/
def Grant.close (g : Grant) : Grant :=
  { g with batches := g.batches ++ [{ k := g.nextBatch, rows := g.rows }], rows := [], nextBatch := g.nextBatch + 1 }

def execGrantBatchClose (q : Nat) (s : State) : Out :=
  let g := s.grantAt q
  if g.registered && !g.rows.isEmpty && decide (g.size ≤ g.rows.length) then .next (s.setGrant q g.close) else .next s

def execGrantTimeout (q : Nat) (s : State) : Out :=
  if (s.grantAt q).registered && s.grantDue q then .next (s.setGrant q (s.grantAt q).close) else .next s

/-- The batch whose grid may launch: its buffer's previous grids have retired. -/
def Grant.nextLaunch (g : Grant) : Option Batch :=
  g.batches.find? (fun b => !b.launched && g.batches.all (fun c =>
    decide (b.k ≤ c.k) || c.k % g.nbuf != b.k % g.nbuf || c.retired))

/-- The list of a batch as its buffer holds it. -/
def Batch.bytes (b : Batch) : List Byte :=
  b.rows.flatMap (fun r => leBytes 8 r.va ++ leBytes 4 r.tag.toNat ++ leBytes 4 r.ticket.toNat)

/-- A batch's list is written to its buffer, and its service grid built: the parameter block from the template, the
first 16 bytes replaced, and the descriptor. -/
-- DESIGN CHOICE (assumption 23): the built block is the grid's own; the template in memory stays as it is.
def State.grantPrepare (s : State) (q : Nat) (b : Batch) : Except (Nat × Option AccErr) (Grid × State) := do
  let g := s.grantAt q
  let a := s.qAsid g.leaf g.hostQueue
  let acc := fun (e : AccErr) => ((0xFFFFFFFF : Nat), some e)
  let buf := (g.f 0x10 8 + 4096 * (b.k % g.nbuf)) % 2 ^ 48
  let t ← (s.eread g.leaf a (g.f 0x08 8) (g.f 0x20 8)).mapError acc
  let k ← s.readDesc g.leaf a (g.f 0 8)
  let s ← (s.ewrite none (s.qTag g.leaf g.hostQueue) g.leaf a buf b.bytes).mapError acc
  let grid ← s.withPatches {
    seed := .grant q b.k, k := k, params := BitVec.ofNat 48 (g.f 0x08 8), nx := ceilDiv b.rows.length 64, ny := 1, nz := 1
    block := leBytes 8 buf ++ leBytes 4 b.rows.length ++ leBytes 4 b.k ++ t.drop 16
    leaf := g.leaf, queue := g.hostQueue, asid := a, prio := g.f 0x1B 1 % 4 }
  pure (grid, s)

/-- Grant writes a batch's list and launches its service grid, or waits for a page. -/
-- DESIGN CHOICE (assumption 23): a grid that cannot be launched writes a queue record with cause 2 and counts as
-- retired.
def execGrantServiceLaunch (q : Nat) (s : State) : Out :=
  let g := s.grantAt q
  match g.nextLaunch with
  | none => .next s
  | some b =>
    let mark := fun (s : State) => s.setGrant q { s.grantAt q with
      hold := .none, batches := (s.grantAt q).batches.map (fun c => if c.k = b.k then { c with launched := true } else c) }
    match s.grantPrepare q b with
    | .ok (grid, s) => .next ((mark s).newGrid grid).2
    | .error (detail, e) =>
      match e.bind (fun e => (e.next g.hold s.now).map (fun h => (e, h))) with
      | some (e, h) => .next ((s.setGrant q { g with hold := h }).askOnce g.leaf g.hold e)
      | none => .next (((mark s).queueRecord g.leaf g.hostQueue 2 detail).grantRetired q b.k)

end Sys2Proof.Machine
end

