-- ==== Sys2Proof/Machine/Drain.lean ====
section
/-! DEFINITION. The writes that wait in a gang's order perform, oldest first (R84, R85, R88, R89, R207, R240). -/

namespace Sys2Proof.Machine

/-! ### Read-modify-writes -/

/-- The lanes of a waiting read-modify-write with their places; none when one cannot perform as it stands: its page
must be refreshed or copied ahead of younger work, it leads to no local or peer memory, or its line is poisoned. -/
def State.rmwPlaces (s : State) (w : PendWrite) (ls : List (Fin 32)) : Option (State × List (Fin 32 × Loc × Bool)) :=
  let vas := w.writes.map (fun p => p.1)
  if !s.gang.ckpts.isEmpty && vas.any s.turns then none else
  let s := s.prepare true vas
  let xs := (ls.zip vas).filterMap (fun p => match s.gxlate true false p.2 with
    | .ok (.host _) _ => none
    | .ok loc na => if s.poisoned loc then none else some (p.1, loc, na)
    | _ => none)
  if xs.length = ls.length then some (s, xs) else none

/-- A waiting read-modify-write performs, its result and its events joining the registers wherever they are held; none
when it must be taken up again, as when it raises an enabled event (R37, R240). -/
def State.performRmw (s : State) (w : PendWrite) (m : Rmw) : Option State :=
  let v := BitVec.ofNat 6 m.v
  let ls := lanesOf m.lanes
  let off := fun (l : Fin 32) => (((ls.zip (w.writes.map (fun p => p.1))).find? (fun p => p.1 == l)).map (fun p => p.2)).getD 0
  let f := m.fn.apply w.before v
  let r : Option (State × List (Fin 32 × AtomRes)) := match w.space with
    | .scr k => if (s.scrLoss m.size ls off).isSome then none else some (scrLanes k off f s ls)
    | _ => (s.rmwPlaces w ls).map (fun (p : State × List (Fin 32 × Loc × Bool)) => atomLanes f m.size p.1 p.2)
  r.bind (fun r =>
    let evs := r.2.map (fun p => p.2.ev)
    if w.before.fpx evs ≠ 0 then none else
    some (r.1.setGang (r.1.gang.wrote.mapLater w.seq (fun x => (m.fn.put w.before s.gang.launched v r.2 x).mergeEvents evs))))

/-! ### The oldest write -/

/-- A `ctl.wait` that the gang has run past is complete, with no ENGCMD of its context to raise (R207). -/
def State.waitOver (s : State) (h n : Word) : Bool :=
  (match s.counterOf h with
    | some c => reached (c.setWidth 32) n
    | none => true)
  && (match s.ownContext h with
    | some true => s.gang.failCp.isNone
    | some false => s.gang.failMx.isNone
    | none => true)

/-- The state after the write has performed; none when its instruction must be taken up again. -/
def State.perform (s : State) (w : PendWrite) : Option State :=
  match w.space, w.rmw with
  | .wait h n, _ => if s.waitOver h n then some s else none
  -- a command starts by an event of its own (R90)
  | .cmd _ _, _ => none
  | _, some m => s.performRmw w m
  | _, none => s.performWrite w

/-- The gang goes back to an instruction whose write could not perform, to take it up again; what it has issued since is
discarded. -/
-- DESIGN CHOICE (assumption 71): no rollback is counted, for no read set was met.
def Gang.goBack (g : Gang) (w : PendWrite) (quota : Nat) : Gang :=
  retireCkpts { g.discardFrom w.seq with
    r := w.before, spilled := keepSpilled quota w.before.below.length g.spilled }

/-- The oldest write that waits performs, and the checkpoints before it retire (R85); else its instruction is taken up
again. -/
def State.drainOne (s : State) : State :=
  match s.gang.stores with
  | [] => s
  | w :: _ =>
    match s.perform w with
    | some t =>
      let after := ((t.gang.stores.find? (fun x => x.seq == w.seq)).getD w).after
      t.setGang (replaceCkpts w.seq after { t.gang with stores := t.gang.stores.filter (fun x => x.seq != w.seq) })
    | none => s.setGang (s.gang.goBack w (s.quota s.gang))

/-- The oldest write of a gang may be dealt with: it is no `ctl.wait` that still waits, and no command. -/
def State.drains (s : State) : Bool :=
  match s.gang.stores with
  | [] => false
  | w :: _ => match w.space with
    | .wait h n => s.waitOver h n || (match s.ownContext h with
        | some true => s.gang.failCp.isSome
        | some false => s.gang.failMx.isSome
        | none => false)
    | .cmd _ _ => false
    | _ => true

end Sys2Proof.Machine
end

