-- ==== Sys2Proof/Machine/Jump.lean ====
section
/-! DEFINITION. Branches, calls, returns and indirect jumps: families br and jmp, with Sparge's spills and
refills (R21, R27, R28, R161, R201 to R205). -/

namespace Sys2Proof.Machine

/-! ### Branches (R201) -/

/-- The target of a relative transfer: the word's own address plus twice the offset, whose high bits an EXT
supplies (R175, R201). -/
def State.relTarget (s : State) {n : Nat} (o : BitVec n) : Va :=
  let off : Int := match s.gang.ext with
    | none => o.toInt
    | some p => signed (n + 25) (p.toNat * 2 ^ n + o.toNat)
  s.wordPc + BitVec.ofInt 48 (2 * off)

/-- Branch when a condition holds. -/
def State.branch (s : State) (o : BitVec 17) (taken : Bool) : Out :=
  s.retire 1 4 (if taken then some (s.relTarget o) else none)

def execBrAl (o : BitVec 17) (s : State) : Out := s.branch o true
def execBrZ (r : BitVec 5) (o : BitVec 17) (s : State) : Out := s.branch o (s.r.sreg r == 0)
def execBrNz (r : BitVec 5) (o : BitVec 17) (s : State) : Out := s.branch o (s.r.sreg r != 0)
def execBrXz (o : BitVec 17) (s : State) : Out := s.branch o (s.r.exec == 0)
def execBrXnz (o : BitVec 17) (s : State) : Out := s.branch o (s.r.exec != 0)

/-- The common value of a register over the active lanes, none with no lane active; or the lanes that
differ from the lowest one (R21). -/
def Regs.uniform (r : Regs) (v : VReg) : Except Word (Option Word) :=
  match lowest r.exec with
  | none => .ok none
  | some l =>
    let diff := maskOf (fun j => lane r.exec j && v.at j != v.at l)
    if diff = 0 then .ok (some (v.at l)) else .error diff

/-- The v register of a 5-bit field (R201). -/
def Regs.vreg5 (r : Regs) (v : BitVec 5) : VReg := r.vreg (v.setWidth 6)

/-- A uniform branch: taken when its test holds of the common value (R21, R201). -/
def State.branchV (s : State) (v : BitVec 5) (o : BitVec 17) (test : Word → Bool) : Out :=
  let x := s.r.vreg5 v
  match s.r.uniform x with
  | .error diff => s.raise 4 tcNONUNI diff
  | .ok c => s.retire (vecCost (!x.isG) s.r.exec) 4
      (match c with
        | some w => if test w then some (s.relTarget o) else none
        | none => none)

def execBrVz (v : BitVec 5) (o : BitVec 17) (s : State) : Out := s.branchV v o (fun w => w == 0)
def execBrVnz (v : BitVec 5) (o : BitVec 17) (s : State) : Out := s.branchV v o (fun w => w != 0)

/-! ### Sparge (R28, R161) -/

/-- The window base: registers of the stack below v0. -/
def Regs.base (r : Regs) : Nat := r.below.length

/-- The address of block `j` of the spill area. -/
def Regs.blockVa (r : Regs) (j : Nat) : Nat := (r.spbase.toNat + 1152 * j) % 2 ^ 48

/-- A line of the spill area takes a spill's bytes, which no program may know; it is stored whole, which clears poison
(R28, R109). -/
def State.spargePut (s : State) (tag : OwnerTag) (loc : Loc) : State :=
  let bytes := (List.range 128).map (fun i => Config.freeByte (s.free + i))
  let s := { s with free := s.free + 128 }
  let s := match loc with
    | .dram pa => { s with mem := memPut s.mem pa bytes }
    | .host k => { s with hostMem := memPut s.hostMem k bytes }
    | .peer k => { s with peerMem := memPut s.peerMem k bytes }
    | .block _ => s
  match loc.line with
  | some n => { s with lines := tput s.lines n { s.lineAt n with dirty := true, poison := false, tag := some tag } }
  | none => s

/-- One line of a block is moved by Sparge: it translates as an engine does, copies on write for a spill, and meets
poison for a refill. -/
-- DESIGN CHOICE (assumption 87): a spilled line bears the partition and the ASID of the gang.
def spargeLine (l a : Nat) (write : Bool) (s : State) (va : Nat) : Except AccErr State :=
  let go := fun (s : State) => match s.exlate l a write va (some s.cur) with
    | .ok loc _ =>
      if write then Except.ok (s.spargePut { leaf := l, asid := some a } loc)
      else if s.poisoned loc then .error (.trap tcDATALOSS va 0) else .ok s
    | .cow => .error (.trap tcXLATE va 5)
    | .trap c i => .error (.trap c va i)
    | .ats p g => .error (.ats p g write va)
    | .page k own => .error (.page k own va)
    | .hole pa => .error (.hole pa)
  match s.exlate l a write va (some s.cur) with
  | .cow => match s.copyOnWrite l a va with
    | .ok s' => go s'
    | .error _ => .error (.trap tcXLATE va 5)
  | _ => go s

/-- Move one block. A refill gives back the registers its spill wrote, which the window stack holds (R161). -/
def State.sparge (s : State) (write : Bool) (j : Nat) : Except AccErr State :=
  (List.range 9).foldlM (fun s i => spargeLine s.leafNo s.gang.asid write s ((s.r.blockVa j + 128 * i) % 2 ^ 48)) s

/-- Move several blocks, stopping at the first that cannot be moved, which is named. -/
def State.spargeAll (s : State) (write : Bool) : List Nat → Except (AccErr × Nat) State
  | [] => .ok s
  | j :: t => match s.sparge write j with
    | .ok s' => s'.spargeAll write t
    | .error e => .error (e, j)

/-- SPILLF for block `j` with its inner code (R161). -/
def State.spillF (s : State) (inner j : Nat) : Out :=
  s.raise 4 tcSPILLF 0 (s.r.blockVa j) (inner + 256 * j)

/-- A transfer's blocks could not all be moved. -/
def State.spargeErr (s : State) (e : AccErr) (j : Nat) : Out :=
  match e with
  | .trap c _ _ => s.spillF c j
  | .ats p g w _ => s.waitAts p g w (fun c _ => s.spillF c j)
  | .page k w va => s.waitPage (s.levelUnder s.myAsid.cur.root va) k w (fun c _ => s.spillF c j)
  | .hole pa => .fault (.noSuchMemory pa)

/-- The blocks a window that ends at stack index `top` still needs spilled (R28). -/
def Gang.toSpill (g : Gang) (quota top : Nat) : List Nat :=
  (List.range ((top - quota) / 8)).filter (fun j => decide (g.spilled ≤ j))

/-- The blocks a window whose base is `base` needs refilled, highest first (R28). -/
def Gang.toRefill (g : Gang) (base : Nat) : List Nat :=
  ((List.range g.spilled).filter (fun j => decide (base / 8 ≤ j))).reverse

/-- A window from a list of registers. -/
def winOf (l : List VReg) : Vector VReg 64 := tab (fun i => l.getD i.val (.u 0))

/-- The window slides up by 8K: fresh registers are U 0 (R27). -/
def Regs.push (r : Regs) (k : Nat) (ret : Va) : Regs :=
  { r with
    links := { ret := ret, k := k } :: r.links
    below := (r.win.toList.take (8 * k)).reverse ++ r.below
    win := winOf (r.win.toList.drop (8 * k)) }

/-- The window slides back (R27, R204). -/
def Regs.pop (r : Regs) (k : Nat) : Regs :=
  { r with
    links := r.links.tail
    below := r.below.drop (8 * k)
    win := winOf ((r.below.take (8 * k)).reverse ++ r.win.toList.take (64 - 8 * k)) }

/-- STKOVF's information: the call-depth limit, and a needed block that ends beyond SPLIM (R28, R202). -/
-- DEDUCED (assumption 13): a block lies at or beyond SPLIM when its last byte does.
def State.stkovf (s : State) (blocks : List Nat) : Nat :=
  (if s.r.calllim.toNat < s.r.links.length + 1 then 1 else 0)
  + (if blocks.any (fun j => decide (s.r.splim.toNat < s.r.spbase.toNat + 1152 * (j + 1))) then 2 else 0)

/-- The current gang has rolled back between two states. -/
def State.rolledSince (s' s : State) : Bool := s'.gang.rollcnt != s.gang.rollcnt

/-- R202's steps.  A copy on write of the spill area may roll the gang back (R113, R120): then its call is undone too. -/
def State.call (s : State) (k : Nat) (target : Va) : Out :=
  let blocks := s.gang.toSpill s.grid.k.regs (s.r.base + 8 * k + 64)
  let info := s.stkovf blocks
  if info ≠ 0 then s.raise 4 tcSTKOVF 0 0 info else
  match (match s.gang.spillFault with
      | some (c, j) => if blocks.contains j then some (c, j) else none
      | none => none) with
  | some (c, j) => if s.quiet then (s.setGang { s.gang with spillFault := none }).spillF c j else s.stall
  | none => match s.spargeAll true blocks with
    | .error (e, j) => s.spargeErr e j
    | .ok s' =>
      if target.toNat % 2 = 1 then s.raise 4 tcALIGN 0 target.toNat 0 else
      if s'.rolledSince s then .next (s'.tick 1) else
      let s' := s'.setGang { s'.gang with spilled := s'.gang.spilled + blocks.length }
      (s'.setR (s'.r.push k (s'.wordPc + 4))).retire 1 4 (some target)

/-- R204: a return. -/
def State.ret (s : State) : Out :=
  match s.r.links with
  | [] => s.illop 4 false
  | x :: _ =>
    let base := s.r.base - 8 * x.k
    let blocks := s.gang.toRefill base
    match (match s.gang.refillFault with
        | some (c, j) => if blocks.contains j then some (c, j) else none
        | none => none) with
    | some (c, j) => if s.quiet then (s.setGang { s.gang with refillFault := none }).spillF c j else s.stall
    | none => match s.spargeAll false blocks with
      | .error (e, j) => s.spargeErr e j
      | .ok s' =>
        let s' := s'.setGang { s'.gang with spilled := s'.gang.spilled - blocks.length }
        (s'.setR (s'.r.pop x.k)).retire 1 4 (some x.ret)

/-- A computed target: bits [47:32] of the jumping word's PC, and a word (R203). -/
def State.computed (s : State) (w : Word) : Va := ((s.wordPc >>> 32).setWidth 16 : BitVec 16) ++ w

/-- A transfer to a computed target: ALIGN when bit 0 is set (R166). -/
-- DESIGN CHOICE (assumption 99): the ALIGN of an odd target names no lanes, for `jmp.jv` as for a scalar jump.
def State.jumpTo (s : State) (cost : Nat) (t : Va) : Out :=
  if t.toNat % 2 = 1 then s.raise 4 tcALIGN 0 t.toNat 0 else s.retire cost 4 (some t)

def execJmpCall (k : BitVec 3) (o : BitVec 19) (s : State) : Out :=
  if k = 0 then s.illop 4 false else s.call k.toNat (s.relTarget o)
def execJmpCallx (k : BitVec 3) (r : BitVec 5) (s : State) : Out :=
  s.noExt (if k = 0 then s.illop 4 false else s.call k.toNat (s.computed (s.r.sreg r)))
def execJmpRet (s : State) : Out := s.noExt s.ret
def execJmpJx (r : BitVec 5) (s : State) : Out := s.noExt (s.jumpTo 1 (s.computed (s.r.sreg r)))

/-- R205: a jump through a table entry read by the fetch path. -/
def execJmpJtab (r t : BitVec 5) (i : BitVec 9) (s : State) : Out :=
  s.noExt (
    let x := (s.r.sreg r).toNat
    if (s.r.sreg t).toNat ≤ x then s.raise 4 tcJTABR s.r.exec 0 x else
    let tab : Va := s.wordPc / 4 * 4 + BitVec.ofInt 48 (4 * i.toInt)
    let ea := (tab.toNat + 4 * x) % 2 ^ 48
    s.fetched ea 4 (fun s c info => s.raise 4 c 0 ea info)
      (fun s b => s.jumpTo 1 (tab + BitVec.ofInt 48 (signed 32 (leNat b)))))

def execJmpJv (v : BitVec 5) (s : State) : Out :=
  s.noExt (
    let x := s.r.vreg5 v
    match s.r.uniform x with
    | .error diff => s.raise 4 tcNONUNI diff
    | .ok none => s.retire (vecCost (!x.isG) s.r.exec)
    | .ok (some w) => s.jumpTo (vecCost (!x.isG) s.r.exec) (s.computed w))

/-! ### Sparge's own moves (R28) -/

/-- Sparge spills the lowest resident block that lies below the window, ahead of need; a fault is recorded
(R161). -/
def execSpill (g : Nat) (s : State) : Out :=
  let x := s.gangAt g
  let j := x.spilled
  if x.st != .live || decide (x.r.base < 8 * (j + 1)) || decide (x.r.splim.toNat < x.r.spbase.toNat + 1152 * (j + 1)) then .next s else
  let s' := { s with cur := g }
  match s'.sparge true j with
  | .ok t => .next { (if t.rolledSince s' then t else t.setGang { t.gang with spilled := j + 1 }) with cur := s.cur }
  | .error (.trap c _ _) => .next { s'.setGang { x with spillFault := some (c, j) } with cur := s.cur }
  | .error (.hole pa) => .fault (.noSuchMemory pa)
  | .error _ => .next s

/-- Sparge refills the highest spilled block while the quota has room (R28, R161). -/
def execRefill (g : Nat) (s : State) : Out :=
  let x := s.gangAt g
  let quota := (s.gridAt (s.wgAt x.wg).grid).k.regs
  if x.st != .live || x.spilled == 0 || decide (quota < x.r.base + 64 - 8 * (x.spilled - 1)) then .next s else
  let j := x.spilled - 1
  let s' := { s with cur := g }
  match s'.sparge false j with
  | .ok t => .next { t.setGang { t.gang with spilled := j } with cur := s.cur }
  | .error (.trap c _ _) => .next { s'.setGang { x with refillFault := some (c, j) } with cur := s.cur }
  | .error (.hole pa) => .fault (.noSuchMemory pa)
  | .error _ => .next s

end Sys2Proof.Machine
end

