-- ==== Sys2Proof/Machine/Place.lean ====
section
/-! DEFINITION. The distributor: which workgroup is placed next, on which core and streams, with which spill
areas, within the current ramp (R10, R17, R27, R28, R40, R180, R276 to R278). -/

namespace Sys2Proof.Machine

/-! ### What a core still has (R278) -/

/-- The gangs resident on a core, with their quotas: stream and registers. -/
def State.residents (s : State) (core : Nat) : List (Nat × Nat) :=
  ((s.coreAt core).wgs.flatMap (fun w =>
    let x := s.wgAt w
    x.gangs.filterMap (fun k => let g := s.gangAt k
      if g.st == .retired || g.st == .vacant then none else some (g.stream, (s.gridAt x.grid).k.regs))))

/-- The stream of a gang with quota `q`: the fitting one with the fewest resident gangs, lowest number first
(R28, R278). -/
def pickStream (res : List (Nat × Nat)) (q : Nat) : Option Nat :=
  let on := fun (t : Nat) => res.filter (fun p => p.1 == t)
  let fits := (List.range 64).filter (fun t => match on t with
    | [] => true
    | [p] => decide (p.2 + q ≤ 256)
    | _ => false)
  match fits.find? (fun t => (on t).isEmpty) with
  | some t => some t
  | none => fits.head?

/-- Streams for `n` gangs of one quota, one after another. -/
def pickStreams (q : Nat) : Nat → List (Nat × Nat) → Option (List Nat)
  | 0, _ => some []
  | n + 1, res => match pickStream res q with
    | none => none
    | some t => (pickStreams q n ((t, q) :: res)).map (fun l => t :: l)

/-- Patch-buffer words in use on a core, counted once per resident grid (R180). -/
def State.patchUse (s : State) (core : Nat) (grids : List Nat) : Nat :=
  ((((s.coreAt core).wgs.map (fun w => (s.wgAt w).grid)) ++ grids).eraseDups.map (fun k => (s.gridAt k).k.patchN)).sum

/-- The rest of what a workgroup of a grid needs fits the core: scratchpad, operand slots, patch words. -/
def State.roomOn (s : State) (core grid : Nat) : Bool :=
  let k := (s.gridAt grid).k
  let ks := (s.coreAt core).wgs.map (fun w => (s.gridAt (s.wgAt w).grid).k)
  decide ((ks.map (fun x => x.scratch)).sum + k.scratch ≤ 262144)
    && decide ((ks.map (fun x => x.slots)).sum + k.slots ≤ 32)
    && decide (s.patchUse core [grid] ≤ 64)

/-- The streams a core offers to `n` gangs of a grid, when the workgroup fits it. -/
def State.fitCore (s : State) (core grid n : Nat) : Option (List Nat) :=
  if s.roomOn core grid then pickStreams (s.gridAt grid).k.regs n (s.residents core) else none

/-- The candidates in round-robin order from the partition's pointer (R278). -/
def Leaf.rotation (f : Leaf) : List Nat :=
  let cs := f.part.coreList
  cs.drop (f.rr % max 1 cs.length) ++ cs.take (f.rr % max 1 cs.length)

/-! ### Areas of the save region (R40, R276) -/

/-- The lowest 128-byte aligned run of `n` bytes in [lo, hi) clear of the runs in use. -/
def firstFit (used : List (Nat × Nat)) (lo hi n : Nat) : Option Nat :=
  let starts := (lo :: used.map (fun p => p.1 + p.2)).map (fun a => roundUp a 128)
  let ok := starts.filter (fun a => decide (lo ≤ a) && decide (a + n ≤ hi)
    && used.all (fun p => decide (a + n ≤ p.1) || decide (p.1 + p.2 ≤ a)))
  ok.foldl (fun m a => match m with
    | none => some a
    | some b => some (min a b)) none

/-- Spill areas for `n` gangs, first fit, ascending; the areas in use grow. -/
def takeSpills (lo hi len : Nat) : Nat → List (Nat × Nat) → Option (List Nat × List (Nat × Nat))
  | 0, used => some ([], used)
  | n + 1, used => match firstFit used lo hi len with
    | none => none
    | some a => (takeSpills lo hi len n (used ++ [(a, len)])).map (fun r => (a :: r.1, r.2))

/-- The spill areas of a workgroup's gangs; none when the spill part has no room for them. -/
def Queue.spillsFor (q : Queue) (n len : Nat) : Option (List Nat × List (Nat × Nat)) :=
  if len = 0 then some (List.replicate n 0, q.spills)
  else takeSpills q.savebase.toNat (q.savebase.toNat + q.spillpart.toNat) len n q.spills

/-! ### The ramp (R277) -/

/-- A core of the leaf may activate at a time and a core cycle: the window is a time, ACTGAP is in core cycles (R302). -/
def Leaf.mayActivate (f : Leaf) (now core : Nat) : Bool :=
  decide ((recent now f.acts).length < f.part.actmax)
    && (match f.lastAct with
      | some c => decide (c + f.part.actgap ≤ core)
      | none => true)

/-- A core receives a workgroup: it activates when it was idle; none while the ramp holds it. -/
def State.activate (s : State) (l core : Nat) : Option State :=
  let x := s.coreAt core
  if x.active then some s else
  let f := s.leafAt l
  let now := s.now
  if f.mayActivate now s.clk.core then
    some ((s.setCoreAt core { x with active := true }).setLeafAt l { f with acts := now :: recent now f.acts, lastAct := some s.clk.core })
  else none

/-! ### The workgroup in turn (R276, R278) -/

/-- The ASID whose queues form the tenant a grid belongs to. -/
def State.tenantOf (s : State) (g : Grid) : Nat := (s.queueAt g.leaf g.queue).asid.toNat

/-- The tenant of a grid has its slice, extended while a refused workgroup runs on, or the leaf is not
time-sliced. -/
def State.inSlice (s : State) (g : Grid) : Bool :=
  let f := s.leafAt g.leaf
  !f.part.sliced || (f.tenant == s.tenantOf g && (decide (s.now < f.sliceEnd)
    || f.refused.any (fun w => (s.wgAt w).st != .retired)))

/-- Of two keys the one that ranks first: priority, then creation, then key. -/
def rankBefore (s : State) (a b : Nat) : Bool :=
  let x := s.gridAt a
  let y := s.gridAt b
  if x.prio ≠ y.prio then decide (y.prio < x.prio)
  else if x.born ≠ y.born then decide (x.born < y.born) else decide (a ≤ b)

/-- The grid whose next workgroup is placed first. -/
def State.nextGrid (s : State) (l : Nat) : Option Nat :=
  let ks := (s.grids.filter (fun p => p.2.live && !p.2.killed && p.2.leaf == l && decide (p.2.nextWg < p.2.total)
    && s.inSlice p.2)).map (fun p => p.1)
  ks.foldl (fun m k => match m with
    | none => some k
    | some j => some (if rankBefore s k j then k else j)) none

/-! ### Creation of a workgroup (R8 to R10, R15, R27, R32 to R40) -/

/-- The fixed mask of gang `j` of a workgroup of `lanes` lanes (R10). -/
def launchedMask (lanes j : Nat) : Word :=
  if j + 1 = ceilDiv lanes 32 ∧ lanes % 32 ≠ 0 then BitVec.ofNat 32 (2 ^ (lanes % 32) - 1) else 0xFFFFFFFF

/-- A gang at its creation. -/
def newGang (g : Grid) (w slot stream gen now core spill : Nat) : Gang :=
  let m := launchedMask (g.k.wx * g.k.wy * g.k.wz) slot
  { st := .live, wg := w, slot := slot, launched := m, stream := stream, asid := g.asid, gen := gen, prio := g.prio
    born := now, readySince := core, spillVa := spill, spillLen := g.k.spill
    r := { pc := g.k.entry, exec := m
           spbase := BitVec.ofNat 48 spill
           splim := if g.k.spill = 0 then 0 else BitVec.ofNat 48 (spill + g.k.spill) } }

/-- Place workgroup `nextWg` of a grid on a core. -/
def State.place (s : State) (grid core : Nat) (streams spills : List Nat) : State :=
  let g := s.gridAt grid
  let i := g.nextWg
  let w := s.nextKey
  let n := g.k.gangs
  let now := s.now
  let a := s.asidAt g.leaf g.asid
  let gen := a.cur.num
  let keys := (List.range n).map (fun j => w + 1 + j)
  let s := { s with nextKey := w + 1 + n }
  let s := s.setAsid g.leaf g.asid (a.pin gen (fun c => c + n))
  let s := s.setWgAt w {
    st := .live, grid := grid, core := core, x := i % g.nx, y := i / g.nx % g.ny, z := i / (g.nx * g.ny), gangs := keys }
  let s := (List.range n).foldl (fun s j =>
    s.setGangAt (w + 1 + j) (newGang g w j (streams.getD j 0) gen now s.clk.core (spills.getD j 0))) s
  let c := s.coreAt core
  let s := s.setCoreAt core { c with wgs := c.wgs ++ [w] }
  s.setGridAt grid { s.gridAt grid with nextWg := i + 1, liveWgs := (s.gridAt grid).liveWgs + 1 }

/-- The partition's pointer moves past the core used. -/
def State.passCore (s : State) (l core : Nat) : State :=
  let f := s.leafAt l
  s.setLeafAt l { f with rr := (f.part.coreList.idxOf core + 1) % max 1 f.part.coreList.length }

/-- The workgroup the distributor places next, with its core, streams and spill areas. -/
def State.placement (s : State) (l : Nat) : Option (Nat × Nat × List Nat × List Nat × List (Nat × Nat)) :=
  if s.thermal then none else
  match s.nextGrid l with
  | none => none
  | some k =>
    let g := s.gridAt k
    match (s.queueAt l g.queue).spillsFor g.k.gangs g.k.spill with
    | none => none
    | some (spills, used) =>
      match (s.leafAt l).rotation.find? (fun c => (s.fitCore c k g.k.gangs).isSome) with
      | none => none
      | some c => (s.fitCore c k g.k.gangs).map (fun streams => (k, c, streams, spills, used))

/-- The distributor places the workgroup in turn; nothing happens when none can be placed. -/
def execWorkgroupPlacement (l : Nat) (s : State) : Out :=
  let s := s.settleRamp l
  match s.placement l with
  | none => .next s
  | some (k, c, streams, spills, used) =>
    match s.activate l c with
    | none => .next s
    | some s =>
      let q := (s.gridAt k).queue
      let s := s.setQueue l q { s.queueAt l q with spills := used }
      .next ((s.place k c streams spills).passCore l c)

end Sys2Proof.Machine
end

