-- ==== Sys2Proof/Machine/Preempt.lean ====
section
/-! DEFINITION. Pre-emption and resumption: flashback points, save areas, workgroup records, the grace window
and the slices of a time-sliced leaf (R42, R162 to R165, R276). -/

namespace Sys2Proof.Machine

/-- Run a function with a gang as the current one. -/
def State.asGang {α : Type} (s : State) (k : Nat) (f : State → α) : α := f { s with cur := k }

/-- A change made with a gang as the current one. -/
def State.onGang (s : State) (k : Nat) (f : State → State) : State := { f { s with cur := k } with cur := s.cur }

/-! ### Stopping a gang (R163) -/

/-- Every unperformed write of the current gang performs, oldest first. -/
def State.drainAll : Nat → State → State
  | 0, s => s
  | n + 1, s => if s.gang.stores.isEmpty then s else State.drainAll n s.drainOne

/-- The barrier generation a gang waits for has completed. -/
def State.passedBar (s : State) (g : Gang) : Bool :=
  match g.wait with
  | .bar b gen => decide (gen < ((s.wgAt g.wg).bars.toList.getD b {}).gen)
  | _ => false

/-- The gang waits at a barrier, a wait, an emit or a stall. -/
def State.waiting (s : State) (g : Gang) : Bool :=
  match g.wait with
  | .none => false
  | .bar _ _ => !s.passedBar g
  | _ => true

/-- The gang performs its writes and stops where it stands, to be saved whole (R163). -/
def State.stopWhole (s : State) (k : Nat) : State :=
  let s := s.onGang k (fun s => State.drainAll s.gang.stores.length s)
  let g := s.gangAt k
  if g.st == .live then s.setGangAt k g.stopHere else s

/-- One gang of a pre-empted workgroup is dealt with according to its state (R155, R163). -/
def State.preemptGang (s : State) (k deadline : Nat) : State :=
  let s := rollOldest s k
  let g := s.gangAt k
  if g.st != .live then s
  else if g.trap then s.setGangAt k { g with forward := some deadline }
  else if g.flash.valid then s.setGangAt k (g.stopAtPoint (s.quota g))
  else if s.waiting g then s.stopWhole k
  else s.setGangAt k { g with forward := some deadline }

/-! ### Save areas (R42) -/

/-- A register as a save area holds it, sized by its tag. -/
def VReg.bytes : VReg → List Byte
  | .u b => leBytes 4 b.toNat
  | .a b t => leBytes 4 b.toNat ++ leBytes 4 t.toNat
  | .g e => e.toList.flatMap (fun w => leBytes 4 w.toNat)

/-- The registers a save of a kind holds. -/
def savedRegs (kind save : Nat) : List (Fin 64) :=
  (List.ofFn id).filter (fun i => kind == 0 || bitAt save i.val)

/-- The save area of a stopped gang. -/
def Gang.saveArea (g : Gang) : List Byte :=
  let r := g.r
  let regs := savedRegs g.kind g.flash.save
  let w := fun (x : Word) => leBytes 4 x.toNat
  leBytes 8 r.pc.toNat ++ w r.exec ++ w r.fmt ++ w r.fflags ++ leBytes 4 r.below.length ++ leBytes 4 r.links.length
    ++ leBytes 4 (g.ivl % 2 ^ 16 + if g.kind = 1 && g.flash.valid then 2 ^ 31 else 0)
    ++ w r.fcount0 ++ w r.fcount1 ++ w r.fcount2 ++ w r.wdog ++ leBytes 4 g.kind ++ w r.calllim ++ leBytes 8 0
    ++ r.s.toList.flatMap w ++ leBytes 64 0
    ++ leBytes 16 ((regs.map (fun i => r.win[i].code * 4 ^ i.val)).sum)
    ++ regs.flatMap (fun i => r.win[i].bytes)

/-- The register of a tag and its bytes. -/
def regOf (tag : Nat) (b : List Byte) : VReg :=
  let w := fun (i : Nat) => BitVec.ofNat 32 (leNat ((b.drop (4 * i)).take 4))
  match tag with
  | 0 => .u (w 0)
  | 1 => .a (w 0) (w 1)
  | _ => .g (tab (fun l => w l.val))

def tagSize (tag : Nat) : Nat := match tag with
  | 0 => 4
  | 1 => 8
  | 2 => 128
  | _ => 0

/-- The tag of register `i` in a save area. -/
def areaTag (b : List Byte) (i : Nat) : Nat := fld (leNat ((b.drop 0x100).take 16)) (2 * i) 2

/-- The whole length of an area whose first 0x110 bytes are given. -/
def areaLen (b : List Byte) (save : Nat) : Nat :=
  0x110 + ((savedRegs (leNat ((b.drop 0x30).take 4)) save).map (fun i => tagSize (areaTag b i.val))).sum

/-- The offset of what makes an area bad: its kind, or a saved register with tag code 3. -/
-- DESIGN CHOICE (assumption 74): for a tag, the offset is that of the byte that holds it.
def areaBad (b : List Byte) (save : Nat) : Option Nat :=
  let kind := leNat ((b.drop 0x30).take 4)
  if 1 < kind then some 0x30 else
  ((savedRegs kind save).find? (fun i => areaTag b i.val == 3)).map (fun i => 0x100 + i.val / 4)

/-- The window registers of an area, in order; those it does not hold are U 0 (R164). -/
def areaWin (b : List Byte) (save : Nat) : Vector VReg 64 :=
  let kind := leNat ((b.drop 0x30).take 4)
  let regs := savedRegs kind save
  let r := regs.foldl (fun (acc : Nat × List (Nat × VReg)) i =>
    let t := areaTag b i.val
    (acc.1 + tagSize t, (i.val, regOf t ((b.drop acc.1).take (tagSize t))) :: acc.2)) (0x110, [])
  tab (fun i => ((r.2.find? (fun p => p.1 == i.val)).map (fun p => p.2)).getD (.u 0))

/-- A register of which nothing is known. -/
def freeReg (free : Nat) (i : Fin 64) : VReg := .g (tab (fun l => Config.freeWord (free + 32 * i.val + l.val)))

/-- A stack, top first, made `n` high: its lower part, under entries of which nothing is known. -/
def resized {α : Type} (l : List α) (n : Nat) (unknown : Nat → α) : List α :=
  (List.range (n - l.length)).map unknown ++ l.drop (l.length - n)

/-- The window stack and the link stack, cut or extended to a save area's window base and CDEPTH (R42, R164). -/
-- DESIGN CHOICE (assumption 80): what a gang below a changed window base or CDEPTH finds is not known, and either counts
-- modulo 2^16.
def Regs.restack (r : Regs) (base depth free : Nat) : Regs :=
  { r with
    below := resized r.below (base % 2 ^ 16) (fun i => .u (Config.freeWord (free + i)))
    links := resized r.links (depth % 2 ^ 16) (fun i => {
      ret := (Config.freeWord (free + 2 ^ 16 + i)).setWidth 48, k := (Config.freeWord (free + 2 ^ 17 + i)).toNat % 8 }) }

/-- The gang's registers from its save area. -/
-- DEDUCED (assumption 14): R26 names no resumption among what starts the watchdog's count again, so count and window
-- stay.
def Gang.restoreArea (g : Gang) (b : List Byte) (win : Vector VReg 64) (free : Nat) : Gang :=
  let w := fun (o : Nat) => BitVec.ofNat 32 (leNat ((b.drop o).take 4))
  let r := g.r.restack (w 0x14).toNat (w 0x18).toNat free
  { g with
    ivl := (w 0x1C).toNat % 2 ^ 16
    flash := { g.flash with valid := false }
    spilled := r.below.length / 8
    r := { r with
      pc := BitVec.ofNat 48 (leNat (b.take 6)), exec := w 8 &&& g.launched, fmt := fmtWrite (w 0xC), fflags := fflagsWrite (w 0x10)
      fcount0 := w 0x20, fcount1 := w 0x24, fcount2 := w 0x28, wdog := wdogWrite (w 0x2C)
      calllim := if 1024 < (w 0x34).toNat then 1024 else w 0x34
      s := tab (fun i => w (0x40 + 4 * i.val)), win := win } }

/-! ### Workgroup records (R165) -/

/-- The numbers set in a mask. -/
def maskNums (m : Word) : List Nat := (List.range 32).filter (fun i => bitAt m.toNat i)

/-- Bytes of the record, given the save-area VA of each gang slot. -/
def State.wgRecord (s : State) (w : Nat) (areas : List Nat) : List Byte :=
  let x := s.wgAt w
  let k := (s.gridAt x.grid).k
  let c := s.coreAt x.core
  x.g.toList.flatMap (fun v => leBytes 4 v.toNat)
    ++ x.bars.toList.flatMap (fun b => leBytes 4 b.arrived.toNat ++ leBytes 4 b.gen)
    ++ leBytes 4 x.gangs.length ++ leBytes 4 x.slots.toNat
    ++ leBytes 4 (x.tiles.toNat % 256 + x.badTiles.toNat % 256 * 2 ^ 8 + x.metas.toNat % 256 * 2 ^ 16)
    ++ leBytes 4 k.scratch
    ++ leBytes 8 (match c.actVa with | some v => v % 2 ^ 48 + 2 ^ 63 | none => 0) ++ leBytes 8 0
    ++ (List.range 32).flatMap (fun i => leBytes 8 (areas.getD i 0))
    ++ memBytes x.scr 0 k.scratch
    ++ (maskNums x.slots).flatMap (fun n => memBytes c.slots (4096 * n) 4096)
    ++ (maskNums x.tiles).flatMap (fun n => memBytes c.tiles (16384 * n) 16384)
    ++ (maskNums x.metas).flatMap (fun n => memBytes c.metas (512 * n) 512)

/-- The record's length. -/
def recordLen (scratch : Nat) (x : Wg) : Nat :=
  0x180 + scratch + 4096 * popBits 32 x.slots.toNat + 16384 * popBits 32 x.tiles.toNat + 512 * popBits 32 x.metas.toNat

/-- Addresses of parts laid out one after another, each rounded up to 128 bytes; the end comes last. -/
def layout : Nat → List Nat → List Nat
  | a, [] => [a]
  | a, n :: t => a :: layout (a + roundUp n 128) t

/-- Sparge spills every resident block below the window of a gang (R42); none when a block cannot be. -/
def State.spillBelow (s : State) (k : Nat) : Option State :=
  let g := s.gangAt k
  let js := (List.range (g.r.below.length / 8)).filter (fun j => decide (g.spilled ≤ j))
  if js.any (fun j => decide (g.r.splim.toNat < g.r.spbase.toNat + 1152 * (j + 1))) then none else
  match s.asGang k (fun s => s.spargeAll true js) with
  | .error _ => none
  | .ok t => some { t.setGangAt k { t.gangAt k with spilled := max g.spilled (g.r.below.length / 8) } with cur := s.cur }

/-- A stopped gang that waited at a barrier whose generation has passed is beyond it. -/
def State.settleBar (s : State) (k : Nat) : State :=
  let g := s.gangAt k
  if s.passedBar g then s.setGangAt k (g.advance 4 none) else s

/-- The workgroup is stopped whole and its engine commands have completed. -/
def State.stopped (s : State) (w : Nat) : Bool :=
  let x := s.wgAt w
  x.st == .preempting && !x.killed && x.gangs.any (fun k => (s.gangAt k).st == .saved)
    && x.gangs.all (fun k => let g := s.gangAt k
      g.st == .retired || (g.st == .saved && g.cmds.isEmpty))

/-- The image of a stopped workgroup goes to the save region; an error when no run can take it, or its bytes
cannot be written (R276). -/
-- DESIGN CHOICE (assumption 16): the record comes first in its run, then the save areas by slot.
-- DESIGN CHOICE (assumption 87): the lines of the record and of the save areas bear the queue's ASID.
def State.saveWg (s : State) (w : Nat) : Except (Option AccErr) State :=
  let s := s.settleG w
  let x := s.wgAt w
  let gr := s.gridAt x.grid
  let s := x.gangs.foldl (fun s k => if (s.gangAt k).st == .saved then s.settleBar k else s) s
  match x.gangs.foldlM (fun s k => if (s.gangAt k).st == .saved then s.spillBelow k else some s) s with
  | none => .error none
  | some s =>
    let areas := x.gangs.map (fun k => if (s.gangAt k).st == .saved then (s.gangAt k).saveArea else [])
    let lens := areas.map List.length
    let rlen := recordLen gr.k.scratch x
    let total := ((rlen :: lens).map (fun n => roundUp n 128)).sum
    let q := s.queueAt gr.leaf gr.queue
    match firstFit q.saves (q.savebase.toNat + q.spillpart.toNat) (q.savebase.toNat + q.savesize.toNat) total with
    | none => .error none
    | some va =>
      let at' := layout (va + roundUp rlen 128) lens
      let vas := (areas.zip at').map (fun p => if p.1.isEmpty then 0 else p.2)
      let tag : OwnerTag := { leaf := gr.leaf, asid := some q.asid.toNat }
      let put := fun (s : State) (p : List Byte × Nat) =>
        if p.1.isEmpty then Except.ok s else s.ewrite none tag gr.leaf q.asid.toNat p.2 p.1
      match ((s.wgRecord w vas, va) :: areas.zip vas).foldlM put s with
      | .error e => .error (some e)
      | .ok s =>
        let s := s.setQueue gr.leaf gr.queue { s.queueAt gr.leaf gr.queue with saves := q.saves ++ [(va, total)] }
        let s := s.leaveCore w
        let s := x.gangs.foldl (fun s k => s.setGangAt k ((s.gangAt k).unwait .none)) s
        .ok (s.setWgAt w { s.wgAt w with st := .saved, recVa := va, recLen := total, hold := .none })

/-- How many workgroups of a queue are resident. -/
def State.residentOf (s : State) (l q : Nat) : Nat :=
  (s.wgs.filter (fun p => (p.2.st == .live || p.2.st == .preempting)
    && (s.gridAt p.2.grid).leaf == l && (s.gridAt p.2.grid).queue == q)).length

/-- The pre-emption of a workgroup is refused: it runs on, a gang at its flashback point from there with the registers
it had, and the queue gets a record with cause 5, one for those refused together (R276). -/
def State.refuseWg (s : State) (w : Nat) : State :=
  let x := s.wgAt w
  let gr := s.gridAt x.grid
  let f := s.leafAt gr.leaf
  let told := f.refused.any (fun v => (s.wgAt v).st != .retired && (s.gridAt (s.wgAt v).grid).queue == gr.queue)
  let s := if told then s else s.queueRecord gr.leaf gr.queue 5 (s.residentOf gr.leaf gr.queue)
  let s := s.setLeafAt gr.leaf { s.leafAt gr.leaf with refused := f.refused ++ [w] }
  let s := x.gangs.foldl (fun s k =>
    let g := s.gangAt k
    if g.st == .saved then
      let g := { g with st := .live, forward := none }
      s.setGangAt k (if g.kind = 1 then g.reenter else g) else s) s
  s.setWgAt w { s.wgAt w with st := .live, hold := .none }

/-- A stopped workgroup leaves its core, waits for a page of its save region, or is refused. -/
def State.tryFinish (s : State) (w : Nat) : State :=
  if s.stopped w then (match s.saveWg w with
    | .ok s => s
    | .error e =>
      let x := s.wgAt w
      match e.bind (fun e => (e.next x.hold s.now).map (fun h => (e, h))) with
      | some (e, h) => (s.setWgAt w { x with hold := h }).askOnce (s.gridAt x.grid).leaf x.hold e
      | none => s.refuseWg w)
  else s

/-- Reference cycles of a time in microseconds: CLK counts a fixed 2.7 GHz at every core clock (R302). -/
def cycles (us : Nat) : Nat := us * 2700

/-- Pre-empt a workgroup (R163). -/
def State.preemptWg (s : State) (w : Nat) : State :=
  let x := s.wgAt w
  if x.st != .live || x.killed then s else
  let deadline := s.now + cycles (s.leafAt (s.gridAt x.grid).leaf).part.grace
  let s := s.setWgAt w { x with st := .preempting }
  let s := x.gangs.foldl (fun s k => s.preemptGang k deadline) s
  s.tryFinish w

/-! ### Slices (R276) -/

/-- The tenants of a leaf that have work, by ASID, ascending. -/
def State.tenants (s : State) (l : Nat) : List Nat :=
  let f := s.leafAt l
  let qs := (f.queues.filter (fun p => p.2.en && !p.2.halt && (p.2.cons != p.2.p || p.2.run != .none))).map
    (fun p => p.2.asid.toNat)
  let gs := (s.grids.filter (fun p => p.2.live && p.2.leaf == l)).map (fun p => s.tenantOf p.2)
  ascending (qs ++ gs).eraseDups

/-- The workgroups of the tenant in turn that are on a core. -/
def State.tenantWgs (s : State) (l : Nat) : List Nat :=
  (s.wgs.filter (fun p => (p.2.st == .live || p.2.st == .preempting) && (s.gridAt p.2.grid).leaf == l
    && s.tenantOf (s.gridAt p.2.grid) == (s.leafAt l).tenant)).map (fun p => p.1)

/-- The slice is over: its time has run out and no refused workgroup runs on, or its tenant has no work. -/
def State.sliceOver (s : State) (l : Nat) : Bool :=
  let f := s.leafAt l
  (decide (f.sliceEnd ≤ s.now) && f.refused.all (fun w => (s.wgAt w).st == .retired))
    || !(s.tenants l).contains f.tenant

/-- The next tenant's slice begins; a partition record that waited for a slice boundary takes effect (R293). -/
def State.nextSlice (s : State) (l : Nat) : State :=
  let f := s.leafAt l
  let f := { f with part := f.nextPart.getD f.part, nextPart := none }
  let ts := s.tenants l
  match (ts.find? (fun a => decide (f.tenant < a))).or ts.head? with
  | none => s.setLeafAt l f
  | some a => s.setLeafAt l { f with tenant := a, sliceEnd := s.now + cycles f.part.slice, refused := [] }

/-- A slice ends: the tenant's workgroups are pre-empted, and when they have left, the next slice begins; one whose last
gang has stopped since leaves as well while the slice is extended. -/
def execSliceEnd (l : Nat) (s : State) : Out :=
  if (s.leafAt l).live && (s.leafAt l).part.sliced then
    let s := (s.tenantWgs l).foldl (fun s w => s.tryFinish w) s
    if !s.sliceOver l then .next s else
    let s := (s.tenantWgs l).foldl (fun s w => s.preemptWg w) s
    if (s.tenantWgs l).isEmpty then .next (s.nextSlice l) else .next s
  else .next s

/-- The grace window of a gang runs out: it is saved whole; at trap class the original fault goes to
containment first, as if there were no handler (R155, R163). -/
-- DESIGN CHOICE (assumption 93): a gang that runs its recipe, at trap class with no original fault, runs on past the
-- window to the recipe's `ctl.ivl`.
def execGraceWindowExpiry (k : Nat) (s : State) : Out :=
  let g := s.gangAt k
  match g.forward with
  | none => .next s
  | some d =>
    if s.now < d || g.st != .live || g.recipe.isSome then .next s else
    let s := rollOldest s k
    let s := if (s.gangAt k).trap then
        s.onGang k (fun s => s.contain s.gang.fault 0 (faultClass s.gang.fault.code)) else s
    .next ((s.stopWhole k).tryFinish g.wg)

/-! ### Resumption (R164, R165) -/

/-- The offset of the first reserved field of a record that is not zero. -/
-- DESIGN CHOICE (assumption 74): for the byte 0x6B it is that of the field it ends, 0x68.
def recordBad (b : List Byte) : Option Nat :=
  let f := fun (o n : Nat) => leNat ((b.drop o).take n)
  if f 0x6B 1 ≠ 0 then some 0x68
  else if fld (f 0x70 8) 48 15 ≠ 0 then some 0x70
  else if f 0x78 8 ≠ 0 then some 0x78 else none

/-- The numbers a record names are free on a core (R249). -/
def CoreSt.freeFor (c : CoreSt) (slots tiles metas : Word) : Bool :=
  (maskNums slots).all (fun n => !thas c.slotOwner n) && (maskNums tiles).all (fun n => !thas c.tileOwner n)
    && (maskNums metas).all (fun n => !thas c.metaOwner n)

/-- The bank that is not current takes the bytes and becomes current (R262). -/
def CoreSt.loadAct (c : CoreSt) (src : Nat) (b : List Byte) : CoreSt :=
  let m := memPut [] 0 b
  if c.bank then { c with bank0 := m, bank := false, actVa := some src } else { c with bank1 := m, bank := true, actVa := some src }

/-- Contents put back by number, in ascending order, from a list of bytes; what is left of it. -/
def putNums (unit : Nat) : List Nat → List Byte → List Host.Cell → List Host.Cell × List Byte
  | [], b, m => (m, b)
  | n :: t, b, m => putNums unit t (b.drop unit) (memPut (memClear m (unit * n) unit) (unit * n) (b.take unit))

/-- Workgroup and core as a record gives them. -/
-- DESIGN CHOICE (assumption 81): arrivals that count toward a barrier's next generation have no place in the record and
-- are kept.
def State.restoreRecord (s : State) (w core : Nat) (b : List Byte) : State :=
  let f := fun (o n : Nat) => leNat ((b.drop o).take n)
  let x := s.wgAt w
  let slots : Word := BitVec.ofNat 32 (f 0x64 4)
  let tiles : Word := BitVec.ofNat 32 (f 0x68 1)
  let metas : Word := BitVec.ofNat 32 (f 0x6A 1)
  let scratch := (s.gridAt x.grid).k.scratch
  let own := fun (t : Tab Nat) (m : Word) => (maskNums m).foldl (fun t n => tput t n w) t
  let c := s.coreAt core
  let r0 := (b.drop 0x180)
  let r1 := putNums 4096 (maskNums slots) (r0.drop scratch) c.slots
  let r2 := putNums 16384 (maskNums tiles) r1.2 c.tiles
  let r3 := putNums 512 (maskNums metas) r2.2 c.metas
  let s := s.setCoreAt core { c with
    wgs := c.wgs ++ [w], slotOwner := own c.slotOwner slots, tileOwner := own c.tileOwner tiles
    metaOwner := own c.metaOwner metas, slots := r1.1, tiles := r2.1, metas := r3.1 }
  s.setWgAt w { x with
    st := .live, core := core, hold := .none, g := tab (fun i => BitVec.ofNat 32 (f (4 * i.val) 4))
    bars := tab (fun i => {
      arrived := BitVec.ofNat 32 (f (0x40 + 8 * i.val) 4), next := x.bars[i].next, gen := f (0x44 + 8 * i.val) 4 })
    slots := slots, tiles := tiles, badTiles := BitVec.ofNat 32 (f 0x69 1), metas := metas
    scr := memPut [] 0 (r0.take scratch) }

/-- The activation bank that a record names: its VA and its bytes, if it names one (R165). -/
def State.recordedAct (s : State) (l a : Nat) (b : List Byte) : Except AccErr (Option (Nat × List Byte)) :=
  let v := leNat ((b.drop 0x70).take 8)
  if !bitAt v 63 then .ok none else (s.eread l a (v % 2 ^ 48) 4096).map (fun d => some (v % 2 ^ 48, d))

/-- The core reloads its current bank (R165). -/
def State.reloadAct (s : State) (core : Nat) (act : Option (Nat × List Byte)) : State :=
  match act with
  | some (v, d) => s.setCoreAt core ((s.coreAt core).loadAct v d)
  | none => s

/-- ILLOP in a gang at resumption (R42, R165). -/
def State.resumeIllop (s : State) (k off : Nat) : State :=
  s.onGang k (fun s => s.takeTrap { s.faultAt 0 tcILLOP 0 0 off with resume := s.r.pc })

/-- The barrier generation that a gang of a resumed workgroup waits for. -/
def Wg.barOf (x : Wg) (slot : Nat) : Option (Nat × Nat) :=
  ((List.range 4).find? (fun i => bitAt (x.bars.toList.getD i {}).arrived.toNat slot)).map (fun i =>
    let b := x.bars.toList.getD i {}
    (i, b.gen + if bitAt b.next.toNat slot then 1 else 0))

/-- One gang resumes from its save area's bytes: one saved at a flashback point runs its interval's recipe, if there is
one (R164).  `bad` is the offset of a reserved field of the workgroup record, which is ILLOP in gang 0 (R165). -/
-- DESIGN CHOICE (assumption 92): after such an ILLOP no recipe runs; when gang 0 has retired, no gang has it.
def State.resumeGang (s : State) (bad : Option Nat) (k stream : Nat) (b : List Byte) : State :=
  let g := s.gangAt k
  let back := fun (win : Vector VReg 64) =>
    { g.restoreArea b win s.free with st := .live, stream := stream, readySince := s.clk.core }
  let s' := { s with free := s.free + 2 ^ 18 }
  match areaBad b g.flash.save with
  | some off => (s'.setGangAt k (back (tab (freeReg (s.free + 2 ^ 17 + 2 ^ 16))))).resumeIllop k off
  | none =>
    let h := back (areaWin b g.flash.save)
    match if g.slot = 0 then bad else none with
    | some off => (s'.setGangAt k h).resumeIllop k off
    | none => s'.setGangAt k (match leNat ((b.drop 0x30).take 4) with
      | 0 => (match (s.wgAt g.wg).barOf g.slot with
        | some (i, gen) => { h with wait := .bar i gen }
        | none => h)
      | _ => if h.flash.recipe = 0 then h else h.startRecipe (s.gridAt (s.wgAt g.wg).grid).k.recipeVa h.flash.recipe)

/-- The bytes of a save area. -/
def State.readArea (s : State) (l a va save : Nat) : Except AccErr (List Byte) := do
  let h ← s.eread l a va 0x110
  s.eread l a va (areaLen h save)

/-- The gangs of a workgroup that have not retired. -/
def State.unretired (s : State) (w : Nat) : List Nat := (s.wgAt w).gangs.filter (fun k => (s.gangAt k).st != .retired)

/-- The image of a saved workgroup: its record and the save areas of its gangs. -/
def State.image (s : State) (w : Nat) : Except AccErr (List Byte × List (List Byte)) := do
  let x := s.wgAt w
  let gr := s.gridAt x.grid
  let a := (s.queueAt gr.leaf gr.queue).asid.toNat
  let h ← s.eread gr.leaf a x.recVa 0x180
  let m := fun (o n : Nat) => popBits 32 (leNat ((h.drop o).take n))
  let b ← s.eread gr.leaf a x.recVa (0x180 + gr.k.scratch + 4096 * m 0x64 4 + 16384 * m 0x68 1 + 512 * m 0x6A 1)
  let areas ← (s.unretired w).mapM (fun k =>
    s.readArea gr.leaf a (leNat ((h.drop (0x80 + 8 * (s.gangAt k).slot)).take 8) % 2 ^ 48) (s.gangAt k).flash.save)
  pure (b, areas)

/-- The image of a saved workgroup with the activation bank that its record names; a bank whose page cannot be had any
more is not reloaded. -/
-- DESIGN CHOICE (assumption 92): a bank whose read fails stays as the core has it.
def State.imageAct (s : State) (w : Nat) : Except AccErr ((List Byte × List (List Byte)) × Option (Nat × List Byte)) := do
  let x := s.wgAt w
  let gr := s.gridAt x.grid
  let i ← s.image w
  match s.recordedAct gr.leaf (s.queueAt gr.leaf gr.queue).asid.toNat i.1 with
  | .ok act => pure (i, act)
  | .error e => if (e.next x.hold s.now).isSome then throw e else pure (i, none)

/-- A saved workgroup resumes on a core that fits it (R164, R165); nothing happens while none does, its tenant
has no slice, or its image cannot be read, for whose pages it asks. -/
def execWorkgroupResume (w : Nat) (s : State) : Out :=
  let x := s.wgAt w
  let gr := s.gridAt x.grid
  let q := s.queueAt gr.leaf gr.queue
  if x.st != .saved || s.thermal || !s.inSlice gr then .next s else
  let open' := s.unretired w
  match s.imageAct w with
  | .error e =>
    if e.waits && !x.hold.holds e then .next ((s.setWgAt w { x with hold := e.hold s.now }).ask gr.leaf e) else .next s
  | .ok ((b, areas), act) =>
    let f := fun (o n : Nat) => BitVec.ofNat 32 (leNat ((b.drop o).take n))
    let s := s.settleRamp gr.leaf
    let fits := fun (c : Nat) => (s.coreAt c).freeFor (f 0x64 4) (f 0x68 1) (f 0x6A 1)
      && (s.fitCore c x.grid open'.length).isSome
    match (s.leafAt gr.leaf).rotation.find? fits with
    | none => .next s
    | some c =>
      match s.activate gr.leaf c, s.fitCore c x.grid open'.length with
      | some s, some streams =>
        let s := (s.restoreRecord w c b).passCore gr.leaf c
        let s := s.reloadAct c act
        let s := s.setQueue gr.leaf gr.queue { s.queueAt gr.leaf gr.queue with
          saves := q.saves.filter (fun p => p != (x.recVa, x.recLen)) }
        .next ((open'.zip (streams.zip areas)).foldl (fun s p =>
          -- a kill that an earlier gang's ILLOP brought stops every gang (R158)
          if (s.wgAt w).killed then s else s.resumeGang (recordBad b) p.1 p.2.1 p.2.2) s)
      | _, _ => .next s

end Sys2Proof.Machine
end

