-- ==== Sys2Proof/Machine/EngineEvents.lean ====
section
/-! DEFINITION. The runs of the engine commands outside the array, and the events by which commands complete
or fail (R52, R55, R63, R223, R247, R256 to R262). -/

namespace Sys2Proof.Machine

/-! ### Scratchpad and memory, as an engine reaches them -/

/-- The engine's context: the gang, its workgroup, leaf and ASID. -/
structure EngCtx where
  gang : Nat
  wg : Nat
  leaf : Nat
  asid : Nat
  core : Nat

def State.engCtx (s : State) (k : Nat) : EngCtx :=
  let g := s.gangAt k
  let x := s.wgAt g.wg
  { gang := k, wg := g.wg, leaf := (s.gridAt x.grid).leaf, asid := g.asid, core := x.core }

def EngCtx.tag (e : EngCtx) : OwnerTag := { leaf := e.leaf, asid := some e.asid }

/-- Read from the scratchpad or from device memory. -/
def EngCtx.read (e : EngCtx) (s : State) (glb : Bool) (a n : Nat) : Except AccErr (List Byte) :=
  if glb then s.eread e.leaf e.asid a n (some e.gang)
  else if s.scrBad e.wg a n then .error (.trap tcDATALOSS a 0)
  else .ok (memBytes (s.wgAt e.wg).scr a n)

/-- Write to the scratchpad or to device memory. -/
def EngCtx.write (e : EngCtx) (s : State) (glb : Bool) (a : Nat) (b : List Byte) : Except AccErr State :=
  if glb then s.ewrite none e.tag e.leaf e.asid a b (some e.gang) else .ok ((s.writeScr none e.wg a b).healScr e.wg [(a, b.length)])

/-- Copy piece by piece, each written after it is read, a piece ending where a destination page ends (R260).
The first argument bounds the pieces. -/
def copyUnits (e : EngCtx) (dg sg : Bool) : Nat → State → Nat → Nat → Nat → State × Option AccErr
  | 0, s, _, _, _ => (s, none)
  | f + 1, s, dst, src, n =>
    if n = 0 then (s, none) else
    let k := min n (4096 - dst % 4096)
    match e.read s sg src k with
    | .error x => (s, some x)
    | .ok b => match e.write s dg dst b with
      | .error x => (s, some x)
      | .ok s => copyUnits e dg sg f s ((dst + k) % 2 ^ 48) ((src + k) % 2 ^ 48) (n - k)

def qCopy (r : State × Option AccErr) : QRes :=
  match r.2 with
  | none => .done r.1 []
  | some x => qErr r.1 0xFF x

/-! ### mx.zero and mx.st (R256, R257) -/

def State.runZero (s : State) (e : EngCtx) (t : Nat) : QRes :=
  let cs := s.coreAt e.core
  let x := s.wgAt e.wg
  let s := s.setCoreAt e.core { cs with tiles := memClear cs.tiles (16384 * t) 16384 }
  .done (s.setWgAt e.wg { x with badTiles := x.badTiles &&& ~~~(BitVec.ofNat 32 (2 ^ t)) }) []

/-- One tile word converted to the output format (R257). -/
def stElem (out : Elem) (int : Bool) (rm : Nat) (w : Word) : Nat × Nat :=
  if int then
    match out with
    | .int lo hi b =>
      if b = 32 then (w.toNat, 0) else
      let v := w.toInt
      let c := if v < lo then lo else if hi < v then hi else v
      (wrapInt b c, if c = v then 0 else evOF)
    | _ => (w.toNat, 0)
  else match out with
    | .fp32 => (w.toNat, 0)
    | o => encodeElem o rm (ofF32 w)

/-- Elements packed little-endian (R43). -/
def packElems (w : Nat) : List Nat → Nat
  | [] => 0
  | x :: t => x % 2 ^ w + 2 ^ w * packElems w t

def State.runSt (s : State) (e : EngCtx) (fmt : CmdFmt) (t : Nat) (glb int : Bool) (base pitch : Nat) : QRes :=
  if bitAt (s.wgAt e.wg).badTiles.toNat t then .fail s { cause := 4, tile := t } else
  let out := (elemOf fmt.out).getD .fp32
  let w := out.width
  let at' := fun (i : Nat) => if glb then (base + i * pitch) % 2 ^ 48 else base + i * pitch
  let step := fun (acc : State × List Nat × Nat × Option AccErr) (i : Nat) =>
    match acc.2.2.2 with
    | some _ => acc
    | none =>
      let row := ((acc.1.coreAt e.core).tileRow t i).map (stElem out int fmt.rm)
      match e.write acc.1 glb (at' i) (leBytes (8 * w) (packElems w (row.map (fun p => p.1)))) with
      | .error x => (acc.1, acc.2.1, i, some x)
      | .ok s => (s, row.foldl (fun l p => addEv 1 p.2 l) acc.2.1, i + 1, none)
  let r := (List.range 64).foldl step (s, [0, 0, 0, 0, 0, 0], 0, none)
  -- lines that the rows stored have filled, also before a run failure (R109)
  let rows := (List.range r.2.2.1).map (fun i => (at' i, 8 * w))
  let s := if glb then r.1.healLines (fun va => r.1.exlate e.leaf e.asid true va (some e.gang)) e.tag rows
    else r.1.healScr e.wg rows
  match r.2.2.2 with
  | none => .done s r.2.1
  | some x => qErr s t x

/-! ### Slot, metadata and activation loads (R261, R262) -/

/-- Rows and bytes of a shape. -/
def shapeOf (sh : Nat) : Nat × Nat := match sh with
  | 0 => (64, 64)
  | 1 => (32, 128)
  | _ => (128, 32)

/-- Put bytes into a slot of the core. -/
def State.putSlot (s : State) (core slot off : Nat) (b : List Byte) : State :=
  let cs := s.coreAt core
  s.setCoreAt core { cs with slots := memPut cs.slots (4096 * slot + off) b }

/-- Load the rows of a slot from the addresses given, in order. -/
def loadRows (e : EngCtx) (glb : Bool) (slot bytes : Nat) : List (Nat × Nat) → State → State × Option AccErr
  | [], s => (s, none)
  | (i, a) :: t, s => match e.read s glb a bytes with
    | .error x => (s, some x)
    | .ok b => loadRows e glb slot bytes t (s.putSlot e.core slot (i * bytes) b)

def State.runSlot (s : State) (e : EngCtx) (slot : Nat) (glb : Bool) (src pitch sh : Nat) : QRes :=
  let p := shapeOf sh
  qCopy (loadRows e glb slot p.2 ((List.range p.1).map (fun i => (i, (src + i * pitch) % 2 ^ (if glb then 48 else 32)))) s)

def State.runGat (s : State) (e : EngCtx) (slot off n sh : Nat) : QRes :=
  let p := shapeOf sh
  let entry := fun (i : Nat) => memNat (s.wgAt e.wg).scr (off + 8 * i) 8
  -- rows before the first ill-formed entry are loaded (R247)
  let good := (List.range n).takeWhile (fun i => entry i % 32 == 0 && entry i / 2 ^ 48 == 0)
  if s.scrBad e.wg off (8 * n) then qErr s 0xFF (.trap tcDATALOSS off 0) else
  match loadRows e true slot p.2 (good.map (fun i => (i, entry i))) s with
  | (s, some x) => qErr s 0xFF x
  | (s, none) =>
    if good.length < n then .fail s { cause := 3 }
    else
      let cs := s.coreAt e.core
      .done (s.setCoreAt e.core { cs with slots := memClear cs.slots (4096 * slot + n * p.2) ((p.1 - n) * p.2) }) []

def State.runMeta (s : State) (e : EngCtx) (slot : Nat) (glb : Bool) (src : Nat) : QRes :=
  match e.read s glb src 512 with
  | .error x => qErr s 0xFF x
  | .ok b =>
    let cs := s.coreAt e.core
    .done (s.setCoreAt e.core { cs with metas := memPut cs.metas (512 * slot) b }) []

def State.runAct (s : State) (e : EngCtx) (src : Nat) : QRes :=
  match e.read s true src 4096 with
  | .error x => qErr s 0xFF x
  | .ok b => .done (s.setCoreAt e.core ((s.coreAt e.core).loadAct src b)) []

/-- An older started `cp.act` of the core has not flipped its bank yet (R262). -/
def State.actHeld (s : State) (core id : Nat) : Bool :=
  s.gangs.any (fun p => (s.wgAt p.2.wg).core == core && p.2.cmds.any (fun c => (match c.op, c.st with
    | .act _, .started => true
    | _, _ => false) && decide (c.id < id)))

/-! ### Completion and failure -/

/-- Run a started command that does not run in the array. -/
def State.runCmd (s : State) (k : Nat) (c : Cmd) : QRes :=
  let e := s.engCtx k
  match c.op with
  | .zero t => s.runZero e t
  | .st t glb int base pitch => s.runSt e c.fmt t glb int base pitch
  | .g2s d a n => qCopy (copyUnits e false true (n / 4096 + 2) s d a n)
  | .s2g d a n => qCopy (copyUnits e true false (n / 4096 + 2) s d a n)
  | .g2g d a n => qCopy (copyUnits e true true (n / 4096 + 2) s d a n)
  | .slot slot glb src pitch sh => s.runSlot e slot glb src pitch sh
  | .gat slot off n sh => s.runGat e slot off n sh
  | .metaLd slot glb src => s.runMeta e slot glb src
  | .act src => s.runAct e src
  | .mma _ _ _ _ _ _ _ _ => .wait
  | .mmg _ _ _ _ _ => .wait
  | .commit _ _ _ => .done s []

/-- A tile command waits for every older command of the gang on the tile (R257). -/
def Gang.tileBusy (g : Gang) (c : Cmd) : Bool :=
  c.op.tile != 0xFF && g.cmds.any (fun x => decide (x.seq < c.seq) && x.op.tile == c.op.tile
    && (match x.st with | .ran => false | .failed _ => false | _ => true))

/-- How a command stands: it runs now, its run is over, or it waits. -/
def State.tryCmd (s : State) (k : Nat) (c : Cmd) : QRes :=
  match c.st with
  | .pending => .wait
  | .ran => .done s c.ev
  | .failed f => .fail s f
  | .started =>
    if c.op.inArray || (s.gangAt k).tileBusy c then .wait
    else if (match c.op with | .act _ => s.actHeld (s.wgAt (s.gangAt k).wg).core c.id | _ => false) then .wait
    else c.settle s (s.runCmd k c)

/-- A started command whose events are all performed completes (R63), and one whose access must wait asks for what it
lacks; a workgroup that waited for it to be
saved may leave its core (R163). -/
def execEngineOperationComplete (k id : Nat) (s : State) : Out :=
  match (s.gangAt k).cmdAt id with
  | none => .next s
  | some c => match s.tryCmd k c with
    | .done s ev => .next ((s.completeCmd k c ev).tryFinish (s.gangAt k).wg)
    | .access e => .next (s.holdCmd k c e)
    | .hole pa => .fault (.noSuchMemory pa)
    | _ => .next s

/-- A running command fails (R247). -/
def execRunFailure (k id : Nat) (s : State) : Out :=
  match (s.gangAt k).cmdAt id with
  | none => .next s
  | some c => match s.tryCmd k c with
    | .fail s f => .next ((s.failCmd k c f).tryFinish (s.gangAt k).wg)
    | .hole pa => .fault (.noSuchMemory pa)
    | _ => .next s

end Sys2Proof.Machine
end

