-- ==== Sys2Proof/Machine/Matrix.lean ====
section
/-! DEFINITION. The matrix instructions mx (R244 to R257). -/

namespace Sys2Proof.Machine

/-! ### Operands of engine words (R244, R245) -/

/-- The segment of global operands, from an EXT when one precedes (R245). -/
def State.engSeg (s : State) : Option Nat :=
  match s.gang.ext with
  | none => some s.seg
  | some p => if p.toNat / 2 ^ 16 = 0 then some (p.toNat % 2 ^ 16) else none

/-- A global operand's VA, or ILLOP for an EXT with reserved bits. -/
def State.withSeg (s : State) (k : Nat → Out) : Out :=
  match s.engSeg with
  | none => s.illop 4 true
  | some g => k (g * 2 ^ 32)

def State.n (s : State) (i : BitVec 5) : Nat := (s.r.sreg i).toNat

/-- The workgroup holds a number of a kind (R249). -/
def Wg.holds (x : Wg) (kind n : Nat) : Bool :=
  match kind with
  | 0 => bitAt x.slots.toNat n && decide (n < 32)
  | 1 => bitAt x.tiles.toNat n && decide (n < 8)
  | _ => bitAt x.metas.toNat n && decide (n < 8)

/-- Another gang of the workgroup has started the release of a number: a later command finds it no longer held
(R250). -/
def State.leaving (s : State) (p : Nat × Nat) : Bool :=
  s.wg.gangs.any (fun k => k != s.cur && (s.gangAt k).releasing == some p)

/-- A release of the gang stands in the pending list: what it holds is known once that is over (R250). -/
def Gang.mayRelease (g : Gang) : Bool := g.stores.any (fun w => match w.space with
  | .cmd (.mxRel _ _) _ => true
  | _ => false)

/-- Every number of a list, by kind, is held; the first that is not raises SLOT (R249). -/
def State.held (s : State) (names : List (Nat × Nat)) (k : Out) : Out :=
  if s.gang.mayRelease then s.stall else
  match names.find? (fun p => !s.wg.holds p.1 p.2 || s.leaving p) with
  | some p => s.raise 4 tcSLOT 0 0 (p.2 + 256 * p.1)
  | none => k

/-- Bits a packing leaves undefined must be 0 (R244). -/
def State.packed (s : State) (copy : Bool) (tile : Nat) (ws : List (Nat × Nat)) (k : Out) : Out :=
  if ws.any (fun p => Nat.land p.1 p.2 != p.1) then s.engIll copy tile else k

/-- A scratchpad range beyond `.scratch` raises XLATE with cause 1 (R75, R247). -/
def State.scrRange (s : State) (off n : Nat) (k : Out) : Out :=
  if s.grid.k.scratch < off + n then s.raise 4 tcXLATE 0 off 0xF1 else k

/-! ### Quarters of the mask (R252) -/

def quarterMask (e : Word) (q : Nat) : Nat := fld e.toNat (8 * q) 8
/-- The quarters with an active lane. -/
def startedQ (e : Word) : Nat := ((List.range 4).map (fun q => if quarterMask e q = 0 then 0 else 2 ^ q)).sum
/-- The partially active quarters. -/
def partials (e : Word) : List Nat := (List.range 4).filter (fun q => quarterMask e q != 0 && quarterMask e q != 255)

/-- MASKQ when a quarter is partly active. -/
def State.maskq (s : State) (k : Out) : Out :=
  let e := s.r.exec
  let ps := partials e
  if ps.isEmpty then k else
  s.raise 4 tcMASKQ (BitVec.ofNat 32 ((ps.map (fun q => quarterMask e q * 2 ^ (8 * q))).sum)) 0 ((ps.map (fun q => 2 ^ q)).sum)

/-- The format pair is one the array accepts (R251). -/
def State.pairs (s : State) (k : Out) : Out := if pairOk s.r.fea s.r.feb then k else s.illop 4 false

/-! ### Claims (R249, R250) -/

/-- The owner table of a kind and how many numbers it has. -/
def CoreSt.owners (c : CoreSt) (kind : Nat) : Tab Nat × Nat :=
  match kind with
  | 0 => (c.slotOwner, 32)
  | 1 => (c.tileOwner, 8)
  | _ => (c.metaOwner, 8)

def CoreSt.setOwners (c : CoreSt) (kind : Nat) (t : Tab Nat) : CoreSt :=
  match kind with
  | 0 => { c with slotOwner := t }
  | 1 => { c with tileOwner := t }
  | _ => { c with metaOwner := t }

/-- The lowest free number of a kind. -/
def CoreSt.lowestFree (c : CoreSt) (kind : Nat) : Option Nat :=
  let t := c.owners kind
  (List.range t.2).find? (fun n => !thas t.1 n)

/-- The number's contents read as zero (R250). -/
def CoreSt.zero (c : CoreSt) (kind n : Nat) : CoreSt :=
  match kind with
  | 0 => { c with slots := memClear c.slots (4096 * n) 4096 }
  | 1 => { c with tiles := memClear c.tiles (16384 * n) 16384 }
  | _ => { c with metas := memClear c.metas (512 * n) 512 }

/-- The workgroup's held mask of a kind changed. -/
def Wg.mark (x : Wg) (kind n : Nat) (on : Bool) : Wg :=
  let b : Word := BitVec.ofNat 32 (2 ^ n)
  let f := fun (w : Word) => if on then w ||| b else w &&& ~~~b
  match kind with
  | 0 => { x with slots := f x.slots }
  | 1 => { x with tiles := f x.tiles, badTiles := x.badTiles &&& ~~~b }
  | _ => { x with metas := f x.metas }

/-- When the gang's claim of a kind arrived at the core: now, unless it waits there. -/
def State.claimSince (s : State) (kind : Nat) : Nat :=
  match s.gang.wait with
  | .claim j t => if j = kind then t else s.clk.core
  | _ => s.clk.core

/-- A claim of the kind on the same core arrived earlier and waits: in an earlier cycle, or in the same on a lower stream
or slot (R250). -/
def State.claimAhead (s : State) (kind : Nat) : Bool :=
  let seat := fun (k : Nat) => (s.gangAt k).stream * 32 + (s.gangAt k).slot
  let t := s.claimSince kind
  s.gangKeys.any (fun j => j != s.cur && (s.gangAt j).st == .live && (s.wgAt (s.gangAt j).wg).core == s.wg.core
    && (match (s.gangAt j).wait with
      | .claim k u => k == kind && (decide (u < t) || (u == t && decide (seat j < seat s.cur)))
      | _ => false))

/-- A claim is granted: the lowest free number goes to the workgroup and to sA. -/
def State.grantClaim (s : State) (a : BitVec 5) (kind n : Nat) : Out :=
  let c := s.core
  let c := (c.setOwners kind (tput (c.owners kind).1 n s.gang.wg)).zero kind n
  let s := (s.setCore c).setWg (s.wg.mark kind n true)
  let s := s.setGang s.gang.wrote
  (s.setR (s.r.setS a (BitVec.ofNat 32 n))).retire

def execMxClaim (a : BitVec 5) (kind : BitVec 2) (s : State) : Out :=
  s.noExt (
    let k := kind.toNat
    if k = 3 then s.illop 4 false else
    if k = 0 && decide (s.grid.k.slots ≤ popBits 32 s.wg.slots.toNat) then s.raise 4 tcSLOT 0 0 0xFF else
    let wait := (s.setGang s.gang.wrote).stallAs (.claim k (s.claimSince k))
    s.withEng false (
      s.sync (.mxClaim a kind) (match s.core.lowestFree k with
        | some n => if s.claimAhead k then wait else s.grantClaim a k n
        | none => wait)))

/-- A command of the workgroup that has not completed names the number (R250). -/
def State.inUse (s : State) (kind n : Nat) : Bool :=
  s.wg.gangs.any (fun k => (s.gangAt k).cmds.any (fun c => (c.op.names c.fmt).contains (kind, n)))

def execMxRel (a : BitVec 5) (kind : BitVec 2) (s : State) : Out :=
  s.noExt (
    let k := kind.toNat
    if k = 3 then s.illop 4 false else
    let n := s.n a % 256
    s.held [(k, n)] (s.withEng false (s.packed false (if k = 1 then n else 0xFF) [(s.n a, 0xFF)] (
      s.sync (.mxRel a kind) (if s.inUse k n then (s.setGang { s.gang.wrote with releasing := some (k, n) }).stallAs .unit
      else
        let c := s.core
        let s := (s.setCore (c.setOwners k (tdel (c.owners k).1 n))).setWg (s.wg.mark k n false)
        let s := s.setGang { s.gang with releasing := none }
        s.synced s.r)))))

/-! ### Tile and quarter operations -/

def execMxZero (a : BitVec 5) (p : BitVec 1) (s : State) : Out :=
  s.noExt (
    let t := s.n a % 8
    s.held [(1, t)] (s.withEng false (s.packed false t [(s.n a, 7)] (s.issue false (p == 1) (.zero t)))))

/-- A quarter operation: checks of names, mask, packing and range, then its command (R252, R253).  `m` is the
first metadata slot and `o` the scale offset; `mask` the bits sA and sC define. -/
def State.mma (s : State) (fn : Nat) (a b c : BitVec 5) (p : BitVec 1) (maskA maskC : Nat) : Out :=
  s.noExt (s.pairs (
    if s.r.exec = 0 then s.withEng false s.retire else
    let t := s.n a % 8
    let m := if fn = 4 then fld (s.n a) 8 3 else 0
    let o := if fn = 5 then fld (s.n a) 8 14 * 16 else 0
    let op : CmdOp := .mma fn (startedQ s.r.exec) t (s.n b % 32) (s.n c % 32) (if fn = 4 then fld (s.n c) 8 5 else 0) m o
    let unit := match s.r.fea with
      | 1 => 1
      | 2 => 1
      | 5 => 4
      | 8 => 4
      | 9 => 4
      | _ => 2
    s.held (op.names s.r.cmdFmt) (s.maskq (s.withEng false (
      s.packed false t [(s.n a, maskA), (s.n b, 31), (s.n c, maskC)] (
        if fn = 4 && m % unit ≠ 0 then s.engIll false t
        else if fn = 5 then s.scrRange o 512 (s.issue false (p == 1) op)
        else s.issue false (p == 1) op))))))

def execMxMma (a b c : BitVec 5) (p : BitVec 1) (s : State) : Out := s.mma 3 a b c p 7 31
def execMxMms (a b c : BitVec 5) (p : BitVec 1) (s : State) : Out := s.mma 4 a b c p 0x707 0x1F1F
def execMxMmx (a b c : BitVec 5) (p : BitVec 1) (s : State) : Out := s.mma 5 a b c p 0x3FFF07 31

/-- The gathered form (R255). -/
def execMxMmg (a b c : BitVec 5) (g p : BitVec 1) (s : State) : Out :=
  s.noExt (s.pairs (
    if s.r.exec = 0 then s.withEng false s.retire else
    let off := s.n a
    let slot := s.n b % 32
    let rows := s.n c
    s.held [(0, slot)] (s.maskq (s.withEng false (s.packed false 0xFF [(s.n b, 31)] (
      if rows = 0 || 64 < rows then s.engIll false
      else if off % 8 ≠ 0 then s.raise 4 tcALIGN 0 off 0
      else s.scrRange off 1024 (s.issue false (p == 1) (.mmg (startedQ s.r.exec) off slot rows (g == 1)))))))))

/-- The output formats `mx.st` accepts (R257). -/
def stOk (int : Bool) (code : Nat) : Bool := if int then decide (6 ≤ code) && decide (code ≤ 10) else decide (code ≤ 5)

def execMxSt (a b c : BitVec 5) (n l p : BitVec 1) (s : State) : Out :=
  -- `n` is INT, `l` is GLB
  let go := fun (seg : Nat) =>
    if !stOk (n == 1) s.r.fout then s.illop 4 false else
    let t := s.n a % 8
    let row := 8 * ((elemOf s.r.fout).getD .fp32).width
    s.held [(1, t)] (s.withEng false (s.packed false t [(s.n a, 7)] (
      if s.n b % 32 ≠ 0 || s.n c % 32 ≠ 0 || s.n c < row then s.engIll false t
      else if l = 1 then s.issue false (p == 1) (.st t true (n == 1) (seg + s.n b) (s.n c))
      else s.scrRange (s.n b) (63 * s.n c + row) (s.issue false (p == 1) (.st t false (n == 1) (s.n b) (s.n c))))))
  if l = 1 then s.withSeg go else s.noExt (go 0)

end Sys2Proof.Machine
end

