-- ==== Sys2Proof/Machine/Launch.lean ====
section
/-! DEFINITION. Launches from a gang: family lnch (R12 to R16, R267 to R269). -/

namespace Sys2Proof.Machine

/-- The translation of one of `lnch.grid`'s addresses fails. -/
def State.vaStop (s : State) (va : Nat) : Option AccErr :=
  match s.ereadRun s.leafNo s.gang.asid va 0 (some s.cur) with
  | .error e => some e
  | .ok _ => none

/-- The child grid of a `lnch.grid`. -/
def State.childGrid (s : State) (k : KDesc) (params x y z : Nat) : Grid :=
  let g := s.grid
  { parent := s.wg.grid, root := g.root, seed := .child, depth := g.depth + 1, k := k, params := BitVec.ofNat 48 params
    nx := x, ny := y, nz := z, leaf := g.leaf, queue := g.queue, asid := s.gang.asid, prio := g.prio }

def execLnchGrid (a b c : BitVec 5) (s : State) : Out :=
  s.withSeg (fun seg =>
    if c = 31 then s.illop 4 false else
    let d := seg + s.n a
    let p := seg + s.n b
    if 10 ≤ s.grid.depth || 0x7FFFFFFF ≤ (s.gridAt s.grid.root).spawn then s.raise 4 tcNEST 0 0 s.grid.depth
    else if d % 128 ≠ 0 then s.raise 4 tcALIGN 0 d 0
    else if p % 8 ≠ 0 then s.raise 4 tcALIGN 0 p 0
    else s.sync (.lnchGrid a b c) (match s.vaStop d, s.vaStop p with
      | some e, _ => s.cmdStop e
      | none, some e => s.cmdStop e
      | none, none => match s.eread s.leafNo s.gang.asid d 128 (some s.cur) with
        | .error e => s.cmdStop e
        | .ok bytes => match parseDesc bytes with
          | .error o => s.illop 4 false o
          | .ok k =>
            let v := s.n c
            let g := s.childGrid k p (v % 2 ^ 16 + 1) (fld v 16 16 + 1) ((s.r.sreg1 c).toNat % 2 ^ 16 + 1)
            match s.latchPatches g (some s.cur) with
            -- DESIGN CHOICE (assumption 11): patches that cannot be read are a failed access of the instruction
            | .error e => s.cmdStop e
            | .ok ps => let s := (s.newGrid { g with patches := ps }).2; s.synced s.r))

/-- A node lies in the range of nodes a leaf has on a die (R275, R291). -/
def PartRec.hasNode (p : PartRec) (die n : Nat) : Bool :=
  let r := p.nodes.getD die (0, 0)
  let count := if r.2 = 0 then 256 else r.2
  decide (r.1 * 256 ≤ n) && decide (n < (r.1 + count) * 256) && decide (n < 65536)

def execLnchSig (a : BitVec 5) (s : State) : Out :=
  s.noExt (
    let v := s.n a
    let die := fld v 16 2
    let n := v % 2 ^ 16
    if !s.leaf.part.hasNode die n then s.illop 4 false else
    s.sync (.lnchSig a) (
      let i := die * 65536 + n
      let x := s.nodeAt i
      if !x.used || x.leaf ≠ s.leafNo then
        let s := s.graphcnt s.leafNo s.grid.queue 0 n 1 s.grid.id.toNat s.r.pc.toNat
        s.synced s.r
      else
        let r := s.signalNode 0 i 1 s.grid.id.toNat s.r.pc.toNat
        let s := if r.2 then State.launchNodes 65537 r.1 [i] else r.1
        s.synced s.r))

/-- A row joins the open batch (R269, R280). -/
def Grant.enqueue (g : Grant) (now va : Nat) (tag : Word) : Grant :=
  { g with
    ticket := g.ticket + 1, since := if g.rows.isEmpty then now else g.since
    rows := g.rows ++ [{ va := va, tag := tag, ticket := g.ticket + 1 }] }

def execLnchGrant (a b c : BitVec 5) (q : BitVec 6) (s : State) : Out :=
  s.withSeg (fun seg =>
    let k := s.die * 64 + q.toNat
    let va := seg + s.n b
    if !((s.grantAt k).registered && (s.grantAt k).leaf == s.leafNo) then s.illop 4 false
    else if va % 64 ≠ 0 then s.raise 4 tcALIGN 0 va 0
    else s.sync (.lnchGrant a b c q) (if !s.grantOpen k then (s.setGang s.gang.wrote).stallAs .unit else
      let g := (s.grantAt k).enqueue s.now va (s.r.sreg c)
      (s.setGrant k g).synced (s.r.setS a (g.ticket.setWidth 32))))

end Sys2Proof.Machine
end

