-- ==== Sys2Proof/Machine/Map.lean ====
section
/-! DEFINITION. The Map Unit's instructions: family map (R105, R114 to R123, R265, R266). -/

namespace Sys2Proof.Machine

/-- An ASID in a register: its low 16 bits. -/
-- DEDUCED (assumption 21): bits above an ASID's 16 are ignored.
def State.asidReg (s : State) (r : BitVec 5) : Nat := s.n r % 2 ^ 16

/-- A map instruction: it starts when it may, and its status goes to sA; a status other than 0 changes nothing
else.  One that reads a poisoned node raises DATALOSS (R109). -/
-- DESIGN CHOICE (assumption 90): a node has no VA, so TF_ADDR is 0.
def State.map (s : State) (a : BitVec 5) (f : Except Nat State) : Out :=
  s.alone (match f with
    | .ok s => s.synced (s.r.setS a 0)
    | .error e => if e = stLOST then s.raise 4 tcDATALOSS else s.synced (s.r.setS a (BitVec.ofNat 32 e)))

def execMapFork (a b c : BitVec 5) (r : BitVec 1) (s : State) : Out :=
  s.noExt (s.map a (s.fork s.leafNo (s.asidReg b) (s.asidReg c) (r == 1)))

/-! ### Edits (R114, R266) -/

/-- An explicit local frame is a pool frame in use or a reserved frame, which lies outside both pool regions. -/
def State.frameOk (s : State) (l pa : Nat) : Bool :=
  let f := s.leafAt l
  if f.framePool.holds pa then decide (1 ≤ s.count l pa)
  else f.part.hasChannel pa && !f.nodePool.meets pa

/-- The checks of one edit at `map.set`; an edit that asks for a fresh frame is checked as an entry of this
device's memory. -/
def State.editOk (s : State) (l : Nat) (e : REdit) : Bool :=
  let x := if e.fresh then e.entry % 2 ^ 52 + s.devnum * 2 ^ 52 else e.entry
  let k := entKind x
  let level := if e.lvl1 then 1 else 0
  (k == 0 || k == 2 || k == 3) && !(e.lvl1 && fld e.va 16 8 != 0) && !s.malformed l level x
    && (k != 2 || e.fresh || (entPa x != 0 && (!s.entLocal x
      || (List.range (if e.lvl1 then 256 else 1)).all (fun i => s.frameOk l (entPa x + 65536 * i)))))

/-- An edit as it is applied. -/
def Edit.full (e : Edit) : REdit := { va := e.page * 65536, lvl1 := e.lvl1, entry := e.entry.toNat }

/-- Stage an edit in a transaction. -/
def State.stage (s : State) (l : Nat) (es : List Edit) (e : Edit) : Except Nat (List Edit) :=
  if 64 ≤ es.length then .error stTXFULL
  else if s.editOk l e.full then .ok (es ++ [e]) else .error stBADENT

def execMapSet (a b c : BitVec 5) (l : BitVec 1) (s : State) : Out :=
  s.noExt (if c = 31 then s.illop 4 false else
    let e : Edit := { page := s.n b, lvl1 := l == 1, entry := s.r.sreg1 c ++ s.r.sreg c }
    s.map a (match s.stage s.leafNo s.gang.edits e with
      | .error x => .error x
      | .ok es => .ok (s.setGang { s.gang with edits := es })))

/-- The first fresh frame of a swap whose page another device owns, with the VA of its edit: the Map Unit writes the frame,
and must own it first (R95). -/
def State.swapLack (s : State) (l a : Nat) (es : List REdit) : Option AccErr :=
  let fresh := (stand es).filter REdit.fresh
  let s := s.roomForGen l a
  ((Pool.heads 65536 fresh.length (s.leafAt l).framePool).zip fresh).findSome? (fun p =>
    (s.frameAway p.1).map (fun k => .page k true p.2.va))

/-- `map.swap`: the transaction is applied and emptied, or kept; while a page of its fresh frames is away it waits. -/
def execMapSwap (a b : BitVec 5) (h : BitVec 1) (s : State) : Out :=
  let l := s.leafNo
  let x := s.asidReg b
  let es := s.gang.edits.map Edit.full
  s.noExt (match s.mapSwap l x (h == 1) es with
    | .error e => s.map a (.error e)
    | .ok t => match s.swapLack l x es with
      | some e => s.alone (s.accStop e)
      | none => s.map a (.ok (t.setGang { t.gang with edits := [] })))

def execMapDrop (a b : BitVec 5) (s : State) : Out := s.noExt (s.map a (s.dropAsid s.leafNo (s.asidReg b)))

def execMapRef (a b c : BitVec 5) (e : BitVec 3) (s : State) : Out :=
  s.noExt (if 4 < e.toNat then s.illop 4 false
    else if s.refLost s.leafNo (s.asidReg c) (s.n b * 65536) e.toNat then s.map a (.error stLOST)
    else s.alone (s.synced (s.r.setS a (BitVec.ofNat 32 (s.refOf s.leafNo (s.asidReg c) (s.n b * 65536) e.toNat)))))

end Sys2Proof.Machine
end

