-- ==== Sys2Proof/Machine/Rings.lean ====
section
/-! DEFINITION. Egress rings: entries held by the sequence unit and their writes (R141, R296). -/

namespace Sys2Proof.Machine

def State.ringAt (s : State) (l i : Nat) : Ring := tget {} (s.leafAt l).rings i
def State.setRing (s : State) (l i : Nat) (r : Ring) : State :=
  s.setLeafAt l { s.leafAt l with rings := tput (s.leafAt l).rings i r }

/-- The ring takes its next held entry. -/
def Ring.open' (r : Ring) : Bool := r.en && !r.failed && decide ((r.prod - r.cons).toNat < 2 ^ r.log2n)

/-- Held entries go to the ring while it has room; the first write that fails holds the rest (R296). -/
def State.ringFlush (l i : Nat) : List (List Byte) → State → State
  | [], s => s.setRing l i { s.ringAt l i with held := [] }
  | e :: t, s =>
    let r := s.ringAt l i
    let a := (s.queueAt l 0).asid.toNat
    if !r.open' then s.setRing l i { r with held := e :: t } else
    match s.ewrite none { leaf := l, asid := some a } l a (r.rbase.toNat + 16 * (r.prod.toNat % 2 ^ r.log2n)) e with
    | .error x =>
      if x.waits then (s.setRing l i { r with held := e :: t }).ask l x
      else (s.setRing l i { r with held := e :: t, failed := true }).queueRecord l 0 6 i
    | .ok s => State.ringFlush l i t ((s.setRing l i { s.ringAt l i with prod := r.prod + 1 }).vecEvent l r.vec)

/-- The unit writes what it holds, as far as the ring lets it. -/
def State.ringPush (s : State) (l i : Nat) (entries : List (List Byte)) : State :=
  State.ringFlush l i ((s.ringAt l i).held ++ entries) s

end Sys2Proof.Machine
end

