-- ==== Sys2Proof/Machine/Windows.lean ====
section
/-! DEFINITION. The register windows: a function's 64 KiB window and the PF's 1 MiB window, word by word
(R270, R271, R280, R282, R294 to R296, R298, R301). -/

namespace Sys2Proof.Machine

/-! ### Words of wider registers -/

/-- Bits [31:0] of a VA register replaced, with the low bits of its alignment zero. -/
def lo48 (x : Va) (v : Word) (align : Nat) : Va := BitVec.ofNat 48 (x.toNat / 2 ^ 32 * 2 ^ 32 + v.toNat / align * align)
/-- Bits [47:32] replaced. -/
def hi48 (x : Va) (v : Word) : Va := BitVec.ofNat 48 (v.toNat % 2 ^ 16 * 2 ^ 32 + x.toNat % 2 ^ 32)
def loWord {n : Nat} (x : BitVec n) : Word := BitVec.ofNat 32 x.toNat
def hiWord {n : Nat} (x : BitVec n) : Word := BitVec.ofNat 32 (x.toNat / 2 ^ 32)

/-- The write-maximum rule (R271). -/
def writeMax (old v : Word) : Word := if 1 ≤ (v - old).toNat ∧ (v - old).toNat ≤ 2 ^ 31 - 1 then v else old

/-- A log2 field whose value outside its limits stores 4. -/
def log2Field (v hi : Nat) : Nat := if 4 ≤ v ∧ v ≤ hi then v else 4

/-! ### Host queues (R270, R271) -/

/-- QCTL as it reads. -/
def Queue.ctl (x : Queue) : Word :=
  BitVec.ofNat 32 ((if x.en then 2 ^ 31 else 0) + (if x.halt then 2 ^ 30 else 0) + x.asid.toNat * 2 ^ 10 + x.prio.toNat * 2 ^ 8 + x.log2n)

def Queue.read (x : Queue) (off : Nat) : Word :=
  match off with
  | 0x00 => loWord x.qbase
  | 0x04 => hiWord x.qbase
  | 0x08 => x.ctl
  | 0x0C => x.p
  | 0x10 => x.cons
  | 0x18 => loWord x.tline
  | 0x1C => hiWord x.tline
  | 0x20 => loWord x.errbase
  | 0x24 => hiWord x.errbase
  | 0x28 => BitVec.ofNat 32 (x.errcount * 2 ^ 8 + x.errlog2)
  | 0x2C => x.spillpart
  | 0x30 => loWord x.savebase
  | 0x34 => hiWord x.savebase
  | 0x38 => x.savesize
  | _ => 0

/-- A write to QCTL but for RST. -/
def Queue.writeCtl (x : Queue) (v : Word) : Queue :=
  let n := v.toNat
  { x with
    en := bitAt n 31, prio := BitVec.ofNat 2 (fld n 8 2)
    asid := if x.en then x.asid else BitVec.ofNat 16 (fld n 10 16)
    log2n := if x.en then x.log2n else log2Field (fld n 0 4) 15 }

/-- A write to a register of a queue that EN = 1 shuts off. -/
def Queue.writeShut (x : Queue) (off : Nat) (v : Word) : Queue :=
  let part := fun (size : Word) => BitVec.ofNat 32 (min x.spillpart.toNat size.toNat)
  match off with
  | 0x00 => { x with qbase := lo48 x.qbase v 4096 }
  | 0x04 => { x with qbase := hi48 x.qbase v }
  | 0x20 => { x with errbase := lo48 x.errbase v 32 }
  | 0x24 => { x with errbase := hi48 x.errbase v }
  | 0x28 => { x with errlog2 := log2Field (fld v.toNat 0 5) 16 }
  | 0x2C => { x with spillpart := BitVec.ofNat 32 (min (v.toNat / 128 * 128) x.savesize.toNat) }
  | 0x30 => { x with savebase := lo48 x.savebase v 128 }
  | 0x34 => { x with savebase := hi48 x.savebase v }
  | 0x38 =>
    let size : Word := BitVec.ofNat 32 (v.toNat / 128 * 128)
    { x with savesize := size, spillpart := part size }
  | _ => x

/-- KICK (R271). -/
def State.kickQueue (s : State) (l q : Nat) (v : Word) : State :=
  let x := s.queueAt l q
  let p := writeMax x.p v
  if 2 ^ x.log2n < (p - x.cons).toNat then s.queueRecord l q 3 v.toNat
  else s.setQueue l q { x with p := p }

/-- The nodes of a graph whose entry is over: those not running are free, those running are freed when they
complete. -/
def State.freeNodes (s : State) (d first n : Nat) : State :=
  let own := fun (k : Nat) => decide (d * 65536 + first ≤ k) && decide (k < d * 65536 + first + n)
  let keep := s.nodes.filter (fun p => !own p.1 || (p.2.launched && !p.2.done))
  { s with nodes := tmap keep (fun k x => if own k then { x with succ := [] } else x) }

/-- RST: HALT clears, CONS and P become 0; a running entry is over. -/
def State.resetQueue (s : State) (l q : Nat) : State :=
  let x := s.queueAt l q
  let s := match x.run with
    | .graph d first n _ => s.freeNodes d first n
    | _ => s
  s.setQueue l q { x with halt := false, cons := 0, p := 0, run := .none, hold := .none }

def State.writeQueue (s : State) (l q off : Nat) (v : Word) : State :=
  let x := s.queueAt l q
  if off = 0x08 then
    let s := s.setQueue l q (x.writeCtl v)
    if bitAt v.toNat 29 then s.resetQueue l q else s
  else if off = 0x0C then s.kickQueue l q v
  else if x.en then s else s.setQueue l q (x.writeShut off v)

/-! ### The Cask ring (R282) -/

def Leaf.readCask (f : Leaf) (off : Nat) : Word :=
  match off with
  | 0x00 => loWord f.caskBase
  | 0x04 => hiWord f.caskBase
  | 0x08 => BitVec.ofNat 32 ((if f.caskEn then 2 ^ 31 else 0) + f.caskLog2)
  | 0x0C => f.caskP
  | 0x10 => f.caskCons
  | 0x18 => loWord f.caskTl
  | 0x1C => hiWord f.caskTl
  | _ => 0

/-- CASKKICK, under R271's rule; an overflow is recorded at queue 0, whose ASID holds the ring. -/
-- DEDUCED (assumption 24): the queue record of an overflowing CASKKICK goes to queue 0.
def State.kickCask (s : State) (l : Nat) (v : Word) : State :=
  let f := s.leafAt l
  let p := writeMax f.caskP v
  if 2 ^ f.caskLog2 < (p - f.caskCons).toNat then s.queueRecord l 0 3 v.toNat
  else s.setLeafAt l { f with caskP := p }

def State.writeCask (s : State) (l off : Nat) (v : Word) : State :=
  let f := s.leafAt l
  match off with
  | 0x00 => if f.caskEn then s else s.setLeafAt l { f with caskBase := lo48 f.caskBase v 4096 }
  | 0x04 => if f.caskEn then s else s.setLeafAt l { f with caskBase := hi48 f.caskBase v }
  -- a command that is taken up again asks anew for what it lacks
  | 0x08 => s.setLeafAt l { f with
      caskHold := if f.caskEn && bitAt v.toNat 31 then f.caskHold else .none
      caskEn := bitAt v.toNat 31, caskLog2 := if f.caskEn then f.caskLog2 else log2Field (fld v.toNat 0 4) 12 }
  | 0x0C => s.kickCask l v
  | _ => s

/-! ### Ring blocks (R296) -/

def Ring.read (r : Ring) (egress : Bool) (off : Nat) : Word :=
  match off with
  | 0x00 => loWord r.rbase
  | 0x04 => hiWord r.rbase
  | 0x08 => BitVec.ofNat 32 ((if r.en then 2 ^ 31 else 0) + r.log2n * 2 ^ 8 + r.vec)
  | 0x0C => r.prod
  | 0x10 => if egress then r.cons else 0
  | _ => 0

/-- A write to RBASE or RCTL; writing EN with 1 ends the state a failed write left. -/
def Ring.write (r : Ring) (off : Nat) (v : Word) : Ring :=
  match off with
  | 0x00 => if r.en then r else { r with rbase := lo48 r.rbase v 4096 }
  | 0x04 => if r.en then r else { r with rbase := hi48 r.rbase v }
  | 0x08 =>
    let n := v.toNat
    { r with
      en := bitAt n 31, vec := fld n 0 6, failed := r.failed && !bitAt n 31
      log2n := if r.en then r.log2n else log2Field (fld n 8 4) 15 }
  | _ => r

/-- RCONS of an egress ring. -/
def State.writeRcons (s : State) (l i : Nat) (v : Word) : State :=
  let r := s.ringAt l i
  (s.setRing l i { r with cons := writeMax r.cons v }).ringPush l i []

def State.writeRing (s : State) (l i off : Nat) (v : Word) : State :=
  let r := s.ringAt l i
  if off = 0x10 then s.writeRcons l i v
  else if off = 0x08 || (decide (off < 0x08) && !r.en) then (s.setRing l i (r.write off v)).ringPush l i []
  else s

/-! ### MSI-X tables (R298) -/

def Msix.read (x : Msix) (off : Nat) : Word :=
  match off with
  | 0x0 => loWord x.addr
  | 0x4 => hiWord x.addr
  | 0x8 => x.data
  | _ => if x.masked then 1 else 0

def Msix.write (x : Msix) (off : Nat) (v : Word) : Msix :=
  match off with
  | 0x0 => { x with addr := hiWord x.addr ++ v }
  | 0x4 => { x with addr := v ++ loWord x.addr }
  | 0x8 => { x with data := v }
  | _ => { x with masked := bitAt v.toNat 0 }

/-- A vector of a function that is no longer masked sends its pending message. -/
def State.sendPending (s : State) (l v : Nat) : State :=
  let f := s.leafAt l
  let x := tget {} f.msix v
  if x.pending && !x.masked then
    { s.setLeafAt l { f with msix := tput f.msix v { x with pending := false } } with out := .msix l v x.addr x.data :: s.out }
  else s

def State.writeMsix (s : State) (l v off : Nat) (w : Word) : State :=
  let f := s.leafAt l
  (s.setLeafAt l { f with msix := tput f.msix v ((tget {} f.msix v).write off w) }).sendPending l v

/-- Post a PF vector: its message is sent, or held while the vector is masked. -/
def State.postPf (s : State) (v : Nat) : State :=
  let x := tget {} s.pfMsix v
  if x.masked then { s with pfMsix := tput s.pfMsix v { x with pending := true } } else { s with out := .pfMsix v x.addr x.data :: s.out }

def State.writePfMsix (s : State) (v off : Nat) (w : Word) : State :=
  let x := (tget {} s.pfMsix v).write off w
  if x.pending && !x.masked then
    { s with pfMsix := tput s.pfMsix v { x with pending := false }, out := .pfMsix v x.addr x.data :: s.out }
  else { s with pfMsix := tput s.pfMsix v x }

/-- A word of a pending-bit array. -/
def pendingWord (t : Tab Msix) (i : Nat) : Word :=
  BitVec.ofNat 32 ((List.range 32).map (fun j => if (tget ({} : Msix) t (32 * i + j)).pending then 2 ^ j else 0)).sum

/-- A word of a table of bytes. -/
def bytesWord (t : Tab Byte) (off : Nat) : Word := BitVec.ofNat 32 (leNat ((List.range 4).map (fun i => tget (0 : Byte) t (off + i))))
/-- Four bytes of a table replaced, each under a mask. -/
def putWord (t : Tab Byte) (off : Nat) (v : Word) (mask : Byte) : Tab Byte :=
  (List.range 4).foldl (fun t i => tput t (off + i) (BitVec.ofNat 8 (v.toNat / 2 ^ (8 * i)) &&& mask)) t

/-! ### A function's window (R294) -/

/-- A function answers at its window: its leaf is in force and virtual functions are enabled (R293, R300). -/
def State.fnUp (s : State) (l : Nat) : Bool := (s.leafAt l).live && s.started && s.boot == .ok

/-- The Grant queue of an offset from 0x4000, by die × 64 + queue, and the offset within its record. -/
def grantOff (off : Nat) : Nat × Nat := ((off - 0x4000) / 0x1000 * 64 + (off - 0x4000) % 0x1000 / 64, off % 64)

def State.fnRead (s : State) (l off : Nat) : Word :=
  let f := s.leafAt l
  if !s.fnUp l then 0
  else if off < 0x1000 then (s.queueAt l (off / 64)).read (off % 64)
  else if off < 0x1020 then f.readCask (off - 0x1000)
  else if 0x1800 ≤ off && off < 0x2000 then (s.ringAt l ((off - 0x1800) / 32)).read true (off % 32)
  else if 0x2000 ≤ off && off < 0x2020 then f.telem.read false (off - 0x2000)
  else if 0x2020 ≤ off && off < 0x2060 then bytesWord f.errVec (off - 0x2020)
  else if off = 0x2060 then f.caskVec.setWidth 32
  else if off = 0x2064 then BitVec.ofNat 32 (f.coalesceT * 2 ^ 16 + f.coalesceN)
  else if 0x2100 ≤ off && off < 0x2120 then BitVec.ofNat 32 (s.feat.toNat / 2 ^ (8 * (off - 0x2100)))
  else if 0x3000 ≤ off && off < 0x3400 then (tget {} f.msix ((off - 0x3000) / 16)).read (off % 16)
  else if 0x3400 ≤ off && off < 0x3408 then pendingWord f.msix ((off - 0x3400) / 4)
  else if 0x4000 ≤ off && off < 0x8000 then
    let (q, o) := grantOff off
    if f.part.hasGrant q && (off - 0x4000) % 0x1000 < 0x1000 then bytesWord (s.grantAt q).block o else 0
  else 0

/-- COALESCE: T and N, where an N of 0 stores 1. -/
def Leaf.writeCoalesce (f : Leaf) (v : Word) : Leaf :=
  { f with coalesceT := fld v.toNat 16 16, coalesceN := max 1 (fld v.toNat 0 8) }

/-- A write to a registration record in a function's window. -/
def State.writeGrant (s : State) (l q off : Nat) (v : Word) : State :=
  match execGrantRegistrationWrite l q off v s with
  | .next s => s
  | _ => s

def State.fnWrite (s : State) (l off : Nat) (v : Word) : State :=
  let f := s.leafAt l
  if !s.fnUp l then s
  else if off < 0x1000 then s.writeQueue l (off / 64) (off % 64) v
  else if off < 0x1020 then s.writeCask l (off - 0x1000) v
  else if 0x1800 ≤ off && off < 0x2000 then s.writeRing l ((off - 0x1800) / 32) (off % 32) v
  else if 0x2000 ≤ off && off < 0x2020 then s.setLeafAt l { f with telem := f.telem.write (off - 0x2000) v }
  else if 0x2020 ≤ off && off < 0x2060 then s.setLeafAt l { f with errVec := putWord f.errVec (off - 0x2020) v 0xBF }
  else if off = 0x2060 then s.setLeafAt l { f with caskVec := BitVec.ofNat 8 v.toNat &&& 0xBF }
  else if off = 0x2064 then s.setLeafAt l (f.writeCoalesce v)
  else if 0x3000 ≤ off && off < 0x3400 then s.writeMsix l ((off - 0x3000) / 16) (off % 16) v
  else if 0x4000 ≤ off && off < 0x8000 then s.writeGrant l (grantOff off).1 (grantOff off).2 v
  else s

/-! ### The PF's window (R295) -/

/-- The mailbox's registers, all that a failed boot leaves (R300). -/
def State.mbRead (s : State) (off : Nat) : Word :=
  if off = 0x0 then BitVec.ofNat 32 ((if s.mbGo then 2 ^ 31 else 0) + s.mbCmd.toNat)
  else if off = 0x4 then BitVec.ofNat 32 ((if s.mbDone then 2 ^ 31 else 0) + s.mbStat.toNat)
  else if off = 0x8 then s.mbVec.setWidth 32
  else if 0x100 ≤ off && off < 0x200 then bytesWord s.mbIn (off - 0x100)
  else if 0x200 ≤ off && off < 0x400 then BitVec.ofNat 32 (leNat ((s.mbOut.drop (off - 0x200)).take 4))
  else 0

def State.pfRead (s : State) (off : Nat) : Word :=
  if off < 0x1000 then s.mbRead off
  else if s.boot != .ok then 0
  else if off < 0x1020 then BitVec.ofNat 32 (s.featOff.toNat / 2 ^ (8 * (off - 0x1000)))
  else if off < 0x1040 then BitVec.ofNat 32 (s.featAcc.toNat / 2 ^ (8 * (off - 0x1020)))
  else if off = 0x1100 then BitVec.ofNat 32 s.pwrcap
  else if off = 0x1104 then BitVec.ofNat 32 s.devnum
  else if off = 0x1108 then (Config.temperature s.free).setWidth 32
  else if 0x2000 ≤ off && off < 0x6000 then bytesWord (s.leafAt ((off - 0x2000) / 512)).peerMask (off % 512)
  else if 0x6000 ≤ off && off < 0x6400 then (tget {} s.pfMsix ((off - 0x6000) / 16)).read (off % 16)
  else if 0x6400 ≤ off && off < 0x6408 then pendingWord s.pfMsix ((off - 0x6400) / 4)
  else if 0x80000 ≤ off && off < 0x100000 then tget 0 (s.leafAt ((off - 0x80000) / 16384)).pasids ((off - 0x80000) % 16384 / 4)
  else 0

/-- PWRCAP, clamped to 800–2,400 W (R302). -/
def clampCap (v : Nat) : Nat := min 2400 (max 800 v)

def State.mbWrite (s : State) (off : Nat) (v : Word) : State :=
  if off = 0x0 then
    if s.mbGo then s
    else
      let s := { s with mbCmd := BitVec.ofNat 8 v.toNat }
      if bitAt v.toNat 31 then { s with mbGo := true, mbDone := false } else s
  else if off = 0x8 then { s with mbVec := BitVec.ofNat 8 v.toNat &&& 0xBF }
  else if 0x100 ≤ off && off < 0x200 then (if s.mbGo then s else { s with mbIn := putWord s.mbIn (off - 0x100) v 0xFF })
  else s

/-- A word of the accepted feature set replaced. -/
def featPut (x : BitVec 256) (i : Nat) (v : Word) : BitVec 256 :=
  BitVec.ofNat 256 (x.toNat % 2 ^ (32 * i) + v.toNat * 2 ^ (32 * i) + x.toNat / 2 ^ (32 * i + 32) * 2 ^ (32 * i + 32))

def State.pfWrite (s : State) (off : Nat) (v : Word) : State :=
  if off < 0x1000 then s.mbWrite off v
  else if s.boot != .ok then s
  else if 0x1020 ≤ off && off < 0x1040 then
    (if s.started then s else { s with featAcc := featPut s.featAcc ((off - 0x1020) / 4) v })
  else if off = 0x1100 then { s with pwrcap := clampCap v.toNat }
  else if 0x2000 ≤ off && off < 0x6000 then
    let l := (off - 0x2000) / 512
    s.setLeafAt l { s.leafAt l with peerMask := putWord (s.leafAt l).peerMask (off % 512) v 0xFF }
  else if 0x6000 ≤ off && off < 0x6400 then s.writePfMsix ((off - 0x6000) / 16) (off % 16) v
  else if 0x80000 ≤ off && off < 0x100000 then
    let l := (off - 0x80000) / 16384
    s.setLeafAt l { s.leafAt l with pasids := tput (s.leafAt l).pasids ((off - 0x80000) % 16384 / 4) (v &&& 0x800FFFFF) }
  else s

/-! ### Both windows -/

/-- Windows 0–31 are the functions of leaves 0–31, window 32 the PF. -/
def State.regRead (s : State) (win off : Nat) : Word := if win < 32 then s.fnRead win off else if win = 32 then s.pfRead off else 0

/-- A write of one aligned word. -/
def State.regWrite (s : State) (win off : Nat) (v : Word) : State :=
  if off % 4 ≠ 0 then s else if win < 32 then s.fnWrite win off v else if win = 32 then s.pfWrite off v else s

end Sys2Proof.Machine
end

