-- ==== Sys2Proof/Machine/QueueEvents.lean ====
section
/-! DEFINITION. Host queues: kicks, resets, plain register writes, and the entries the front end runs
(R11, R270 to R275). -/

namespace Sys2Proof.Machine

/-! ### Registers -/

def execKick (l q : Nat) (v : Word) (s : State) : Out :=
  if s.fnUp l && decide (q < 64) then .next (s.kickQueue l q v) else .next s

def execRst (l q : Nat) (s : State) : Out :=
  if s.fnUp l && decide (q < 64) then .next (s.resetQueue l q) else .next s

/-- A host write of one word to a register: it stores, with whatever the register does on a write. -/
def execRegisterWrite (win off : Nat) (v : Word) (s : State) : Out := .next (s.regWrite win off v)

/-! ### Entries (R272, R273) -/

/-- The queue runs its next entry now. -/
def State.runnable (s : State) (l q : Nat) : Bool :=
  let x := s.queueAt l q
  (s.leafAt l).live && x.en && !x.halt && x.cons != x.p && x.run == .none

/-- The bytes of the next entry. -/
def State.entry (s : State) (l q : Nat) : Except AccErr (List Byte) :=
  let x := s.queueAt l q
  s.eread l x.asid.toNat ((x.qbase.toNat + 64 * (x.cons.toNat % 2 ^ x.log2n)) % 2 ^ 48) 64

/-- A field of an entry. -/
def ef (b : List Byte) (o n : Nat) : Nat := leNat ((b.drop o).take n)

/-- The fields of each kind, by offset and size. -/
def entryFields (kind : Nat) : List (Nat × Nat) :=
  match kind with
  | 1 => [(0x08, 8), (0x10, 8)]
  | 2 => [(0x08, 8), (0x10, 4), (0x14, 4)]
  | 3 => [(0x08, 4), (0x10, 8)]
  | 4 => [(0x08, 8), (0x10, 8), (0x18, 2)]
  | _ => [(0x08, 8), (0x10, 1), (0x11, 1), (0x12, 2), (0x14, 2), (0x18, 8), (0x20, 4)]

/-- Bytes no field names are zero. -/
def entryZero (kind : Nat) (b : List Byte) : Bool :=
  (List.range 63).all (fun i => b.getD (i + 1) 0 == 0
    || (entryFields kind).any (fun f => decide (f.1 ≤ i + 1) && decide (i + 1 < f.1 + f.2)))

/-- What the checks of an entry find: it acts, it is bad, its descriptor is, or an access of it waits, for its
descriptor or another VA. -/
inductive Check (α : Type) where
  | ok (x : α)
  | bad
  | desc (detail : Nat)
  | wait (on : AccErr) (desc : Bool)
deriving DecidableEq, Repr

/-- An access of an entry that fails makes it bad; one that needs a host translation or a page of another
device makes it wait. -/
def Check.ofAccess {α : Type} (x : Except AccErr α) : Check α :=
  match x with
  | .ok y => .ok y
  | .error e => if e.waits then .wait e false else .bad

/-- What the reading of a descriptor finds. -/
def Check.ofDesc {α : Type} (x : Except (Nat × Option AccErr) α) : Check α :=
  match x with
  | .ok y => .ok y
  | .error (d, some e) => if e.waits then .wait e true else .desc d
  | .error (d, none) => .desc d

def Check.bind {α β : Type} (x : Check α) (f : α → Check β) : Check β :=
  match x with
  | .ok y => f y
  | .bad => .bad
  | .desc d => .desc d
  | .wait e d => .wait e d

/-- A condition an entry must meet. -/
def Check.need (p : Bool) : Check Unit := if p then .ok () else .bad

/-- The next entry, if it has this kind. -/
def State.entryOf (s : State) (l q kind : Nat) : Option (List Byte) :=
  if !s.runnable l q then none else
  match s.entry l q with
  | .ok b => if (b.headD 0).toNat = kind then some b else none
  | .error _ => none

/-- An entry is bad: a queue record with cause 1, and it completes (R273). -/
def State.entryBad (s : State) (l q : Nat) : State :=
  (s.queueRecord l q 1 (s.queueAt l q).cons.toNat).entryComplete l q

/-- A GRID whose descriptor is bad: a queue record with cause 2, and it completes (R273). -/
def State.entryDesc (s : State) (l q detail : Nat) : State := (s.queueRecord l q 2 detail).entryComplete l q

/-- An entry runs when its checks pass, or completes with its record; while an access waits it asks, and when the wait
fails the entry does (R97, R127). -/
def State.runEntry {α : Type} (s : State) (l q : Nat) (c : Check α) (f : α → State) : Out :=
  match c with
  | .ok x => .next (f x)
  | .bad => .next (s.entryBad l q)
  | .desc d => .next (s.entryDesc l q d)
  | .wait e d =>
    let x := s.queueAt l q
    match e.next x.hold s.now with
    | some h => .next ((s.setQueue l q { x with hold := h }).askOnce l x.hold e)
    | none => .next (if d then s.entryDesc l q 0xFFFFFFFF else s.entryBad l q)

/-! ### GRID (R11) -/

def State.gridDesc (s : State) (l a va : Nat) : Check KDesc := Check.ofDesc (s.seedDesc l a va)

/-- The parameter block's VA is aligned and the block can be read; one of no bytes need only translate. -/
def State.checkParams (s : State) (l a p n : Nat) : Check Unit :=
  (Check.need (p % 8 == 0)).bind fun _ =>
  (Check.ofAccess (if n = 0 then s.ereadRun l a p 0 else s.eread l a p n)).bind fun _ => .ok ()

/-- The seed grid of a GRID entry, with its patches. -/
-- DESIGN CHOICE (assumption 11): patches that cannot be read count as a descriptor that cannot.
def State.checkGrid (s : State) (l q : Nat) (b : List Byte) : Check Grid :=
  let d := ef b 0x08 8
  let p := ef b 0x10 8
  let a := s.qAsid l q
  (Check.need (entryZero 1 b && decide (d < 2 ^ 48) && decide (p < 2 ^ 48))).bind fun _ =>
  (s.gridDesc l a d).bind fun k =>
  (s.checkParams l a p k.params).bind fun _ =>
  Check.ofDesc (s.withPatches {
    seed := .queue, k := k, params := BitVec.ofNat 48 p, leaf := l, queue := q, asid := a
    prio := (s.queueAt l q).prio.toNat })

/-- A GRID entry creates a seed group: one workgroup of one gang. -/
def State.startGrid (s : State) (l q : Nat) (g : Grid) : State :=
  let r := s.newGrid g
  r.2.setQueue l q { r.2.queueAt l q with run := .grid r.1, hold := .none }

def execGrid (l q : Nat) (s : State) : Out :=
  match s.entryOf l q 1 with
  | none => .next s
  | some b => s.runEntry l q (s.checkGrid l q b) (s.startGrid l q)

/-! ### GRAPH (R16, R275) -/

/-- The node records of an image; none when one is out of its limits. -/
def parseNodes (l q die first n : Nat) (img : List Byte) : Option (List Node) :=
  (List.range n).mapM (fun i =>
    let r := (img.drop (32 * i)).take 32
    let k := ef r 0x12 2
    let succ := (List.range 6).map (fun j => ef r (0x14 + 2 * j) 2)
    if 6 < k ∨ (succ.take k).any (fun j => decide (n ≤ j)) ∨ (succ.drop k).any (fun j => j != 0)
        ∨ 2 ^ 48 ≤ ef r 0 8 ∨ 2 ^ 48 ≤ ef r 8 8 then none
    else some {
      used := true, desc := ef r 0 8, params := ef r 8 8, count := ef r 0x10 2
      succ := (succ.take k).map (fun j => die * 65536 + first + j), leaf := l, queue := q, first := first })

/-- The nodes b..b+n−1 lie in the partition's range on the die and belong to no running graph. -/
def State.nodesFree (s : State) (l die first n : Nat) : Bool :=
  (s.leafAt l).part.hasNode die first && (s.leafAt l).part.hasNode die (first + n - 1)
    && s.nodes.all (fun p => !p.2.used || decide (p.1 < die * 65536 + first) || decide (die * 65536 + first + n ≤ p.1))

def State.checkGraph (s : State) (l q : Nat) (b : List Byte) : Check (List Node) :=
  let va := ef b 0x08 8
  let w := ef b 0x10 4
  let n := ef b 0x14 4
  let first := w % 2 ^ 16
  let die := fld w 16 2
  (Check.need (entryZero 2 b && decide (va < 2 ^ 48) && decide (w < 2 ^ 18) && decide (1 ≤ n) && decide (n ≤ 65536)
    && va % 32 == 0 && s.nodesFree l die first n)).bind fun _ =>
  (Check.ofAccess (s.eread l (s.qAsid l q) va (32 * n))).bind fun img =>
  match parseNodes l q die first n img with
  | none => .bad
  | some ns => .ok ns

/-- Load the records and launch the nodes whose count is 0, ascending. -/
def State.startGraph (s : State) (l q : Nat) (b : List Byte) (ns : List Node) : State :=
  let w := ef b 0x10 4
  let base := fld w 16 2 * 65536 + w % 2 ^ 16
  let s := (ns.zipIdx).foldl (fun s p => s.setNode (base + p.2) p.1) s
  let s := s.setQueue l q { s.queueAt l q with run := .graph (fld w 16 2) (w % 2 ^ 16) ns.length ns.length, hold := .none }
  State.launchNodes 65537 s (((ns.zipIdx).filter (fun p => p.1.count == 0)).map (fun p => base + p.2))

/-- A GRAPH starts, or the nodes of one that runs launch whose wait is over. -/
def execGraph (l q : Nat) (s : State) : Out :=
  match (s.queueAt l q).run with
  | .graph _ _ _ _ => .next (State.launchNodes 65537 s (s.readyNodes l q))
  | _ => match s.entryOf l q 2 with
    | none => .next s
    | some b => s.runEntry l q (s.checkGraph l q b) (s.startGraph l q b)

/-! ### WAITTL -/

/-- The die of a host queue's Grant handles: the first on which its leaf owns cores. -/
-- DESIGN CHOICE (assumption 25): a WAITTL of KIND 2 names queues of the first die on which the leaf owns cores.
def PartRec.homeDie (p : PartRec) : Nat := ((List.range 4).find? (fun d => (p.cores.getD d (0, 0)).2 != 0)).getD 0

/-- The counter a WAITTL handle names (R100, R273). -/
def State.waitCounter (s : State) (l : Nat) (h : Word) : Option (BitVec 64) :=
  let idx := fld h.toNat 0 28
  match fld h.toNat 28 4 with
  | 2 => if idx < 64 then some (s.grantAt ((s.leafAt l).part.homeDie * 64 + idx)).counter else none
  | 3 => if idx < 64 then some (s.queueAt l idx).tline else none
  | 4 => if idx = 0 then some (s.leafAt l).reclaim else none
  | 5 => if idx = 0 then some (s.leafAt l).caskTl else none
  | _ => none

def State.checkWait (s : State) (l : Nat) (b : List Byte) : Check Unit :=
  Check.need (entryZero 3 b && (s.waitCounter l (BitVec.ofNat 32 (ef b 0x08 4))).isSome)

/-- The counter has reached the value, compared on all 64 bits. -/
def State.tlOver (s : State) (l : Nat) (h : Word) (v : BitVec 64) : Bool :=
  match s.waitCounter l h with
  | some c => decide (v.toNat ≤ c.toNat)
  | none => false

/-- A WAITTL starts, or one that runs completes. -/
def execWaittl (l q : Nat) (s : State) : Out :=
  match (s.queueAt l q).run with
  | .wait h v => if s.tlOver l h v then .next (s.entryComplete l q) else .next s
  | _ => match s.entryOf l q 3 with
    | none => .next s
    | some b =>
      let h : Word := BitVec.ofNat 32 (ef b 0x08 4)
      let v : BitVec 64 := BitVec.ofNat 64 (ef b 0x10 8)
      s.runEntry l q (s.checkWait l b) (fun _ =>
        if s.tlOver l h v then s.entryComplete l q else s.setQueue l q { s.queueAt l q with run := .wait h v, hold := .none })

/-! ### SIGNAL -/

def State.checkSignal (s : State) (l q : Nat) (b : List Byte) : Check State :=
  let va := ef b 0x08 8
  let w := ef b 0x18 2
  (Check.need (entryZero 4 b && decide (va < 2 ^ 48) && va % 8 == 0 && fld w 11 4 == 0)).bind
  fun _ => Check.ofAccess (s.ewrite none (s.qTag l q) l (s.qAsid l q) va (leBytes 8 (ef b 0x10 8)))

/-- The store is performed; with send set, the interrupt is posted after it. -/
def State.finishSignal (l q : Nat) (b : List Byte) (s : State) : State :=
  let w := ef b 0x18 2
  (if bitAt w 15 then s.vecEvent l (w % 2 ^ 11) else s).entryComplete l q

def execSignal (l q : Nat) (s : State) : Out :=
  match s.entryOf l q 4 with
  | none => .next s
  | some b => s.runEntry l q (s.checkSignal l q b) (State.finishSignal l q b)

/-! ### MAPOP -/

/-- The fields of a MAPOP are within their limits, and those of other ops are zero. -/
-- DESIGN CHOICE (assumption 82): an edit list is aligned when its VA is a multiple of 8.
def mapopOk (b : List Byte) : Bool :=
  let op := ef b 0x10 1
  let list := ef b 0x18 8
  let count := ef b 0x20 4
  entryZero 5 b && decide (op ≤ 2) && decide (ef b 0x11 1 ≤ 1) && decide (ef b 0x08 8 < 2 ^ 48) && ef b 0x08 8 % 4 == 0
    && decide (list < 2 ^ 48)
    && (if op = 1 then list % 8 == 0 && decide (1 ≤ count) && decide (count ≤ 64) else list == 0 && count == 0)
    && (op == 0 || ef b 0x14 2 == 0) && (op != 2 || ef b 0x11 1 == 0)

/-- The status word can be written, and the edits read. -/
def State.checkMapop (s : State) (l q : Nat) (b : List Byte) : Check (List Byte) :=
  let a := s.qAsid l q
  (Check.need (mapopOk b)).bind fun _ =>
  (Check.ofAccess (s.ewrite none (s.qTag l q) l a (ef b 0x08 8) (leBytes 4 0))).bind fun _ =>
  Check.ofAccess (s.eread l a (ef b 0x18 8) (16 * ef b 0x20 4))

/-- The op is done; its status word is written after it, and the entry completes; one that reads a poisoned node is bad. -/
-- DESIGN CHOICE (assumption 90): no status word is written then.
def State.finishMapop (s : State) (l q : Nat) (b : List Byte) (r : Except Nat State) : State :=
  let a := s.qAsid l q
  let put := fun (s : State) (code : Nat) => (s.ewriteOr none (s.qTag l q) l a (ef b 0x08 8) (leBytes 4 code)).entryComplete l q
  match r with
  | .ok s => put s 0
  | .error c => if c = stLOST then s.entryBad l q else put s c

/-- A MAPOP of one op; `lack` is what it must wait for before it can be done. -/
def State.mapop (s : State) (l q op : Nat) (f : List Byte → List Byte → Except Nat State)
    (lack : List Byte → List Byte → Option AccErr := fun _ _ => none) : Out :=
  match s.entryOf l q 5 with
  | none => .next s
  | some b => if ef b 0x10 1 ≠ op then .next s else
    s.runEntry l q ((s.checkMapop l q b).bind fun edits => match lack b edits with
      | some e => Check.ofAccess (.error e)
      | none => .ok edits) (fun edits => s.finishMapop l q b (f b edits))

def execMapopFork (l q : Nat) (s : State) : Out :=
  s.mapop l q 0 (fun b _ => s.fork l (ef b 0x12 2) (ef b 0x14 2) (ef b 0x11 1 == 1))

/-- Stage the edits one by one; the first that is refused ends the op. -/
def State.stageAll (s : State) (l : Nat) (edits : List Byte) : Nat → Except Nat (List Edit)
  | 0 => .ok []
  | n + 1 => do
    let es ← s.stageAll l edits n
    let w := ef edits (16 * n) 8
    if fld w 32 31 ≠ 0 then .error stBADENT
    else s.stage l es { page := w % 2 ^ 32, lvl1 := bitAt w 63, entry := BitVec.ofNat 64 (ef edits (16 * n + 8) 8) }

/-- Set and swap: while a page of its fresh frames is away the entry waits (R95). -/
def execMapopSetSwap (l q : Nat) (s : State) : Out :=
  let swap := fun (b edits : List Byte) => do
    let es ← s.stageAll l edits (ef b 0x20 4)
    let t ← s.mapSwap l (ef b 0x12 2) (ef b 0x11 1 == 1) (es.map Edit.full)
    pure (es, t)
  s.mapop l q 1 (fun b edits => (swap b edits).map Prod.snd)
    (fun b edits => match swap b edits with
      | .ok (es, _) => s.swapLack l (ef b 0x12 2) (es.map Edit.full)
      | .error _ => none)

def execMapopDrop (l q : Nat) (s : State) : Out := s.mapop l q 2 (fun b _ => s.dropAsid l (ef b 0x12 2))

/-! ### Bad entries -/

/-- The next entry has a reserved kind, or a MAPOP has a reserved op. -/
def entryUnknown (b : List Byte) : Bool :=
  (b.headD 0) == 0 || decide (5 < (b.headD 0).toNat) || ((b.headD 0) == 5 && decide (2 < ef b 0x10 1))

/-- The next entry is bad by its kind, or cannot be read. -/
-- DEDUCED (assumption 25): an entry that cannot be read is a bad entry.
def execBadEntry (l q : Nat) (s : State) : Out :=
  if !s.runnable l q then .next s else
  match s.entry l q with
  | .ok b => if entryUnknown b then .next (s.entryBad l q) else .next s
  | .error e => s.runEntry l q (Check.ofAccess (.error e : Except AccErr Unit)) (fun _ => s)

end Sys2Proof.Machine
end

