-- ==== Sys2Proof/Machine/CaskEvents.lean ====
section
/-! DEFINITION. Cask: its ring, checkpoints of a shard to flash, restores and erasures (R107, R282 to R289). -/

namespace Sys2Proof.Machine

/-! ### The ring (R282) -/

def execCaskkick (l : Nat) (v : Word) (s : State) : Out := if s.fnUp l then .next (s.kickCask l v) else .next s

/-- The ring runs its next command now. -/
def State.caskReady (s : State) (l : Nat) : Bool :=
  let f := s.leafAt l
  f.live && f.caskEn && f.caskCons != f.caskP

/-- The bytes of the next command. -/
def State.caskEntry (s : State) (l : Nat) : Except AccErr (List Byte) :=
  let f := s.leafAt l
  s.eread l (s.qAsid l 0) ((f.caskBase.toNat + 64 * (f.caskCons.toNat % 2 ^ f.caskLog2)) % 2 ^ 48) 64

/-- What a status block says (R284). -/
structure CaskStatus where
  code : Nat := 0
  frames : Nat := 0
  step : Nat := 0
  a : Nat := 0
  b : Nat := 0

def csBADCMD : Nat := 1
def csSTATE : Nat := 2
def csNOMEM : Nat := 3
def csNOSPACE : Nat := 4
def csBADSIG : Nat := 5
def csSTEPMIX : Nat := 6
def csNOSTEP : Nat := 7
def csMISSING : Nat := 8
def csUNREACH : Nat := 9

def CaskStatus.bytes (c : CaskStatus) : List Byte :=
  leBytes 4 c.code ++ leBytes 4 c.frames ++ leBytes 8 c.step ++ leBytes 8 c.a ++ leBytes 8 c.b

/-- A command ends: CASKCONS and CASKTL advance, and its vector gets an event. -/
def State.caskAdvance (s : State) (l : Nat) : State :=
  let f := s.leafAt l
  let s := s.setLeafAt l { f with caskCons := f.caskCons + 1, caskTl := f.caskTl + 1, caskHold := .none, caskDone := none }
  if bitAt f.caskVec.toNat 7 then s.vecEvent l (f.caskVec.toNat % 64) else s

/-- The command ends; a bad one is recorded at queue 0 (R284). -/
def State.caskFinish (s : State) (l : Nat) (bad : Bool) : State :=
  (if bad then s.queueRecord l 0 1 (s.leafAt l).caskCons.toNat else s).caskAdvance l

/-- The status block is written, then the command ends; until its page can be had the command stands (R97, R282). -/
-- DESIGN CHOICE (assumption 91): a block that cannot be written leaves the record alone.
-- DESIGN CHOICE (assumption 87): its lines, and the attachment's of a RESTORE, bear the ASID of queue 0.
def State.caskClose (s : State) (l : Nat) (d : CaskDone) : State :=
  match s.ewrite none (s.qTag l 0) l (s.qAsid l 0) d.va d.bytes with
  | .ok s => s.caskFinish l d.bad
  | .error e =>
    let f := s.leafAt l
    match e.next f.caskHold s.now with
    | some h => (s.setLeafAt l { f with caskDone := some d, caskHold := h }).askOnce l f.caskHold e
    | none => s.caskFinish l true

/-- A command has had its effect, and ends with a status (R284).  The wait for a page of its own is over. -/
def State.caskEnd (s : State) (l va : Nat) (c : CaskStatus) : State :=
  let s := if c.code = csBADCMD then s else s.setLeafAt l { s.leafAt l with caskHold := .none }
  s.caskClose l { va := va, bytes := c.bytes, bad := c.code == csBADCMD }

/-! ### Commands (R283) -/

/-- The step that means newest. -/
def newest : Nat := 2 ^ 64 - 1

/-- The fields keep their limits. -/
def caskOk (b : List Byte) : Bool :=
  let kind := ef b 0 1
  let r := ef b 0x38 2
  decide (1 ≤ kind) && decide (kind ≤ 3) && fld (ef b 1 1) 4 4 == 0 && decide (ef b 0x06 2 < r)
    && (kind == 2 || ef b 0x08 8 != newest)
    && ef b 0x10 8 % 65536 == 0 && ef b 0x18 8 % 65536 == 0 && decide (ef b 0x10 8 < ef b 0x18 8) && decide (ef b 0x18 8 ≤ 2 ^ 48)
    && ef b 0x20 8 % 32 == 0 && decide (ef b 0x20 8 < 2 ^ 48)
    && (!bitAt (ef b 1 1) 1 || (ef b 0x28 8 % 128 == 0 && decide (ef b 0x28 8 < 2 ^ 48)))
    && ef b 0x30 8 % 2 == 0 && decide (ef b 0x30 8 < 2 ^ 48)
    && decide (1 ≤ r) && decide (r ≤ 64) && decide (1 ≤ ef b 0x3C 2) && decide (ef b 0x3C 2 ≤ 4096)
    && decide (ef b 0x3A 2 < ef b 0x3C 2) && ef b 0x3E 2 == 0

/-- The devices of a group table, by shard × R + replica. -/
def groupList (t : List Byte) : List Nat := (List.range (t.length / 2)).map (fun i => ef t (2 * i) 2)

/-- What a command works with once its checks pass. -/
structure CaskCmd where
  b : List Byte
  group : List Nat
  att : List Byte

def CaskCmd.step (c : CaskCmd) : Nat := ef c.b 0x08 8
def CaskCmd.flag (c : CaskCmd) (i : Nat) : Bool := bitAt (ef c.b 1 1) i
def CaskCmd.asid (c : CaskCmd) : Nat := ef c.b 2 2
def CaskCmd.r (c : CaskCmd) : Nat := ef c.b 6 2
def CaskCmd.count (c : CaskCmd) : Nat := ef c.b 0x38 2
def CaskCmd.shard (c : CaskCmd) : Nat := ef c.b 0x3A 2

/-- The attachment of a command: a RESTORE will write it, and none of its bytes are read. -/
def State.checkAttachment (s : State) (l : Nat) (b : List Byte) : Check (List Byte) :=
  let a := s.qAsid l 0
  let va := ef b 0x28 8
  if !bitAt (ef b 1 1) 1 then .ok []
  else if ef b 0 1 = 2 then
    (Check.ofAccess (s.ewrite none (s.qTag l 0) l a va (List.replicate 128 0))).bind fun _ => .ok []
  else Check.ofAccess (s.eread l a va 128)

/-- The checks of a command: its form, the feature, its VAs and the group table. -/
def State.checkCask (s : State) (l : Nat) (b : List Byte) : Check CaskCmd :=
  let a := s.qAsid l 0
  (Check.need (caskOk b && s.feature 3)).bind fun _ =>
  (Check.ofAccess (s.ewrite none (s.qTag l 0) l a (ef b 0x20 8) (leBytes 32 0))).bind fun _ =>
  (Check.ofAccess (s.eread l a (ef b 0x30 8) (2 * (ef b 0x3C 2 * ef b 0x38 2)))).bind fun t =>
  (s.checkAttachment l b).bind fun att =>
  (Check.need ((groupList t)[ef b 0x3A 2 * ef b 0x38 2 + ef b 6 2]? == some s.devnum)).bind fun _ =>
  .ok { b := b, group := groupList t, att := att }

/-- A command cannot be read, or breaks its form: BADCMD, with no status block where the command gives none. -/
def State.caskBad (s : State) (l : Nat) (va : Option Nat) : State :=
  match va with
  | some va => s.caskEnd l va { code := csBADCMD }
  | none => (s.queueRecord l 0 1 (s.leafAt l).caskCons.toNat).caskAdvance l

/-- An access of the next command waits: it asks, or the command goes on to `failed` when the wait has failed (R97,
R127). -/
def State.caskWait (s : State) (l : Nat) (e : AccErr) (failed : State) : State :=
  let f := s.leafAt l
  match e.next f.caskHold s.now with
  | some h => (s.setLeafAt l { f with caskHold := h }).askOnce l f.caskHold e
  | none => failed

/-- The page of the status block must be waited for: its block is written whatever the command's status (R284). -/
def State.statusLack (s : State) (l va : Nat) : Option AccErr :=
  match s.ewrite none (s.qTag l 0) l (s.qAsid l 0) va (leBytes 32 0) with
  | .error e => if e.waits then some e else none
  | .ok _ => none

/-- A command ends with BADCMD, once its status block can be written. -/
-- DESIGN CHOICE (assumption 91): one whose page cannot be had is lost, with the record alone.
def State.caskRefuse (s : State) (l va : Nat) : State :=
  match s.statusLack l va with
  | some e => s.caskWait l e (s.caskBad l (some va))
  | none => s.caskBad l (some va)

/-- Run the next command when its kind is one of `kinds`: `lack` is a page of another device it waits for first, and `f`
gives the state before the status block and the status.  A command whose status block is still to be written goes on with
that. -/
def State.cask (s : State) (l : Nat) (kinds : Nat → Bool) (lack : State → CaskCmd → Option AccErr)
    (f : State → CaskCmd → State × CaskStatus) : Out :=
  if !s.caskReady l then .next s else
  match (s.leafAt l).caskDone with
  | some d => .next (s.caskClose l d)
  | none =>
  match s.caskEntry l with
  | .error e => if !kinds 3 then .next s else .next (s.caskWait l e (s.caskBad l none))
  | .ok b =>
    let va := ef b 0x20 8 % 2 ^ 48
    if !kinds (ef b 0 1) then .next s else
    match s.checkCask l b with
    | .wait e _ => .next (s.caskWait l e (s.caskBad l (some va)))
    | .bad => .next (s.caskRefuse l va)
    | .desc _ => .next s
    | .ok c =>
      let r := f s c
      let done := r.1.caskEnd l (ef b 0x20 8) r.2
      match lack s c with
      | some e => .next (s.caskWait l e done)
      | none => .next done

/-! ### Frames and flash -/

/-- The bytes of `n` addresses from `a`, from cells in canonical form. -/
def cellBytes : Nat → Nat → List Host.Cell → List Byte
  | 0, _, _ => []
  | n + 1, a, [] => memDefault :: cellBytes n (a + 1) []
  | n + 1, a, (k, b) :: t => if k = a then b :: cellBytes n (a + 1) t else memDefault :: cellBytes n (a + 1) ((k, b) :: t)

/-- The hash of a frame's contents, as a number (R285). -/
def frameHash (cells : List Host.Cell) : Nat := beNat (sha256of512 (cellBytes 65536 0 cells))

def State.flashOf (s : State) (dev : Nat) : Store := tget {} s.flash dev
def State.setFlash (s : State) (dev : Nat) (x : Store) : State := { s with flash := tput s.flash dev x }

/-- One item of a walk: VA, leaf entry, frame. -/
abbrev Item := Nat × Nat × Nat

/-- The local frames below a node in ascending VA; an entry in a poisoned line of the node cannot be read, and gives the VA
that it stands for (R109).  The first argument is the node's level plus one. -/
-- DESIGN CHOICE (assumption 90): such a node below the root is met in its turn, at the VA where its entry begins.
def State.itemsFrom (s : State) (l lo hi : Nat) : Nat → Nat → Nat → List (Except Nat Item)
  | 0, _, _ => []
  | level + 1, va, node =>
    let span := 2 ^ (16 + 8 * level)
    ((List.range 256).filter (fun i => decide (va + span * i < hi) && decide (lo < va + span * (i + 1)))).flatMap (fun i =>
      let e := entAt s.mem node i
      let at' := va + span * i
      if (s.lineAt ((node + 8 * i) / 128)).poison then [.error (max lo at')]
      else if s.malformed l level e then []
      else match entKind e with
        | 1 => s.itemsFrom l lo hi level at' (entPa e)
        | 2 => if !s.entLocal e then []
          else if level = 0 then [.ok (at', e, entPa e)]
          else (((List.range 256).map (fun j => (at' + 65536 * j, e, entPa e + 65536 * j))).filter
            (fun t => decide (lo ≤ t.1) && decide (t.1 < hi))).map .ok
        | _ => [])

/-- The device that owns the page of a local frame of which no replica is here (R94). -/
def State.ownerAway (s : State) (pa : Nat) : Option Nat :=
  let p := s.pageAt (s.devnum * 2 ^ 36 + pa / 65536)
  if p.owner != s.devnum && !p.here then some p.owner else none

/-- A line of a frame is poisoned. -/
def State.framePoisoned (s : State) (pa : Nat) : Bool :=
  s.lines.any (fun p => p.2.poison && decide (pa / 128 ≤ p.1) && decide (p.1 < pa / 128 + 512))

/-! ### CHECKPOINT (R285, R286) -/

/-- The bytes of a manifest's entry. -/
def entryBytes (t : Item) (h o : Nat) : List Byte :=
  let e := t.2.1
  leBytes 8 t.1 ++ beBytes 32 h ++ leBytes 2 o
    ++ leBytes 1 ((if entW e then 1 else 0) + (if entX e then 2 else 0) + (if entN e then 4 else 0)) ++ leBytes 5 0

/-- Hash the items in order and write the frames this replica owns: the frames written, newest first, and the
entries' bytes.  An item whose page is away is read through its replica, or its owner cannot be reached (R94, R284). -/
def State.hashItems (s : State) (c : CaskCmd) (have' : Nat → Bool) :
    List (Except Nat Item) → List (Nat × List Host.Cell) → List Byte → Except CaskStatus (List (Nat × List Host.Cell) × List Byte)
  | [], new, es => .ok (new, es)
  | .error va :: _, _, _ => .error { code := csMISSING, a := va, b := 2 ^ 64 - 1 }
  | .ok t :: rest, new, es =>
    match s.ownerAway t.2.2 with
    | some d => .error { code := csUNREACH, a := d }
    | none =>
    if s.framePoisoned t.2.2 then .error { code := csMISSING, a := t.1, b := 2 ^ 64 - 1 } else
    let cells := memCells s.mem t.2.2 65536
    let h := frameHash cells
    let o := h % c.count
    let es := es ++ entryBytes t h o
    if o = c.r && !have' h && !thas new h then
      if s.flashRoom < 65536 * (new.length + 1) then .error { code := csNOSPACE }
      else s.hashItems c have' rest ((h, cells) :: new) es
    else s.hashItems c have' rest new es

/-- The signed manifest. -/
def CaskCmd.manifest (c : CaskCmd) (es : List Byte) : List Byte :=
  let att := c.flag 1
  let m := leBytes 4 0x4B534143 ++ leBytes 4 1 ++ leBytes 8 c.step ++ leBytes 2 c.r ++ leBytes 2 c.count ++ leBytes 2 c.shard
    ++ leBytes 2 (if att then 1 else 0) ++ leBytes 8 (ef c.b 0x10 8) ++ leBytes 8 (ef c.b 0x18 8) ++ leBytes 4 (es.length / 48)
    ++ leBytes 84 0 ++ (if att then c.att else []) ++ es
  m ++ beBytes 132 (Config.identitySign (beNat (sha512 m)))

/-- The manifest a device holds of a step and shard. -/
def Store.manifest (x : Store) (step shard : Nat) : Option (List Byte) :=
  (x.manifests.find? (fun m => m.1 == step && m.2.1 == shard)).map (fun m => m.2.2)

def Store.without (x : Store) (step shard : Nat) : List (Nat × Nat × List Byte) :=
  x.manifests.filter (fun m => !(m.1 == step && m.2.1 == shard))

/-- The items of a shard in an ASID's current tree. -/
def State.shardItems (s : State) (l a : Nat) (c : CaskCmd) : List (Except Nat Item) :=
  s.itemsFrom l (ef c.b 0x10 8) (ef c.b 0x18 8) 4 0 (s.asidAt l a).cur.root

/-- Hash, store and sign: the frames written and the manifest go to flash together, or nothing does. -/
def State.storeShard (s : State) (l snap : Nat) (c : CaskCmd) : State × CaskStatus :=
  let items := s.shardItems l snap c
  let x := s.flashOf s.devnum
  match s.hashItems c (fun h => thas x.frames h) items [] [] with
  | .error st => (s, st)
  | .ok (new, es) =>
    let m := c.manifest es
    let old := match x.manifest c.step c.shard with
      | some o => o.length
      | none => 0
    let need := 65536 * new.length + m.length
    if s.flashRoom + old < need then (s, { code := csNOSPACE }) else
    let s := s.setFlash s.devnum { frames := x.frames ++ new, manifests := (c.step, c.shard, m) :: x.without c.step c.shard }
    ({ s with flashRoom := s.flashRoom + old - need }, { frames := new.length, step := c.step })

/-- The first item of a checkpoint whose page is away, as the access that fetches its replica (R94). -/
def State.itemLack (s : State) (l : Nat) (c : CaskCmd) : Option AccErr :=
  match s.fork l c.asid (ef c.b 4 2) true with
  | .error _ => none
  | .ok _ => ((s.shardItems l c.asid c).takeWhile (fun t => t.isOk)).findSome? (fun t => match t with
      | .ok t => (s.ownerAway t.2.2).map (fun _ => .page (s.devnum * 2 ^ 36 + t.2.2 / 65536) false t.1)
      | .error _ => none)

-- DESIGN CHOICE (assumption 90): a poisoned root of the source is MISSING, at the shard's base.
def execCheckpoint (l : Nat) (s : State) : Out :=
  s.cask l (fun k => k == 1) (fun s c => s.itemLack l c) (fun s c =>
    let snap := ef c.b 4 2
    match s.fork l c.asid snap true with
    | .error e => (s, if e = stSTATE then { code := csSTATE }
        else if e = stLOST then { code := csMISSING, a := ef c.b 0x10 8, b := 2 ^ 64 - 1 } else { code := csNOMEM })
    | .ok s =>
      let r := s.storeShard l snap c
      (match r.1.dropAsid l snap with
        | .ok s => s
        | .error _ => r.1, r.2))

/-! ### ERASE (R287) -/

/-- The entries of a manifest. -/
def manifestEntries (m : List Byte) : List (List Byte) :=
  let off := 0x80 + if bitAt (ef m 0x16 2) 0 then 128 else 0
  (List.range (ef m 0x28 4)).map (fun i => (m.drop (off + 48 * i)).take 48)

/-- A manifest names a frame as its own replica's. -/
def manifestOwns (m : List Byte) (h : Nat) : Bool :=
  (manifestEntries m).any (fun e => beNat ((e.drop 8).take 32) == h && ef e 40 2 == ef m 0x10 2)

-- DESIGN CHOICE (assumption 32): an ERASE of a manifest that is not there ends OK.
def execErase (l : Nat) (s : State) : Out :=
  s.cask l (fun k => k != 1 && k != 2) (fun _ _ => none) (fun s c =>
    let x := s.flashOf s.devnum
    let ms := x.without c.step c.shard
    let kept := x.frames.filter (fun f => ms.any (fun m => manifestOwns m.2.2 f.1))
    let freed := 65536 * (x.frames.length - kept.length) + (match x.manifest c.step c.shard with
      | some o => o.length
      | none => 0)
    let s := s.setFlash s.devnum { frames := kept, manifests := ms }
    ({ s with flashRoom := s.flashRoom + freed }, {}))

/-! ### RESTORE (R288) -/

/-- The newest step a device holds for a shard. -/
def Store.newest (x : Store) (shard : Nat) : Option Nat :=
  ((x.manifests.filter (fun m => m.2.1 == shard)).map (fun m => m.1)).foldl (fun m n => match m with
    | none => some n
    | some k => some (max k n)) none

/-- The devices of the table with their shards. -/
def CaskCmd.members (c : CaskCmd) : List (Nat × Nat) := c.group.mapIdx (fun i d => (i / c.count, d))

/-- A device of the table that cannot be reached: every link is down, or the function may not reach it (R299). -/
def State.unreached (s : State) (l : Nat) (c : CaskCmd) : Option Nat :=
  (c.group.find? (fun d => d != s.devnum && (s.links.isEmpty || !s.feature 2 || !s.mayReach l d)))

/-- The step a RESTORE uses (R288). -/
-- DEDUCED (assumption 32): every device of the table is asked for its own shard.
def State.settleStep (s : State) (c : CaskCmd) : Except CaskStatus Nat :=
  let held := fun (p : Nat × Nat) (n : Nat) => ((s.flashOf p.2).manifest n p.1).isSome
  if c.step ≠ newest then
    match c.members.find? (fun p => !held p c.step) with
    | some p => .error { code := csNOSTEP, a := c.step, b := p.2 }
    | none => .ok c.step
  else match (s.flashOf s.devnum).newest c.shard with
    | none => .error { code := csNOSTEP }
    | some mine =>
      if c.flag 0 then
        let steps := ((s.flashOf s.devnum).manifests.filter (fun m => m.2.1 == c.shard)).map (fun m => m.1)
        match (steps.filter (fun n => c.members.all (fun p => held p n))).foldl (fun m n => match m with
            | none => some n
            | some k => some (max k n)) none with
        | none => .error { code := csNOSTEP }
        | some n => .ok n
      else match c.members.find? (fun p => p.1 != c.shard && (s.flashOf p.2).newest p.1 != some mine) with
        | some p => .error { code := csSTEPMIX, a := mine, b := ((s.flashOf p.2).newest p.1).getD 0 }
        | none => .ok mine

/-- A frame of local DRAM is filled, on behalf of an ASID (R303). -/
def State.fillFrame (s : State) (tag : OwnerTag) (pa : Nat) (cells : List Host.Cell) : State :=
  { s with
    mem := memReplace s.mem pa 65536 cells
    lines := s.lines.filter (fun p => decide (p.1 < pa / 128) || decide (pa / 128 + 512 ≤ p.1))
      ++ (List.range 512).map (fun i => (pa / 128 + i, ({ dirty := true, tag := some tag } : Line))) }

/-- Take and fill a frame for each entry; an error comes with the frame pool as it then stands.  The page of a frame must be
this device's before it is filled (R95). -/
def State.fillEntries (l : Nat) (tag : OwnerTag) (c : CaskCmd) :
    List (List Byte) → State → List REdit → List Nat → Except (CaskStatus × Pool × List Nat) (State × List REdit × List Nat)
  | [], s, es, fs => .ok (s, es, fs)
  | e :: rest, s, es, fs =>
    let pool := fun (s : State) => (s.leafAt l).framePool
    match s.takeFrame l false with
    | .error _ => .error ({ code := csNOMEM }, pool s, fs)
    | .ok (f, s) =>
      let h := beNat ((e.drop 8).take 32)
      let o := ef e 40 2
      let dev := if o = c.r then s.devnum else c.group.getD (c.shard * c.count + o) s.devnum
      let cells := tget [] (s.flashOf dev).frames h
      if !thas (s.flashOf dev).frames h || frameHash cells != h then
        .error ({ code := csMISSING, a := ef e 0 8, b := dev }, pool s, fs ++ [f])
      else if (s.frameAway f).isSome then
        .error ({ code := csUNREACH, a := (s.pageAt (s.devnum * 2 ^ 36 + f / 65536)).owner }, pool s, fs ++ [f])
      else
        let fl := ef e 42 1
        let ent := mkEnt 2 (bitAt fl 0) (bitAt fl 1) false (bitAt fl 2) (fld f 38 2) f s.devnum
        State.fillEntries l tag c rest (s.fillFrame tag f cells) (es ++ [{ va := ef e 0 8, lvl1 := false, entry := ent }]) (fs ++ [f])

/-- A failed RESTORE: the frames it took return to the pool's tail, and nothing else has changed. -/
def State.unfill (s : State) (l : Nat) (pool : Pool) (fs : List Nat) : State :=
  s.setLeafAt l { s.leafAt l with framePool := fs.foldl (fun p f => p.free f) pool }

/-- Does the identity key's signature of a manifest verify?  One this device made does. -/
def manifestSigned (m : List Byte) : Bool :=
  let n := m.length - 132
  let d := beNat (sha512 (m.take n))
  let sig := beNat (m.drop n)
  sig == Config.identitySign d || Config.identityVerify d sig

/-- The attachment of a manifest, with the session field patched when asked. -/
def CaskCmd.attachment (c : CaskCmd) (m : List Byte) : Option (List Byte) :=
  if c.flag 1 && bitAt (ef m 0x16 2) 0 then
    let a := (m.drop 0x80).take 128
    some (if c.flag 3 then a.take 0x20 ++ leBytes 2 c.asid ++ a.drop 0x22 else a)
  else none

/-- The frames are mapped and generation 1 of the target published, and the attachment written, whose page may have to be
copied to a frame that is another device's until it has been asked for (R95). -/
def State.publishShard (s0 : State) (l : Nat) (c : CaskCmd) (m : List Byte) (s : State) (es : List REdit) (fs : List Nat) :
    State × CaskStatus :=
  match rebuild l false 4 s none false es with
  | .error _ => (s0.unfill l (s.leafAt l).framePool fs, { code := csNOMEM })
  | .ok (r, s) =>
    let s := s.setAsid l c.asid {
      st := if c.flag 2 then .readonly else .live, gens := [{ num := 1, root := r.node }], ord := (s.asidAt l c.asid).ord + 1 }
    let done : CaskStatus := { frames := fs.length, step := ef m 8 8 }
    match c.attachment m with
    | none => (s, done)
    | some a => match s.ewrite none (s.qTag l 0) l (s.qAsid l 0) (ef c.b 0x28 8) a with
      | .ok s => (s, done)
      | .error e => (s0.unfill l (s.leafAt l).framePool fs, match e with
        | .page key _ _ => { code := csUNREACH, a := (s.pageAt key).owner }
        | _ => { code := csNOMEM })

def State.restoreShard (s : State) (l : Nat) (c : CaskCmd) : State × CaskStatus :=
  if (s.asidAt l c.asid).st != .free then (s, { code := csSTATE }) else
  match s.unreached l c with
  | some d => (s, { code := csUNREACH, a := d })
  | none => match s.settleStep c with
    | .error st => (s, st)
    | .ok step => match (s.flashOf s.devnum).manifest step c.shard with
      | none => (s, { code := csNOSTEP, a := step, b := s.devnum })
      | some m =>
        if !manifestSigned m then (s, { code := csBADSIG }) else
        match State.fillEntries l { leaf := l, asid := some c.asid } c (manifestEntries m) s [] [] with
        | .error (st, pool, fs) => (s.unfill l pool fs, st)
        | .ok (t, es, fs) => s.publishShard l c m t es fs

/-- The first frame a restore would fill, or copy the attachment's page to, whose page is away, as the access that asks for
its ownership (R95). -/
def State.fillLack (s : State) (l : Nat) (c : CaskCmd) : Option AccErr :=
  let r := s.restoreShard l c
  if r.2.code != csUNREACH || (s.unreached l c).isSome then none
  else (s.framesAway l (((s.leafAt l).framePool.size + 65536 * (s.leafAt l).framePool.tail.length) / 65536)).map
    (fun k => .page k true 0)

def execRestore (l : Nat) (s : State) : Out :=
  s.cask l (fun k => k == 2) (fun s c => s.fillLack l c) (fun s c => s.restoreShard l c)

end Sys2Proof.Machine
end

