-- ==== Sys2Proof/Machine/CmpSel.lean ====
section
/-! DEFINITION. Compare and select (R227, R228). -/

namespace Sys2Proof.Machine

/-! ### cmp (R227) -/

/-- A compare writes sD with one bit for each active lane where its condition holds, whatever `exec` is. -/
def State.compare (s : State) (fp : Bool) (d : BitVec 5) (a b : BitVec 7) (f : Word → Word → Bool × List Nat) : Out :=
  if srcSel a && srcSel b && s.extFits [a, b] then
    let k : OpKind := if fp then .fp else .int
    let x := s.src k a
    let y := s.src k b
    let at' := fun (l : Fin 32) => f (x.at l) (y.at l)
    let m := maskOf (fun l => lane s.r.exec l && (at' l).1)
    let cheap := (x.isU && y.isU) || (!fp && !x.isG && !y.isG)
    let s' := noteRead s false (gSel s.gang.wg [a, b])
    s.retireEv (s'.setR (s'.r.setS d m)) (vecCost cheap s.r.exec) 4 ((lanesOf s.r.exec).flatMap (fun l => (at' l).2))
  else s.illop 4 true

/-- A floating compare: `quiet` compares raise nothing on a NaN, ordered ones NV; `onNan` is the result
then. -/
def fcmp (quiet onNan : Bool) (f : Num → Num → Bool) (a b : Word) : Bool × List Nat :=
  let x := ofF32 a
  let y := ofF32 b
  if x.isNan || y.isNan then (onNan, if quiet then [] else [evNV]) else (f x y, [])

def icmp (f : Word → Word → Bool) (a b : Word) : Bool × List Nat := (f a b, [])

def execCmpFeq (d : BitVec 5) (a b : BitVec 7) (s : State) : Out := s.compare true d a b (fcmp true false Num.eq)
def execCmpFne (d : BitVec 5) (a b : BitVec 7) (s : State) : Out := s.compare true d a b (fcmp true true (fun x y => !x.eq y))
def execCmpFlt (d : BitVec 5) (a b : BitVec 7) (s : State) : Out := s.compare true d a b (fcmp false false Num.lt)
def execCmpFle (d : BitVec 5) (a b : BitVec 7) (s : State) : Out := s.compare true d a b (fcmp false false (fun x y => !y.lt x))
def execCmpFgt (d : BitVec 5) (a b : BitVec 7) (s : State) : Out := s.compare true d a b (fcmp false false (fun x y => y.lt x))
def execCmpFge (d : BitVec 5) (a b : BitVec 7) (s : State) : Out := s.compare true d a b (fcmp false false (fun x y => !x.lt y))
def execCmpFun (d : BitVec 5) (a b : BitVec 7) (s : State) : Out := s.compare true d a b (fcmp true true (fun _ _ => false))
def execCmpFord (d : BitVec 5) (a b : BitVec 7) (s : State) : Out := s.compare true d a b (fcmp true false (fun _ _ => true))
def execCmpIeq (d : BitVec 5) (a b : BitVec 7) (s : State) : Out :=
  s.compare false d a b (icmp (fun a b => a == b))
def execCmpIne (d : BitVec 5) (a b : BitVec 7) (s : State) : Out :=
  s.compare false d a b (icmp (fun a b => a != b))
def execCmpIlt (d : BitVec 5) (a b : BitVec 7) (s : State) : Out :=
  s.compare false d a b (icmp (fun a b => decide (a.toInt < b.toInt)))
def execCmpIle (d : BitVec 5) (a b : BitVec 7) (s : State) : Out :=
  s.compare false d a b (icmp (fun a b => decide (a.toInt ≤ b.toInt)))
def execCmpNlt (d : BitVec 5) (a b : BitVec 7) (s : State) : Out :=
  s.compare false d a b (icmp (fun a b => decide (a.toNat < b.toNat)))
def execCmpNle (d : BitVec 5) (a b : BitVec 7) (s : State) : Out :=
  s.compare false d a b (icmp (fun a b => decide (a.toNat ≤ b.toNat)))
def execCmpTst (d : BitVec 5) (a b : BitVec 7) (s : State) : Out :=
  s.compare false d a b (icmp (fun a b => a &&& b != 0))

/-! ### sel (R216, R228) -/

/-- The result of a selection by a mask: U or the selected operand's tag when the mask is uniform over the
launched lanes, else G unless both are U and equal. -/
def selV (x y : VReg) (m launched : Word) : VReg :=
  if m &&& launched = launched then x
  else if m &&& launched = 0 then y
  else match x, y with
    | .u b, .u c => if b = c then .u b else .gen (fun l => if lane m l then x.at l else y.at l)
    | _, _ => .gen (fun l => if lane m l then x.at l else y.at l)

-- DESIGN CHOICE (assumption 98): a mask that is not uniform is a G source for the cost of R18 too.
def execSel (d a b : BitVec 7) (k : BitVec 4) (s : State) : Out :=
  let m := s.r.sreg (k.setWidth 5 + 16)
  let uni := m &&& s.gang.launched == s.gang.launched || m &&& s.gang.launched == 0
  if s.vrOk d [a, b] then
    let x := s.src .int a
    let y := s.src .int b
    let v := selV x y m s.gang.launched
    s.deliver 4 d [a, b] (!x.isG && !y.isG && uni) v []
  else s.illop 4 true

end Sys2Proof.Machine
end

