-- ==== Sys2Proof/Machine/Compact.lean ====
section
/-! DEFINITION. The EXT prefix and the 16-bit forms (R173 to R176). -/

namespace Sys2Proof.Machine

/-- EXT supplies its payload to the word that follows; EXT after EXT is ILLOP (R175, R176).  The program counter
stays at the EXT, so the two words are one instruction for every purpose. -/
def execExt (p : BitVec 25) (s : State) : Out :=
  if s.gang.ext.isSome then s.illop 4 true else .next (s.setGang { s.gang with ext := some p })

/-- The selectors of a 16-bit form: vD, and v0–v31. -/
def vD (d : BitVec 6) : BitVec 7 := d.setWidth 7
def vS (a : BitVec 5) : BitVec 7 := a.setWidth 7

def execCMov (d : BitVec 6) (a : BitVec 5) (s : State) : Out := s.lane2 2 (vD d) (vS a) 0x70 addV
def execCIadd (d : BitVec 6) (a : BitVec 5) (s : State) : Out := s.lane2 2 (vD d) (vD d) (vS a) addV
def execCIsub (d : BitVec 6) (a : BitVec 5) (s : State) : Out := s.lane2 2 (vD d) (vD d) (vS a) subV
def execCImul (d : BitVec 6) (a : BitVec 5) (s : State) : Out := s.lane2 2 (vD d) (vD d) (vS a) mulV
def execCAnd (d : BitVec 6) (a : BitVec 5) (s : State) : Out := s.lane2 2 (vD d) (vD d) (vS a) (word2 (· &&& ·))
def execCOr (d : BitVec 6) (a : BitVec 5) (s : State) : Out := s.lane2 2 (vD d) (vD d) (vS a) (word2 (· ||| ·))
def execCXor (d : BitVec 6) (a : BitVec 5) (s : State) : Out := s.lane2 2 (vD d) (vD d) (vS a) (word2 (· ^^^ ·))
def execCShl (d : BitVec 6) (a : BitVec 5) (s : State) : Out := s.lane2 2 (vD d) (vD d) (vS a) shlV
def execCShr (d : BitVec 6) (a : BitVec 5) (s : State) : Out := s.lane2 2 (vD d) (vD d) (vS a) (word2 shrW)
def execCSra (d : BitVec 6) (a : BitVec 5) (s : State) : Out := s.lane2 2 (vD d) (vD d) (vS a) (word2 sraW)

/-- A 16-bit floating form. -/
def State.cFloat (s : State) (d : BitVec 6) (a : BitVec 5) (f : List Word → Word × List Nat) : Out :=
  s.laneEv 2 true (vD d) [(.fp, vD d), (.fp, vS a)] none f

def execCFadd (d : BitVec 6) (a : BitVec 5) (s : State) : Out := s.cFloat d a (faAdd s.r.rm)
def execCFsub (d : BitVec 6) (a : BitVec 5) (s : State) : Out := s.cFloat d a (faSub s.r.rm)
def execCFmul (d : BitVec 6) (a : BitVec 5) (s : State) : Out := s.cFloat d a (faMul s.r.rm)
def execCFmax (d : BitVec 6) (a : BitVec 5) (s : State) : Out := s.cFloat d a (faMinMax true)
def execCFmin (d : BitVec 6) (a : BitVec 5) (s : State) : Out := s.cFloat d a (faMinMax false)

def execCIaddi (d : BitVec 6) (i : BitVec 5) (s : State) : Out :=
  if s.gang.ext.isSome then s.illop 2 true else
    let x := s.src .int (vD d)
    let v := addV x (.u (i.signExtend 32))
    s.deliver 2 (vD d) [vD d] (!x.isG && !v.isG) v []

end Sys2Proof.Machine
end

