-- ==== Sys2Proof/Machine/Copy.lean ====
section
/-! DEFINITION. The copy-engine instructions cp (R259 to R262). -/

namespace Sys2Proof.Machine

/-- The checks of a byte copy: length and overlap, then the addresses' alignment, destination first (R260). -/
def State.copyChecks (s : State) (n dst src : Nat) (overlap : Bool) (k : Out) : Out :=
  s.withEng true (
    if n % 4 ≠ 0 || overlap then s.engIll true
    else if dst % 4 ≠ 0 then s.raise 4 tcALIGN 0 dst 0
    else if src % 4 ≠ 0 then s.raise 4 tcALIGN 0 src 0
    else k)

def execCpG2s (a b c : BitVec 5) (p : BitVec 1) (s : State) : Out :=
  s.withSeg (fun seg => s.copyChecks (s.n c) (s.n a) (seg + s.n b) false
    (s.scrRange (s.n a) (s.n c) (s.issue true (p == 1) (.g2s (s.n a) (seg + s.n b) (s.n c)))))

def execCpS2g (a b c : BitVec 5) (p : BitVec 1) (s : State) : Out :=
  s.withSeg (fun seg => s.copyChecks (s.n c) (seg + s.n a) (s.n b) false
    (s.scrRange (s.n b) (s.n c) (s.issue true (p == 1) (.s2g (seg + s.n a) (s.n b) (s.n c)))))

def execCpG2g (a b c : BitVec 5) (p : BitVec 1) (s : State) : Out :=
  s.withSeg (fun seg =>
    let d := s.n a
    let x := s.n b
    let n := s.n c
    s.copyChecks n (seg + d) (seg + x) (n != 0 && decide (d < x + n) && decide (x < d + n))
      (s.issue true (p == 1) (.g2g (seg + d) (seg + x) n)))

/-- A slot load (R261). -/
def State.slotLoad (s : State) (slot : Nat) (h : BitVec 2) (aligned : Bool) (maskOk : Bool) (k : Out) : Out :=
  if h = 3 then s.illop 4 false else
  s.held [(0, slot)] (s.withEng true (if !maskOk || !aligned then s.engIll true else k))

def execCpG2o (a b c : BitVec 5) (h : BitVec 2) (p : BitVec 1) (s : State) : Out :=
  s.withSeg (fun seg => s.slotLoad (s.n a % 32) h (s.n b % 32 == 0 && s.n c % 32 == 0) (decide (s.n a < 32))
    (s.issue true (p == 1) (.slot (s.n a % 32) true (seg + s.n b) (s.n c) h.toNat)))

def execCpS2o (a b c : BitVec 5) (h : BitVec 2) (p : BitVec 1) (s : State) : Out :=
  s.noExt (s.slotLoad (s.n a % 32) h (s.n b % 32 == 0 && s.n c % 32 == 0) (decide (s.n a < 32))
    (s.scrRange (s.n b) (((shapeOf h.toNat).1 - 1) * s.n c + (shapeOf h.toNat).2)
      (s.issue true (p == 1) (.slot (s.n a % 32) false (s.n b) (s.n c) h.toNat))))

def execCpGat (a b c : BitVec 5) (h : BitVec 2) (p : BitVec 1) (s : State) : Out :=
  s.noExt (s.slotLoad (s.n a % 32) h (decide (1 ≤ s.n c) && decide (s.n c ≤ (shapeOf h.toNat).1)) (decide (s.n a < 32))
    (s.scrRange (s.n b) (8 * s.n c) (s.issue true (p == 1) (.gat (s.n a % 32) (s.n b) (s.n c) h.toNat))))

/-- `cp.meta` (R262); `m` is SPM. -/
def execCpMeta (a b : BitVec 5) (m p : BitVec 1) (s : State) : Out :=
  let slot := s.n a % 8
  let go := fun (src : Nat) (k : Out) => s.held [(2, slot)] (s.withEng true (s.packed true 0xFF [(s.n a, 7)] (
    if src % 64 ≠ 0 then s.raise 4 tcALIGN 0 src 0 else k)))
  if m = 1 then s.noExt (go (s.n b) (s.scrRange (s.n b) 512 (s.issue true (p == 1) (.metaLd slot false (s.n b)))))
  else s.withSeg (fun seg => go (seg + s.n b) (s.issue true (p == 1) (.metaLd slot true (seg + s.n b))))

/-- `cp.act` (R262). -/
def execCpAct (a : BitVec 5) (p : BitVec 1) (s : State) : Out :=
  s.withSeg (fun seg => s.withEng true (
    if s.n a % 128 ≠ 0 then s.raise 4 tcALIGN 0 (seg + s.n a) 0 else s.issue true (p == 1) (.act (seg + s.n a))))

end Sys2Proof.Machine
end

