-- ==== Sys2Proof/Machine/Ctl.lean ====
section
/-! DEFINITION. The control instructions ctl (R41, R91, R113, R162, R206 to R208). -/

namespace Sys2Proof.Machine

/-- The value of an SY word that accepts an EXT: the immediate zero-extended, 32 bits with the payload, or the
named register; none when the EXT is misused (R175, R207). -/
def State.syImm (s : State) (i : BitVec 16) : Option Word :=
  match s.gang.ext with
  | none => some (i.setWidth 32)
  | some p =>
    if bitAt p.toNat 24 then
      if i = 0 ∧ fld p.toNat 5 19 = 0 then some (s.r.sreg (p.setWidth 5)) else none
    else if fld p.toNat 16 8 = 0 then some ((p.setWidth 16 : BitVec 16) ++ i) else none

/-- Go on with that value, or ILLOP. -/
def State.withSyImm (s : State) (i : BitVec 16) (k : Word → Out) : Out :=
  match s.syImm i with
  | none => s.illop 4 true
  | some v => k v

def execCtlNop (s : State) : Out := s.noExt s.retire

/-- The gang issues nothing more (R206); it retires with its last engine operation (R15). -/
def execCtlHalt (s : State) : Out :=
  s.noExt (s.withEng false (s.withEng true (
    if !s.quiet then s.stall else
    let s := s.advance 1 4
    .next (s.setGang { s.gang with st := .halted, trap := false }))))

def execCtlYield (s : State) : Out :=
  s.noExt (.next ((s.setGang { s.gang with yielded := true }).advance 1 4))

/-- The gang runs speculatively past a wait that is not complete, which keeps its place in the order (R207). -/
def State.passWait (s : State) (handle n : Word) : Out :=
  let t := s.advance 1 4
  let w : PendWrite := { seq := s.gang.seq, space := .wait handle n, before := s.r, after := t.r }
  .next (t.setGang { t.gang with stores := t.gang.stores ++ [w] })

/-- R207's steps. -/
def execCtlWait (h : BitVec 5) (i : BitVec 16) (s : State) : Out :=
  s.withSyImm i (fun n =>
    let hd := s.r.sreg h
    match s.counterOf hd with
    | none => s.illop 4 false
    | some c =>
      let go : Out :=
        if reached (c.setWidth 32) n then s.retire
        else if s.specWaits && s.gang.level == 0 then s.passWait hd n
        else s.stallAs .timeline
      match s.ownContext hd with
      | none => go
      | some copy =>
        let d := (n - BitVec.ofNat 32 (s.r.comm copy)).toNat
        if 1 ≤ d ∧ d < 2 ^ 31 then s.illop 4 false n.toNat else s.withEng copy go)

def execCtlRefresh (s : State) : Out :=
  s.noExt (if s.quiet then (s.repin s.cur).retire else s.stall)

/-! ### ctl.ivl (R41, R162, R164) -/

/-- The interval becomes current with a new flashback point; a gang that runs forward to be pre-empted stops
here, its PC at the `ctl.ivl` and its registers those of the point. -/
-- DESIGN CHOICE (assumption 93): the point that a recipe's `ctl.ivl` re-enters keeps its count of retries; the kernel's own
-- `ctl.ivl` starts a new one.
def State.enterIvl (s : State) (n save recipe : Nat) : State :=
  let g := s.gang
  let pc := if g.recipe.isSome then g.fault.resume else g.r.pc
  let r := { g.r with pc := pc }
  let s := (s.setGang { g with
    r := r, trap := g.trap && g.recipe.isNone, recipe := none, level := 0, rolls := [], ivl := n
    flash := { valid := decide (popBits 64 save ≤ 16), regs := r, save := save, seq := g.seq, recipe := recipe,
               tries := if g.recipe.isSome then g.flash.tries else 0 } }).advance 1 4
  if g.forward.isSome then
    let g := s.gang
    (s.setGang { g with st := .saved, kind := 1, forward := none, r := g.flash.regs }).tryFinish g.wg
  else s

/-- Read the interval's entry and enter it. -/
-- DESIGN CHOICE (assumption 72): the entry is read as an engine reads, under the ASID's current generation; one that
-- cannot be read raises the trap of that access, with its address.
def State.ivlEntry (s : State) (k : KDesc) (n : Nat) : Out :=
  if k.ivlN ≤ n then s.illop 4 false else
  if !s.quiet then s.stall else
  match s.eread s.leafNo s.gang.asid ((k.ivlVa + 24 * n) % 2 ^ 48) 24 (some s.cur) with
  | .error e => s.accStop e
  | .ok b =>
    if 24 < popBits 64 (leNat (b.take 8)) then s.illop 4 false
    else .next (s.enterIvl n (leNat ((b.drop 8).take 8)) (leNat ((b.drop 16).take 4)))

def execCtlIvl (i : BitVec 16) (s : State) : Out :=
  s.noExt (
    let k := s.grid.k
    let n := i.toNat
    match s.gang.recipe with
    | some (m, off) => if m ≠ n then s.illop 4 false off else s.ivlEntry k n
    | none => if s.gang.trap then s.illop 4 false else s.ivlEntry k n)

/-- BRK on the boundary after it (R153, R206). -/
def execCtlBrk (i : BitVec 16) (s : State) : Out :=
  s.noExt (if s.quiet then .next ((s.advance 1 4).boundary tcBRK i.toNat) else s.stall)

/-- The value `ctl.wdog` writes (R208). -/
def State.wdogValue (s : State) (i : BitVec 16) (v : Word) : Word :=
  if s.gang.ext.isSome then v
  else if i = 0 then 0
  else BitVec.ofNat 32 (0x80000000 + fld i.toNat 12 4 * 2 ^ 24 + fld i.toNat 0 12)

def execCtlWdog (i : BitVec 16) (s : State) : Out :=
  s.withSyImm i (fun v => s.setRegs { s.r.watchReset with wdog := wdogWrite (s.wdogValue i v) })

end Sys2Proof.Machine
end

