-- ==== Sys2Proof/Machine/Fx.lean ====
section
/-! DEFINITION. The functions of `fx` that no finite sum gives (R222), and e^x of R138: each value is formed in
fixed point with far more bits than a rounding to FP32 can need, and rounded once with a sticky bit.  Exact
results are told apart first. -/

namespace Sys2Proof.Machine

/-- Fraction bits of the fixed-point values. -/
def fxP : Nat := 320
def fxOne : Nat := 2 ^ fxP
/-- ln 2 and 2π in units of 2^−fxP, rounded down. -/
def fxLn2 : Nat := 0xB17217F7D1CF79ABC9E3B39803F2F6AF40F343267298B62D8A0D175B8BAAFA2BE7B876206DEBAC98
def fxTwoPi : Nat := 0x6487ED5110B4611A62633145C06E0E68948127044533E63A0105DF531D89CD9128A5043CC71A026EF

/-- The Taylor sum 1 + x + x²/2! + … of e^x for 0 ≤ x < 1, in units of 2^−fxP: `n` terms, the current
term and its index. -/
def expSeries : Nat → Nat → Nat → Nat → Nat
  | 0, _, _, _ => 0
  | n + 1, x, t, k => t + expSeries n x (t * x / fxOne / (k + 1)) (k + 1)

/-- e^x of 0 ≤ x < 1. -/
def expUnit (x : Nat) : Nat := expSeries 80 x fxOne 0

/-- e^t for t in units of 2^−fxP: m and the exponent of its unit. -/
def expFix (t : Int) : Nat × Int :=
  let k := t / (fxLn2 : Int)
  (expUnit (t - k * fxLn2).toNat, k - fxP)

/-- m × 2^e in units of 2^−fxP, rounded down. -/
def toFix (neg : Bool) (m : Nat) (e : Int) : Int :=
  let x : Nat := if 0 ≤ e + fxP then m * 2 ^ (e + fxP).toNat else m / 2 ^ (-(e + fxP)).toNat
  if neg then -(x : Int) else x

def roundPos (rm : Nat) (neg : Bool) (m : Nat) (e : Int) (st : Bool) : Word × Nat :=
  let r := roundFin f32 false rm neg m e st
  (BitVec.ofNat 32 r.1, r.2)

/-- e^x rounded once; e^0 is exact (R138). -/
def expF32 (rm : Nat) (x : Num) : Word × Nat :=
  match x with
  | .nan => (0x7FC00000, 0)
  | .inf s => if s then (0, 0) else (0x7F800000, 0)
  | .fin neg m e =>
    if m = 0 then (0x3F800000, 0)
    else if 8 ≤ topExp m e then (if neg then roundPos rm false 1 (-400) true else roundPos rm false 1 400 true)
    else
      let r := expFix (toFix neg m e)
      roundPos rm false r.1 r.2 true

/-- 2^x rounded once; an integral x is exact (R222). -/
def exp2F32 (rm : Nat) (x : Num) : Word × Nat :=
  match x with
  | .nan => (0x7FC00000, 0)
  | .inf s => if s then (0, 0) else (0x7F800000, 0)
  | .fin neg m e =>
    if m = 0 then (0x3F800000, 0)
    else if 8 ≤ topExp m e then (if neg then roundPos rm false 1 (-400) true else roundPos rm false 1 400 true)
    else
      let t := toFix neg m e
      let n := t / (fxOne : Int)
      let f := (t - n * fxOne).toNat
      if f = 0 then roundPos rm false 1 n false
      else roundPos rm false (expUnit (f * fxLn2 / fxOne)) (n - fxP) true

/-- The series z + z³/3 + z⁵/5 + …: `n` terms, the current power, z², and the odd index. -/
def atanhSeries : Nat → Nat → Nat → Nat → Nat
  | 0, _, _, _ => 0
  | n + 1, t, z2, k => t / k + atanhSeries n (t * z2 / fxOne) z2 (k + 2)

/-- log2 y of 1 ≤ y < 2 in units of 2^−fxP. -/
def log2Unit (y : Nat) : Nat :=
  let z := (y - fxOne) * fxOne / (y + fxOne)
  2 * atanhSeries 110 z (z * z / fxOne) 1 * fxOne / fxLn2

/-- log2 x rounded once; a power of two is exact (R222). -/
def log2F32 (rm : Nat) (x : Num) : Word × Nat :=
  match x with
  | .nan => (0x7FC00000, 0)
  | .inf s => if s then (0x7FC00000, evNV) else (0x7F800000, 0)
  | .fin neg m e =>
    if m = 0 then (0xFF800000, evDZ)
    else if neg then (0x7FC00000, evNV)
    else
      let t := topExp m e
      let b := Nat.log2 m
      if m = 2 ^ b then (if t = 0 then (0, 0) else roundF32 rm (ofInt t))
      else
        -- y in [1, 2); above √2 the fraction is taken from y / 2, so nothing cancels near 1
        let y := m * 2 ^ (fxP - b)
        if y * y < 2 * fxOne * fxOne then
          let v : Int := t * fxOne + log2Unit y
          if 0 ≤ v then roundPos rm false v.toNat (-fxP) true
          else roundPos rm true ((-v).toNat - 1) (-fxP) true
        else
          -- log2 (y / 2) = −log2 (2 / y)
          let v : Int := (t + 1) * fxOne - log2Unit (2 * fxOne * fxOne / y)
          if 0 < v then roundPos rm false (v.toNat - 1) (-fxP) true
          else roundPos rm true (-v).toNat (-fxP) true

/-- The alternating series of sine (k = 1) or cosine (k = 0): `n` terms, the current term, x². -/
def trigSeries : Nat → Int → Nat → Nat → Int
  | 0, _, _, _ => 0
  | n + 1, t, x2, k => t + trigSeries n (-(t * x2 / fxOne / ((k + 1) * (k + 2) : Nat))) x2 (k + 2)

/-- sin or cos of 2π × r / fxOne for 0 < r < fxOne / 4, in units of 2^−fxP. -/
def trigUnit (cosine : Bool) (r : Nat) : Nat :=
  let x := r * fxTwoPi / fxOne
  let x2 := x * x / fxOne
  (if cosine then trigSeries 50 fxOne x2 0 else trigSeries 50 x x2 1).toNat

/-- sin (2πx), or cos (2πx), rounded once; the multiples of a quarter turn are exact (R222). -/
def turnF32 (cosine : Bool) (rm : Nat) (x : Num) : Word × Nat :=
  match x with
  | .nan => (0x7FC00000, 0)
  | .inf _ => (0x7FC00000, evNV)
  | .fin neg m e =>
    -- position in the turn, exact: |x| mod 1 in units of 2^−fxP
    let p : Nat := if 0 ≤ e then 0 else m % 2 ^ (-e).toNat * 2 ^ (fxP - (-e).toNat)
    let quad := p * 4 / fxOne
    let r := p - quad * (fxOne / 4)
    -- cos is even, sin odd
    let q := if cosine then quad + 1 else quad
    let sgn := (if cosine then false else neg) != (q % 4 == 2 || q % 4 == 3)
    if r = 0 then
      if q % 2 = 0 then ((if cosine then 0 else if neg then 0x80000000 else 0), 0)
      else ((if sgn then 0xBF800000 else 0x3F800000), 0)
    else
      roundPos rm sgn (trigUnit (q % 2 == 1) r) (-fxP) true

/-- tanh x rounded once (R222).  Below 2^−13 the value lies just inside x; above 64 just inside ±1. -/
def tanhF32 (rm : Nat) (x : Num) : Word × Nat :=
  match x with
  | .nan => (0x7FC00000, 0)
  | .inf s => ((if s then 0xBF800000 else 0x3F800000), 0)
  | .fin neg m e =>
    if m = 0 then ((if neg then 0x80000000 else 0), 0)
    else if topExp m e < -13 then roundPos rm neg (m * 2 ^ 64 - 1) (e - 64) true
    else if 6 ≤ topExp m e then roundPos rm neg (2 ^ 64 - 1) (-64) true
    else
      let r := expFix (2 * toFix false m e)
      let u : Nat := r.1 * 2 ^ (r.2 + fxP).toNat
      roundPos rm neg ((u - fxOne) * fxOne / (u + fxOne)) (-fxP) true

/-- 1/x (R222). -/
def rcpF32 (rm : Nat) (x : Num) : Word × Nat :=
  match x with
  | .fin s m _ => if m = 0 then ((if s then 0xFF800000 else 0x7F800000), evDZ)
    else divF32 rm (.fin false 1 0) x
  | _ => divF32 rm (.fin false 1 0) x

/-- √x (R222). -/
def sqrtF32 (rm : Nat) (x : Num) : Word × Nat :=
  match x with
  | .nan => (0x7FC00000, 0)
  | .inf s => if s then (0x7FC00000, evNV) else (0x7F800000, 0)
  | .fin neg m e =>
    if m = 0 then ((if neg then 0x80000000 else 0), 0)
    else if neg then (0x7FC00000, evNV)
    else
      let odd := e % 2 == 1
      let n := (if odd then 2 * m else m) * 2 ^ 60
      let e' := (if odd then e - 1 else e) - 60
      let r := isqrt n
      roundPos rm false r (e' / 2) (r * r != n)

/-- 1/√x (R222). -/
def rsqrtF32 (rm : Nat) (x : Num) : Word × Nat :=
  match x with
  | .nan => (0x7FC00000, 0)
  | .inf s => if s then (0x7FC00000, evNV) else (0, 0)
  | .fin neg m e =>
    if m = 0 then ((if neg then 0xFF800000 else 0x7F800000), evDZ)
    else if neg then (0x7FC00000, evNV)
    else
      let odd := e % 2 == 1
      let n := if odd then 2 * m else m
      let e' := if odd then e - 1 else e
      -- ⌊√(2^2k / n)⌋ with 2k = 160
      let r := isqrt (2 ^ 160 / n)
      roundPos rm false r (-(e' / 2) - 80) (r * r * n != 2 ^ 160)

/-- An integral value of x by rounding mode, keeping the sign of zero. -/
def integral (mode : Nat) (x : Num) : Num × Bool :=
  match x with
  | .fin neg m e => if 0 ≤ e || m == 0 then (x, false) else
    let r := quant mode neg m e false 0
    (.fin neg r.1 0, r.2)
  | _ => (x, false)

/-- x − ⌊x⌋ rounded once (R222). -/
def fractF32 (rm : Nat) (x : Num) : Word × Nat :=
  match x with
  | .nan => (0x7FC00000, 0)
  | .inf _ => (0x7FC00000, evNV)
  | .fin _ m _ =>
    if m = 0 then (0, 0)
    else
      sumF32 rm [termOf x, termOf (integral 2 x).1.neg]

/-- The class mask of R222. -/
def classMask (w : Word) : Nat :=
  match ofF32 w with
  | .nan => 0x100
  | .inf s => if s then 0x01 else 0x80
  | .fin s m _ =>
    if m = 0 then (if s then 0x08 else 0x10)
    else if fld w.toNat 23 8 = 0 then (if s then 0x04 else 0x20)
    else (if s then 0x02 else 0x40)

end Sys2Proof.Machine
end

