-- ==== Sys2Proof/Machine/Seq.lean ====
section
/-! DEFINITION. The sequence unit: records, snapshots, draws, draft acceptance and the egress gate; family sq
(R130 to R143, R151, R263). -/

namespace Sys2Proof.Machine

/-! ### Records and handles (R130, R131) -/

def State.seqAt (s : State) (k : Nat) : SeqRec := tget {} s.seqs k
def State.setSeq (s : State) (k : Nat) (r : SeqRec) : State := { s with seqs := tput s.seqs k r }

/-- The record a handle names, by die and index. -/
def handleKey (h : Word) : Nat := fld h.toNat 14 2 * 16384 + fld h.toNat 0 14

/-- The handle of a bound record. -/
def handleOf (k : Nat) (r : SeqRec) : Word := BitVec.ofNat 32 (r.tag.toNat * 2 ^ 16 + k)

/-- A handle names a bound record of its instance tag in the gang's partition. -/
-- DEDUCED (assumption 17): a record of another partition is no record the gang can name.
def State.handleOk (s : State) (h : Word) : Bool :=
  let r := s.seqAt (handleKey h)
  r.bound && r.tag.toNat == fld h.toNat 16 16 && r.leaf == s.leafNo

/-- SQERR with a cause (R151). -/
def State.sqerr (s : State) (cause : Nat) : Out := s.raise 4 tcSQERR 0 0 cause

/-- SQERR of a fork, copy or swap that the Map Unit could not make: cause 1 for a state, 6 for want of room; a poisoned
node line it meets is DATALOSS (R109). -/
def State.sqMap (s : State) (e : Nat) : Out :=
  if e = stLOST then s.raise 4 tcDATALOSS else s.sqerr (if e = stSTATE then 1 else 6)

/-- Go on with the record a handle names, by its key. -/
def State.withSeq (s : State) (h : Word) (k : Nat → SeqRec → Out) : Out :=
  if s.handleOk h then k (handleKey h) (s.seqAt (handleKey h)) else s.sqerr 1

/-- The first free record of a die. -/
-- DESIGN CHOICE (assumption 18): the lowest free index.
def State.freeSeq (s : State) (die : Nat) : Option Nat :=
  ((List.range 16384).map (fun i => die * 16384 + i)).find? (fun k => !(s.seqAt k).bound)

/-- The tag of the next instance (R130). -/
-- DESIGN CHOICE (assumption 18): a record that no bind has named has TAG 0.
def nextTag (t : BitVec 16) : BitVec 16 := if t = 0xFFFF then 1 else t + 1

/-- Grammar contexts in use on a die. -/
def State.gramUse (s : State) (die : Nat) : Nat :=
  (s.seqs.filter (fun p => p.1 / 16384 == die && p.2.bound && p.2.gram.isSome)).length

/-! ### Snapshots (R139) -/

/-- The snapshot of a record's state at position `pos`, with a root copy, shared with the newest snapshot while
the generation is unchanged. -/
def State.takeSnap (s : State) (r : SeqRec) (pos : Nat) : Except Nat (Snap × State) := do
  let a := s.asidAt r.leaf r.asid
  let src := a.cur.root
  let mk := fun (root : Nat) => ({ pos := pos, gram := r.gram, root := root, ctr := r.ctr, src := src, ord := a.ord } : Snap)
  if a.gens.isEmpty then pure (mk 0, s) else
  match r.snaps.getLast? with
  | some p =>
    if p.src = src ∧ p.ord = a.ord ∧ p.root ≠ 0 then pure (mk p.root, s)
    else do
      let (root, s) ← s.copyRoot r.leaf src
      pure (mk root, s)
  | none => do
    let (root, s) ← s.copyRoot r.leaf src
    pure (mk root, s)

/-- Drop the root copies that none of the snapshots `keep` holds, in ascending position order. -/
def State.dropSnaps (s : State) (l : Nat) (gone keep : List Snap) : State :=
  (((gone.map (fun p => p.root)).filter (fun x => x != 0 && !(keep.any (fun p => p.root == x)))).eraseDups).foldl
    (fun s x => State.dropNode l 4 s x) s

/-! ### sq.bind (R131) -/

def execSqBind (a b c : BitVec 5) (s : State) : Out :=
  s.noExt (if b = 31 then s.illop 4 false else s.sync (.sqBind a b c) (
    let v := (s.r.sreg c).toNat
    let w := fld v 16 6
    if w = 0 then s.sqerr 5
    else if (s.asidAt s.leafNo (v % 2 ^ 16)).st != .live then s.sqerr 1
    else match s.freeSeq s.die with
      | none => s.synced (s.r.setS a 0)
      | some k =>
        let r : SeqRec := {
          bound := true, tag := nextTag (s.seqAt k).tag, leaf := s.leafNo, asid := v % 2 ^ 16
          seed := s.r.sreg1 b ++ s.r.sreg b, w := w, ring := fld v 24 6 }
        match s.takeSnap r 0 with
        | .error e => s.sqMap e
        | .ok (p, s) => (s.setSeq k { r with snaps := [p] }).synced (s.r.setS a (handleOf k r))))

def execSqBindFree (b : BitVec 5) (s : State) : Out :=
  s.noExt (s.sync (.sqBindFree b) (s.withSeq (s.r.sreg b) (fun k r =>
    let s := s.dropSnaps r.leaf r.snaps []
    (s.setSeq k { tag := r.tag }).synced s.r)))

/-! ### Draws (R135) -/

def mix64 (x : BitVec 64) : BitVec 64 :=
  let x := (x ^^^ (x >>> 30)) * 0xBF58476D1CE4E5B9
  let x := (x ^^^ (x >>> 27)) * 0x94D049BB133111EB
  x ^^^ (x >>> 31)

/-- The next draw of a record. -/
def SeqRec.draw (r : SeqRec) : BitVec 64 := mix64 (r.seed + r.ctr * 0x9E3779B97F4A7C15)
def SeqRec.drawn (r : SeqRec) : SeqRec := { r with ctr := r.ctr + 1 }

def execSqRng (a b : BitVec 5) (s : State) : Out :=
  s.noExt (if a = 31 then s.illop 4 false else s.sync (.sqRng a b) (s.withSeq (s.r.sreg b) (fun k r =>
    let z := r.draw
    (s.setSeq k r.drawn).synced (s.r.setPair a (z.setWidth 32) ((z >>> 32).setWidth 32)))))

/-! ### sq.fork, sq.save, sq.roll (R132 to R134) -/

/-- The child of a fork. -/
def SeqRec.child (r : SeqRec) (tag : BitVec 16) (asid salt : Nat) : SeqRec :=
  { r with
    tag := tag, asid := asid, rel := r.e, toks := [], snaps := []
    seed := if salt = 0 then r.seed else mix64 (r.seed ^^^ BitVec.ofNat 64 salt)
    ctr := if salt = 0 then r.ctr else 0 }

-- DESIGN CHOICE (assumption 18): the child's record and grammar context are of the parent record's die.
-- DESIGN CHOICE (assumption 19): a parent whose KV ASID is neither LIVE nor READONLY raises cause 1; a child ASID that is
-- not FREE does so also when no record or context is free.
def execSqFork (a b c : BitVec 5) (s : State) : Out :=
  s.noExt (s.sync (.sqFork a b c) (s.withSeq (s.r.sreg b) (fun k r =>
    let v := (s.r.sreg c).toNat
    let child := v % 2 ^ 16
    let die := k / 16384
    if (s.asidAt s.leafNo child).st != .free then s.sqerr 1 else
    match s.freeSeq die with
    | none => s.synced (s.r.setS a 0)
    | some k2 =>
      if r.gram.isSome && decide (4096 ≤ s.gramUse die) then s.synced (s.r.setS a 0) else
      match s.fork s.leafNo r.asid child false with
      | .error e => s.sqMap e
      | .ok s1 =>
        let x := r.child (nextTag (s.seqAt k2).tag) child (fld v 16 16)
        match s1.takeSnap x x.e with
        | .error e => s.sqMap e
        | .ok (p, s1) => (s1.setSeq k2 { x with snaps := [p] }).synced (s1.r.setS a (handleOf k2 x)))))

/-- The session image of a record (R133). -/
def SeqRec.image (r : SeqRec) (snapAsid : Nat) : List Byte :=
  let g := r.gram.getD {}
  leBytes 8 r.seed.toNat ++ leBytes 8 r.ctr.toNat ++ leBytes 4 r.e ++ leBytes 4 r.rel ++ leBytes 4 r.w ++ leBytes 4 r.asid
    ++ leBytes 4 snapAsid ++ leBytes 4 (r.ring + if r.gram.isSome then 256 else 0) ++ leBytes 4 g.state
    ++ leBytes 4 g.stack.length ++ leBytes 8 g.image ++ leBytes 8 0
    ++ (g.stack ++ List.replicate (64 - g.stack.length) 0)

def execSqSave (a b c : BitVec 5) (s : State) : Out :=
  s.withSeg (fun seg =>
    let va := seg + s.n b
    if va % 128 ≠ 0 then s.raise 4 tcALIGN 0 va 0 else
    s.sync (.sqSave a b c) (
      -- the image's VA translates before the handle and the ASIDs are tested (R153)
      match s.ewrite none s.myTag s.leafNo s.gang.asid va (List.replicate 128 0) (some s.cur) with
      | .error e => s.cmdStop e
      | .ok _ => s.withSeq (s.r.sreg a) (fun _ r =>
        let snap := s.n c % 2 ^ 16
        if (s.asidAt s.leafNo snap).st != .free then s.sqerr 1 else
        match s.fork s.leafNo r.asid snap true with
        -- DESIGN CHOICE (assumption 19): a save whose fork finds no room raises cause 6, and one whose KV ASID is neither
        -- LIVE nor READONLY cause 1
        | .error e => s.sqMap e
        | .ok s1 => match s1.ewrite none s.myTag s.leafNo s.gang.asid va (r.image snap) (some s.cur) with
          | .error e => s.cmdStop e
          | .ok s1 => s1.synced s1.r)))

/-- A session image is well formed (R134). -/
-- DESIGN CHOICE (assumption 102): a W of 0 makes no image malformed; every later `sq.emit` of the sequence waits.
def imageOk (b : List Byte) : Bool :=
  let f := fun (o n : Nat) => leNat ((b.drop o).take n)
  f 0x18 4 / 2 ^ 6 == 0 && f 0x1C 4 / 2 ^ 16 == 0 && f 0x20 4 / 2 ^ 16 == 0
    && fld (f 0x24 4) 6 2 == 0 && f 0x24 4 / 2 ^ 9 == 0 && f 0x30 8 / 2 ^ 48 == 0 && f 0x38 8 == 0
    && decide (f 0x2C 4 ≤ 64) && (b.drop (0x40 + f 0x2C 4)).all (fun x => x == 0)

/-- The record a roll leaves, but for its snapshot (R134). -/
def SeqRec.rolled (r : SeqRec) (b : List Byte) : SeqRec :=
  let f := fun (o n : Nat) => leNat ((b.drop o).take n)
  { r with
    seed := BitVec.ofNat 64 (f 0 8), ctr := BitVec.ofNat 64 (f 8 8), w := f 0x18 4, ring := f 0x24 4 % 64
    e := f 0x10 4, rel := f 0x10 4, toks := [], snaps := []
    gram := if bitAt (f 0x24 4) 8 then some {
      image := f 0x30 8, state := f 0x28 4, stack := (b.drop 0x40).take (f 0x2C 4) } else none }

/-- The swap and the new snapshot of a roll. -/
def State.rollSwap (s : State) (r x : SeqRec) (root : Nat) : Except Nat (Snap × State) := do
  let s ← s.swapRoot r.leaf r.asid root
  s.takeSnap x x.e

-- DESIGN CHOICE (assumption 18): a record that has a context takes the image's also while all of its die are in use.
def execSqRoll (a b : BitVec 5) (s : State) : Out :=
  s.withSeg (fun seg =>
    let va := seg + s.n b
    if va % 128 ≠ 0 then s.raise 4 tcALIGN 0 va 0 else
    s.sync (.sqRoll a b) (match s.eread s.leafNo s.gang.asid va 128 (some s.cur) with
      | .error e => s.cmdStop e
      | .ok b => s.withSeq (s.r.sreg a) (fun k r =>
        let snap := leNat ((b.drop 0x20).take 2)
        let src := s.asidAt s.leafNo snap
        let x := r.rolled b
        let full := x.gram.isSome && r.gram.isNone && decide (4096 ≤ s.gramUse (k / 16384))
        if !imageOk b || src.st != .readonly then s.sqerr 7
        else if (s.asidAt r.leaf r.asid).st != .live then s.sqerr 1
        -- DESIGN CHOICE (assumption 19): no free context for the image's raises cause 6
        else if full then s.sqerr 6
        else match s.rollSwap r x src.cur.root with
          | .error e => s.sqMap e
          | .ok _ => match (s.dropSnaps r.leaf r.snaps []).rollSwap r x src.cur.root with
            | .error e => s.sqMap e
            | .ok (p, s) => (s.setSeq k { x with snaps := [p] }).synced s.r)))

/-! ### Draft acceptance (R136 to R138) -/

/-- A draft block as its bytes give it: p, q, H and flags of each entry. -/
structure DraftEntry where
  p : Num
  q : Num
  h : Num
  flags : Nat

def draftEntry (b : List Byte) (i : Nat) : DraftEntry :=
  let f := fun (o : Nat) => leNat ((b.drop (0x10 + 16 * i + o)).take 4)
  { p := ofIeee f32 (f 0), q := ofIeee f32 (f 4), h := ofIeee f32 (f 8), flags := f 12 }

/-- Below zero, or a NaN. -/
def negOrNan (x : Num) : Bool := x.isNan || x.lt (.fin false 0 0)

/-- The first bad entry of a block of a legal L: 0 for the header (R136). -/
-- DESIGN CHOICE (assumption 88): with entry 1's q absent the block is the fall-back's, and a NaN of the header is named
-- before an entry that differs from entry 1.
def draftBad (b : List Byte) (n : Nat) : Option Nat :=
  let es := (List.range n).map (draftEntry b)
  let abs := es.head?.any (fun e => bitAt e.flags 0)
  let eps := ofIeee f32 (leNat ((b.drop 4).take 4))
  let del := ofIeee f32 (leNat ((b.drop 8).take 4))
  if leNat ((b.drop 12).take 4) ≠ 0 || (abs && (eps.isNan || del.isNan)) then some 0 else
  ((List.range n).find? (fun i =>
    let e := draftEntry b i
    e.flags / 2 != 0 || bitAt e.flags 0 != abs || negOrNan e.p || (!abs && negOrNan e.q) || (abs && e.h.isNan))).map
    (fun i => i + 1)

/-- R137's loop: R as FP32 bits, k, and the entries left with their number. -/
def acceptLoop (u : Num) : List DraftEntry → Nat → Word → Nat → Nat
  | [], _, _, k => k
  | e :: t, i, r, k =>
    let ratio : Word := if e.p.isZero then 0 else if e.q.isZero then 0x7F800000 else (divF32 0 e.p e.q).1
    let r2 : Word := if (ofF32 r).isZero || (ofF32 ratio).isZero then 0 else (sumF32 0 [mulNum (ofF32 r) (ofF32 ratio)]).1
    let one : Num := .fin false 1 0
    -- `min` of R46: of a NaN and 1 it is 1
    let m := if (ofF32 r2).isNan || one.lt (ofF32 r2) then one else ofF32 r2
    acceptLoop u t (i + 1) r2 (if u.lt m then i else k)

/-- The uniform variate of a draw. -/
def variate (z : BitVec 64) : Num := .fin false (z.toNat / 2 ^ 40) (-24)

/-- R138's threshold: a NaN product gives ε. -/
def threshold (eps del h : Num) : Num :=
  let e := ofF32 (expF32 0 h.neg).1
  let x := ofF32 (sumF32 0 [mulNum del e]).1
  if x.isNan then eps else if x.lt eps then x else eps

/-- R138's count. -/
def leading (eps del : Num) (es : List DraftEntry) : Nat :=
  (es.takeWhile (fun e => (threshold eps del e.h).lt e.p)).length

def execSqAcc (a b c : BitVec 5) (s : State) : Out :=
  s.noExt (
    let off := s.n c
    if off % 16 ≠ 0 then s.raise 4 tcALIGN 0 off 0 else
    s.scrRange off 16 (s.sync (.sqAcc a b c) (
      let n := memNat s.wg.scr off 4
      let legal := decide (1 ≤ n) && decide (n ≤ 16)
      let len := if legal then 16 + 16 * n else 16
      s.scrRange off len (
        if s.scrBad s.gang.wg off len then s.raise 4 tcDATALOSS 0 off 0 else
        s.withSeq (s.r.sreg b) (fun k r =>
        if !legal then s.sqerr 4 else
        let blk := memBytes s.wg.scr off (16 + 16 * n)
        match draftBad blk n with
        | some i => s.sqerr (4 + 256 * i)
        | none =>
          let es := (List.range n).map (draftEntry blk)
          if es.head?.any (fun e => bitAt e.flags 0) then
            let eps := ofIeee f32 (leNat ((blk.drop 4).take 4))
            let del := ofIeee f32 (leNat ((blk.drop 8).take 4))
            s.synced (s.r.setS a (BitVec.ofNat 32 (leading eps del es)))
          else
            (s.setSeq k r.drawn).synced (s.r.setS a (BitVec.ofNat 32 (acceptLoop (variate r.draw) es 1 0x3F800000 0))))))))

/-! ### The egress gate (R140 to R142) -/

/-- When the gang's emit arrived at the unit: now, unless it waits there. -/
def State.emitSince (s : State) (k : Nat) : Nat :=
  match s.gang.wait with
  | .emit j t => if j = k then t else s.clk.core
  | _ => s.clk.core

/-- An emit that arrived earlier waits on the record (R143). -/
def State.emitAhead (s : State) (k : Nat) : Bool :=
  s.gangKeys.any (fun j => j != s.cur && (s.gangAt j).st == .live && (match (s.gangAt j).wait with
    | .emit n t => n == k && decide (t < s.emitSince k)
    | _ => false))

-- DESIGN CHOICE (assumption 89): with no position left, cause 8 comes at once, also while the window is full.
def execSqEmit (a b : BitVec 5) (s : State) : Out :=
  s.noExt (s.alone (s.withSeq (s.r.sreg a) (fun k r =>
    if r.e = 0xFFFFFFFF then s.sqerr 8
    else if decide (r.w ≤ r.e - r.rel) || s.emitAhead k then (s.setGang s.gang.wrote).stallAs (.emit k (s.emitSince k))
    else match s.takeSnap r (r.e + 1) with
      | .error e => s.sqMap e
      | .ok (p, s) =>
        (s.setSeq k { r with e := r.e + 1, toks := r.toks ++ [s.r.sreg b], snaps := r.snaps ++ [p] }).synced s.r)))

/-- The egress entry of one token (R141). -/
def egressEntry (h : Word) (pos : Nat) (tok : Word) : List Byte :=
  leBytes 4 h.toNat ++ leBytes 4 pos ++ leBytes 4 tok.toNat ++ leBytes 4 0

/-- Release a record's tokens up to position `n`, `REL` ≤ n ≤ `E` (R141). -/
def State.releaseTo (s : State) (k : Nat) (r : SeqRec) (n : Nat) : State :=
  let out := (r.toks.take (n - r.rel)).mapIdx (fun i t => egressEntry (handleOf k r) (r.rel + i) t)
  let keep := r.snaps.filter (fun p => decide (n ≤ p.pos))
  let s := s.setSeq k { r with rel := n, toks := r.toks.drop (n - r.rel), snaps := keep }
  let s := s.dropSnaps r.leaf (r.snaps.filter (fun p => decide (p.pos < n))) keep
  s.ringPush r.leaf r.ring out

def execSqRel (a b : BitVec 5) (s : State) : Out :=
  s.noExt (s.alone (s.withSeq (s.r.sreg a) (fun k r =>
    let n := s.n b
    if r.e < n then s.sqerr 2
    else (s.releaseTo k r (max r.rel n)).synced s.r)))

/-- The grammar context goes back to a snapshot's state, depth and stack; one bound since stays as it is
(R142). -/
def gramBack (now then' : Option Gram) : Option Gram :=
  match now, then' with
  | some g, some x => some { g with state := x.state, stack := x.stack }
  | g, _ => g

def execSqVeto (a b : BitVec 5) (s : State) : Out :=
  s.noExt (s.alone (s.withSeq (s.r.sreg a) (fun k r =>
    let n := s.n b
    if n < r.rel || r.e < n then s.sqerr 3
    else if n = r.e then s.synced s.r
    else match r.snaps.find? (fun p => p.pos == n) with
      | none => s.sqerr 3
      | some p =>
        if (s.asidAt r.leaf r.asid).st != .live then s.sqerr 1 else
        -- DESIGN CHOICE (assumption 56): a snapshot taken while the ASID was FREE holds no tree to restore
        match if p.root = 0 then .ok s else s.swapRoot r.leaf r.asid p.root with
        | .error e => s.sqMap e
        | .ok s =>
          let keep := r.snaps.filter (fun q => decide (q.pos ≤ n))
          let s := s.setSeq k { r with
            e := n, toks := r.toks.take (n - r.rel), snaps := keep, ctr := p.ctr, gram := gramBack r.gram p.gram }
          (s.dropSnaps r.leaf (r.snaps.filter (fun q => decide (n < q.pos))) keep).synced s.r)))

end Sys2Proof.Machine
end

