-- ==== Sys2Proof/Machine/Grammar.lean ====
section
/-! DEFINITION. The grammar engine: images, contexts, masks and steps; family gx (R144 to R149, R245, R264). -/

namespace Sys2Proof.Machine

/-! ### Images (R144, R145) -/

/-- A context's image as its automaton is walked: where it lies and who reads it. -/
structure Image where
  leaf : Nat
  asid : Nat
  who : Option Nat
  va : Nat

def Image.read (m : Image) (s : State) (off n : Nat) : Except AccErr Nat :=
  s.ereadNat m.leaf m.asid ((m.va + off) % 2 ^ 48) n m.who

/-- The header's fields. -/
structure GramHead where
  states : Nat
  vocab : Nat
  limit : Nat
  start : Nat
  stateOff : Nat
  transOff : Nat
  listOff : Nat
  maskOff : Nat

/-- The header, or the offset of its first bad field (R144, R146). -/
def parseHead (b : List Byte) : Except Nat GramHead :=
  let f := fun (o n : Nat) => leNat ((b.drop o).take n)
  let bad : List (Bool × Nat) := [
    (f 0x00 4 != 0x3152474A, 0x00), (f 0x04 4 != 1, 0x04),
    (f 0x08 4 == 0 || decide (65536 < f 0x08 4), 0x08), (f 0x0C 4 == 0 || decide (262144 < f 0x0C 4), 0x0C),
    (f 0x10 4 == 0 || decide (64 < f 0x10 4), 0x10), (decide (f 0x08 4 ≤ f 0x14 4), 0x14),
    (f 0x18 8 % 64 != 0, 0x18), (f 0x20 8 % 64 != 0, 0x20), (f 0x28 8 % 64 != 0, 0x28), (f 0x30 8 % 64 != 0, 0x30),
    (f 0x38 8 != 0, 0x38)]
  match bad.find? (fun p => p.1) with
  | some p => .error p.2
  | none => .ok {
      states := f 0x08 4, vocab := f 0x0C 4, limit := f 0x10 4, start := f 0x14 4
      stateOff := f 0x18 8, transOff := f 0x20 8, listOff := f 0x28 8, maskOff := f 0x30 8 }

/-- The fields of an image that was well formed when it was bound. -/
-- DESIGN CHOICE (assumption 95): the header is read again, unchecked, at every instruction, though the image may have
-- changed since the bind, or come from a session image.
def Image.head (m : Image) (s : State) : Except AccErr GramHead := do
  let b ← s.eread m.leaf m.asid m.va 64 m.who
  let f := fun (o n : Nat) => leNat ((b.drop o).take n)
  pure { states := f 0x08 4, vocab := f 0x0C 4, limit := f 0x10 4, start := f 0x14 4
         stateOff := f 0x18 8, transOff := f 0x20 8, listOff := f 0x28 8, maskOff := f 0x30 8 }

/-- The stack-top class. -/
def Gram.top (g : Gram) : Nat := match g.stack.getLast? with
  | some b => b.toNat
  | none => 0

/-- The mask number of a class among `n` mask-list entries from `off`. -/
def Image.maskNo (m : Image) (s : State) (cls : Nat) : Nat → Nat → Except AccErr (Option Nat)
  | 0, _ => .ok none
  | n + 1, off => do
    let e ← m.read s off 4
    if e % 256 = cls then pure (some (e / 256)) else m.maskNo s cls n (off + 4)

/-- The offset of the current mask in the image, none when it is empty. -/
def Image.mask (m : Image) (s : State) (h : GramHead) (g : Gram) : Except AccErr (Option Nat) := do
  let row := h.stateOff + 16 * g.state
  let first ← m.read s (row + 8) 4
  let n ← m.read s (row + 12) 4
  let no ← m.maskNo s g.top n (h.listOff + 4 * first)
  pure (no.map (fun i => h.maskOff + i * (ceilDiv h.vocab 1024 * 128)))

/-- A transition: new state, pops, pushed symbols, push count. -/
structure Trans where
  state : Nat
  pop : Nat
  push : Nat
  syms : List Byte

/-- The first transition for a class and token among `n` entries from `off`. -/
def Image.trans (m : Image) (s : State) (cls tok : Nat) : Nat → Nat → Except AccErr (Option Trans)
  | 0, _ => .ok none
  | n + 1, off => do
    let b ← s.eread m.leaf m.asid ((m.va + off) % 2 ^ 48) 16 m.who
    let f := fun (o k : Nat) => leNat ((b.drop o).take k)
    if f 0 4 = tok ∧ f 4 2 = cls then
      pure (some { state := f 6 2, pop := f 8 1, push := f 9 1, syms := (b.drop 10).take (min 4 (f 9 1)) })
    else m.trans s cls tok n (off + 16)

/-! ### The frame of a gx instruction (R245, R264) -/

/-- ENGCMD of the grammar engine. -/
def State.gramErr (s : State) (cause inner off addr : Nat) : Out :=
  s.raise 4 tcENGCMD 0 addr (engInfo 2 cause 0xFF inner + off * 2 ^ 24)

/-- A read of the image failed, or what it waited for did. -/
-- DESIGN CHOICE (assumption 77): a poisoned image line is a precise DATALOSS (R109), where R264 gives any fault in reading
-- the image as ENGCMD with cause 2.
def State.gramStop (s : State) (e : AccErr) : Out :=
  (s.waitStarted e).accStopBy e (fun c va _ => if c = tcDATALOSS then s.raise 4 c 0 va else s.gramErr 2 c 0 va)

/-- GDEAD with its information (R149, R264). -/
def State.gdead (s : State) (info : Nat) : Out := s.raise 4 tcGDEAD 0 0 info

/-- A gx instruction: its selectors, no effect under an empty mask, and its operands from the lowest active
lane. -/
def State.gx (s : State) (i : SyncInstr) (d : BitVec 7) (srcs : List (BitVec 7)) (k : (BitVec 7 → Word) → Out) : Out :=
  if !s.vrOk d srcs then s.illop 4 true else
  match lowest s.r.exec with
  | none => s.retire
  | some l => s.sync i (k (fun o => (s.src .int o).at l))

/-- Deliver the result of a gx instruction (R31, R33): with no older event of the gang to come, the write of a g register
takes the place in the order that follows the instruction's reads (R72). -/
def State.gxDone (s : State) (d : BitVec 7) (v : VReg) : Out := .next ((s.setGang s.gang.wrote).delivered 4 d [] true v [] true)

/-- Go on with the context of a sequence. -/
def State.withGram (s : State) (h : Word) (k : Nat → SeqRec → Gram → Image → Out) : Out :=
  s.withSeq h (fun key r => match r.gram with
    | none => s.gdead 3
    | some g => k key r g { leaf := s.leafNo, asid := s.gang.asid, who := some s.cur, va := g.image })

-- DESIGN CHOICE (assumption 18): contexts are counted on the die of the record; a sequence that has one binds anew also
-- while all are in use.
def execGxBind (d a b : BitVec 7) (s : State) : Out :=
  s.gx (.gxBind d a b) d [a, b] (fun x =>
    let va := s.seg * 2 ^ 32 + (x b).toNat
    if va % 64 ≠ 0 then s.raise 4 tcALIGN 0 va 0 else
    match s.eread s.leafNo s.gang.asid va 64 (some s.cur) with
    | .error e => s.gramStop e
    | .ok b => match parseHead b with
      | .error o => s.gramErr 1 0 o 0
      | .ok h => s.withSeq (x a) (fun key r =>
        if r.gram.isNone && decide (4096 ≤ s.gramUse (key / 16384)) then s.gxDone d (.u 1)
        else (s.setSeq key { r with gram := some { image := va, state := h.start, stack := [] } }).gxDone d (.u 0)))

/-- The 128 bytes of a mask's span `k`, zeros beyond the vocabulary (R147). -/
def Image.span (m : Image) (s : State) (g : Gram) (k : Nat) : Except AccErr (List Byte) := do
  let h ← m.head s
  if ceilDiv h.vocab 1024 ≤ k then pure [] else
  match ← m.mask s h g with
  | none => pure []
  | some off => s.eread m.leaf m.asid ((m.va + off + 128 * k) % 2 ^ 48) 128 m.who

def execGxMask (d : BitVec 6) (a b : BitVec 7) (s : State) : Out :=
  s.gx (.gxMask d a b) (d.setWidth 7) [a, b] (fun x => s.withGram (x a) (fun _ _ g m =>
    match m.span s g (x b).toNat with
    | .error e => s.gramStop e
    | .ok bytes => s.gxDone (d.setWidth 7) (.gen (fun l => BitVec.ofNat 32 (leNat ((bytes.drop (4 * l.val)).take 4))))))

/-- The word `gx.peek` writes for a mask's bytes (R148). -/
def peekWord (bytes : List Byte) : Word :=
  let hits := (bytes.mapIdx (fun i b => (List.range 8).filterMap (fun j => if bitAt b.toNat j then some (8 * i + j) else none))).flatten
  match hits with
  | [] => 0
  | [t] => BitVec.ofNat 32 (1 + t * 256)
  | _ => 2

/-- The bytes of the whole current mask. -/
def Image.whole (m : Image) (s : State) (g : Gram) : Except AccErr (List Byte) := do
  let h ← m.head s
  match ← m.mask s h g with
  | none => pure []
  | some off => s.eread m.leaf m.asid ((m.va + off) % 2 ^ 48) (ceilDiv h.vocab 1024 * 128) m.who

def execGxPeek (d a : BitVec 7) (s : State) : Out :=
  s.gx (.gxPeek d a) d [a] (fun x => s.withGram (x a) (fun _ _ g m =>
    match m.whole s g with
    | .error e => s.gramStop e
    | .ok bytes => s.gxDone d (.u (peekWord bytes))))

/-- How a step goes: the trap it meets, or the new context (R149). -/
inductive StepRes where
  | dead (info : Nat)
  | over (depth : Nat)
  | ok (g : Gram)

/-- R149's checks in their order. -/
def Image.step (m : Image) (s : State) (g : Gram) (t : Nat) : Except AccErr StepRes := do
  let h ← m.head s
  if h.vocab ≤ t then pure (.dead 0) else
  match ← m.mask s h g with
  | none => pure (.dead 0)
  | some off =>
    let byte ← m.read s (off + t / 8) 1
    if !bitAt byte (t % 8) then pure (.dead 0) else
    let row := h.stateOff + 16 * g.state
    let first ← m.read s row 4
    let n ← m.read s (row + 4) 4
    match ← m.trans s g.top t n (h.transOff + 16 * first) with
    | none => pure (.dead 1)
    | some x =>
      let depth := g.stack.length
      if depth < x.pop || 4 < x.push || x.syms.any (fun b => b == 0) then pure (.dead 2)
      else if h.limit < depth - x.pop + x.push then pure (.over (depth - x.pop + x.push))
      else pure (.ok { g with state := x.state, stack := g.stack.take (depth - x.pop) ++ x.syms })

def execGxStep (a b : BitVec 7) (s : State) : Out :=
  s.gx (.gxStep a b) 0x70 [a, b] (fun x => s.withGram (x a) (fun key r g m =>
    match m.step s g (x b).toNat with
    | .error e => s.gramStop e
    | .ok (.dead i) => s.gdead i
    | .ok (.over n) => s.raise 4 tcGSTKOVF 0 0 n
    | .ok (.ok g) => (s.setSeq key { r with gram := some g }).gxDone 0x70 (.u 0)))

end Sys2Proof.Machine
end

