-- ==== Sys2Proof/Machine/Deferred.lean ====
section
/-! DEFINITION. The pending list: its commands start in order, the synchronous instructions among them (R85, R88, R90,
R162, R246). -/

namespace Sys2Proof.Machine

/-- The instruction as it stands in a gang with nothing older. -/
def SyncInstr.run (i : SyncInstr) (s : State) : Out :=
  match i with
  | .mxClaim a kind => execMxClaim a kind s
  | .mxRel a kind => execMxRel a kind s
  | .sqBind a b c => execSqBind a b c s
  | .sqBindFree b => execSqBindFree b s
  | .sqFork a b c => execSqFork a b c s
  | .sqSave a b c => execSqSave a b c s
  | .sqRoll a b => execSqRoll a b s
  | .sqRng a b => execSqRng a b s
  | .sqAcc a b c => execSqAcc a b c s
  | .gxBind d a b => execGxBind d a b s
  | .gxMask d a b => execGxMask d a b s
  | .gxPeek d a => execGxPeek d a s
  | .gxStep a b => execGxStep a b s
  | .lnchGrid a b c => execLnchGrid a b c s
  | .lnchSig a => execLnchSig a s
  | .lnchGrant a b c q => execLnchGrant a b c q s

/-- The registers of which a command's result differs from those before it, in the registers that the gang has gone on to
with none of them written (R90). -/
def Regs.takeUp (x before after : Regs) : Regs :=
  { x with
    s := tab (fun i => if after.s[i] = before.s[i] then x.s[i] else after.s[i])
    win := tab (fun i => if after.win[i] = before.win[i] then x.win[i] else after.win[i]) }

/-- The gang as it stood at an instruction of its pending list, all that is older done. -/
def Gang.backAt (g : Gang) (w : PendWrite) (pre : Option (BitVec 25)) : Gang :=
  { g with
    r := w.before, seq := w.seq, ext := pre, wait := .none, stores := [], ckpts := []
    cmds := g.cmds.filter (fun c => decide (c.seq < w.seq)) }

/-- The gang after the instruction has retired as `a`: what it has gone on to, with its results. -/
def Gang.joined (h a : Gang) (w : PendWrite) : Gang :=
  { h.mapLater w.seq (fun x => x.takeUp w.before a.r) with flash := a.flash, gen := a.gen, releasing := a.releasing }

/-- A synchronous instruction of the pending list starts: the checkpoints before it retire, and it runs as it stood, while
what the gang has gone on to meets its events under a key of its own.  When it does not complete at once, or traps, what is
younger is discarded and the gang takes it up again. -/
-- DESIGN CHOICE (assumption 97): one that must wait takes its gang back as one that traps does.
def State.startSync (s : State) (k : Nat) (w : PendWrite) (i : SyncInstr) (pre : Option (BitVec 25)) : Out :=
  let g := s.gangAt k
  let key := s.nextKey
  let ahead := replaceCkpts w.seq w.after { g with stores := g.stores.tail }
  let u := { s with cur := k, nextKey := key + 1, gangs := tput (tput s.gangs key ahead) k (g.backAt w pre) }
  match i.run u with
  | .next t =>
    let a := t.gangAt k
    if a.seq = w.seq + 1 then
      .next { t with cur := s.cur, clk := s.clk, gangs := tput (tdel t.gangs key) k ((t.gangAt key).joined a w) }
    else .next (s.onGang k (fun s => s.setGang (s.gang.goBack w (s.quota s.gang))))
  | o => o

/-- The event of a start; nothing happens when nothing of the pending list may start. -/
def execPendingCommandStart (k : Nat) (s : State) : Out :=
  match (s.gangAt k).nextSync with
  | some (w, i, pre) => s.startSync k w i pre
  | none => if (s.gangAt k).canStart then .next (s.startCmd k) else .next s

end Sys2Proof.Machine
end

