-- ==== Sys2Proof/Machine/MemEvents.lean ====
section
/-! DEFINITION. Events of the memory system and of one gang's order: the watchdog, performed writes, copies of
lines, completions of loads, copies on write, releases of generations (R26, R71, R78 to R86, R92, R120,
R123). -/

namespace Sys2Proof.Machine

/-! ### The watchdog (R26) -/

/-- The armed count of a gang was reached and nothing older waits: WDOG is due now. -/
def State.wdogDue (s : State) (k : Nat) : Bool :=
  let g := s.gangAt k
  g.st == .live && g.r.wdDue && !g.trap && g.quiet

/-- WDOG on the boundary: TF_PC is the next PC, TF_LANES the execution mask, TF_INFO the window's lower bound
(R26, R152). -/
def execWdog (k : Nat) (s : State) : Out :=
  if s.wdogDue k then
    .next (s.onGang k (fun s =>
      let g := s.gang
      let lo : Va := match g.r.wdWin with
        | some (lo, _) => lo
        | none => 0
      (s.setGang { g with r := { g.r with wdDue := false } }).takeTrap {
        code := tcWDOG, pc := g.r.pc, lanes := g.r.exec, info := lo.setWidth 32, exec := g.r.exec, fmt := g.r.fmt
        resume := g.r.pc }))
  else .next s

/-! ### Performed writes (R78, R84) -/

/-- The oldest unperformed write of a gang is performed at its holder slice. -/
def execHolderSliceWrite (k : Nat) (s : State) : Out :=
  let g := s.gangAt k
  if (g.st == .live || g.st == .halted) && s.asGang k State.drains then .next (s.onGang k State.drainOne) else .next s

/-! ### Copies of lines (R79 to R86, R92) -/

/-- The cores an invalidation reaches: one, or every core of a die whose remote copy goes. -/
def coversCore (who core : Nat) : Bool := if who < 384 then core == who else core / 96 == who - 384

/-- A line after the copy of a core, or of a die with every L1 copy on it, is invalidated. -/
def Line.invalidated (x : Line) (who : Nat) : Line :=
  { x with
    l1 := x.l1.filter (fun p => !coversCore who p.1)
    spent := x.spent.filter (fun c => !coversCore who c)
    remote := if who < 384 then x.remote else x.remote.filter (fun d => d != who - 384) }

/-- An L1 copy (who < 384, a core) or a remote copy (384 + die) is invalidated; the gangs there whose read sets
hold the line roll back. -/
def execLineInvalidation (who line : Nat) (s : State) : Out :=
  let s := if thas s.lines line then { s with lines := tput s.lines line ((s.lineAt line).invalidated who) } else s
  .next (s.gangKeys.foldl (fun s k =>
    if coversCore who (s.wgAt (s.gangAt k).wg).core then rollGang (fun i => i == .line line) s k else s) s)

/-- A slice of the line's home die that the line's leaf owns (R83, R290). -/
def State.sliceOk (s : State) (line slice : Nat) : Bool :=
  decide (slice < 512) && (match s.leafOf (line * 128) with
    | none => false
    | some l => bitAt ((s.leafAt l).part.groups.getD (homeDie (line * 128)) 0) (slice / 16))

/-- A line moves to another slice: the home slice records the new holder; nothing else changes. -/
def execLineMigration (line slice : Nat) (s : State) : Out :=
  if s.sliceOk line slice then .next { s with lines := tput s.lines line { s.lineAt line with holder := some slice } }
  else .next s

/-- A copy is written back to DRAM, with its poison marker and owner tag, and leaves its slice. -/
def execL2Eviction (line : Nat) (s : State) : Out :=
  if thas s.lines line then .next { s with lines := tput s.lines line { s.lineAt line with dirty := false, holder := none } }
  else .next s

/-! ### Loads (R71, R98) -/

/-- The places of host memory that a load reaches. -/
def State.hostKeys (s : State) (q : LoadReq) : List Nat :=
  (s.locsOf false q.lanesL q.va).filterMap (fun x => x.2.1.hostKey)

/-- A gang takes up a load that waits. -/
def State.resumeLoad (s : State) (k : Nat) (q : LoadReq) : State :=
  let g := s.gangAt k
  { s.setGangAt k { g with ext := q.pre, wait := .none } with cur := k }

/-- Data for a load arrives; one that reaches host memory now waits for the host's answer. -/
def execLoadCompletion (k : Nat) (s : State) : Out :=
  let g := s.gangAt k
  match g.wait with
  | .load q =>
    if g.st != .live then .next s else
    let t := s.resumeLoad k q
    if !(t.hostKeys q).isEmpty && t.quiet then t.stallAs (.host q (t.hostKeys q)) else t.loadNow q
  | _ => .next s

/-- A host read completes and its load performs (R98), or a host AtomicOp does, which may report Unsupported
Request (R242).  The answer is to the gang's oldest access: one that it no longer waits for is outstanding no more
(R128). -/
def execHostReadCompletion (a : HostAnswer) (s : State) : Out :=
  let g := s.gangAt a.gang
  match g.sent with
  | _ :: rest => .next (s.setGangAt a.gang { g with sent := rest })
  | [] => match g.wait with
    | .host q _ => if g.st != .live then .next s else (s.resumeLoad a.gang q).loadNow q
    | .atomicOp _ => .next (s.setGangAt a.gang { g with wait := .atomicDone a.ur, readySince := s.clk.core })
    | _ => .next s

/-! ### Translation trees (R120, R123) -/

/-- A page that a write must copy is copied, and the copy published. -/
def execCopyOnWrite (l a va : Nat) (s : State) : Out :=
  match s.exlate l a true va with
  | .cow => (match s.copyOnWrite l a va with
    | .ok s => .next s
    | .error _ => .next s)
  | _ => .next s

/-- The oldest generation of an ASID, pinned no more, returns its nodes and frames. -/
def execGenerationRelease (l a : Nat) (s : State) : Out :=
  if (s.asidAt l a).releasable then .next (s.releaseGen l a) else .next s

end Sys2Proof.Machine
end

