-- ==== Sys2Proof/Machine/HostEvents.lean ====
section
/-! DEFINITION. The host's side: ring indices, interrupts, the host port, ATS and PRI (R98, R99, R126 to R128,
R294 to R298). -/

namespace Sys2Proof.Machine

/-! ### Rings and interrupts (R296, R298) -/

def execRcons (l ring : Nat) (v : Word) (s : State) : Out :=
  if s.fnUp l && decide (ring < 64) then .next (s.writeRcons l ring v) else .next s

/-- RCTL EN is written with 1: the entries the unit holds go on. -/
def execRctlEnable (l ring : Nat) (s : State) : Out :=
  if s.fnUp l && decide (ring < 64) then
    .next ((s.setRing l ring { s.ringAt l ring with en := true, failed := false }).ringPush l ring [])
  else .next s

/-- The vector's message is due: N events have accumulated, or T microseconds have passed since its oldest unsent
event. -/
def State.coalesceDue (s : State) (l v : Nat) : Bool :=
  let f := s.leafAt l
  let x := tget {} f.msix v
  decide (0 < x.events) && (decide (f.coalesceN ≤ x.events) || decide (x.since + cycles f.coalesceT ≤ s.now))

def execCoalesceTimerExpiry (l v : Nat) (s : State) : Out :=
  if s.coalesceDue l v then .next (s.sendVec l v) else .next s

def execMsixUnmask (l v : Nat) (s : State) : Out :=
  if s.fnUp l && decide (v < 64) then .next (s.writeMsix l v 0xC 0) else .next s

/-! ### The host port (R99, R294) -/

/-- The DRAM channels of a leaf in ascending order, by their physical base. -/
def PartRec.channelBases (p : PartRec) : List Nat :=
  (List.range 4).flatMap (fun d => ((List.range 37).filter (fun k => bitAt (p.channels.getD d 0) k)).map
    (fun k => d * 2 ^ 38 + k * 2 ^ 32))

/-- The physical address of an offset of BAR2. -/
def PartRec.bar2 (p : PartRec) (off : Nat) : Option Nat := (p.channelBases[off / 2 ^ 32]?).map (fun b => b + off % 2 ^ 32)

/-- A byte read through a window: 0–31 the functions, 32 the PF, 33 + l the memory of leaf l. -/
def State.portByte (s : State) (win off : Nat) : Byte :=
  if win < 33 then BitVec.ofNat 8 ((s.regRead win (off / 4 * 4)).toNat / 2 ^ (8 * (off % 4)))
  else if !s.fnUp (win - 33) then 0
  else match (s.leafAt (win - 33)).part.bar2 off with
    | some pa => memRead s.mem pa
    | none => 0

/-- The first page of an access through BAR2 that another device owns, and of which for a read no replica is here (R94,
R95). -/
def State.portLack (s : State) (write : Bool) (l off n : Nat) : Option Nat :=
  (pageRuns (n / 4096 + 2) off n).findSome? (fun r => ((s.leafAt l).part.bar2 r.1).bind (fun pa =>
    let key := s.devnum * 2 ^ 36 + pa / 65536
    let p := s.pageAt key
    if p.owner != s.devnum && (write || !p.here) then some key else none))

/-- An access of the host port performs, or waits for a page of another device, which it asks for; `lost` is what follows
when the wait fails (R94, R95, R97). -/
-- DESIGN CHOICE (assumption 91): a read whose wait fails is answered with free values, and such a write is lost.
def State.onPort (s : State) (e : PortAccess) (lack : Option Nat) (write : Bool) (go lost : State) : Out :=
  match lack with
  | none => .next { go with portHold := .none }
  | some key =>
    let a : AccErr := .page key write 0
    match a.next s.portHold s.now with
    | some h => .next (({ s with port := e :: s.port, portHold := h } : State).askOnce 0 s.portHold a)
    | none => .next { lost with portHold := .none }

/-- A host read takes its place in the order and is answered. -/
def execHostPortRead (win off len : Nat) (s : State) : Out :=
  let answer := fun (b : List Byte) (n : Nat) => { s with out := .read win off b :: s.out, free := s.free + n }
  s.onPort (.read win off len) (if win < 33 || !s.fnUp (win - 33) then none else s.portLack false (win - 33) off len) false
    (answer ((List.range len).map (fun i => s.portByte win (off + i))) 1)
    (answer ((List.range len).map (fun i => Config.freeByte (s.free + i))) len)

/-- A host write to device memory: it invalidates copies and meets read sets; its lines bear no ASID (R303). -/
-- DESIGN CHOICE (assumption 86): a write of a whole line clears its poison.
def execHostPortWrite (l off : Nat) (bytes : List Byte) (s : State) : Out :=
  if !s.fnUp l then .next s else
  let runs := pageRuns (bytes.length / 4096 + 2) off bytes.length
  s.onPort (.write l off bytes) (s.portLack true l off bytes.length) true
    (runs.foldl (fun acc r =>
      (match (s.leafAt l).part.bar2 r.1 with
        | some pa => acc.1.writeDram none none { leaf := l } pa (acc.2.take r.2)
        | none => acc.1, acc.2.drop r.2)) (s, bytes)).1 s

/-! ### What waits for translations of the host or pages of other devices -/

/-- Records, ring entries and saves of a leaf that waited try again. -/
def State.retryHeld (s : State) (l : Nat) : State :=
  let s := (s.leafAt l).queues.foldl (fun s p =>
    if (s.queueAt l p.1).held.isEmpty then s else State.recordRetry l p.1 (s.queueAt l p.1).held s) s
  let s := (s.leafAt l).rings.foldl (fun s p => if (s.ringAt l p.1).held.isEmpty then s else s.ringPush l p.1 []) s
  let t := (s.leafAt l).telem
  let s := if t.held.isEmpty then s else State.telemetryRetry l t.held s
  s.wgs.foldl (fun s p => if (s.gridAt (s.wgAt p.1).grid).leaf == l then s.tryFinish p.1 else s) s

/-- A write of a ring or a record fails for want of a host page. -/
def AccErr.isAts (e : AccErr) (pasid page : Nat) : Bool :=
  match e with
  | .ats p g _ _ => p == pasid && g == page
  | _ => false

/-- The oldest record a queue holds is lost when its page is denied, and counted. -/
def State.recordDenied (s : State) (l q pasid page : Nat) : State :=
  let x := s.queueAt l q
  match x.held with
  | [] => s
  | b :: t =>
    match s.ewrite none (s.qTag l q) l x.asid.toNat (x.errbase.toNat + 32 * (x.errcount % 2 ^ x.errlog2)) b with
    | .error e => if e.isAts pasid page then
        State.recordRetry l q t (s.setQueue l q { x with held := t, errcount := (x.errcount + 1) % 2 ^ 24 }) else s
    | .ok _ => s

/-- An egress ring whose next write is denied its page fails (R296). -/
def State.ringDenied (s : State) (l i pasid page : Nat) : State :=
  let r := s.ringAt l i
  let a := s.qAsid l 0
  match r.held with
  | [] => s
  | e :: _ =>
    if !r.open' then s else
    match s.ewrite none (s.qTag l 0) l a (r.rbase.toNat + 16 * (r.prod.toNat % 2 ^ r.log2n)) e with
    | .error x => if x.isAts pasid page then (s.setRing l i { r with failed := true }).queueRecord l 0 6 i else s
    | .ok _ => s

/-- The telemetry ring likewise: its record is dropped. -/
def State.telemetryDenied (s : State) (l pasid page : Nat) : State :=
  let r := (s.leafAt l).telem
  match r.held with
  | [] => s
  | e :: t =>
    match s.ewrite none (s.qTag l 0) l (s.qAsid l 0) (r.rbase.toNat + 32 * (r.prod.toNat % 2 ^ r.log2n)) e with
    | .error x =>
      if x.isAts pasid page then
        let s := s.setLeafAt l { s.leafAt l with telem := { r with held := t, failed := true } }
        let s := if r.failed then s else s.queueRecord l 0 6 0x40
        State.telemetryRetry l t s
      else s
    | .ok _ => s

/-- What a denial does to the records and entries of a leaf that wait. -/
-- DESIGN CHOICE (assumption 9): no page request is sent for a record or an entry of a ring.
def State.denyHeld (s : State) (l pasid page : Nat) : State :=
  let s := (s.leafAt l).queues.foldl (fun s p => s.recordDenied l p.1 pasid page) s
  let s := (s.leafAt l).rings.foldl (fun s p => s.ringDenied l p.1 pasid page) s
  s.telemetryDenied l pasid page

/-! ### Who waits for a page (R94, R95, R97, R127) -/

/-- The leaf of a gang. -/
def State.leafOfGang (s : State) (k : Nat) : Nat := (s.gridAt (s.wgAt (s.gangAt k).wg).grid).leaf

/-- What a party waits for. -/
def State.holdOf (s : State) : Waiter → Wait
  | .gang k => (s.gangAt k).wait
  | .cmd k id => ((s.gangAt k).cmdAt id).elim .none (fun c => c.hold)
  | .queue l q => (s.queueAt l q).hold
  | .cask l => (s.leafAt l).caskHold
  | .grant q => (s.grantAt q).hold
  | .wg w => (s.wgAt w).hold
  | .node i => (s.nodeAt i).hold
  | .port => s.portHold

/-- A party waits for something else, or for nothing more; a stopped workgroup whose wait has failed is refused. -/
def State.setHold (s : State) (w : Wait) : Waiter → State
  | .gang k =>
    let g := s.gangAt k
    s.setGangAt k { g with wait := w, readySince := if w == .none then s.clk.core else g.readySince }
  | .cmd k id => s.setGangAt k ((s.gangAt k).mapCmd id (fun c => { c with hold := w }))
  | .queue l q => s.setQueue l q { s.queueAt l q with hold := w }
  | .cask l => s.setLeafAt l { s.leafAt l with caskHold := w }
  | .grant q => s.setGrant q { s.grantAt q with hold := w }
  | .wg i =>
    let s := s.setWgAt i { s.wgAt i with hold := w }
    if w.failed.isSome then s.tryFinish i else s
  | .node i => s.setNode i { s.nodeAt i with hold := w }
  | .port => { s with portHold := w }

/-- The leaf on whose behalf a party waits. -/
def State.leafOfWaiter (s : State) : Waiter → Nat
  | .gang k => s.leafOfGang k
  | .cmd k _ => s.leafOfGang k
  | .queue l _ => l
  | .cask l => l
  | .grant q => (s.grantAt q).leaf
  | .wg w => (s.gridAt (s.wgAt w).grid).leaf
  | .node i => (s.nodeAt i).leaf
  | .port => match s.port.head? with
    | some (.read win _ _) => win - 33
    | some (.write l _ _) => l
    | _ => 0

/-- Everyone who may wait for a page. -/
def State.waiters (s : State) : List Waiter :=
  s.gangKeys.map .gang ++ s.gangs.flatMap (fun p => p.2.cmds.filterMap (fun c => if c.hold == .none then none else some (.cmd p.1 c.id)))
    ++ s.leaves.flatMap (fun p => .cask p.1 :: p.2.queues.map (fun q => .queue p.1 q.1))
    ++ s.grants.map (fun p => .grant p.1) ++ s.wgs.map (fun p => .wg p.1) ++ s.nodes.map (fun p => .node p.1) ++ [.port]

/-! ### ATS and PRI (R127) -/

/-- A party still waits for the answer to a page request. -/
def State.stillAsks (s : State) (a : PageAsk) : Bool :=
  match s.holdOf a.who with
  | .ats p x w (some _) => p == a.pasid && x == a.page && w == a.write
  | _ => false

/-- A page request is outstanding no more: the oldest of those that wait and are still wanted goes out. -/
def State.priDone (s : State) (l : Nat) (a : PageAsk) : State :=
  let f := s.leafAt l
  let s := s.setLeafAt l { f with priOut := f.priOut.erase a }
  if f.priStopped then s else
  match f.priQueue.dropWhile (fun b => !s.stillAsks b) with
  | [] => s.setLeafAt l { s.leafAt l with priQueue := [] }
  | b :: t => (s.setLeafAt l { s.leafAt l with priQueue := t }).sendPri l b

/-- One who waits for a page in the range of a completion goes on, or its page request is sent: at once when it is
non-speculative. -/
def State.answerWaiter (l die pasid page log : Nat) (rd wr : Bool) (s : State) (who : Waiter) : State :=
  let speculative := match who with
    | .gang k => !(s.gangAt k).quiet
    | _ => false
  let here := match who with
    | .gang k => (s.wgAt (s.gangAt k).wg).core / 96 == die
    | .cmd k _ => (s.wgAt (s.gangAt k).wg).core / 96 == die
    | _ => true
  match s.holdOf who with
  | .ats p x w none =>
    if p ≠ pasid || x / 2 ^ log ≠ page / 2 ^ log || s.leafOfWaiter who ≠ l || !here then s
    else if (if w then wr else rd) then s.setHold .none who
    else if speculative then s.setHold (.denied p x w) who
    else (s.sendPri l { who := who, pasid := p, page := x, write := w }).setHold (.ats p x w (some s.now)) who
  | _ => s

/-- An ATS completion: a translation of 2^`log` pages is cached with its rights in the die's cache, or denied (R126,
R127). -/
def execAtsCompletion (at' : AtsPort) (pasid : Nat) (pages : AtsRange) (rd wr : Bool) (s : State) : Out :=
  let l := at'.leaf
  let die := at'.die
  let page := pages.page
  let log := pages.log
  let s := if rd || wr then { s with
      atc := { leaf := l, die := die, pasid := pasid, page := page, log := log, r := rd, w := wr } ::
        s.atc.filter (fun t => !(t.leaf == l && t.die == die && t.pasid == pasid && t.covers page)) } else s
  let s := s.waiters.foldl (State.answerWaiter l die pasid page log rd wr) s
  let s := if rd || wr then s.retryHeld l else s
  .next (if wr then s else s.denyHeld l pasid page)

/-- The answer to the oldest page request of a party: 0 Success, 1 Invalid Request, 2 Response Failure.  It frees its
place whether the party still waits for it or not. -/
def execPriResponse (who : Waiter) (code : Nat) (s : State) : Out :=
  let l := s.leafOfWaiter who
  match (s.leafAt l).priOut.find? (fun a => a.who == who) with
  | none => .next s
  | some a =>
    if 2 < code then .next s else
    let asks := s.stillAsks a
    let s := if code = 2 then s.setLeafAt l { s.leafAt l with priStopped := true } else s
    let s := s.priDone l a
    if !asks then .next s
    else if code = 0 then .next ((s.setHold (.ats a.pasid a.page a.write none) who).ask l (.ats a.pasid a.page a.write 0))
    else .next (s.setHold (.atsFail a.pasid a.page a.write code) who)

/-- No answer came within the partition's PRI limit; a request that has not been sent yet is sent no more. -/
-- DESIGN CHOICE (assumption 101): the limit counts from the denial, also for a request that has not been sent.
def execPriLimitExpiry (who : Waiter) (s : State) : Out :=
  let l := s.leafOfWaiter who
  match s.holdOf who with
  | .ats p x w (some since) =>
    if s.now < since + cycles (1000 * (s.leafAt l).part.priLimit) then .next s else
    let a : PageAsk := { who := who, pasid := p, page := x, write := w }
    let f := s.leafAt l
    let s := if f.priOut.contains a then s.priDone l a else s.setLeafAt l { f with priQueue := f.priQueue.filter (fun b => b != a) }
    .next (s.setHold (.atsFail p x w 3) who)
  | _ => .next s

/-! ### Invalidation (R128) -/

/-- A translation of a read set leads to a host page of the range. -/
def State.hitsHost (s : State) (l pasid page count : Nat) : ReadItem → Bool
  | .trans l' a p =>
    l' == l && (s.asidAt l a).gens.any (fun g => match s.walk l g.root (p * 65536) with
      | .hit level e _ =>
        entKind e == 3 && (tget 0 (s.leafAt l).pasids (entPeer e)).toNat % 2 ^ 20 == pasid && (
          let h := (fld e 11 41 * 2 ^ 16 + p * 65536 % (if level = 1 then 2 ^ 24 else 2 ^ 16)) / 4096
          decide (h < page + count) && decide (page < h + 16))
      | _ => false)
  | _ => false

/-- An invalidation rolls back every read set that holds such a translation and waits for its accesses. -/
def execAtsInvalidationRequest (l pasid page count : Nat) (s : State) : Out :=
  let s := rollOthers none (s.hitsHost l pasid page count) s
  .next (s.setLeafAt l { s.leafAt l with atsInv := (s.leafAt l).atsInv ++ [(pasid, page, count)] })

/-- A read or an AtomicOp in a range that a gang of the leaf has sent is not answered yet, whether the gang still waits
for it or not. -/
def State.hostBusy (s : State) (l : Nat) (r : Nat × Nat × Nat) : Bool :=
  let meets := fun (key : Nat) =>
    key / 2 ^ 64 == r.1 && decide (r.2.1 ≤ key % 2 ^ 64 / 4096) && decide (key % 2 ^ 64 / 4096 < r.2.1 + r.2.2)
  s.gangKeys.any (fun k => s.leafOfGang k == l && ((s.gangAt k).sent ++ (s.gangAt k).wait.places).any (fun keys => keys.any meets))

/-- The oldest invalidation of a leaf may complete. -/
def State.invReady (s : State) (l : Nat) : Bool :=
  match (s.leafAt l).atsInv with
  | [] => false
  | r :: _ => !s.hostBusy l r

/-- It completes: read sets that have taken up a translation of its range since the request roll back, the cached
translations are discarded, and the host is told. -/
def execAtsInvalidationComplete (l : Nat) (s : State) : Out :=
  match (s.leafAt l).atsInv with
  | [] => .next s
  | r :: t =>
    if s.hostBusy l r then .next s else
    let s := rollOthers none (s.hitsHost l r.1 r.2.1 r.2.2) s
    let s := s.setLeafAt l { s.leafAt l with atsInv := t }
    .next { s with
      atc := s.atc.filter (fun c => !(c.leaf == l && c.pasid == r.1
        && decide (r.2.1 < (c.page / 2 ^ c.log + 1) * 2 ^ c.log) && decide (c.page / 2 ^ c.log * 2 ^ c.log < r.2.1 + r.2.2)))
      out := .atsDone l :: s.out }

/-- A reset of the function ends the state in which it sends no page requests. -/
def execFunctionReset (l : Nat) (s : State) : Out :=
  .next (s.setLeafAt l { s.leafAt l with priStopped := false, priOut := [], priQueue := [] })

end Sys2Proof.Machine
end

