-- ==== Sys2Proof/Machine/ErrorEvents.lean ====
section
/-! DEFINITION. Transient and uncorrectable errors (R109, R159, R160, R297). -/

namespace Sys2Proof.Machine

/-! ### Transient-error records (R297) -/

/-- What a record of kind 0x02 says beyond the clock. -/
structure ErrInfo where
  place : Nat := 0
  core : Nat := 0xFFFF
  stream : Nat := 0xFF
  array : Nat := 9
  uncorrectable : Bool := false
  outcome : Nat := 0
  die : Nat := 0
  asid : Nat := 0
  slot : Nat := 0xFF
  noAsid : Bool := false

def ErrInfo.bytes (e : ErrInfo) (clk : Nat) : List Byte :=
  leBytes 8 clk ++ leBytes 8 e.place ++ leBytes 2 e.core ++ leBytes 1 e.stream ++ leBytes 1 e.array
    ++ leBytes 1 (if e.uncorrectable then 1 else 0) ++ leBytes 1 e.outcome ++ leBytes 1 e.die ++ leBytes 1 2
    ++ leBytes 2 e.asid ++ leBytes 1 e.slot ++ leBytes 1 (if e.noAsid then 1 else 0) ++ leBytes 4 0

def State.errTelemetry (s : State) (l : Nat) (e : ErrInfo) : State := s.telemetry l (e.bytes s.now)

/-! ### Memory (R109, R160) -/

/-- The queues of a leaf whose current command runs gangs in an ASID, ascending. -/
def State.lossQueues (s : State) (l a : Nat) : List Nat :=
  (List.range 64).filter (fun q => (s.queueAt l q).run != .none && s.gangs.any (fun p =>
    (p.2.st == .live || p.2.st == .halted || p.2.st == .saved) && p.2.asid == a && (
      let g := s.gridAt (s.wgAt p.2.wg).grid
      g.leaf == l && g.queue == q && (match (s.gridAt g.root).seed with
        | .queue => true
        | .node _ _ => true
        | _ => false))))

/-- The seed grid an error record of a loss names. -/
def State.lossGrid (s : State) (l q : Nat) : Word :=
  match (s.queueAt l q).run with
  | .grid k => (s.gridAt k).id
  | _ =>
    let ks := s.grids.filter (fun p => p.2.live && p.2.leaf == l && p.2.queue == q)
    let node : Grid → Nat := fun g => match g.seed with
      | .node d n => d * 65536 + n
      | _ => 2 ^ 20
    let best := ks.foldl (fun (m : Option Grid) p => match m with
      | none => some p.2
      | some g => some (if node p.2 < node g then p.2 else g)) none
    match best with
    | some g => g.id
    | none => 0

/-- A loss is delivered to a queue: the error record, and the action of the queue or of the partition; a retry
acts as kill self. -/
def State.deliverLoss (s : State) (l a q : Nat) : State :=
  let aq := actionAt (s.queueAt l q).policy 0 2
  let ap := actionAt (s.leafAt l).policy 0 2
  let level := if aq = 3 then 4 else 3
  let act := if aq = 3 then (if ap = 0 then 0 else 2) else if aq = 0 then 0 else 2
  let s := s.record l q (leBytes 1 tcDATALOSS ++ leBytes 1 (level + 8 * act) ++ leBytes 1 0 ++ leBytes 1 0xFF
    ++ leBytes 4 (s.lossGrid l q).toNat ++ leBytes 8 0 ++ leBytes 6 0 ++ leBytes 2 a ++ leBytes 8 0)
  if act = 0 then s else if level = 3 then s.killQueue l q else s.killPartition l

/-- The record of an uncorrectable error whose line has been poisoned, in a partition's ring (R160, R297). -/
def State.lossRecord (s : State) (l : Nat) (asid : Option Nat) (e : ErrInfo) : State :=
  s.errTelemetry l { e with uncorrectable := true, outcome := 3, asid := asid.getD 0, noAsid := asid.isNone }

/-- An uncorrectable error is recorded and its loss charged to a context: a partition and an ASID (R109, R160). -/
def State.chargeLoss (s : State) (l : Nat) (asid : Option Nat) (e : ErrInfo) : State :=
  if !(s.leafAt l).live then s else
  let s := s.lossRecord l asid e
  match asid with
  | none => s
  | some a => (s.lossQueues l a).foldl (fun s q => s.deliverLoss l a q) s

/-- A number of free bytes. -/
def freeBytes (free n : Nat) : List Byte := (List.range n).map (fun i => Config.freeByte (free + i))

/-- A line of local memory, or one numbered from 2^50 of another device's, is poisoned and holds no known bytes; the
context of its owner tag is charged. -/
-- DESIGN CHOICE (assumption 94): a context of another device's partition is that device's to charge; here the partition
-- that owns the DRAM channel has the record.
def State.lineError (s : State) (line : Nat) : State :=
  let peer := decide (2 ^ 50 ≤ line)
  let pa := (line - if peer then 2 ^ 50 else 0) * 128
  let x := s.lineAt line
  let bytes := freeBytes s.free 128
  let owner := if peer then none else s.leafOf pa
  let tag := x.tag.getD { leaf := owner.getD 32 }
  let s := if peer then { s with peerMem := memPut s.peerMem pa bytes } else { s with mem := memPut s.mem pa bytes }
  let s := { s with free := s.free + 128, lines := tput s.lines line { x with poison := true, tag := some tag } }
  let e : ErrInfo := {
    place := pa % 2 ^ 52, array := if peer || x.dirty || x.holder.isSome then 8 else 9, die := homeDie pa }
  if tag.dev.isNone then s.chargeLoss tag.leaf tag.asid e
  else owner.elim s (fun l => s.lossRecord l tag.asid e)

/-- A line of a workgroup's scratchpad is marked and holds no known bytes; the workgroup's context is charged. -/
-- DESIGN CHOICE (assumption 79): a marked line of a scratchpad, and what its record holds.
def State.scrError (s : State) (w n : Nat) : State :=
  let x := s.wgAt w
  let gr := s.gridAt x.grid
  if (x.st != .live && x.st != .preempting) || gr.k.scratch ≤ n * 128 then s else
  let s := s.setWgAt w { x with
    scr := memPut x.scr (n * 128) (freeBytes s.free 128), badScr := n :: x.badScr.filter (fun m => m != n) }
  let s := { s with free := s.free + 128 }
  s.chargeLoss gr.leaf (some gr.asid) { place := n * 128, core := x.core % 96, array := 6, die := x.core / 96 }

/-- An uncorrectable error in memory, L2 or a scratchpad (R109, R159). -/
def execUncorrectableError (place : ErrPlace) (s : State) : Out :=
  .next (match place with
    | .line n => s.lineError n
    | .scr w n => s.scrError w n)

/-! ### Gangs (R159) -/

/-- What a record says of a gang. -/
def State.errOfGang (s : State) (k array : Nat) : ErrInfo :=
  let g := s.gangAt k
  let core := (s.wgAt g.wg).core
  { core := core % 96, stream := g.stream, array := array, die := core / 96, asid := g.asid, slot := g.slot }

/-- A gang holds state on its core: it runs, it has halted with work outstanding, or it has stopped for a pre-emption whose
image has not left the core (R159, R163, R206). -/
def State.onCore (s : State) (k : Nat) : Bool :=
  let g := s.gangAt k
  match g.st with
  | .live => true
  | .halted => !(g.cmds.isEmpty && g.stores.isEmpty)
  | .saved => (s.wgAt g.wg).st == .preempting
  | _ => false

/-- A correctable error, or a residue mismatch: the instruction is replayed, and a record tells of it, in the ring of
the partition that owns the core, or for L2 and DRAM the channel. -/
def execCorrectableError (k : Nat) (at' : ArrayError) (s : State) : Out :=
  let g := s.gangAt k
  let array := at'.array
  let pa := at'.pa
  if !s.onCore k || array < 1 || 9 < array then .next s else
  if array < 8 then
    let place := if array ≤ 3 then g.r.pc.toNat else pa % 2 ^ 52
    .next (s.errTelemetry (s.leafOfGang k) { s.errOfGang k array with place := place })
  else
    let l := (s.leafOf pa).getD (s.leafOfGang k)
    .next (s.errTelemetry l { array := array, place := pa / 128 * 128 % 2 ^ 52, die := homeDie pa, asid := g.asid })

/-- The damaged registers of a gang whose error is ignored hold free values. -/
def Gang.damaged (g : Gang) (free : Nat) : Gang :=
  { g with r := { g.r with
      win := tab (freeReg free), s := tab (fun i => Config.freeWord (free + 2048 + i.val)) } }

/-- An uncorrectable error in a gang's registers, fast file, checkpoint or pending list: a transient fault goes
to containment (R157 to R159). -/
-- DESIGN CHOICE (assumption 29): what an ignored error damages, and its record's outcome.
def execGangStateError (k array : Nat) (s : State) : Out :=
  let g := s.gangAt k
  if !s.onCore k || (array != 2 && array != 3) then .next s else
  let f : FaultRec :=
    if g.trap then { g.fault with code := 0, pc := g.r.pc } else { pc := g.r.pc, exec := g.r.exec, fmt := g.r.fmt, resume := g.r.pc }
  let e := s.errOfGang k array
  let t := s.onGang k (fun s => s.contain f 0 1)
  let h := t.gangAt k
  let outcome := if h.flash.tries ≠ g.flash.tries then 1 else 2
  let t := if outcome = 2 && (h.st == .live || h.st == .saved) then
    { t.setGangAt k (h.damaged t.free) with free := t.free + 2080 } else t
  let t := t.errTelemetry (s.leafOfGang k) { e with place := g.r.pc.toNat, uncorrectable := true, outcome := outcome }
  .next (if (t.wgAt g.wg).st == .preempting then t.tryFinish g.wg else t)

end Sys2Proof.Machine
end

