-- ==== Sys2Proof/Machine/FxLane.lean ====
section
/-! DEFINITION. The function family fx (R222, R223). -/

namespace Sys2Proof.Machine

/-! ### fx (R222) -/

def fxOf (f : Num → Word × Nat) (xs : List Word) : Word × List Nat := one (f (fv xs 0))

/-- floor, ceil and trunc: an integral value by a fixed mode, no flag; a value already integral is
unchanged. -/
def fxIntegral (mode : Nat) (xs : List Word) : Word × List Nat := ((roundF32 0 (integral mode (fv xs 0)).1).1, [])

/-- rint: NX when the value changes. -/
def fxRint (rm : Nat) (xs : List Word) : Word × List Nat :=
  let r := integral rm (fv xs 0)
  ((roundF32 0 r.1).1, [if r.2 then evNX else 0])

def fxClass (xs : List Word) : Word × List Nat := (BitVec.ofNat 32 (classMask (xs.getD 0 0)), [])

def execFxRcp (d a : BitVec 7) (s : State) : Out := s.laneEv 4 true d [(.fp, a)] none (fxOf (rcpF32 s.r.rm))
def execFxRsqrt (d a : BitVec 7) (s : State) : Out := s.laneEv 4 true d [(.fp, a)] none (fxOf (rsqrtF32 s.r.rm))
def execFxSqrt (d a : BitVec 7) (s : State) : Out := s.laneEv 4 true d [(.fp, a)] none (fxOf (sqrtF32 s.r.rm))
def execFxExp2 (d a : BitVec 7) (s : State) : Out := s.laneEv 4 true d [(.fp, a)] none (fxOf (exp2F32 s.r.rm))
def execFxLog2 (d a : BitVec 7) (s : State) : Out := s.laneEv 4 true d [(.fp, a)] none (fxOf (log2F32 s.r.rm))
def execFxSin (d a : BitVec 7) (s : State) : Out := s.laneEv 4 true d [(.fp, a)] none (fxOf (turnF32 false s.r.rm))
def execFxCos (d a : BitVec 7) (s : State) : Out := s.laneEv 4 true d [(.fp, a)] none (fxOf (turnF32 true s.r.rm))
def execFxTanh (d a : BitVec 7) (s : State) : Out := s.laneEv 4 true d [(.fp, a)] none (fxOf (tanhF32 s.r.rm))
def execFxFloor (d a : BitVec 7) (s : State) : Out := s.laneEv 4 true d [(.fp, a)] none (fxIntegral 2)
def execFxCeil (d a : BitVec 7) (s : State) : Out := s.laneEv 4 true d [(.fp, a)] none (fxIntegral 3)
def execFxRint (d a : BitVec 7) (s : State) : Out := s.laneEv 4 true d [(.fp, a)] none (fxRint s.r.rm)
def execFxTrunc (d a : BitVec 7) (s : State) : Out := s.laneEv 4 true d [(.fp, a)] none (fxIntegral 1)
def execFxFract (d a : BitVec 7) (s : State) : Out := s.laneEv 4 true d [(.fp, a)] none (fxOf (fractF32 s.r.rm))
def execFxClass (d a : BitVec 7) (s : State) : Out := s.laneEv 4 true d [(.fp, a)] none (fxClass)

/-! ### fx.act (R223) -/

/-- A word of the current bank's entry. -/
def CoreSt.actWord (c : CoreSt) (entry off : Nat) : Word :=
  BitVec.ofNat 32 (memNat (if c.bank then c.bank1 else c.bank0) (16 * entry + off) 4)

/-- The largest index whose START is at most a, or 0. -/
def CoreSt.actIndex (c : CoreSt) (a : Num) : Nat :=
  (((List.range 256).filter (fun i =>
    let t := ofF32 (c.actWord i 0)
    !t.isNan && !a.lt t)).getLast?).getD 0

/-- The two fused steps of the table, whose events are one sub-element's (R38). -/
def fxAct (c : CoreSt) (rm : Nat) (xs : List Word) : Word × List Nat :=
  let a := fv xs 0
  if a.isNan then (0x7FC00000, []) else
  let i := c.actIndex a
  let t := sumF32 rm [termOf (ofF32 (c.actWord i 8)), mulNum a (ofF32 (c.actWord i 12))]
  let r := sumF32 rm [termOf (ofF32 (c.actWord i 4)), mulNum a (ofF32 t.1)]
  (r.1, [Nat.lor t.2 r.2])

def execFxAct (d a : BitVec 7) (s : State) : Out := s.laneEv 4 true d [(.fp, a)] none (fxAct s.core s.r.rm)

end Sys2Proof.Machine
end

