-- ==== Sys2Proof/Machine/PeerEvents.lean ====
section
/-! DEFINITION. Pages shared with other devices: replicas, hand-overs, minimum residency, waits and links (R94
to R97, R299).  A page is its home device × 2^36 + its number there. -/

namespace Sys2Proof.Machine

def State.setPage (s : State) (key : Nat) (p : Page) : State := { s with pages := tput s.pages key p }

/-- This device is a page's home. -/
def State.isHome (s : State) (key : Nat) : Bool := key / 2 ^ 36 == s.devnum

/-- The first line of a page, as read sets number lines. -/
def State.pageLine (s : State) (key : Nat) : Nat :=
  if s.isHome key then key % 2 ^ 36 * 512 else 2 ^ 50 + (key / 2 ^ 36 * 2 ^ 52 + key % 2 ^ 36 * 65536) / 128

/-- Those who wait for a page go on; a replica serves reads alone. -/
def State.wakePage (s : State) (key : Nat) (write : Bool) : State :=
  s.waiters.foldl (fun s who => match s.holdOf who with
    | .peer p w _ => if p = key ∧ (write ∨ !w) then s.setHold .none who else s
    | _ => s) s

/-- Records, entries and saves of every leaf that waited try again. -/
def State.retryAll (s : State) : State := s.leaves.foldl (fun s p => s.retryHeld p.1) s

/-- Every copy of the page's lines on this device is invalidated, and read sets that hold one roll back
(R95). -/
def State.dropPage (s : State) (key : Nat) : State :=
  let first := s.pageLine key
  let own := fun (n : Nat) => decide (first ≤ n) && decide (n < first + 512)
  let s := { s with lines := tmap s.lines (fun n x => if own n then { x with l1 := [], spent := [], remote := [], holder := none } else x) }
  rollOthers none (fun i => match i with
    | .line n => own n
    | _ => false) s

/-- Where a page's bytes lie on this device: local DRAM at its home, peer memory elsewhere. -/
def State.pageBase (s : State) (key : Nat) : Nat :=
  if s.isHome key then key % 2 ^ 36 * 65536 else key / 2 ^ 36 * 2 ^ 52 + key % 2 ^ 36 * 65536

/-- A page as it leaves this device: its bytes, and the poison markers and owner tags of its lines (R95, R109). -/
def State.pageImage (s : State) (key : Nat) : PageImage :=
  { cells := memCells (if s.isHome key then s.mem else s.peerMem) (s.pageBase key) 65536
    lines := (List.range 512).filterMap (fun i =>
      let x := s.lineAt (s.pageLine key + i)
      if !x.poison && x.tag.isNone then none
      else some { line := i, poison := x.poison, dev := (x.tag.getD {}).dev.getD s.devnum, leaf := (x.tag.getD {}).leaf
                  asid := (x.tag.getD {}).asid }) }

/-- The bytes of an image in the form of a memory. -/
def imageMemory (p : PageImage) : List Host.Cell :=
  (p.cells.filter (fun c => decide (c.1 < 65536))).foldl (fun m c => memWrite m c.1 c.2) []

/-- The owner tag of a line that arrives: one of this device's partitions that is gone is forgotten (R109). -/
def arrivedTag (y : PageLine) (me : Nat) (gone : List Nat) : Option OwnerTag :=
  if y.dev ≠ me then some { leaf := y.leaf, asid := y.asid, dev := some y.dev }
  else if gone.contains y.leaf then none
  else some { leaf := y.leaf, asid := y.asid }

/-- An image's contents, poison markers and owner tags arrive at a page, which no gang holds a copy of (R94, R95,
R109). -/
def State.putPage (s : State) (key : Nat) (p : PageImage) : State :=
  let put := fun (m : List Host.Cell) => memReplace m (s.pageBase key) 65536 (imageMemory p)
  let s := if s.isHome key then { s with mem := put s.mem } else { s with peerMem := put s.peerMem }
  { s with lines := (List.range 512).foldl (fun t i =>
      let n := s.pageLine key + i
      let x := tget ({} : Line) t n
      match p.lines.find? (fun y => y.line == i) with
      | some y => tput t n { x with poison := y.poison, tag := arrivedTag y s.devnum (s.pageAt key).gone }
      | none => if thas t n then tput t n { x with poison := false, tag := none } else t) s.lines }

/-- The minimum residency of a page's new owner, in cycles: that of the leaf that waits for it here, or
of the leaf whose channels hold it, or 20 µs (R96). -/
-- DESIGN CHOICE (assumption 28): which partition's residency counts.
def State.residency (s : State) (key : Nat) : Nat :=
  let waiting := s.waiters.find? (fun who => match s.holdOf who with
    | .peer p _ _ => p == key
    | _ => false)
  cycles (match waiting with
    | some who => (s.leafAt (s.leafOfWaiter who)).part.residency
    | none => match s.leafOf (key % 2 ^ 36 * 65536) with
      | some l => if s.isHome key then (s.leafAt l).part.residency else 20
      | none => 20)

/-- A replica request is answered: the home records the requester and forwards to the owner; the owner sends
the replica (R94). -/
def State.serveReplica (s : State) (key dev : Nat) : State :=
  let p := s.pageAt key
  let s := if s.isHome key && !p.replicas.contains dev then s.setPage key { p with replicas := p.replicas ++ [dev] } else s
  { s with out := (if p.owner = s.devnum then .page key dev (s.pageImage key) else .replica key p.owner dev) :: s.out }

/-- A page is handed over (R95): copies and replicas are invalidated, contents and ownership move, and the new
owner keeps it for the minimum residency.  The image is what comes when this device is the new owner of a page that
another has owned. -/
def State.serveHandOver (s : State) (key dev : Nat) (image : PageImage) : State :=
  let p := s.pageAt key
  let until' := s.now + s.residency key
  let mine := p.owner == s.devnum
  let sent : List Msg := if dev = s.devnum then [] else (if mine then [.page key dev (s.pageImage key)] else []) ++ [.owner key dev]
  let s := s.dropPage key
  let s := if dev = s.devnum && !mine then s.putPage key image else s
  let s := s.setPage key { p with
    owner := dev, replicas := [], here := dev == s.devnum, residentUntil := until'
    gone := if dev = s.devnum then [] else p.gone }
  let s := { s with out := sent ++ s.out }
  if dev = s.devnum then (s.wakePage key true).retryAll else s

/-- The page's owner still keeps it. -/
def State.resident (s : State) (key : Nat) : Bool := decide (s.now < (s.pageAt key).residentUntil)

/-- A request waits in arrival order. -/
def State.queuePage (s : State) (key dev : Nat) (own : Bool) (image : PageImage) : State :=
  let p := s.pageAt key
  s.setPage key { p with requests := p.requests ++ [(dev, own, image)] }

def execReplicaRequest (key dev : Nat) (s : State) : Out :=
  if s.resident key || !(s.pageAt key).requests.isEmpty then .next (s.queuePage key dev false {}) else .next (s.serveReplica key dev)

/-- A replica arrives with its contents, and the waiting loads perform; a page this device owns takes none. -/
def execReplicaArrival (come : PageArrival) (s : State) : Out :=
  let key := come.page
  if (s.pageAt key).owner == s.devnum then .next s else
  let s := (s.dropPage key).putPage key come.image
  .next (((s.setPage key { s.pageAt key with here := true }).wakePage key false).retryAll)

def execHandOver (come : PageArrival) (dev : Nat) (s : State) : Out :=
  if s.resident come.page || !(s.pageAt come.page).requests.isEmpty then .next (s.queuePage come.page dev true come.image)
  else .next (s.serveHandOver come.page dev come.image)

/-- Requests are served in order until one begins another residency. -/
def State.serveRequests (key : Nat) : List (Nat × Bool × PageImage) → State → State
  | [], s => s.setPage key { s.pageAt key with requests := [] }
  | (dev, own, image) :: t, s =>
    if own then
      let s := s.serveHandOver key dev image
      if s.resident key then s.setPage key { s.pageAt key with requests := t } else State.serveRequests key t s
    else State.serveRequests key t (s.serveReplica key dev)

/-- Requests of a page wait and its residency has ended. -/
def State.pageDue (s : State) (key : Nat) : Bool := !s.resident key && !(s.pageAt key).requests.isEmpty

def execMinimumResidencyExpiry (key : Nat) (s : State) : Out :=
  if s.pageDue key then .next (State.serveRequests key (s.pageAt key).requests s) else .next s

/-- A wait for an unreachable page has lasted 1 ms: XLATE follows in the instruction, a run failure of the
command that waits, or the end of the entry, launch or save (R97, R247).  Which devices can be reached is the event's
own knowledge. -/
def execPeerWaitTimeout (who : Waiter) (s : State) : Out :=
  match s.holdOf who with
  | .peer page write since => if since + cycles 1000 ≤ s.now then .next (s.setHold (.peerFail page write) who) else .next s
  | _ => .next s

/-- A link fails; the others carry its traffic. -/
def execLinkFailure (link : Nat) (s : State) : Out := .next { s with links := s.links.filter (fun n => n != link) }

end Sys2Proof.Machine
end

