-- ==== Sys2Proof/Machine/SchedEvents.lean ====
section
/-! DEFINITION. Retirement of gangs and the promoted mark (R15, R279). -/

namespace Sys2Proof.Machine

/-- A halted gang has nothing outstanding. -/
def Gang.mayRetire (g : Gang) : Bool := g.st == .halted && g.cmds.isEmpty && g.stores.isEmpty

/-- A halted gang whose engine operations have completed retires; a workgroup that was being pre-empted may
then be stopped whole. -/
def execGangRetire (k : Nat) (s : State) : Out :=
  let g := s.gangAt k
  if g.mayRetire then .next ((s.retireGang k).tryFinish g.wg) else .next s

/-! ### The promoted mark (R279) -/

/-- Since when the gang has been ready without issuing: a gang that is not ready has none of these cycles behind it. -/
def Gang.readyFrom (g : Gang) : Nat := max g.readySince g.lastIssue

/-- The gang has been ready for 4,096 core cycles. -/
def State.mayPromote (s : State) (k : Nat) : Bool :=
  let g := s.gangAt k
  g.st == .live && !g.r.wdDue && !g.promoted && decide (g.readyFrom + 4096 ≤ s.clk.core)

/-- It becomes promoted. -/
def execPromotion (k : Nat) (s : State) : Out :=
  if s.mayPromote k then .next (s.setGangAt k { s.gangAt k with promoted := true }) else .next s

end Sys2Proof.Machine
end

