-- ==== Sys2Proof/Machine/Sync.lean ====
section
/-! DEFINITION. The synchronisation instructions sync (R22, R89, R100 to R103, R209, R210). -/

namespace Sys2Proof.Machine

/-! ### Barriers -/

/-- The barrier `k` of the gang's workgroup. -/
def State.bar (s : State) (k : Nat) : Barrier := s.wg.bars.toList.getD k {}

/-- The generation that an arrival of the gang now counts toward: the current one, or when the gang has arrived in it
already the next (R22). -/
def State.arrival (s : State) (k : Nat) : Nat :=
  (s.bar k).gen + if bitAt (s.bar k).arrived.toNat s.gang.slot then 1 else 0

/-- The gang arrives at barrier `k` (R22, R162). -/
def State.arrive (s : State) (k : Nat) : State :=
  let x := s.wg
  let b := s.bar k
  let me : Word := BitVec.ofNat 32 (2 ^ s.gang.slot)
  let b := if bitAt b.arrived.toNat s.gang.slot then { b with next := b.next ||| me } else { b with arrived := b.arrived ||| me }
  let s := s.setWg { x with bars := x.bars.setIfInBounds k b }
  (s.setGang s.gang.wrote).barCheck s.gang.wg k

/-- Past the barrier when its generation `gen` has completed, else waiting for it. -/
def State.barWait (s : State) (k gen : Nat) : Out :=
  if gen < (s.bar k).gen then s.retire else s.stallAs (.bar k gen)

def execSyncBar (k : BitVec 2) (s : State) : Out :=
  s.noExt (match s.gang.wait with
    | .bar j gen => s.barWait j gen
    | _ => if s.quiet then (s.arrive k.toNat).barWait k.toNat (s.arrival k.toNat) else s.stall)

/-! ### Commits (R101, R210) -/

/-- The registers after a commit: the batch number's low half goes to sD. -/
def Regs.commit (r : Regs) (copy : Bool) (d : BitVec 5) : Regs :=
  let n := r.comm copy + 1
  (if copy then { r with commCp := n } else { r with commMx := n }).setS d (BitVec.ofNat 32 n)

/-- A commit is deferred: it numbers its batch as it issues, and sD takes the number as it starts, at once when
nothing older of the gang waits (R90, R101, R210). -/
def State.commit (s : State) (copy : Bool) (d : BitVec 5) : Out :=
  s.noExt (s.withEng copy (
    let n := s.r.comm copy + 1
    if 2 ^ 31 ≤ n - s.gang.counterNow copy then s.stall
    else if s.ready then
      let s := s.setR (s.r.commit copy d)
      (s.setGang s.gang.wrote.count).retire
    else if 16 ≤ s.gang.pendingCount then s.stall
    else (s.setR (if copy then { s.r with commCp := n } else { s.r with commMx := n })).enlist {
      op := .commit d.toNat n s.gang.trap, pc := s.r.pc, seq := s.gang.seq, copy := copy, batch := n }))

def execSyncCmtmx (d : BitVec 5) (s : State) : Out := s.commit false d
def execSyncCmtcp (d : BitVec 5) (s : State) : Out := s.commit true d

/-! ### Reads and waits -/

def execSyncTlrd (d a : BitVec 5) (s : State) : Out :=
  s.noExt (if d = 31 then s.illop 4 false else
    match s.counterOf (s.r.sreg a) with
    | none => s.illop 4 false
    | some c => s.setRegs (s.r.setPair d (c.setWidth 32) ((c >>> 32).setWidth 32)))

/-- It waits as an irrevocable instruction does (R89). -/
def execSyncIrrev (s : State) : Out :=
  s.noExt (if s.quiet then (s.setGang s.gang.wrote).retire else s.stall)

end Sys2Proof.Machine
end

