-- ==== Sys2Proof/Machine/Sys.lean ====
section
/-! DEFINITION. System registers, software traps and the return from a trap (R39, R156, R211 to R214). -/

namespace Sys2Proof.Machine

/-! ### Reading (R39) -/

def lo32 (x : BitVec 64) : Word := x.setWidth 32
def hi32 (x : BitVec 64) : Word := (x >>> 32).setWidth 32
def vaLo (x : Va) : Word := x.setWidth 32
def vaHi (x : Va) : Word := (x >>> 32).setWidth 32

/-- The value of a system register that fits one register. -/
def State.sysReg (s : State) (n : Nat) : Option Word :=
  let g := s.gang
  let r := g.r
  let w := s.wg
  let nat := fun (x : Nat) => some (BitVec.ofNat 32 x : Word)
  match n with
  | 0x000 => nat g.slot
  | 0x001 => nat w.x
  | 0x002 => nat w.y
  | 0x003 => nat w.z
  | 0x004 => some s.grid.id
  | 0x005 => nat s.grid.depth
  | 0x006 => nat (w.core % 96)
  | 0x007 => nat s.die
  | 0x008 => some g.launched
  | 0x010 => some r.fflags
  | 0x011 => some r.fcount0
  | 0x012 => some r.fcount1
  | 0x013 => some r.fcount2
  | 0x020 => nat (g.gen % 2 ^ 16 * 2 ^ 16 + g.asid)
  | 0x021 => nat s.myAsid.cur.num
  | 0x030 => some (vaLo r.spbase)
  | 0x031 => some (vaHi r.spbase)
  | 0x032 => some (vaLo r.splim)
  | 0x033 => some (vaHi r.splim)
  | 0x034 => nat r.links.length
  | 0x035 => some r.calllim
  | 0x040 => nat (g.ivl % 2 ^ 16 + if g.flash.valid then 2 ^ 31 else 0)
  | 0x050 => some (lo32 g.tlMx)
  | 0x051 => some (r.hiTlmx.getD (hi32 g.tlMx))
  | 0x052 => some (lo32 g.tlCp)
  | 0x053 => some (r.hiTlcp.getD (hi32 g.tlCp))
  | 0x060 => some (lo32 s.clk.ref)
  | 0x061 => some (r.hiClk.getD (hi32 s.clk.ref))
  | 0x070 => nat s.leafNo
  | 0x080 => some r.tfPc
  | 0x081 => some r.tfExec
  | 0x082 => some r.tfFmt
  | 0x083 => some r.tfCode
  | 0x084 => some r.tfLanes
  | 0x085 => some (vaLo r.tfAddr)
  | 0x086 => some (r.hiTfAddr.getD (vaHi r.tfAddr))
  | 0x087 => some r.tfInfo
  | 0x090 => some r.wdog
  | 0x0A0 => nat g.level
  | 0x0A1 => some (g.rollcnt + r.rollOff)
  | 0x0B0 => some s.core.auditN
  | _ => none

/-- A read of a _LO register latches its partner, a read of the partner uses the latch up (R39). -/
def State.latch (s : State) (n : Nat) : Regs :=
  let g := s.gang
  let r := g.r
  match n with
  | 0x050 => { r with hiTlmx := some (hi32 g.tlMx) }
  | 0x051 => { r with hiTlmx := none }
  | 0x052 => { r with hiTlcp := some (hi32 g.tlCp) }
  | 0x053 => { r with hiTlcp := none }
  | 0x060 => { r with hiClk := some (hi32 s.clk.ref) }
  | 0x061 => { r with hiClk := none }
  | 0x085 => { r with hiTfAddr := some (vaHi r.tfAddr) }
  | 0x086 => { r with hiTfAddr := none }
  | _ => r

/-- FEAT0–FEAT3. -/
def State.featReg (s : State) (n : Nat) : Option (BitVec 64) :=
  if 0x71 ≤ n ∧ n ≤ 0x74 then some ((s.feat >>> (64 * (n - 0x71))).setWidth 64) else none

def execSysSrd (d : BitVec 5) (i : BitVec 16) (s : State) : Out :=
  s.noExt (match s.featReg i.toNat with
    | some f => if d = 31 then s.illop 4 false else s.setRegs (s.r.setPair d (lo32 f) (hi32 f))
    | none => match s.sysReg i.toNat with
      | none => s.illop 4 false
      | some v => s.setRegs ((s.latch i.toNat).setS d v))

/-! ### Writing (R39, R211, R212) -/

/-- Registers that need the system flag. -/
def sysPriv (n : Nat) : Bool := (decide (0x30 ≤ n) && decide (n ≤ 0x33)) || n == 0xB0

/-- A 48-bit register with one of its halves written. -/
def setLo (x : Va) (v : Word) : Va := ((x >>> 32).setWidth 16 : BitVec 16) ++ v
def setHi (x : Va) (v : Word) : Va := (v.setWidth 16 : BitVec 16) ++ (x.setWidth 32 : Word)

/-- The registers after a write that a rollback undoes; none for a number that is not such a register. -/
def Regs.sysWrite (r : Regs) (n : Nat) (v : Word) : Option Regs :=
  match n with
  | 0x010 => some { r with fflags := fflagsWrite v }
  | 0x011 => some { r with fcount0 := v }
  | 0x012 => some { r with fcount1 := v }
  | 0x013 => some { r with fcount2 := v }
  | 0x030 => some { r with spbase := setLo r.spbase (v &&& 0xFFFFFF80) }
  | 0x031 => some { r with spbase := setHi r.spbase v }
  | 0x032 => some { r with splim := setLo r.splim v }
  | 0x033 => some { r with splim := setHi r.splim v }
  | 0x035 => some { r with calllim := if 1024 < v.toNat then 1024 else v }
  | 0x080 => some { r with tfPc := v }
  | 0x081 => some { r with tfExec := v }
  | 0x082 => some { r with tfFmt := v }
  | 0x083 => some { r with tfCode := v &&& 0xFF }
  | 0x084 => some { r with tfLanes := v }
  | 0x085 => some { r with tfAddr := setLo r.tfAddr v }
  | 0x086 => some { r with tfAddr := setHi r.tfAddr v }
  | 0x087 => some { r with tfInfo := v }
  | 0x090 => some { r.watchReset with wdog := wdogWrite v }
  | _ => none

/-- AUDITN clamped to its range. -/
def clampAudit (v : Word) : Word := if v.toNat < 16 then 16 else if 65536 < v.toNat then 65536 else v

def execSysSwr (a : BitVec 5) (i : BitVec 16) (s : State) : Out :=
  s.noExt (
    let n := i.toNat
    let v := s.r.sreg a
    let spill := decide (0x30 ≤ n) && decide (n ≤ 0x33)
    -- the count of rollbacks itself stands, so that a rollback undoes the write (R211)
    let w := if n = 0xA1 then some { s.r with rollOff := v - s.gang.rollcnt } else s.r.sysWrite n v
    if w.isNone && n != 0xB0 then s.illop 4 false
    else if spill && !s.r.links.isEmpty then s.illop 4 false
    else if sysPriv n && !s.grid.k.sys then s.raise 4 tcPRIV 0 0 n
    else match w with
      | some r => s.setRegs r
      | none =>
        if !s.quiet then s.stall
        else ((s.setCore { s.core with auditN := clampAudit v }).setGang s.gang.wrote).retire)

/-! ### Traps (R213, R214) -/

def execSysTrap (c : BitVec 5) (i : BitVec 16) (s : State) : Out :=
  s.withSyImm i (fun v =>
    if c = 0 then s.raise 4 tcTRAPI 0 0 v.toNat
    else if c = 0x0D then s.raise 4 tcGDEAD 0 0 v.toNat
    else s.illop 4 false)

/-- The gang leaves trap class; one that is to be pre-empted is now dealt with according to its state
(R155). -/
def State.leaveTrap (s : State) : State :=
  let s := s.setGang s.gang.eret
  match s.gang.forward with
  | none => s
  | some d => (s.preemptGang s.cur d).tryFinish s.gang.wg

def execSysEret (s : State) : Out :=
  s.noExt (
    if !s.gang.trap then s.illop 4 false
    else if !s.quiet then s.stall
    else
      let t := s.computed s.r.tfPc
      if t.toNat % 2 = 1 then s.raise 4 tcALIGN 0 t.toNat 0
      else .next (s.leaveTrap.tick 1))

end Sys2Proof.Machine
end

