-- ==== Sys2Proof/Machine/SystemEvents.lean ====
section
/-! DEFINITION. Firmware and the package: the boot chain, the mailbox and its commands, features, power, spare
cores (R290 to R302). -/

namespace Sys2Proof.Machine

/-! ### Partition records (R291) -/

/-- A partition record from its bytes. -/
def parsePart (b : List Byte) : PartRec :=
  let f := ef b
  { id := f 0 2, parent := f 2 2, leaf := bitAt (f 4 1) 0, sliced := bitAt (f 4 1) 1, leafNo := f 5 1, devnum := f 6 2
    cores := (List.range 4).map (fun d => (f (8 + 2 * d) 1, f (9 + 2 * d) 1))
    groups := (List.range 4).map (fun d => f (0x10 + 4 * d) 4)
    channels := (List.range 4).map (fun d => f (0x20 + 8 * d) 8)
    dramBw := f 0x40 4, linkBw := f 0x44 4, share := f 0x48 2, slice := f 0x4A 2, e1 := f 0x4C 1, e2 := f 0x4D 1
    residency := f 0x4E 2, grace := f 0x50 2, priLimit := f 0x52 2, actmax := f 0x54 1, actgap := f 0x55 1
    grantFirst := fld (f 0x56 2) 0 6, grantCount := fld (f 0x56 2) 8 7
    nodes := (List.range 4).map (fun d => (f (0x58 + 2 * d) 1, f (0x59 + 2 * d) 1))
    nodeBase := f 0x60 8, nodeSize := f 0x68 8, frameBase := f 0x70 8, frameSize := f 0x78 8, bytes := b }

/-- The root's record names only the device number. -/
def rootOk (b : List Byte) : Bool :=
  (List.range 128).all (fun i => b.getD i 0 == 0 || i == 6 || i == 7) && decide (ef b 6 2 ≤ 4095)

/-- The limits of a partition's own record. -/
def PartRec.limitsOk (p : PartRec) : Bool :=
  let b := p.bytes
  decide (1 ≤ p.id) && decide (p.id ≤ 72) && fld (ef b 4 1) 2 6 == 0 && p.devnum == 0
    && (if p.leaf then decide (p.leafNo ≤ 31) else p.leafNo == 0 && ef b 0x56 2 == 0)
    && p.cores.all (fun c => decide (c.1 + c.2 ≤ 96)) && p.channels.all (fun c => decide (c < 2 ^ 37))
    && decide (p.dramBw ≤ 24000) && decide (p.linkBw ≤ 3200)
    && decide (100 ≤ p.slice) && decide (p.slice ≤ 100000) && decide (1 ≤ p.e1) && decide (1 ≤ p.e2)
    && decide (p.residency ≤ 1000) && decide (1 ≤ p.grace) && decide (p.grace ≤ 1000)
    && decide (1 ≤ p.priLimit) && decide (p.priLimit ≤ 60000) && decide (1 ≤ p.actmax) && decide (p.actmax ≤ 96)
    && !bitAt (ef b 0x56 2) 7 && !bitAt (ef b 0x56 2) 6 && !bitAt (ef b 0x56 2) 15
    && decide (p.grantCount ≤ 64) && decide (p.grantFirst + p.grantCount ≤ 64)
    && p.nodes.all (fun n => decide (n.1 + (if n.2 = 0 then 256 else n.2) ≤ 256) || n == (0, 0))
    && p.nodeBase % 2048 == 0 && p.frameBase % 65536 == 0

/-- The partition in force under an id. -/
def State.partAt (s : State) (id : Nat) : Option PartRec := (s.parts.find? (fun p => p.1 == id && p.1 != 0)).map (fun p => p.2)

/-- The other partitions under a parent. -/
def State.siblings (s : State) (parent id : Nat) : List PartRec :=
  (s.parts.filter (fun p => p.1 != 0 && p.1 != id && p.2.parent == parent)).map (fun p => p.2)

/-- Its place in the tree: at most 8 below the root, at most 8 below a top-level partition that is no leaf, at
most 32 leaves; a parent must exist (R290). -/
def State.treeOk (s : State) (p : PartRec) : Bool :=
  (p.parent == 0 || (match s.partAt p.parent with
    | some q => q.parent == 0 && !q.leaf && q.id != p.id && (s.siblings p.id 0).isEmpty
    | none => false))
    && decide ((s.siblings p.parent p.id).length < 8)
    && (!p.leaf || (s.siblings p.id 0).isEmpty)

/-- Two ranges, first and count, share an element. -/
def meet (a b : Nat × Nat) : Bool := decide (max a.1 b.1 < min (a.1 + a.2) (b.1 + b.2))

/-- Two leaves would own a resource together (R290, R293). -/
def PartRec.clash (p q : PartRec) : Bool :=
  p.leafNo == q.leafNo
    || (p.cores.zip q.cores).any (fun c => meet c.1 c.2)
    || (p.groups.zip q.groups).any (fun c => Nat.land c.1 c.2 != 0)
    || (p.channels.zip q.channels).any (fun c => Nat.land c.1 c.2 != 0)
    || meet (p.grantFirst, p.grantCount) (q.grantFirst, q.grantCount)

/-- What an existing leaf may not change. -/
def PartRec.resources (p : PartRec) : PartRec :=
  { id := p.id, parent := p.parent, leaf := p.leaf, leafNo := p.leafNo, cores := p.cores, groups := p.groups
    channels := p.channels, grantFirst := p.grantFirst, grantCount := p.grantCount, nodes := p.nodes
    nodeBase := p.nodeBase, nodeSize := p.nodeSize, frameBase := p.frameBase, frameSize := p.frameSize }

/-- Resources already owned by another leaf, or an existing leaf's changed. -/
def State.owned (s : State) (p : PartRec) : Bool :=
  (p.leaf && s.parts.any (fun q => q.2.leaf && q.1 != p.id && p.clash q.2))
    || (match s.partAt p.id with
      | some q => (q.leaf && q.resources != p.resources) || q.leaf != p.leaf || q.parent != p.parent
      | none => false)

/-- The resources of a partition lie within those another names. -/
def PartRec.within (p q : PartRec) : Bool :=
  (p.cores.zip q.cores).all (fun c => c.1.2 == 0 || (decide (c.2.1 ≤ c.1.1) && decide (c.1.1 + c.1.2 ≤ c.2.1 + c.2.2)))
    && (p.groups.zip q.groups).all (fun c => Nat.land c.1 c.2 == c.1)
    && (p.channels.zip q.channels).all (fun c => Nat.land c.1 c.2 == c.1)

/-- A region lies in the partition's channels. -/
def PartRec.regionOk (p : PartRec) (base size : Nat) : Bool :=
  size == 0 || (List.range ((base + size - 1) / 2 ^ 32 - base / 2 ^ 32 + 1)).all (fun i =>
    p.hasChannel ((base / 2 ^ 32 + i) * 2 ^ 32))

/-- The budgets of the partitions under a parent, with a new one, stay within it; the root's are the package's
(R292). -/
-- DEDUCED (assumption 30): the budgets below the root are bounded by the fields' own limits, and resources outside an inner
-- partition's limits are OVERBUDGET.
def State.overBudget (s : State) (p : PartRec) : Bool :=
  let q := (s.partAt p.parent).getD { dramBw := 24000, linkBw := 3200, share := 1024 }
  let all := p :: s.siblings p.parent p.id
  let kids := s.siblings p.id 0
  let sum := fun (l : List PartRec) (f : PartRec → Nat) => (l.map f).sum
  decide (q.dramBw < sum all PartRec.dramBw) || decide (q.linkBw < sum all PartRec.linkBw)
    || decide (q.share < sum all PartRec.share)
    || decide (p.dramBw < sum kids PartRec.dramBw) || decide (p.linkBw < sum kids PartRec.linkBw)
    || decide (p.share < sum kids PartRec.share)
    || (p.parent != 0 && !p.within q) || kids.any (fun k => !k.within p)
    || (p.leaf && !(p.regionOk p.nodeBase p.nodeSize && p.regionOk p.frameBase p.frameSize))

/-! ### The mailbox (R293, R295) -/

/-- A command ends with a status: DONE is set and the PF vector posted after it. -/
def State.mbEnd (s : State) (status : Nat) : State :=
  let s := { s with mbGo := false, mbDone := true, mbStat := BitVec.ofNat 8 status }
  if bitAt s.mbVec.toNat 7 then s.postPf (s.mbVec.toNat % 64) else s

/-- The mailbox's operand. -/
def State.mbBytes (s : State) (n : Nat) : List Byte := (List.range n).map (fun i => tget (0 : Byte) s.mbIn i)

/-- The root core serves the submitted command, when its code is one of `codes`; a failed boot and a thermal
shutdown answer every command (R300, R302). -/
def State.mailbox (s : State) (codes : Nat → Bool) (f : State → State × Nat) : Out :=
  if !s.mbGo || !codes s.mbCmd.toNat then .next s
  else if s.boot == .failed then .next (s.mbEnd 7)
  else if s.boot != .ok then .next s
  else if s.thermal then .next (s.mbEnd 8)
  else .next ((f s).1.mbEnd (f s).2)

/-- A leaf as CARVE creates it: its pools hold their regions; the PF's tables for its number stand. -/
def PartRec.newLeaf (p : PartRec) (old : Leaf) : Leaf :=
  { live := true, part := p, pasids := old.pasids, peerMask := old.peerMask
    nodePool := { base := p.nodeBase, size := p.nodeSize }, framePool := { base := p.frameBase, size := p.frameSize } }

/-- A record takes effect: a new leaf begins, an existing one changes at once or at its next slice boundary. -/
def State.putPart (s : State) (p : PartRec) : State :=
  let old := s.partAt p.id
  let s := { s with parts := tput s.parts p.id p }
  if !p.leaf then s else
  let f := s.leafAt p.leafNo
  if old.isNone then s.setLeafAt p.leafNo (p.newLeaf f)
  else if f.part.sliced then s.setLeafAt p.leafNo { f with nextPart := some p }
  else s.setLeafAt p.leafNo { f with part := p }

/-- CARVE. -/
def State.carve (s : State) : State × Nat :=
  let b := s.mbBytes 128
  let p := parsePart b
  if p.id = 0 then
    if s.started then (s, 5)
    else if !rootOk b then (s, 1)
    else ({ s with parts := tput s.parts 0 p, devnum := p.devnum }, 0)
  else if !p.limitsOk || !s.treeOk p then (s, 1)
  else if s.owned p then (s, 2)
  else if s.overBudget p then (s, 3)
  else (s.putPart p, 0)

def execCarve (s : State) : Out := s.mailbox (fun c => c == 1) State.carve

/-- The lines of a partition's channels leave its slices and caches: no slice holds one, and no L1 or L2 a copy (R290). -/
def State.flushLines (s : State) (p : PartRec) : State :=
  { s with lines := s.lines.map (fun x =>
      if x.1 < 2 ^ 50 && p.hasChannel (x.1 * 128) then
        (x.1, { x.2 with holder := none, l1 := [], spent := [], remote := [], dirty := false }) else x) }

/-- No line bears the tag of a partition that is gone, nor will one of a page that is away and comes back (R109, R303). -/
-- DESIGN CHOICE (assumption 94): its lines then bear the partition that owns their channel and no ASID.
def State.dropTags (s : State) (l : Nat) : State :=
  { s with
    lines := tmap s.lines (fun _ x => match x.tag with
      | some t => if t.leaf = l ∧ t.dev = none then { x with tag := none } else x
      | none => x)
    pages := tmap s.pages (fun _ p => if p.owner = s.devnum ∨ p.gone.contains l then p else { p with gone := l :: p.gone }) }

/-- The sequence records of a partition are free, and keep their TAGs (R130). -/
def State.freeSeqs (s : State) (l : Nat) : State :=
  { s with seqs := tmap s.seqs (fun _ r => if r.bound && r.leaf == l then { tag := r.tag } else r) }

/-- DISSOLVE: the partition, and a leaf with all it held, are gone; the lines of its channels stand in DRAM alone. -/
-- DEDUCED (assumption 30): an id that names no partition is BADREC.
def State.dissolve (s : State) : State × Nat :=
  let id := leNat (s.mbBytes 2)
  match s.partAt id with
  | none => (s, 1)
  | some p =>
    if !(s.siblings id 0).isEmpty then (s, 2)
    else if p.leaf && (s.leafAt p.leafNo).queues.any (fun q => (s.queueAt p.leafNo q.1).en) then (s, 2)
    else
      let s := { s with parts := tdel s.parts id }
      if !p.leaf then (s, 0) else
      let l := p.leafNo
      let s := (((s.killPartition l).flushLines p).dropTags l).freeSeqs l
      let f := s.leafAt l
      let s := s.setLeafAt l { pasids := f.pasids, peerMask := f.peerMask }
      ({ s with
        grants := s.grants.filter (fun g => !p.hasGrant g.1)
        atc := s.atc.filter (fun t => t.leaf != l) }, 0)

def execDissolve (s : State) : Out := s.mailbox (fun c => c == 2) State.dissolve

/-- START (R301). -/
def State.startFeatures (s : State) : State × Nat :=
  if s.started then (s, 5)
  else if !bitAt s.featAcc.toNat 0 || (s.featAcc &&& ~~~s.featOff) != 0 then (s, 4)
  else ({ s with feat := s.featAcc, started := true }, 0)

def execStart (s : State) : Out := s.mailbox (fun c => c == 3) State.startFeatures

/-- The record in force of a partition: a leaf's new one waits for its slice boundary (R293). -/
def State.inForce (s : State) (p : PartRec) : PartRec :=
  if p.leaf && (s.leafAt p.leafNo).nextPart.isSome then (s.leafAt p.leafNo).part else p

/-- The report of ATTEST before its signature (R300). -/
def State.report (s : State) : List Byte :=
  let m2 := sha512 (((sortBy (fun a b => decide (a.1 ≤ b.1)) s.parts).map (fun p => (s.inForce p.2).bytes)).flatten)
  let m3 := sha512 (leBytes 32 s.feat.toNat)
  leBytes 4 0x54415A52 ++ s.mbBytes 32 ++ beBytes 16 Config.serialNumber.toNat ++ leBytes 1 (tget (0 : Byte) s.mbIn 32).toNat
    ++ leBytes 11 0 ++ beBytes 64 Config.measureRoot ++ beBytes 64 Config.measureFunction ++ m2 ++ m3

def State.attest (s : State) : State × Nat :=
  if !s.started then (s, 6) else
  let r := s.report
  ({ s with mbOut := r ++ beBytes 132 (Config.identitySign (beNat (sha512 r))) }, 0)

def execAttest (s : State) : Out := s.mailbox (fun c => c == 4) State.attest

/-- A command code with no command. -/
def execMailboxBadcmd (s : State) : Out := s.mailbox (fun c => c == 0 || decide (4 < c)) (fun s => (s, 9))

/-! ### Boot (R300) -/

/-- The boot chain takes up an image: 0 the root firmware, then 1 the function cores'.  One whose signature
fails, or whose version lies below the rollback counter, ends it. -/
def execSecureBoot (image version sig : Nat) (s : State) : Out :=
  let ok := Config.rhatikVerify (if image = 0 then Config.measureRoot else Config.measureFunction) sig && decide (s.rollback ≤ version)
  match s.boot, image with
  | .cold, 0 => .next { s with boot := if ok then .rooted else .failed }
  | .rooted, 1 => .next { s with boot := if ok then .ok else .failed }
  | _, _ => .next s

/-! ### Power (R302) -/

def execPwrcap (v : Word) (s : State) : Out := .next (s.pfWrite 0x1100 v)

/-- A power record in the telemetry ring of every leaf. -/
-- DEDUCED (assumption 31): the record is written to every leaf's ring.
def State.powerRecord (s : State) (cause : Nat) : State :=
  let b := leBytes 8 s.now ++ leBytes 4 s.clockMhz ++ leBytes 4 cause ++ leBytes 7 0 ++ leBytes 1 3 ++ leBytes 8 0
  s.leaves.foldl (fun s p => if (s.leafAt p.1).live then s.telemetry p.1 b else s) s

/-- Firmware changes the core clock by a step of 100 MHz between 1.2 and 2.7 GHz; cause 1 cap, 2 thermal. -/
def execClockStep (up : Bool) (cause : Nat) (s : State) : Out :=
  if cause ≠ 1 ∧ cause ≠ 2 then .next s
  else if up then
    if s.clockMhz + 100 ≤ 2700 then .next (({ s with clockMhz := s.clockMhz + 100 } : State).powerRecord cause) else .next s
  else if 1300 ≤ s.clockMhz then .next (({ s with clockMhz := s.clockMhz - 100 } : State).powerRecord cause) else .next s

/-- A die reaches 115 °C: dispatch stops and every partition is pre-empted; a workgroup whose last gang has stopped since
leaves its core (R163). -/
def execThermalShutdown (s : State) : Out :=
  .next (if s.thermal then s.wgs.foldl (fun s p => s.tryFinish p.1) s
    else s.wgs.foldl (fun s p => s.preemptWg p.1) { s with thermal := true })

/-- A spare core of the same die takes a faulty core's number (R293). -/
-- DESIGN CHOICE (assumption 85): the core's audit count and AUDITN go on.
def execSpareCoreReplacement (core : Nat) (s : State) : Out :=
  let n := s.spares.getD (core / 96) 0
  if core < 384 ∧ 0 < n then
    .next (({ s with spares := lset s.spares (core / 96) (n - 1) } : State).setCoreAt core { s.coreAt core with spare := true })
  else .next s

end Sys2Proof.Machine
end

