-- ==== Sys2Proof/Machine/Dispatch.lean ====
section
/-! DEFINITION. The meaning of each instruction and event, one arm per constructor. -/

namespace Sys2Proof.Machine

def exec (i : Instr) (s : State) : Host.Outcome State Fault Refusal :=
  match i with
  | .iaAdd d a b => Sys2Proof.Machine.execIaAdd d a b s
  | .iaSub d a b => Sys2Proof.Machine.execIaSub d a b s
  | .iaMullo d a b => Sys2Proof.Machine.execIaMullo d a b s
  | .iaMulhi d a b => Sys2Proof.Machine.execIaMulhi d a b s
  | .iaMulhin d a b => Sys2Proof.Machine.execIaMulhin d a b s
  | .iaMin d a b => Sys2Proof.Machine.execIaMin d a b s
  | .iaMax d a b => Sys2Proof.Machine.execIaMax d a b s
  | .iaMinn d a b => Sys2Proof.Machine.execIaMinn d a b s
  | .iaMaxn d a b => Sys2Proof.Machine.execIaMaxn d a b s
  | .iaAdds d a b => Sys2Proof.Machine.execIaAdds d a b s
  | .iaAddsn d a b => Sys2Proof.Machine.execIaAddsn d a b s
  | .iaSubs d a b => Sys2Proof.Machine.execIaSubs d a b s
  | .iaSubsn d a b => Sys2Proof.Machine.execIaSubsn d a b s
  | .iaAbsdiff d a b => Sys2Proof.Machine.execIaAbsdiff d a b s
  | .ilAnd d a b => Sys2Proof.Machine.execIlAnd d a b s
  | .ilOr d a b => Sys2Proof.Machine.execIlOr d a b s
  | .ilXor d a b => Sys2Proof.Machine.execIlXor d a b s
  | .ilAndn d a b => Sys2Proof.Machine.execIlAndn d a b s
  | .ilOrn d a b => Sys2Proof.Machine.execIlOrn d a b s
  | .ilShl d a b => Sys2Proof.Machine.execIlShl d a b s
  | .ilShr d a b => Sys2Proof.Machine.execIlShr d a b s
  | .ilSra d a b => Sys2Proof.Machine.execIlSra d a b s
  | .ilRotl d a b => Sys2Proof.Machine.execIlRotl d a b s
  | .ilBfe d a b => Sys2Proof.Machine.execIlBfe d a b s
  | .ilPopc d a => Sys2Proof.Machine.execIlPopc d a s
  | .ilClz d a => Sys2Proof.Machine.execIlClz d a s
  | .ilCtz d a => Sys2Proof.Machine.execIlCtz d a s
  | .ilBrev d a => Sys2Proof.Machine.execIlBrev d a s
  | .iaiAddi d a im => Sys2Proof.Machine.execIaiAddi d a im s
  | .iaiMuli d a im => Sys2Proof.Machine.execIaiMuli d a im s
  | .iaiAndi d a im => Sys2Proof.Machine.execIaiAndi d a im s
  | .iaiOri d a im => Sys2Proof.Machine.execIaiOri d a im s
  | .iaiXori d a im => Sys2Proof.Machine.execIaiXori d a im s
  | .iaiShli d a im => Sys2Proof.Machine.execIaiShli d a im s
  | .iaiShri d a im => Sys2Proof.Machine.execIaiShri d a im s
  | .iaiSrai d a im => Sys2Proof.Machine.execIaiSrai d a im s
  | .faAdd d a b => Sys2Proof.Machine.execFaAdd d a b s
  | .faSub d a b => Sys2Proof.Machine.execFaSub d a b s
  | .faMul d a b => Sys2Proof.Machine.execFaMul d a b s
  | .faFmac d a b => Sys2Proof.Machine.execFaFmac d a b s
  | .faFnmac d a b => Sys2Proof.Machine.execFaFnmac d a b s
  | .faMin d a b => Sys2Proof.Machine.execFaMin d a b s
  | .faMax d a b => Sys2Proof.Machine.execFaMax d a b s
  | .faAbs d a => Sys2Proof.Machine.execFaAbs d a s
  | .faNeg d a => Sys2Proof.Machine.execFaNeg d a s
  | .faCopysign d a b => Sys2Proof.Machine.execFaCopysign d a b s
  | .fhAdd d a b => Sys2Proof.Machine.execFhAdd d a b s
  | .fhSub d a b => Sys2Proof.Machine.execFhSub d a b s
  | .fhMul d a b => Sys2Proof.Machine.execFhMul d a b s
  | .fhFmac d a b => Sys2Proof.Machine.execFhFmac d a b s
  | .fhMin d a b => Sys2Proof.Machine.execFhMin d a b s
  | .fhMax d a b => Sys2Proof.Machine.execFhMax d a b s
  | .fhPk d a b => Sys2Proof.Machine.execFhPk d a b s
  | .fxRcp d a => Sys2Proof.Machine.execFxRcp d a s
  | .fxRsqrt d a => Sys2Proof.Machine.execFxRsqrt d a s
  | .fxSqrt d a => Sys2Proof.Machine.execFxSqrt d a s
  | .fxExp2 d a => Sys2Proof.Machine.execFxExp2 d a s
  | .fxLog2 d a => Sys2Proof.Machine.execFxLog2 d a s
  | .fxSin d a => Sys2Proof.Machine.execFxSin d a s
  | .fxCos d a => Sys2Proof.Machine.execFxCos d a s
  | .fxTanh d a => Sys2Proof.Machine.execFxTanh d a s
  | .fxAct d a => Sys2Proof.Machine.execFxAct d a s
  | .fxFloor d a => Sys2Proof.Machine.execFxFloor d a s
  | .fxCeil d a => Sys2Proof.Machine.execFxCeil d a s
  | .fxRint d a => Sys2Proof.Machine.execFxRint d a s
  | .fxTrunc d a => Sys2Proof.Machine.execFxTrunc d a s
  | .fxFract d a => Sys2Proof.Machine.execFxFract d a s
  | .fxClass d a => Sys2Proof.Machine.execFxClass d a s
  | .cvI2f d a => Sys2Proof.Machine.execCvI2f d a s
  | .cvN2f d a => Sys2Proof.Machine.execCvN2f d a s
  | .cvF2i d a => Sys2Proof.Machine.execCvF2i d a s
  | .cvF2n d a => Sys2Proof.Machine.execCvF2n d a s
  | .cvF2h d a => Sys2Proof.Machine.execCvF2h d a s
  | .cvF2b d a => Sys2Proof.Machine.execCvF2b d a s
  | .cvH2f d a b => Sys2Proof.Machine.execCvH2f d a b s
  | .cvB2f d a b => Sys2Proof.Machine.execCvB2f d a b s
  | .cvPk8 d a b => Sys2Proof.Machine.execCvPk8 d a b s
  | .cvPk4 d a b => Sys2Proof.Machine.execCvPk4 d a b s
  | .cvUp8 d a b => Sys2Proof.Machine.execCvUp8 d a b s
  | .cvUp4 d a b => Sys2Proof.Machine.execCvUp4 d a b s
  | .cmpFeq d a b => Sys2Proof.Machine.execCmpFeq d a b s
  | .cmpFne d a b => Sys2Proof.Machine.execCmpFne d a b s
  | .cmpFlt d a b => Sys2Proof.Machine.execCmpFlt d a b s
  | .cmpFle d a b => Sys2Proof.Machine.execCmpFle d a b s
  | .cmpFgt d a b => Sys2Proof.Machine.execCmpFgt d a b s
  | .cmpFge d a b => Sys2Proof.Machine.execCmpFge d a b s
  | .cmpFun d a b => Sys2Proof.Machine.execCmpFun d a b s
  | .cmpFord d a b => Sys2Proof.Machine.execCmpFord d a b s
  | .cmpIeq d a b => Sys2Proof.Machine.execCmpIeq d a b s
  | .cmpIne d a b => Sys2Proof.Machine.execCmpIne d a b s
  | .cmpIlt d a b => Sys2Proof.Machine.execCmpIlt d a b s
  | .cmpIle d a b => Sys2Proof.Machine.execCmpIle d a b s
  | .cmpNlt d a b => Sys2Proof.Machine.execCmpNlt d a b s
  | .cmpNle d a b => Sys2Proof.Machine.execCmpNle d a b s
  | .cmpTst d a b => Sys2Proof.Machine.execCmpTst d a b s
  | .sel d a b k => Sys2Proof.Machine.execSel d a b k s
  | .xlShuf d a b => Sys2Proof.Machine.execXlShuf d a b s
  | .xlShx d a b => Sys2Proof.Machine.execXlShx d a b s
  | .xlBcast d a b => Sys2Proof.Machine.execXlBcast d a b s
  | .xlRdf d a => Sys2Proof.Machine.execXlRdf d a s
  | .xlRdl d a => Sys2Proof.Machine.execXlRdl d a s
  | .xlWrl d a b => Sys2Proof.Machine.execXlWrl d a b s
  | .xlRadd d a => Sys2Proof.Machine.execXlRadd d a s
  | .xlRmin d a => Sys2Proof.Machine.execXlRmin d a s
  | .xlRmax d a => Sys2Proof.Machine.execXlRmax d a s
  | .xlFradd d a => Sys2Proof.Machine.execXlFradd d a s
  | .xlScan d a => Sys2Proof.Machine.execXlScan d a s
  | .xlBallot d a => Sys2Proof.Machine.execXlBallot d a s
  | .xlVgrp d a => Sys2Proof.Machine.execXlVgrp d a s
  | .xlElect d => Sys2Proof.Machine.execXlElect d s
  | .dpDot8f d a b => Sys2Proof.Machine.execDpDot8f d a b s
  | .dpDot8i d a b => Sys2Proof.Machine.execDpDot8i d a b s
  | .dpDot4f d a b => Sys2Proof.Machine.execDpDot4f d a b s
  | .dpDot4i d a b => Sys2Proof.Machine.execDpDot4i d a b s
  | .dpDot2 d a b => Sys2Proof.Machine.execDpDot2 d a b s
  | .shpTag d a => Sys2Proof.Machine.execShpTag d a s
  | .shpExpand d a => Sys2Proof.Machine.execShpExpand d a s
  | .shpAff d a => Sys2Proof.Machine.execShpAff d a s
  | .shpUni d a => Sys2Proof.Machine.execShpUni d a s
  | .shpCmpr d a => Sys2Proof.Machine.execShpCmpr d a s
  | .saAdd d a b => Sys2Proof.Machine.execSaAdd d a b s
  | .saSub d a b => Sys2Proof.Machine.execSaSub d a b s
  | .saMul d a b => Sys2Proof.Machine.execSaMul d a b s
  | .saMin d a b => Sys2Proof.Machine.execSaMin d a b s
  | .saMax d a b => Sys2Proof.Machine.execSaMax d a b s
  | .saMinn d a b => Sys2Proof.Machine.execSaMinn d a b s
  | .saMaxn d a b => Sys2Proof.Machine.execSaMaxn d a b s
  | .saAnd d a b => Sys2Proof.Machine.execSaAnd d a b s
  | .saOr d a b => Sys2Proof.Machine.execSaOr d a b s
  | .saXor d a b => Sys2Proof.Machine.execSaXor d a b s
  | .saAndn d a b => Sys2Proof.Machine.execSaAndn d a b s
  | .saShl d a b => Sys2Proof.Machine.execSaShl d a b s
  | .saShr d a b => Sys2Proof.Machine.execSaShr d a b s
  | .saSra d a b => Sys2Proof.Machine.execSaSra d a b s
  | .saPopc d a => Sys2Proof.Machine.execSaPopc d a s
  | .saFfs d a => Sys2Proof.Machine.execSaFfs d a s
  | .saiAddi d a im => Sys2Proof.Machine.execSaiAddi d a im s
  | .saiAndi d a im => Sys2Proof.Machine.execSaiAndi d a im s
  | .saiOri d a im => Sys2Proof.Machine.execSaiOri d a im s
  | .saiXori d a im => Sys2Proof.Machine.execSaiXori d a im s
  | .saiShli d a im => Sys2Proof.Machine.execSaiShli d a im s
  | .saiShri d a im => Sys2Proof.Machine.execSaiShri d a im s
  | .saiSrai d a im => Sys2Proof.Machine.execSaiSrai d a im s
  | .saiLui d im => Sys2Proof.Machine.execSaiLui d im s
  | .maskSave d => Sys2Proof.Machine.execMaskSave d s
  | .maskRest a => Sys2Proof.Machine.execMaskRest a s
  | .maskSet a m => Sys2Proof.Machine.execMaskSet a m s
  | .maskAnd a => Sys2Proof.Machine.execMaskAnd a s
  | .maskAndn a => Sys2Proof.Machine.execMaskAndn a s
  | .maskOr a => Sys2Proof.Machine.execMaskOr a s
  | .maskFull => Sys2Proof.Machine.execMaskFull s
  | .brAl o => Sys2Proof.Machine.execBrAl o s
  | .brZ x o => Sys2Proof.Machine.execBrZ x o s
  | .brNz x o => Sys2Proof.Machine.execBrNz x o s
  | .brXz o => Sys2Proof.Machine.execBrXz o s
  | .brXnz o => Sys2Proof.Machine.execBrXnz o s
  | .brVz x o => Sys2Proof.Machine.execBrVz x o s
  | .brVnz x o => Sys2Proof.Machine.execBrVnz x o s
  | .jmpCall k o => Sys2Proof.Machine.execJmpCall k o s
  | .jmpCallx k x => Sys2Proof.Machine.execJmpCallx k x s
  | .jmpRet => Sys2Proof.Machine.execJmpRet s
  | .jmpJx x => Sys2Proof.Machine.execJmpJx x s
  | .jmpJtab x t im => Sys2Proof.Machine.execJmpJtab x t im s
  | .jmpJv x => Sys2Proof.Machine.execJmpJv x s
  | .ctlNop => Sys2Proof.Machine.execCtlNop s
  | .ctlHalt => Sys2Proof.Machine.execCtlHalt s
  | .ctlYield => Sys2Proof.Machine.execCtlYield s
  | .ctlWait x im => Sys2Proof.Machine.execCtlWait x im s
  | .ctlRefresh => Sys2Proof.Machine.execCtlRefresh s
  | .ctlIvl im => Sys2Proof.Machine.execCtlIvl im s
  | .ctlBrk im => Sys2Proof.Machine.execCtlBrk im s
  | .ctlWdog im => Sys2Proof.Machine.execCtlWdog im s
  | .ldB v x o n im => Sys2Proof.Machine.execLdB v x o n im s
  | .ldBn v x o n im => Sys2Proof.Machine.execLdBn v x o n im s
  | .ldH v x o n im => Sys2Proof.Machine.execLdH v x o n im s
  | .ldHn v x o n im => Sys2Proof.Machine.execLdHn v x o n im s
  | .ldW v x o n im => Sys2Proof.Machine.execLdW v x o n im s
  | .ldD v x o n im => Sys2Proof.Machine.execLdD v x o n im s
  | .ldQ v x o n im => Sys2Proof.Machine.execLdQ v x o n im s
  | .stB v x o n im => Sys2Proof.Machine.execStB v x o n im s
  | .stH v x o n im => Sys2Proof.Machine.execStH v x o n im s
  | .stW v x o n im => Sys2Proof.Machine.execStW v x o n im s
  | .stD v x o n im => Sys2Proof.Machine.execStD v x o n im s
  | .stQ v x o n im => Sys2Proof.Machine.execStQ v x o n im s
  | .smLdw d a im => Sys2Proof.Machine.execSmLdw d a im s
  | .smLdd d a im => Sys2Proof.Machine.execSmLdd d a im s
  | .smStw d a im => Sys2Proof.Machine.execSmStw d a im s
  | .smStd d a im => Sys2Proof.Machine.execSmStd d a im s
  | .atAdd v x o n im => Sys2Proof.Machine.execAtAdd v x o n im s
  | .atMin v x o n im => Sys2Proof.Machine.execAtMin v x o n im s
  | .atMax v x o n im => Sys2Proof.Machine.execAtMax v x o n im s
  | .atMinn v x o n im => Sys2Proof.Machine.execAtMinn v x o n im s
  | .atMaxn v x o n im => Sys2Proof.Machine.execAtMaxn v x o n im s
  | .atAnd v x o n im => Sys2Proof.Machine.execAtAnd v x o n im s
  | .atOr v x o n im => Sys2Proof.Machine.execAtOr v x o n im s
  | .atXor v x o n im => Sys2Proof.Machine.execAtXor v x o n im s
  | .atXchg v x o n im => Sys2Proof.Machine.execAtXchg v x o n im s
  | .atCas v x o n im => Sys2Proof.Machine.execAtCas v x o n im s
  | .atInc v x o n im => Sys2Proof.Machine.execAtInc v x o n im s
  | .atFadd v x o n im => Sys2Proof.Machine.execAtFadd v x o n im s
  | .atXadd v x o n im => Sys2Proof.Machine.execAtXadd v x o n im s
  | .atXrd v x o n im => Sys2Proof.Machine.execAtXrd v x o n im s
  | .atXclr v x o n im => Sys2Proof.Machine.execAtXclr v x o n im s
  | .spmLdw v x o n im => Sys2Proof.Machine.execSpmLdw v x o n im s
  | .spmLdd v x o n im => Sys2Proof.Machine.execSpmLdd v x o n im s
  | .spmLdq v x o n im => Sys2Proof.Machine.execSpmLdq v x o n im s
  | .spmStw v x o n im => Sys2Proof.Machine.execSpmStw v x o n im s
  | .spmStd v x o n im => Sys2Proof.Machine.execSpmStd v x o n im s
  | .spmStq v x o n im => Sys2Proof.Machine.execSpmStq v x o n im s
  | .spmAdd v x o n im => Sys2Proof.Machine.execSpmAdd v x o n im s
  | .spmMin v x o n im => Sys2Proof.Machine.execSpmMin v x o n im s
  | .spmMax v x o n im => Sys2Proof.Machine.execSpmMax v x o n im s
  | .spmOr v x o n im => Sys2Proof.Machine.execSpmOr v x o n im s
  | .spmXchg v x o n im => Sys2Proof.Machine.execSpmXchg v x o n im s
  | .spmCas v x o n im => Sys2Proof.Machine.execSpmCas v x o n im s
  | .spmInc v x o n im => Sys2Proof.Machine.execSpmInc v x o n im s
  | .syncBar k => Sys2Proof.Machine.execSyncBar k s
  | .syncCmtmx d => Sys2Proof.Machine.execSyncCmtmx d s
  | .syncCmtcp d => Sys2Proof.Machine.execSyncCmtcp d s
  | .syncTlrd d a => Sys2Proof.Machine.execSyncTlrd d a s
  | .syncIrrev => Sys2Proof.Machine.execSyncIrrev s
  | .mxClaim a k => Sys2Proof.Machine.execMxClaim a k s
  | .mxRel a k => Sys2Proof.Machine.execMxRel a k s
  | .mxZero a p => Sys2Proof.Machine.execMxZero a p s
  | .mxMma a b c p => Sys2Proof.Machine.execMxMma a b c p s
  | .mxMms a b c p => Sys2Proof.Machine.execMxMms a b c p s
  | .mxMmx a b c p => Sys2Proof.Machine.execMxMmx a b c p s
  | .mxMmg a b c g p => Sys2Proof.Machine.execMxMmg a b c g p s
  | .mxSt a b c n l p => Sys2Proof.Machine.execMxSt a b c n l p s
  | .cpG2s a b c p => Sys2Proof.Machine.execCpG2s a b c p s
  | .cpS2g a b c p => Sys2Proof.Machine.execCpS2g a b c p s
  | .cpG2g a b c p => Sys2Proof.Machine.execCpG2g a b c p s
  | .cpG2o a b c h p => Sys2Proof.Machine.execCpG2o a b c h p s
  | .cpS2o a b c h p => Sys2Proof.Machine.execCpS2o a b c h p s
  | .cpGat a b c h p => Sys2Proof.Machine.execCpGat a b c h p s
  | .cpMeta a b m p => Sys2Proof.Machine.execCpMeta a b m p s
  | .cpAct a p => Sys2Proof.Machine.execCpAct a p s
  | .sqBind a b c => Sys2Proof.Machine.execSqBind a b c s
  | .sqBindFree b => Sys2Proof.Machine.execSqBindFree b s
  | .sqFork a b c => Sys2Proof.Machine.execSqFork a b c s
  | .sqSave a b c => Sys2Proof.Machine.execSqSave a b c s
  | .sqRoll a b => Sys2Proof.Machine.execSqRoll a b s
  | .sqRng a b => Sys2Proof.Machine.execSqRng a b s
  | .sqAcc a b c => Sys2Proof.Machine.execSqAcc a b c s
  | .sqEmit a b => Sys2Proof.Machine.execSqEmit a b s
  | .sqRel a b => Sys2Proof.Machine.execSqRel a b s
  | .sqVeto a b => Sys2Proof.Machine.execSqVeto a b s
  | .gxBind d a b => Sys2Proof.Machine.execGxBind d a b s
  | .gxMask d a b => Sys2Proof.Machine.execGxMask d a b s
  | .gxPeek d a => Sys2Proof.Machine.execGxPeek d a s
  | .gxStep a b => Sys2Proof.Machine.execGxStep a b s
  | .mapFork a b c r => Sys2Proof.Machine.execMapFork a b c r s
  | .mapSet a b c l => Sys2Proof.Machine.execMapSet a b c l s
  | .mapSwap a b h => Sys2Proof.Machine.execMapSwap a b h s
  | .mapDrop a b => Sys2Proof.Machine.execMapDrop a b s
  | .mapRef a b c e => Sys2Proof.Machine.execMapRef a b c e s
  | .lnchGrid a b c => Sys2Proof.Machine.execLnchGrid a b c s
  | .lnchSig a => Sys2Proof.Machine.execLnchSig a s
  | .lnchGrant a b c q => Sys2Proof.Machine.execLnchGrant a b c q s
  | .sysSrd x im => Sys2Proof.Machine.execSysSrd x im s
  | .sysSwr x im => Sys2Proof.Machine.execSysSwr x im s
  | .sysTrap x im => Sys2Proof.Machine.execSysTrap x im s
  | .sysEret => Sys2Proof.Machine.execSysEret s
  | .ext p => Sys2Proof.Machine.execExt p s
  | .cMov d x => Sys2Proof.Machine.execCMov d x s
  | .cIadd d x => Sys2Proof.Machine.execCIadd d x s
  | .cIsub d x => Sys2Proof.Machine.execCIsub d x s
  | .cImul d x => Sys2Proof.Machine.execCImul d x s
  | .cAnd d x => Sys2Proof.Machine.execCAnd d x s
  | .cOr d x => Sys2Proof.Machine.execCOr d x s
  | .cXor d x => Sys2Proof.Machine.execCXor d x s
  | .cShl d x => Sys2Proof.Machine.execCShl d x s
  | .cShr d x => Sys2Proof.Machine.execCShr d x s
  | .cSra d x => Sys2Proof.Machine.execCSra d x s
  | .cFadd d x => Sys2Proof.Machine.execCFadd d x s
  | .cFsub d x => Sys2Proof.Machine.execCFsub d x s
  | .cFmul d x => Sys2Proof.Machine.execCFmul d x s
  | .cFmax d x => Sys2Proof.Machine.execCFmax d x s
  | .cFmin d x => Sys2Proof.Machine.execCFmin d x s
  | .cIaddi d im => Sys2Proof.Machine.execCIaddi d im s
  | .wdog g => Sys2Proof.Machine.execWdog g s
  | .holderSliceWrite g => Sys2Proof.Machine.execHolderSliceWrite g s
  | .lineInvalidation who line => Sys2Proof.Machine.execLineInvalidation who line s
  | .lineMigration line slice => Sys2Proof.Machine.execLineMigration line slice s
  | .l2Eviction line => Sys2Proof.Machine.execL2Eviction line s
  | .loadCompletion g => Sys2Proof.Machine.execLoadCompletion g s
  | .pendingCommandStart g => Sys2Proof.Machine.execPendingCommandStart g s
  | .matrixPass core => Sys2Proof.Machine.execMatrixPass core s
  | .engineOperationComplete g cmd => Sys2Proof.Machine.execEngineOperationComplete g cmd s
  | .runFailure g cmd => Sys2Proof.Machine.execRunFailure g cmd s
  | .spill g => Sys2Proof.Machine.execSpill g s
  | .refill g => Sys2Proof.Machine.execRefill g s
  | .copyOnWrite leaf asid va => Sys2Proof.Machine.execCopyOnWrite leaf asid va s
  | .generationRelease leaf asid => Sys2Proof.Machine.execGenerationRelease leaf asid s
  | .gangRetire g => Sys2Proof.Machine.execGangRetire g s
  | .workgroupPlacement leaf => Sys2Proof.Machine.execWorkgroupPlacement leaf s
  | .promotion g => Sys2Proof.Machine.execPromotion g s
  | .sliceEnd leaf => Sys2Proof.Machine.execSliceEnd leaf s
  | .graceWindowExpiry g => Sys2Proof.Machine.execGraceWindowExpiry g s
  | .workgroupResume wg => Sys2Proof.Machine.execWorkgroupResume wg s
  | .grantBatchClose q => Sys2Proof.Machine.execGrantBatchClose q s
  | .grantTimeout q => Sys2Proof.Machine.execGrantTimeout q s
  | .grantServiceLaunch q => Sys2Proof.Machine.execGrantServiceLaunch q s
  | .grantRegistrationWrite leaf q off v => Sys2Proof.Machine.execGrantRegistrationWrite leaf q off v s
  | .grantUnregister q => Sys2Proof.Machine.execGrantUnregister q s
  | .kick leaf q v => Sys2Proof.Machine.execKick leaf q v s
  | .rst leaf q => Sys2Proof.Machine.execRst leaf q s
  | .registerWrite win off v => Sys2Proof.Machine.execRegisterWrite win off v s
  | .grid leaf q => Sys2Proof.Machine.execGrid leaf q s
  | .graph leaf q => Sys2Proof.Machine.execGraph leaf q s
  | .waittl leaf q => Sys2Proof.Machine.execWaittl leaf q s
  | .signal leaf q => Sys2Proof.Machine.execSignal leaf q s
  | .mapopFork leaf q => Sys2Proof.Machine.execMapopFork leaf q s
  | .mapopSetSwap leaf q => Sys2Proof.Machine.execMapopSetSwap leaf q s
  | .mapopDrop leaf q => Sys2Proof.Machine.execMapopDrop leaf q s
  | .caskkick leaf v => Sys2Proof.Machine.execCaskkick leaf v s
  | .checkpoint leaf => Sys2Proof.Machine.execCheckpoint leaf s
  | .restore leaf => Sys2Proof.Machine.execRestore leaf s
  | .erase leaf => Sys2Proof.Machine.execErase leaf s
  | .rcons leaf ring v => Sys2Proof.Machine.execRcons leaf ring v s
  | .rctlEnable leaf ring => Sys2Proof.Machine.execRctlEnable leaf ring s
  | .coalesceTimerExpiry leaf vec => Sys2Proof.Machine.execCoalesceTimerExpiry leaf vec s
  | .msixUnmask leaf vec => Sys2Proof.Machine.execMsixUnmask leaf vec s
  | .hostPortRead win off len => Sys2Proof.Machine.execHostPortRead win off len s
  | .hostPortWrite leaf off bytes => Sys2Proof.Machine.execHostPortWrite leaf off bytes s
  | .hostReadCompletion answer => Sys2Proof.Machine.execHostReadCompletion answer s
  | .atsCompletion port pasid pages rd wr => Sys2Proof.Machine.execAtsCompletion port pasid pages rd wr s
  | .priResponse who code => Sys2Proof.Machine.execPriResponse who code s
  | .priLimitExpiry who => Sys2Proof.Machine.execPriLimitExpiry who s
  | .atsInvalidationRequest leaf pasid page count => Sys2Proof.Machine.execAtsInvalidationRequest leaf pasid page count s
  | .atsInvalidationComplete leaf => Sys2Proof.Machine.execAtsInvalidationComplete leaf s
  | .replicaRequest page dev => Sys2Proof.Machine.execReplicaRequest page dev s
  | .replicaArrival come => Sys2Proof.Machine.execReplicaArrival come s
  | .handOver come dev => Sys2Proof.Machine.execHandOver come dev s
  | .minimumResidencyExpiry page => Sys2Proof.Machine.execMinimumResidencyExpiry page s
  | .peerWaitTimeout who => Sys2Proof.Machine.execPeerWaitTimeout who s
  | .linkFailure link => Sys2Proof.Machine.execLinkFailure link s
  | .uncorrectableError place => Sys2Proof.Machine.execUncorrectableError place s
  | .correctableError g place => Sys2Proof.Machine.execCorrectableError g place s
  | .gangStateError g array => Sys2Proof.Machine.execGangStateError g array s
  | .carve => Sys2Proof.Machine.execCarve s
  | .dissolve => Sys2Proof.Machine.execDissolve s
  | .start => Sys2Proof.Machine.execStart s
  | .attest => Sys2Proof.Machine.execAttest s
  | .mailboxBadcmd => Sys2Proof.Machine.execMailboxBadcmd s
  | .pwrcap v => Sys2Proof.Machine.execPwrcap v s
  | .clockStep up cause => Sys2Proof.Machine.execClockStep up cause s
  | .thermalShutdown => Sys2Proof.Machine.execThermalShutdown s
  | .spareCoreReplacement core => Sys2Proof.Machine.execSpareCoreReplacement core s
  | .secureBoot image version sig => Sys2Proof.Machine.execSecureBoot image version sig s
  | .functionReset leaf => Sys2Proof.Machine.execFunctionReset leaf s
  | .badEntry leaf q => Sys2Proof.Machine.execBadEntry leaf q s

end Sys2Proof.Machine
end

