-- ==== Sys2Proof/Machine/Uses.lean ====
section
/-! DEFINITION. What the registers of an instruction are, as far as its issue waits for them (R84, R90, R91). -/

namespace Sys2Proof.Machine

/-- What an instruction names: operand selectors, vector registers, each the first of a group of at most four, and
scalar registers, each the first of a pair at most.  `lanes`: a breach of a recipe by it names the active lanes (R152);
`slides`: it moves the window; `flags`: it reads or writes a system register. -/
structure Uses where
  sel : List (BitVec 7) := []
  v : List (BitVec 6) := []
  s : List (BitVec 5) := []
  lanes : Bool := false
  slides : Bool := false
  flags : Bool := false

/-- The registers an instruction names; an immediate that may stand for a register counts as one. -/
def usesOf : Instr → Uses
  | .iaAdd d a b => { sel := [d, a, b] }
  | .iaSub d a b => { sel := [d, a, b] }
  | .iaMullo d a b => { sel := [d, a, b] }
  | .iaMulhi d a b => { sel := [d, a, b] }
  | .iaMulhin d a b => { sel := [d, a, b] }
  | .iaMin d a b => { sel := [d, a, b] }
  | .iaMax d a b => { sel := [d, a, b] }
  | .iaMinn d a b => { sel := [d, a, b] }
  | .iaMaxn d a b => { sel := [d, a, b] }
  | .iaAdds d a b => { sel := [d, a, b] }
  | .iaAddsn d a b => { sel := [d, a, b] }
  | .iaSubs d a b => { sel := [d, a, b] }
  | .iaSubsn d a b => { sel := [d, a, b] }
  | .iaAbsdiff d a b => { sel := [d, a, b] }
  | .ilAnd d a b => { sel := [d, a, b] }
  | .ilOr d a b => { sel := [d, a, b] }
  | .ilXor d a b => { sel := [d, a, b] }
  | .ilAndn d a b => { sel := [d, a, b] }
  | .ilOrn d a b => { sel := [d, a, b] }
  | .ilShl d a b => { sel := [d, a, b] }
  | .ilShr d a b => { sel := [d, a, b] }
  | .ilSra d a b => { sel := [d, a, b] }
  | .ilRotl d a b => { sel := [d, a, b] }
  | .ilBfe d a b => { sel := [d, a, b] }
  | .ilPopc d a => { sel := [d, a] }
  | .ilClz d a => { sel := [d, a] }
  | .ilCtz d a => { sel := [d, a] }
  | .ilBrev d a => { sel := [d, a] }
  | .iaiAddi d a _ => { v := [d, a] }
  | .iaiMuli d a _ => { v := [d, a] }
  | .iaiAndi d a _ => { v := [d, a] }
  | .iaiOri d a _ => { v := [d, a] }
  | .iaiXori d a _ => { v := [d, a] }
  | .iaiShli d a _ => { v := [d, a] }
  | .iaiShri d a _ => { v := [d, a] }
  | .iaiSrai d a _ => { v := [d, a] }
  | .faAdd d a b => { sel := [d, a, b] }
  | .faSub d a b => { sel := [d, a, b] }
  | .faMul d a b => { sel := [d, a, b] }
  | .faFmac d a b => { sel := [d, a, b] }
  | .faFnmac d a b => { sel := [d, a, b] }
  | .faMin d a b => { sel := [d, a, b] }
  | .faMax d a b => { sel := [d, a, b] }
  | .faAbs d a => { sel := [d, a] }
  | .faNeg d a => { sel := [d, a] }
  | .faCopysign d a b => { sel := [d, a, b] }
  | .fhAdd d a b => { sel := [d, a, b] }
  | .fhSub d a b => { sel := [d, a, b] }
  | .fhMul d a b => { sel := [d, a, b] }
  | .fhFmac d a b => { sel := [d, a, b] }
  | .fhMin d a b => { sel := [d, a, b] }
  | .fhMax d a b => { sel := [d, a, b] }
  | .fhPk d a b => { sel := [d, a, b] }
  | .fxRcp d a => { sel := [d, a] }
  | .fxRsqrt d a => { sel := [d, a] }
  | .fxSqrt d a => { sel := [d, a] }
  | .fxExp2 d a => { sel := [d, a] }
  | .fxLog2 d a => { sel := [d, a] }
  | .fxSin d a => { sel := [d, a] }
  | .fxCos d a => { sel := [d, a] }
  | .fxTanh d a => { sel := [d, a] }
  | .fxAct d a => { sel := [d, a] }
  | .fxFloor d a => { sel := [d, a] }
  | .fxCeil d a => { sel := [d, a] }
  | .fxRint d a => { sel := [d, a] }
  | .fxTrunc d a => { sel := [d, a] }
  | .fxFract d a => { sel := [d, a] }
  | .fxClass d a => { sel := [d, a] }
  | .cvI2f d a => { sel := [d, a] }
  | .cvN2f d a => { sel := [d, a] }
  | .cvF2i d a => { sel := [d, a] }
  | .cvF2n d a => { sel := [d, a] }
  | .cvF2h d a => { sel := [d, a] }
  | .cvF2b d a => { sel := [d, a] }
  | .cvH2f d a b => { sel := [d, a, b] }
  | .cvB2f d a b => { sel := [d, a, b] }
  | .cvPk8 d a b => { sel := [d, a, b] }
  | .cvPk4 d a b => { sel := [d, a, b] }
  | .cvUp8 d a b => { sel := [d, a, b] }
  | .cvUp4 d a b => { sel := [d, a, b] }
  | .cmpFeq d a b => { sel := [a, b], s := [d] }
  | .cmpFne d a b => { sel := [a, b], s := [d] }
  | .cmpFlt d a b => { sel := [a, b], s := [d] }
  | .cmpFle d a b => { sel := [a, b], s := [d] }
  | .cmpFgt d a b => { sel := [a, b], s := [d] }
  | .cmpFge d a b => { sel := [a, b], s := [d] }
  | .cmpFun d a b => { sel := [a, b], s := [d] }
  | .cmpFord d a b => { sel := [a, b], s := [d] }
  | .cmpIeq d a b => { sel := [a, b], s := [d] }
  | .cmpIne d a b => { sel := [a, b], s := [d] }
  | .cmpIlt d a b => { sel := [a, b], s := [d] }
  | .cmpIle d a b => { sel := [a, b], s := [d] }
  | .cmpNlt d a b => { sel := [a, b], s := [d] }
  | .cmpNle d a b => { sel := [a, b], s := [d] }
  | .cmpTst d a b => { sel := [a, b], s := [d] }
  | .sel d a b k => { sel := [d, a, b], s := [k.setWidth 5 + 16] }
  | .xlShuf d a b => { sel := [d, a, b] }
  | .xlShx d a b => { sel := [d, a, b] }
  | .xlBcast d a b => { sel := [d, a, b] }
  | .xlRdf d a => { sel := [d, a] }
  | .xlRdl d a => { sel := [d, a] }
  | .xlWrl d a b => { sel := [a, b], v := [d] }
  | .xlRadd d a => { sel := [d, a] }
  | .xlRmin d a => { sel := [d, a] }
  | .xlRmax d a => { sel := [d, a] }
  | .xlFradd d a => { sel := [d, a] }
  | .xlScan d a => { sel := [d, a] }
  | .xlBallot d a => { sel := [a], s := [d] }
  | .xlVgrp d a => { sel := [a], s := [d] }
  | .xlElect d => { s := [d] }
  | .dpDot8f d a b => { sel := [d, a, b] }
  | .dpDot8i d a b => { sel := [d, a, b] }
  | .dpDot4f d a b => { sel := [d, a, b] }
  | .dpDot4i d a b => { sel := [d, a, b] }
  | .dpDot2 d a b => { sel := [d, a, b] }
  | .shpTag d a => { sel := [d, a] }
  | .shpExpand d a => { sel := [d, a] }
  | .shpAff d a => { sel := [d, a] }
  | .shpUni d a => { sel := [d, a] }
  | .shpCmpr d a => { sel := [a], v := [d] }
  | .saAdd d a b => { s := [d, a, b] }
  | .saSub d a b => { s := [d, a, b] }
  | .saMul d a b => { s := [d, a, b] }
  | .saMin d a b => { s := [d, a, b] }
  | .saMax d a b => { s := [d, a, b] }
  | .saMinn d a b => { s := [d, a, b] }
  | .saMaxn d a b => { s := [d, a, b] }
  | .saAnd d a b => { s := [d, a, b] }
  | .saOr d a b => { s := [d, a, b] }
  | .saXor d a b => { s := [d, a, b] }
  | .saAndn d a b => { s := [d, a, b] }
  | .saShl d a b => { s := [d, a, b] }
  | .saShr d a b => { s := [d, a, b] }
  | .saSra d a b => { s := [d, a, b] }
  | .saPopc d a => { s := [d, a] }
  | .saFfs d a => { s := [d, a] }
  | .saiAddi d a _ => { s := [d, a] }
  | .saiAndi d a _ => { s := [d, a] }
  | .saiOri d a _ => { s := [d, a] }
  | .saiXori d a _ => { s := [d, a] }
  | .saiShli d a _ => { s := [d, a] }
  | .saiShri d a _ => { s := [d, a] }
  | .saiSrai d a _ => { s := [d, a] }
  | .saiLui d _ => { s := [d] }
  | .maskSave d => { s := [d] }
  | .maskRest a => { s := [a] }
  | .maskSet a _ => { s := [a] }
  | .maskAnd a => { s := [a] }
  | .maskAndn a => { s := [a] }
  | .maskOr a => { s := [a] }
  | .brZ s _ => { s := [s] }
  | .brNz s _ => { s := [s] }
  | .brVz s _ => { v := [s.setWidth 6], lanes := true }
  | .brVnz s _ => { v := [s.setWidth 6], lanes := true }
  | .jmpCall _ _ => { slides := true }
  | .jmpCallx _ s => { s := [s], slides := true }
  | .jmpRet => { slides := true }
  | .jmpJx s => { s := [s] }
  | .jmpJtab s t _ => { s := [s, t] }
  | .jmpJv s => { v := [s.setWidth 6], lanes := true }
  | .ctlWait s _ => { s := [s] }
  | .ldB v s o _ _ => { v := [v, o], s := [s], lanes := true }
  | .ldBn v s o _ _ => { v := [v, o], s := [s], lanes := true }
  | .ldH v s o _ _ => { v := [v, o], s := [s], lanes := true }
  | .ldHn v s o _ _ => { v := [v, o], s := [s], lanes := true }
  | .ldW v s o _ _ => { v := [v, o], s := [s], lanes := true }
  | .ldD v s o _ _ => { v := [v, o], s := [s], lanes := true }
  | .ldQ v s o _ _ => { v := [v, o], s := [s], lanes := true }
  | .stB v s o _ _ => { v := [v, o], s := [s], lanes := true }
  | .stH v s o _ _ => { v := [v, o], s := [s], lanes := true }
  | .stW v s o _ _ => { v := [v, o], s := [s], lanes := true }
  | .stD v s o _ _ => { v := [v, o], s := [s], lanes := true }
  | .stQ v s o _ _ => { v := [v, o], s := [s], lanes := true }
  | .smLdw d a _ => { s := [d, a] }
  | .smLdd d a _ => { s := [d, a] }
  | .smStw d a _ => { s := [d, a] }
  | .smStd d a _ => { s := [d, a] }
  | .atAdd v s o _ _ => { v := [v, o], s := [s], lanes := true }
  | .atMin v s o _ _ => { v := [v, o], s := [s], lanes := true }
  | .atMax v s o _ _ => { v := [v, o], s := [s], lanes := true }
  | .atMinn v s o _ _ => { v := [v, o], s := [s], lanes := true }
  | .atMaxn v s o _ _ => { v := [v, o], s := [s], lanes := true }
  | .atAnd v s o _ _ => { v := [v, o], s := [s], lanes := true }
  | .atOr v s o _ _ => { v := [v, o], s := [s], lanes := true }
  | .atXor v s o _ _ => { v := [v, o], s := [s], lanes := true }
  | .atXchg v s o _ _ => { v := [v, o], s := [s], lanes := true }
  | .atCas v s o _ _ => { v := [v, o], s := [s], lanes := true }
  | .atInc v s o _ _ => { v := [v, o], s := [s], lanes := true }
  | .atFadd v s o _ _ => { v := [v, o], s := [s], lanes := true }
  | .atXadd v s o _ _ => { v := [v, o], s := [s], lanes := true }
  | .atXrd v s o _ _ => { v := [v, o], s := [s], lanes := true }
  | .atXclr v s o _ _ => { v := [v, o], s := [s], lanes := true }
  | .spmLdw v s o _ _ => { v := [v, o], s := [s], lanes := true }
  | .spmLdd v s o _ _ => { v := [v, o], s := [s], lanes := true }
  | .spmLdq v s o _ _ => { v := [v, o], s := [s], lanes := true }
  | .spmStw v s o _ _ => { v := [v, o], s := [s], lanes := true }
  | .spmStd v s o _ _ => { v := [v, o], s := [s], lanes := true }
  | .spmStq v s o _ _ => { v := [v, o], s := [s], lanes := true }
  | .spmAdd v s o _ _ => { v := [v, o], s := [s], lanes := true }
  | .spmMin v s o _ _ => { v := [v, o], s := [s], lanes := true }
  | .spmMax v s o _ _ => { v := [v, o], s := [s], lanes := true }
  | .spmOr v s o _ _ => { v := [v, o], s := [s], lanes := true }
  | .spmXchg v s o _ _ => { v := [v, o], s := [s], lanes := true }
  | .spmCas v s o _ _ => { v := [v, o], s := [s], lanes := true }
  | .spmInc v s o _ _ => { v := [v, o], s := [s], lanes := true }
  | .syncCmtmx d => { s := [d] }
  | .syncCmtcp d => { s := [d] }
  | .syncTlrd d a => { s := [d, a] }
  | .mxClaim a _ => { s := [a] }
  | .mxRel a _ => { s := [a] }
  | .mxZero a _ => { s := [a] }
  | .mxMma a b c _ => { s := [a, b, c] }
  | .mxMms a b c _ => { s := [a, b, c] }
  | .mxMmx a b c _ => { s := [a, b, c] }
  | .mxMmg a b c _ _ => { s := [a, b, c] }
  | .mxSt a b c _ _ _ => { s := [a, b, c] }
  | .cpG2s a b c _ => { s := [a, b, c] }
  | .cpS2g a b c _ => { s := [a, b, c] }
  | .cpG2g a b c _ => { s := [a, b, c] }
  | .cpG2o a b c _ _ => { s := [a, b, c] }
  | .cpS2o a b c _ _ => { s := [a, b, c] }
  | .cpGat a b c _ _ => { s := [a, b, c] }
  | .cpMeta a b _ _ => { s := [a, b] }
  | .cpAct a _ => { s := [a] }
  | .sqBind a b c => { s := [a, b, c] }
  | .sqBindFree b => { s := [b] }
  | .sqFork a b c => { s := [a, b, c] }
  | .sqSave a b c => { s := [a, b, c] }
  | .sqRoll a b => { s := [a, b] }
  | .sqRng a b => { s := [a, b] }
  | .sqAcc a b c => { s := [a, b, c] }
  | .sqEmit a b => { s := [a, b] }
  | .sqRel a b => { s := [a, b] }
  | .sqVeto a b => { s := [a, b] }
  | .gxBind d a b => { sel := [d, a, b], lanes := true }
  | .gxMask d a b => { sel := [a, b], v := [d], lanes := true }
  | .gxPeek d a => { sel := [d, a], lanes := true }
  | .gxStep a b => { sel := [a, b], lanes := true }
  | .mapFork a b c _ => { s := [a, b, c] }
  | .mapSet a b c _ => { s := [a, b, c] }
  | .mapSwap a b _ => { s := [a, b] }
  | .mapDrop a b => { s := [a, b] }
  | .mapRef a b c _ => { s := [a, b, c] }
  | .lnchGrid a b c => { s := [a, b, c] }
  | .lnchSig a => { s := [a] }
  | .lnchGrant a b c _ => { s := [a, b, c] }
  | .sysSrd s _ => { s := [s], flags := true }
  | .sysSwr s _ => { s := [s], flags := true }
  | .sysTrap s _ => { s := [s] }
  | .cMov d s => { v := [d, s.setWidth 6] }
  | .cIadd d s => { v := [d, s.setWidth 6] }
  | .cIsub d s => { v := [d, s.setWidth 6] }
  | .cImul d s => { v := [d, s.setWidth 6] }
  | .cAnd d s => { v := [d, s.setWidth 6] }
  | .cOr d s => { v := [d, s.setWidth 6] }
  | .cXor d s => { v := [d, s.setWidth 6] }
  | .cShl d s => { v := [d, s.setWidth 6] }
  | .cShr d s => { v := [d, s.setWidth 6] }
  | .cSra d s => { v := [d, s.setWidth 6] }
  | .cFadd d s => { v := [d, s.setWidth 6] }
  | .cFsub d s => { v := [d, s.setWidth 6] }
  | .cFmul d s => { v := [d, s.setWidth 6] }
  | .cFmax d s => { v := [d, s.setWidth 6] }
  | .cFmin d s => { v := [d, s.setWidth 6] }
  | .cIaddi d _ => { v := [d] }
  | .maskFull | .brAl _ | .brXz _ | .brXnz _ | .ctlNop | .ctlHalt | .ctlYield | .ctlRefresh | .ctlIvl _ | .ctlBrk _
  | .ctlWdog _ | .syncBar _ | .syncIrrev | .sysEret | .ext _ | .wdog _ | .holderSliceWrite _
  | .lineInvalidation _ _ | .lineMigration _ _ | .l2Eviction _ | .loadCompletion _ | .pendingCommandStart _
  | .matrixPass _ | .engineOperationComplete _ _ | .runFailure _ _ | .spill _ | .refill _ | .copyOnWrite _ _ _
  | .generationRelease _ _ | .gangRetire _ | .workgroupPlacement _ | .promotion _ | .sliceEnd _
  | .graceWindowExpiry _ | .workgroupResume _ | .grantBatchClose _ | .grantTimeout _ | .grantServiceLaunch _
  | .grantRegistrationWrite _ _ _ _ | .grantUnregister _ | .kick _ _ _ | .rst _ _ | .registerWrite _ _ _
  | .grid _ _ | .graph _ _ | .waittl _ _ | .signal _ _ | .mapopFork _ _ | .mapopSetSwap _ _ | .mapopDrop _ _
  | .caskkick _ _ | .checkpoint _ | .restore _ | .erase _ | .rcons _ _ _ | .rctlEnable _ _
  | .coalesceTimerExpiry _ _ | .msixUnmask _ _ | .hostPortRead _ _ _ | .hostPortWrite _ _ _
  | .hostReadCompletion _ | .atsCompletion _ _ _ _ _ | .priResponse _ _ | .priLimitExpiry _
  | .atsInvalidationRequest _ _ _ _ | .atsInvalidationComplete _ | .replicaRequest _ _ | .replicaArrival _
  | .handOver _ _ | .minimumResidencyExpiry _ | .peerWaitTimeout _ | .linkFailure _ | .uncorrectableError _
  | .correctableError _ _ | .gangStateError _ _ | .carve | .dissolve | .start | .attest | .mailboxBadcmd
  | .pwrcap _ | .clockStep _ _ | .thermalShutdown | .spareCoreReplacement _ | .secureBoot _ _ _ | .functionReset _
  | .badEntry _ _ => {}

/-- Vector registers that the window shows, among those of a group. -/
def Uses.vector (u : Uses) (n : Nat) : Bool :=
  u.sel.any (fun o => o.toNat == n) || u.v.any (fun r => decide (r.toNat ≤ n) && decide (n < r.toNat + 4))

/-- A scalar register is named. -/
def Uses.scalar (u : Uses) (n : Nat) : Bool :=
  u.sel.any (fun o => o.toNat == 64 + n) || u.s.any (fun r => decide (r.toNat ≤ n) && decide (n < r.toNat + 2))

/-- A g register is named. -/
def Uses.shared (u : Uses) : Bool := u.sel.any (fun o => decide (0x60 ≤ o.toNat) && decide (o.toNat < 0x70))

end Sys2Proof.Machine
end

