-- ==== Sys2Proof/Machine/Issue.lean ====
section
/-! DEFINITION. One step's choice: which event comes next, which gang issues, and the fetch of its instruction
(R18, R77, R164, R166, R167, R180, R272 to R279). -/

namespace Sys2Proof.Machine

/-! ### Fetch (R166, R167, R180) -/

/-- A word with a patch laid over its field; none when its format has no such field (R180, R181). -/
def patchWord (field : Nat) (v : Word) (w : Nat) : Option Nat :=
  let maj := fld w 1 6
  let put := fun (lo n : Nat) => w - fld w lo n * 2 ^ lo + v.toNat % 2 ^ n * 2 ^ lo
  if w % 2 = 0 then none else
  match field with
  | 0 => if maj = 0x02 then some (put 22 10) else none
  | 1 => if maj = 0x0D ∨ maj = 0x14 then some (put 20 12) else none
  | 2 => if maj = 0x11 ∨ maj = 0x1E then some (put 16 16) else none
  | 3 => if maj = 0x3F then some (put 7 25) else none
  | _ => none

/-- The patches of the grid at an address, applied in table order. -/
def State.patched (s : State) (va w : Nat) : Option Nat :=
  (s.grid.patches.filter (fun p => p.va == va)).foldl (fun acc p => acc.bind (patchWord p.field p.value)) (some w)

/-- ILLOP at a fetched word; one of a recipe tells the recipe's offset (R164). -/
def State.illopHere (s : State) (len : Nat) (lanes : Bool) : Out :=
  s.illop len lanes (match s.gang.recipe with
    | some (_, off) => off
    | none => 0)

/-- Fetch the word at the gang's position and go on with its length and value. -/
-- DESIGN CHOICE (assumption 33): a patch whose field the word's format lacks names the lanes of `exec`, whatever the word.
def State.fetchWord (s : State) (k : State → Nat → Nat → Out) : Out :=
  let va := s.wordPc.toNat
  let go := fun (s : State) (len w : Nat) => match s.patched va w with
    | none => s.illopHere len true
    | some w => k s len w
  s.fetched va 2 (fun s c i => s.raiseFetch c va i) (fun s lo =>
    if leNat lo % 2 = 0 then go s 2 (leNat lo) else
    let va2 := (va + 2) % 2 ^ 48
    s.fetched va2 2 (fun s c i => s.raiseFetch c va2 i) (fun s hi => go s 4 (leNat lo + 2 ^ 16 * leNat hi)))

/-- What a recipe may hold: speculable instructions other than `br`, `jmp` and `sys`, and its `ctl.ivl` (R88,
R164). -/
def recipeOk : Instr → Bool
  | .iaAdd _ _ _ | .iaSub _ _ _ | .iaMullo _ _ _ | .iaMulhi _ _ _ | .iaMulhin _ _ _ | .iaMin _ _ _ | .iaMax _ _ _
  | .iaMinn _ _ _ | .iaMaxn _ _ _ | .iaAdds _ _ _ | .iaAddsn _ _ _ | .iaSubs _ _ _ | .iaSubsn _ _ _
  | .iaAbsdiff _ _ _ | .ilAnd _ _ _ | .ilOr _ _ _ | .ilXor _ _ _ | .ilAndn _ _ _ | .ilOrn _ _ _ | .ilShl _ _ _
  | .ilShr _ _ _ | .ilSra _ _ _ | .ilRotl _ _ _ | .ilBfe _ _ _ | .ilPopc _ _ | .ilClz _ _ | .ilCtz _ _ | .ilBrev _ _
  | .iaiAddi _ _ _ | .iaiMuli _ _ _ | .iaiAndi _ _ _ | .iaiOri _ _ _ | .iaiXori _ _ _ | .iaiShli _ _ _
  | .iaiShri _ _ _ | .iaiSrai _ _ _ | .faAdd _ _ _ | .faSub _ _ _ | .faMul _ _ _ | .faFmac _ _ _ | .faFnmac _ _ _
  | .faMin _ _ _ | .faMax _ _ _ | .faAbs _ _ | .faNeg _ _ | .faCopysign _ _ _ | .fhAdd _ _ _ | .fhSub _ _ _
  | .fhMul _ _ _ | .fhFmac _ _ _ | .fhMin _ _ _ | .fhMax _ _ _ | .fhPk _ _ _ | .fxRcp _ _ | .fxRsqrt _ _
  | .fxSqrt _ _ | .fxExp2 _ _ | .fxLog2 _ _ | .fxSin _ _ | .fxCos _ _ | .fxTanh _ _ | .fxAct _ _ | .fxFloor _ _
  | .fxCeil _ _ | .fxRint _ _ | .fxTrunc _ _ | .fxFract _ _ | .fxClass _ _ | .cvI2f _ _ | .cvN2f _ _ | .cvF2i _ _
  | .cvF2n _ _ | .cvF2h _ _ | .cvF2b _ _ | .cvH2f _ _ _ | .cvB2f _ _ _ | .cvPk8 _ _ _ | .cvPk4 _ _ _ | .cvUp8 _ _ _
  | .cvUp4 _ _ _ | .cmpFeq _ _ _ | .cmpFne _ _ _ | .cmpFlt _ _ _ | .cmpFle _ _ _ | .cmpFgt _ _ _ | .cmpFge _ _ _
  | .cmpFun _ _ _ | .cmpFord _ _ _ | .cmpIeq _ _ _ | .cmpIne _ _ _ | .cmpIlt _ _ _ | .cmpIle _ _ _ | .cmpNlt _ _ _
  | .cmpNle _ _ _ | .cmpTst _ _ _ | .sel _ _ _ _ | .xlShuf _ _ _ | .xlShx _ _ _ | .xlBcast _ _ _ | .xlRdf _ _
  | .xlRdl _ _ | .xlWrl _ _ _ | .xlRadd _ _ | .xlRmin _ _ | .xlRmax _ _ | .xlFradd _ _ | .xlScan _ _ | .xlBallot _ _
  | .xlVgrp _ _ | .xlElect _ | .dpDot8f _ _ _ | .dpDot8i _ _ _ | .dpDot4f _ _ _ | .dpDot4i _ _ _ | .dpDot2 _ _ _
  | .shpTag _ _ | .shpExpand _ _ | .shpAff _ _ | .shpUni _ _ | .shpCmpr _ _ | .saAdd _ _ _ | .saSub _ _ _
  | .saMul _ _ _ | .saMin _ _ _ | .saMax _ _ _ | .saMinn _ _ _ | .saMaxn _ _ _ | .saAnd _ _ _ | .saOr _ _ _
  | .saXor _ _ _ | .saAndn _ _ _ | .saShl _ _ _ | .saShr _ _ _ | .saSra _ _ _ | .saPopc _ _ | .saFfs _ _
  | .saiAddi _ _ _ | .saiAndi _ _ _ | .saiOri _ _ _ | .saiXori _ _ _ | .saiShli _ _ _ | .saiShri _ _ _
  | .saiSrai _ _ _ | .saiLui _ _ | .maskSave _ | .maskRest _ | .maskSet _ _ | .maskAnd _ | .maskAndn _ | .maskOr _
  | .maskFull | .ctlNop | .ctlYield | .ctlWait _ _ | .ctlIvl _ | .ctlBrk _ | .ctlWdog _ | .ldB _ _ _ _ _
  | .ldBn _ _ _ _ _ | .ldH _ _ _ _ _ | .ldHn _ _ _ _ _ | .ldW _ _ _ _ _ | .ldD _ _ _ _ _ | .ldQ _ _ _ _ _
  | .smLdw _ _ _ | .smLdd _ _ _ | .spmLdw _ _ _ _ _ | .spmLdd _ _ _ _ _ | .spmLdq _ _ _ _ _ | .syncTlrd _ _ | .ext _
  | .cMov _ _ | .cIadd _ _ | .cIsub _ _ | .cImul _ _ | .cAnd _ _ | .cOr _ _ | .cXor _ _ | .cShl _ _ | .cShr _ _
  | .cSra _ _ | .cFadd _ _ | .cFsub _ _ | .cFmul _ _ | .cFmax _ _ | .cFmin _ _ | .cIaddi _ _ => true
  | .brAl _ | .brZ _ _ | .brNz _ _ | .brXz _ | .brXnz _ | .brVz _ _ | .brVnz _ _ | .jmpCall _ _ | .jmpCallx _ _
  | .jmpRet | .jmpJx _ | .jmpJtab _ _ _ | .jmpJv _ | .ctlHalt | .ctlRefresh | .stB _ _ _ _ _ | .stH _ _ _ _ _
  | .stW _ _ _ _ _ | .stD _ _ _ _ _ | .stQ _ _ _ _ _ | .smStw _ _ _ | .smStd _ _ _ | .atAdd _ _ _ _ _
  | .atMin _ _ _ _ _ | .atMax _ _ _ _ _ | .atMinn _ _ _ _ _ | .atMaxn _ _ _ _ _ | .atAnd _ _ _ _ _ | .atOr _ _ _ _ _
  | .atXor _ _ _ _ _ | .atXchg _ _ _ _ _ | .atCas _ _ _ _ _ | .atInc _ _ _ _ _ | .atFadd _ _ _ _ _
  | .atXadd _ _ _ _ _ | .atXrd _ _ _ _ _ | .atXclr _ _ _ _ _ | .spmStw _ _ _ _ _ | .spmStd _ _ _ _ _
  | .spmStq _ _ _ _ _ | .spmAdd _ _ _ _ _ | .spmMin _ _ _ _ _ | .spmMax _ _ _ _ _ | .spmOr _ _ _ _ _
  | .spmXchg _ _ _ _ _ | .spmCas _ _ _ _ _ | .spmInc _ _ _ _ _ | .syncBar _ | .syncCmtmx _ | .syncCmtcp _
  | .syncIrrev | .mxClaim _ _ | .mxRel _ _ | .mxZero _ _ | .mxMma _ _ _ _ | .mxMms _ _ _ _ | .mxMmx _ _ _ _
  | .mxMmg _ _ _ _ _ | .mxSt _ _ _ _ _ _ | .cpG2s _ _ _ _ | .cpS2g _ _ _ _ | .cpG2g _ _ _ _ | .cpG2o _ _ _ _ _
  | .cpS2o _ _ _ _ _ | .cpGat _ _ _ _ _ | .cpMeta _ _ _ _ | .cpAct _ _ | .sqBind _ _ _ | .sqBindFree _
  | .sqFork _ _ _ | .sqSave _ _ _ | .sqRoll _ _ | .sqRng _ _ | .sqAcc _ _ _ | .sqEmit _ _ | .sqRel _ _ | .sqVeto _ _
  | .gxBind _ _ _ | .gxMask _ _ _ | .gxPeek _ _ | .gxStep _ _ | .mapFork _ _ _ _ | .mapSet _ _ _ _ | .mapSwap _ _ _
  | .mapDrop _ _ | .mapRef _ _ _ _ | .lnchGrid _ _ _ | .lnchSig _ | .lnchGrant _ _ _ _ | .sysSrd _ _ | .sysSwr _ _
  | .sysTrap _ _ | .sysEret | .wdog _ | .holderSliceWrite _ | .lineInvalidation _ _ | .lineMigration _ _
  | .l2Eviction _ | .loadCompletion _ | .pendingCommandStart _ | .matrixPass _ | .engineOperationComplete _ _
  | .runFailure _ _ | .spill _ | .refill _ | .copyOnWrite _ _ _ | .generationRelease _ _ | .gangRetire _
  | .workgroupPlacement _ | .promotion _ | .sliceEnd _ | .graceWindowExpiry _ | .workgroupResume _
  | .grantBatchClose _ | .grantTimeout _ | .grantServiceLaunch _ | .grantRegistrationWrite _ _ _ _
  | .grantUnregister _ | .kick _ _ _ | .rst _ _ | .registerWrite _ _ _ | .grid _ _ | .graph _ _ | .waittl _ _
  | .signal _ _ | .mapopFork _ _ | .mapopSetSwap _ _ | .mapopDrop _ _ | .caskkick _ _ | .checkpoint _ | .restore _
  | .erase _ | .rcons _ _ _ | .rctlEnable _ _ | .coalesceTimerExpiry _ _ | .msixUnmask _ _ | .hostPortRead _ _ _
  | .hostPortWrite _ _ _ | .hostReadCompletion _ | .atsCompletion _ _ _ _ _ | .priResponse _ _ | .priLimitExpiry _
  | .atsInvalidationRequest _ _ _ _ | .atsInvalidationComplete _ | .replicaRequest _ _ | .replicaArrival _
  | .handOver _ _ | .minimumResidencyExpiry _ | .peerWaitTimeout _ | .linkFailure _ | .uncorrectableError _
  | .correctableError _ _ | .gangStateError _ _ | .carve | .dissolve | .start | .attest | .mailboxBadcmd | .pwrcap _
  | .clockStep _ _ | .thermalShutdown | .spareCoreReplacement _ | .secureBoot _ _ _ | .functionReset _
  | .badEntry _ _ => false

/-- The offset of the recipe a gang runs, when this instruction breaches its rules (R164). -/
def Gang.breach (g : Gang) (i : Instr) : Option Nat :=
  match g.recipe with
  | some (_, off) => if recipeOk i then none else some off
  | none => none

/-- The vector register that an unperformed read-modify-write will write. -/
def PendWrite.target (w : PendWrite) : Option Nat := w.rmw.bind (fun m => if m.fn.returns then some m.v else none)

/-- The selectors of the registers that a synchronous instruction of the pending list will write (R90). -/
def SyncInstr.dests : SyncInstr → List Nat
  | .mxClaim a _ => [0x40 + a.toNat]
  | .mxRel _ _ => []
  | .sqBind a _ _ => [0x40 + a.toNat]
  | .sqBindFree _ => []
  | .sqFork a _ _ => [0x40 + a.toNat]
  | .sqSave _ _ _ => []
  | .sqRoll _ _ => []
  | .sqRng a _ => [0x40 + a.toNat, 0x41 + a.toNat]
  | .sqAcc a _ _ => [0x40 + a.toNat]
  | .gxBind d _ _ => [d.toNat]
  | .gxMask d _ _ => [d.toNat]
  | .gxPeek d _ => [d.toNat]
  | .gxStep _ _ => []
  | .lnchGrid _ _ _ => []
  | .lnchSig _ => []
  | .lnchGrant a _ _ _ => [0x40 + a.toNat]

def PendWrite.dests (w : PendWrite) : List Nat := w.sync.elim [] (fun p => p.1.dests.filter (fun d => decide (d < 0x70)))

/-- The scalar register that a commit in the pending list will write. -/
def Cmd.target (c : Cmd) : Option Nat :=
  match c.op, c.st with
  | .commit reg _ _, .pending => if reg < 32 then some reg else none
  | _, _ => none

/-- The instruction takes an immediate that a register may replace (R175). -/
def takesSyImm : Instr → Bool
  | .ctlWait _ _ | .ctlWdog _ | .sysTrap _ _ => true
  | _ => false

/-- The registers an instruction of the gang names: with those of its fields the scalar register that an EXT before it
gives in place of an immediate (R175, R207). -/
def Gang.uses (g : Gang) (i : Instr) : Uses :=
  let u := usesOf i
  match g.ext with
  | some p => if bitAt p.toNat 24 && takesSyImm i then { u with s := p.setWidth 5 :: u.s } else u
  | none => u

/-- A `ctl.wait` that the gang has run past is not complete (R207). -/
def Gang.pastWait (g : Gang) : Bool :=
  g.stores.any (fun w => match w.space with
    | .wait _ _ => true
    | _ => false)

/-- An instruction of a gang must wait: a register it names is the result of one that has not come (R90), it reads a g
register that the level or the checkpoints hold back (R85, R91), or flags that are still to be merged, those of an engine
operation that a `ctl.wait` covers among them (R63). -/
def Gang.holdsIssue (g : Gang) (u : Uses) : Bool :=
  let vs := g.stores.filterMap PendWrite.target
  let ds := g.stores.flatMap PendWrite.dests
  (!vs.isEmpty && (u.slides || vs.any u.vector))
  || (g.cmds.filterMap Cmd.target).any u.scalar
  || ds.any (fun d => if d < 0x40 then u.slides || u.vector d else if d < 0x60 then u.scalar (d - 0x40) else u.shared)
  || (u.flags && (g.pastWait || g.stores.any (fun w => w.rmw.any (fun m => m.fn.floats))))
  || (u.shared && g.holdsRead 1)

/-- Execute a decoded instruction of the current gang. -/
def State.execute (s : State) (len : Nat) (i : Instr) : Out :=
  let u := s.gang.uses i
  match s.gang.breach i with
  | some off => s.illop len u.lanes off
  | none => if s.gang.holdsIssue u then s.stall else exec i s

/-- ILLOP of a word that is no instruction names the active lanes, and so does that of a bad field in a lane
family (R152). -/
-- DEDUCED (assumption 33): a word that R177's tables name is an instruction, whatever its unused fields hold.
def DecodeError.namesLanes : DecodeError → Bool
  | .unusedField lanes => lanes
  | _ => true

/-- The current gang fetches, decodes and executes one word; a word that is no instruction is ILLOP (R169,
R177).  A gang that has arrived at a barrier fetches nothing: it is past it, or waits on (R22). -/
noncomputable def State.runWord (s : State) : Out :=
  match s.gang.wait with
  | .bar k _ => exec (.syncBar (BitVec.ofNat 2 k)) s
  | _ => s.fetchWord (fun s len w => match decode (wordBytes len w) with
    | .ok (i, _) => s.execute len i
    | .error e => s.illopHere len (DecodeError.namesLanes e))

/-! ### Which gang issues (R279) -/

/-- The gang as the current one. -/
def State.turnTo (s : State) (k : Nat) : State := { s with cur := k }

/-- The current gang's instruction, its prefix with it: the word after an EXT runs at once. -/
noncomputable def State.runWhole (s : State) : Out :=
  match s.runWord with
  | .next t => if t.gang.ext.isSome then t.runWord else .next t
  | o => o

/-- The gang's instruction, tried now, would do more than leave it to wait as it does, or to stall. -/
noncomputable def State.wouldGo (s : State) (k : Nat) : Bool :=
  match (s.turnTo k).runWhole with
  | .next t => !((t.gangAt k).wait == (s.gangAt k).wait || t.gangAt k == { s.gangAt k with wait := .stall })
  | _ => true

/-- The gang is on a core and has no trap due before its next instruction (R26). -/
def Gang.runs (g : Gang) : Bool := g.st == .live && !g.r.wdDue

/-- The gang's wait has ended; the event that ends a wait for data completes the load itself (R279). -/
noncomputable def State.waitEnded (s : State) (k : Nat) : Bool :=
  let g := s.gangAt k
  g.runs && (match g.wait with
    | .none => false
    | .load _ => false
    | .host _ _ => false
    | .denied _ _ _ => g.quiet
    | _ => s.wouldGo k)

/-- The gang is ready: no wait holds it, and its next instruction can issue (R279). -/
noncomputable def State.readyToIssue (s : State) (k : Nat) : Bool :=
  let g := s.gangAt k
  g.runs && g.wait == .none && ((g.stores.isEmpty && g.cmds.isEmpty) || s.wouldGo k)

/-- The stream a gang runs on, numbered in the package. -/
def State.streamOf (s : State) (k : Nat) : Nat := (s.wgAt (s.gangAt k).wg).core * 64 + (s.gangAt k).stream

/-- Of two ready gangs of a stream, the first is taken: one that did not yield, the promoted mark, trap class,
priority, age, and then the one not taken last. -/
def Gang.ranksBefore (a b : Gang) : Bool :=
  if a.yielded != b.yielded then b.yielded
  else if a.promoted != b.promoted then a.promoted
  else if a.trap != b.trap then a.trap
  else if a.prio != b.prio then decide (b.prio < a.prio)
  else if a.born != b.born then decide (a.born < b.born)
  else decide (a.lastIssue ≤ b.lastIssue)

/-- The seat of a gang, which orders the gangs of a workgroup by their slots. -/
def State.seat (s : State) (k : Nat) : Nat := (s.gangAt k).wg * 32 + (s.gangAt k).slot

/-- Each stream's choice among its ready gangs. -/
noncomputable def State.choices (s : State) : List Nat :=
  let ready := s.gangKeys.filter (fun k => s.readyToIssue k)
  ready.filter (fun k => ready.all (fun j => j == k || s.streamOf j != s.streamOf k
    || (s.gangAt k).ranksBefore (s.gangAt j)))

/-- The word at a gang's PC is a claim (R250). -/
noncomputable def State.claimsNext (s : State) (k : Nat) : Bool :=
  let t := s.turnTo k
  let code := (List.range 4).filterMap (fun i => match t.gxlate false true ((t.r.pc.toNat + i) % 2 ^ 48) with
    | .ok loc _ => some (t.readLoc loc)
    | _ => none)
  match decode code with
  | .ok (.mxClaim _ _, _) => true
  | _ => false

/-- Of two gangs that issue in one cycle, the one whose effects come first: of a workgroup the lower slot (R23), of two
claims the lower stream, then the lower slot (R250). -/
noncomputable def State.earlier (s : State) (a b : Nat) : Bool :=
  let x := s.claimsNext a
  if x != s.claimsNext b then !x
  else if x then decide (s.streamOf a * 32 + (s.gangAt a).slot ≤ s.streamOf b * 32 + (s.gangAt b).slot)
  else decide (s.seat a ≤ s.seat b)

/-- The gangs that issue in a cycle that begins now, in the order of their effects. -/
-- DESIGN CHOICE (assumption 36): the streams' choices issue one after another, and together they stand for one cycle.
noncomputable def State.cycle (s : State) : List Nat := sortBy s.earlier s.choices

/-- Those of the present cycle that are still to issue and can, or else those of a new one. -/
noncomputable def State.inTurn (s : State) : List Nat :=
  match s.round.dropWhile (fun k => !s.readyToIssue k) with
  | [] => s.cycle
  | l => l

/-- The gang that issues. -/
noncomputable def State.nextGang (s : State) : Option Nat := s.inTurn.head?

/-- The present cycle is over once no gang of it is still to issue and can: its writes of g registers take effect
(R23). -/
noncomputable def State.closed (s : State) : State := if s.round.any s.readyToIssue then s else s.endCycle

/-- The gang is about to issue: it is the current one and promoted no more, and a yield of its stream is used up (R206,
R279). -/
noncomputable def State.begin (s : State) (k : Nat) : State :=
  let t := s.streamOf k
  let c := s.closed
  { c with cur := k, round := s.inTurn.tail, gangs := tmap c.gangs (fun j g =>
      if j = k then { g with yielded := false, promoted := false }
      else if s.streamOf j = t then { g with yielded := false } else g) }

/-- What the scheduler notes after a choice: when the gang issued, and which gangs are not ready, or were not before it;
the cycle may be over (R23, R279). -/
noncomputable def State.noteIssue (s0 s : State) (k : Option Nat) : State :=
  let now := s.clk.core
  State.closed { s with gangs := tmap s.gangs (fun j g =>
      let g := if some j = k then { g with lastIssue := now } else g
      if s0.readyToIssue j && s.readyToIssue j then g else { g with readySince := now }) }

/-- The current gang runs one word; the choice is over with its instruction's last (R176, R279). -/
noncomputable def State.issueWord (s : State) : Out :=
  match s.runWord with
  | .next t => if t.gang.ext.isSome then .next t else .next (State.noteIssue s t (some s.cur))
  | .fault f => .fault f
  | .refused r => .refused r

/-- The gang issues. -/
noncomputable def State.issueFrom (s : State) (k : Nat) : Out := (s.begin k).issueWord

/-- An instruction whose wait has ended goes on: no stream chooses it again, and the choice after it is a new one
(R279). -/
noncomputable def State.goOn (s0 : State) (k : Nat) : Out :=
  let s := s0.closed
  match (s.turnTo k).runWhole with
  | .next t => .next (State.noteIssue s t none)
  | .fault f => .fault f
  | .refused r => .refused r

/-! ### Which event comes next -/

/-- An event would change the state, or stop the machine. -/
def State.changes (s : State) (o : Out) : Bool :=
  match o with
  | .next t => t != s
  | _ => true

/-- Keep an event when its condition holds. -/
def onlyIf (p : Bool) (e : Instr) : List Instr := if p then [e] else []

/-- The oldest write of a gang may perform without an event from outside: stores are not held, or what waits is a
`ctl.wait`, or the gang is at level 2 (R91, R207). -/
def State.mayDrain (s : State) (k : Nat) : Bool :=
  let g := s.gangAt k
  (g.st == .live || g.st == .halted) && s.asGang k State.drains && (!s.holdStores || g.level == 2
    || (match g.stores with
      | w :: _ => (match w.space with
        | .wait _ _ => true
        | _ => false)
      | [] => false))

/-- A wait for a page has run out (R97, R127). -/
noncomputable def State.holdEvents (s : State) (who : Waiter) : List Instr :=
  match s.holdOf who with
  | .ats _ _ _ (some t) =>
    onlyIf (decide (t + cycles (1000 * (s.leafAt (s.leafOfWaiter who)).part.priLimit) ≤ s.now)) (.priLimitExpiry who)
  | .peer _ _ t => onlyIf (s.links.isEmpty && decide (t + cycles 1000 ≤ s.now)) (.peerWaitTimeout who)
  | _ => []

/-- Events of one gang. -/
noncomputable def State.gangEvents (s : State) (k : Nat) : List Instr :=
  let g := s.gangAt k
  onlyIf (s.wdogDue k) (.wdog k)
  ++ onlyIf (s.mayDrain k) (.holderSliceWrite k)
  ++ onlyIf (g.canStart || g.nextSync.isSome) (.pendingCommandStart k)
  ++ g.cmds.flatMap (fun c => match s.tryCmd k c with
      | .done _ _ => [.engineOperationComplete k c.id]
      | .hole _ => [.engineOperationComplete k c.id]
      | .fail _ _ => [.runFailure k c.id]
      | .access e => onlyIf (!c.hold.holds e) (.engineOperationComplete k c.id)
      | _ => [])
  ++ onlyIf (!g.sent.isEmpty && !s.holdLoads) (.hostReadCompletion { gang := k })
  ++ (match g.wait with
      | .load _ => onlyIf (g.st == .live && !s.holdLoads) (.loadCompletion k)
      | .host _ _ => onlyIf (g.st == .live && !s.holdLoads) (.hostReadCompletion { gang := k })
      | .atomicOp _ => onlyIf (g.st == .live && !s.holdLoads) (.hostReadCompletion { gang := k })
      | _ => [])
  ++ onlyIf g.mayRetire (.gangRetire k)
  ++ onlyIf (s.mayPromote k && s.readyToIssue k) (.promotion k)
  ++ (match g.forward with
      | some d => onlyIf (g.st == .live && g.recipe.isNone && decide (d ≤ s.now)) (.graceWindowExpiry k)
      | none => [])

/-- The event of a host queue: its running WAITTL, or its next entry. -/
noncomputable def State.queueEvents (s : State) (l q : Nat) : List Instr :=
  let keep := fun (e : Instr) => onlyIf (s.changes (exec e s)) e
  match (s.queueAt l q).run with
  | .wait _ _ => keep (.waittl l q)
  | .none =>
    if !s.runnable l q then [] else
    (match s.entry l q with
      | .error _ => keep (.badEntry l q)
      | .ok b => match (b.headD 0).toNat with
        | 1 => keep (.grid l q)
        | 2 => keep (.graph l q)
        | 3 => keep (.waittl l q)
        | 4 => keep (.signal l q)
        | 5 => (match ef b 0x10 1 with
          | 0 => keep (.mapopFork l q)
          | 1 => keep (.mapopSetSwap l q)
          | 2 => keep (.mapopDrop l q)
          | _ => keep (.badEntry l q))
        | _ => keep (.badEntry l q))
  | .graph _ _ _ _ => onlyIf (!(s.readyNodes l q).isEmpty) (.graph l q)
  | _ => []

/-- The event of a leaf's Cask ring. -/
noncomputable def State.caskEvents (s : State) (l : Nat) : List Instr :=
  if !s.caskReady l then [] else
  let keep := fun (e : Instr) => onlyIf (s.changes (exec e s)) e
  if (s.leafAt l).caskDone.isSome then keep (.erase l) else
  match s.caskEntry l with
  | .error _ => keep (.erase l)
  | .ok b => match ef b 0 1 with
    | 1 => keep (.checkpoint l)
    | 2 => keep (.restore l)
    | _ => keep (.erase l)

/-- Events of one leaf. -/
noncomputable def State.leafEvents (s : State) (l : Nat) : List Instr :=
  let f := s.leafAt l
  if !f.live then [] else
  f.asids.flatMap (fun p => onlyIf (s.asidAt l p.1).releasable (.generationRelease l p.1))
  ++ onlyIf (f.part.sliced && (s.sliceOver l || (s.tenantWgs l).any s.stopped) && s.changes (execSliceEnd l s)) (.sliceEnd l)
  ++ (s.wgs.filter (fun p => p.2.st == .saved && (s.gridAt p.2.grid).leaf == l)).flatMap (fun p =>
      onlyIf (s.changes (execWorkgroupResume p.1 s)) (.workgroupResume p.1))
  ++ onlyIf ((s.placement l).isSome && s.changes (execWorkgroupPlacement l s)) (.workgroupPlacement l)
  ++ onlyIf (s.invReady l) (.atsInvalidationComplete l)
  ++ f.msix.flatMap (fun p => onlyIf (s.coalesceDue l p.1) (.coalesceTimerExpiry l p.1))
  ++ f.queues.flatMap (fun p => s.queueEvents l p.1)
  ++ s.caskEvents l

/-- Events of one Grant queue. -/
noncomputable def State.grantEvents (s : State) (q : Nat) : List Instr :=
  let g := s.grantAt q
  onlyIf (g.registered && !g.rows.isEmpty && decide (g.size ≤ g.rows.length)) (.grantBatchClose q)
  ++ onlyIf (g.registered && s.grantDue q) (.grantTimeout q)
  ++ onlyIf (g.nextLaunch.isSome && s.changes (execGrantServiceLaunch q s)) (.grantServiceLaunch q)
  ++ onlyIf (g.closing && g.rows.isEmpty && g.batches.isEmpty) (.grantUnregister q)

/-- The mailbox command that the root core serves. -/
noncomputable def State.mailboxEvent (s : State) : List Instr :=
  if !s.mbGo || (s.boot != .ok && s.boot != .failed) then [] else
  match s.mbCmd.toNat with
  | 1 => [.carve]
  | 2 => [.dissolve]
  | 3 => [.start]
  | 4 => [.attest]
  | _ => [.mailboxBadcmd]

/-- The first event that may happen now, in the model's fixed order. -/
-- DESIGN CHOICE (assumption 1): events of the device come before instructions, in this order.
noncomputable def State.nextEvent (s : State) : Option Instr :=
  (s.mailboxEvent
  ++ s.gangKeys.flatMap (fun k => s.gangEvents k)
  ++ s.cores.flatMap (fun p => onlyIf (!(s.coreAt p.1).quarters.isEmpty && s.changes (execMatrixPass p.1 s)) (.matrixPass p.1))
  ++ onlyIf (s.thermal && s.changes (execThermalShutdown s)) .thermalShutdown
  ++ s.leaves.flatMap (fun p => s.leafEvents p.1)
  ++ s.grants.flatMap (fun p => s.grantEvents p.1)
  ++ s.waiters.flatMap s.holdEvents
  ++ s.pages.flatMap (fun p => onlyIf (s.pageDue p.1) (.minimumResidencyExpiry p.1))).head?

/-- What comes before everything else: the rest of an instruction whose prefix has run (R176), and a pending write of a
gang at level 2, which its holder slice performs before it serves others (R91). -/
def State.unfinished (s : State) : Bool := s.gang.st == .live && s.gang.ext.isSome
def State.urgent (s : State) : Option Nat := s.gangKeys.find? (fun k => (s.gangAt k).level == 2 && s.mayDrain k)

/-- An access by the host port (R99). -/
def ofPort : Instr → Bool
  | .kick _ _ _ | .rst _ _ | .registerWrite _ _ _ | .caskkick _ _ | .rcons _ _ _ | .rctlEnable _ _ | .msixUnmask _ _
  | .hostPortRead _ _ _ | .hostPortWrite _ _ _ | .grantRegistrationWrite _ _ _ _ | .pwrcap _ => true
  | _ => false

/-- An access of the host port as the event it is. -/
noncomputable def PortAccess.instr : PortAccess → Instr
  | .read win off len => .hostPortRead win off len
  | .write l off bytes => .hostPortWrite l off bytes
  | .event e => e

/-- The access of the host port that has waited and goes on, with the state it leaves. -/
noncomputable def State.portNext (s : State) : Option (Instr × State) :=
  match s.port with
  | [] => none
  | e :: rest => if s.portHold == .none || s.portHold.failed.isSome then some (e.instr, { s with port := rest }) else none

/-- An access of the host port stays behind those that wait (R99). -/
def State.behindPort (s : State) (e : Instr) : Bool := !s.port.isEmpty && ofPort e

/-- The first gang whose wait has ended, in the order of one cycle's effects. -/
noncomputable def State.endedWait (s : State) : Option Nat := (sortBy s.earlier (s.gangKeys.filter s.waitEnded)).head?

/-- Nothing happens: a cycle of the clock passes, and idle cores deactivate. -/
noncomputable def State.idle (s : State) : State := State.noteIssue s (s.leaves.foldl (fun s p => s.settleRamp p.1) (s.tick 1)) none

/-! ### A machine that runs one given word -/

/-- The translation tree of the machine that runs a given word: one executable page at VA 0. -/
def fetchTree (dev : Nat) (m : List Host.Cell) : List Host.Cell :=
  let e := fun (m : List Host.Cell) (node x : Nat) => memPut m node (leBytes 8 x)
  e (e (e (e m 0x1000 (mkEnt 1 false false false false 0 0x1800 dev)) 0x1800 (mkEnt 1 false false false false 0 0x2000 dev))
    0x2000 (mkEnt 1 false false false false 0 0x2800 dev)) 0x2800 (mkEnt 2 false true false false 0 0x10000 dev)

/-- A leaf, a grid, a workgroup and a gang, with code bytes where the gang fetches. -/
def State.withCode (s : State) (code : List Byte) : State :=
  let g := s.gangAt 1
  { s with
    agenda := [], port := [], portHold := .none, boot := .ok, started := true, mbGo := false, nextKey := 2, old := [], seqs := [], grants := [], pages := []
    mem := memPut (fetchTree s.devnum s.mem) 0x10000 code
    leaves := [(0, {
      live := true
      part := { leaf := true, id := 1, cores := [(0, 1), (0, 0), (0, 0), (0, 0)] }
      asids := [(0, { st := .live, gens := [{ num := 1, root := 0x1000, pins := 1 }] })]
      refs := [(0x1000, 1), (0x1800, 1), (0x2000, 1), (0x2800, 1), (0x10000, 1)] })]
    cores := [(0, { s.coreAt 0 with wgs := [1], active := true, quarters := [] })]
    grids := [(1, { live := true, id := 1, root := 1, seed := .queue, nextWg := 1, liveWgs := 1, spawn := 1 })]
    wgs := [(1, { st := .live, grid := 1, gangs := [1] })]
    gangs := [(1, { g with
      st := .live, wg := 1, slot := 0, launched := 0xFFFFFFFF, stream := 0, wait := .none, ext := none, trap := false
      recipe := none, asid := 0, gen := 1, stores := [], ckpts := [], cmds := [], forward := none, promoted := true
      r := { g.r with pc := 0, exec := 0xFFFFFFFF, wdDue := false } })] }

end Sys2Proof.Machine
end

