-- ==== Sys2Proof/Machine/Step.lean ====
section
/-! DEFINITION. One step of the machine, and the state whose next step runs a given instruction. -/

namespace Sys2Proof.Machine

/-- One step: the rest of an instruction that has begun, a write that comes first, an access of the host port that has
waited, the oldest event from outside, else an event of the device, else an instruction whose wait has ended, else an
instruction of the gang in turn, else a cycle in which nothing happens. -/
noncomputable def step (s : State) : Host.Outcome State Fault Refusal :=
  if s.unfinished then s.issueWord else
  match s.urgent with
  | some k => exec (.holderSliceWrite k) s
  | none =>
  match s.portNext with
  | some (e, t) => exec e t
  | none =>
  match s.agenda with
  | e :: rest =>
    if (encode e).isSome then .next { s with agenda := rest }
    else if s.behindPort e then .next { s with agenda := rest, port := s.port ++ [.event e] }
    else exec e { s with agenda := rest }
  | [] => match s.nextEvent with
    | some e => exec e s
    | none => match s.endedWait with
      | some k => s.goOn k
      | none => match s.nextGang with
        | some k => s.issueFrom k
        | none => .next s.idle

/-- The instruction `w` of `nbits` bits stands where the next step fetches. -/
def State.withFetchWord (s : State) (nbits w : Nat) : State := s.withCode (wordBytes 4 (w % 2 ^ nbits))

end Sys2Proof.Machine
end

