-- ==== Sys2Proof/Safety.lean ====
section
/-! DEFINITION. What counts as a safe run, and the terms claims use: a step that answers a next state, memories in
their one canonical form, and what an instruction that retires leaves as it was. -/

namespace Sys2Proof.Machine

/-- A step from this state goes on. -/
def State.goesOn (s : State) : Prop := ∃ t, step s = .next t

/-- A run of `n` steps from this state that meets no fault and no refusal. -/
def State.safe (s : State) : Nat → Prop
  | 0 => True
  | n + 1 => ∃ t, step s = .next t ∧ t.safe n

/-- The three memories of the device are canonical: local DRAM, host memory and peer memory. -/
def State.memWf (s : State) : Prop :=
  Memory.wf s.mem = true ∧ Memory.wf s.hostMem = true ∧ Memory.wf s.peerMem = true

/-- The three memories read as before, byte for byte. -/
def State.SameMem (s t : State) : Prop := t.mem = s.mem ∧ t.hostMem = s.hostMem ∧ t.peerMem = s.peerMem

/-- `t` is `s` but for the gang that executes and the clock. -/
def State.OnlyGang (s t : State) : Prop :=
  t = { s with gangs := t.gangs, clk := t.clk } ∧ ∀ k, k ≠ s.cur → t.gangAt k = s.gangAt k

/-- The gang has moved on: `g0` with registers `r`, the PC at `pc`, its prefix and its wait gone; the watchdog's
own count and window may have changed. -/
def Gang.Moved (g0 g : Gang) (pc : Va) (r : Regs) : Prop :=
  g = { g0 with r := g.r, ext := none, wait := .none, promoted := false, seq := g0.seq + 1 } ∧
  g.r = { r with pc := pc, wdCount := g.r.wdCount, wdWin := g.r.wdWin, wdDue := g.r.wdDue }

/-- The instruction retires and only its own gang changes: to `g0` with registers `r`, at `pc`. -/
def State.Retires (s t : State) (pc : Va) (g0 : Gang) (r : Regs) : Prop := s.OnlyGang t ∧ g0.Moved t.gang pc r

/-- The registers whose watchdog stands as it does after an instruction that transfers nowhere (R26). -/
def State.watched (s : State) : Regs := if s.gang.trap then s.r else s.r.watch s.r.pc s.wordPc none

/-- A lane instruction of `len` bytes has delivered its result to selector `d`: in each active lane of a vector
register the value `f` gives, in a scalar or g register the value of the lowest active lane; the flags and counts
take its events; nothing else of the gang but the PC, nothing of memory, and, unless a g register is written,
nothing of the rest of the machine changes. -/
def State.Delivers (s t : State) (len : Nat) (d : BitVec 7) (f : Fin 32 → Word) (evs : List Nat) : Prop :=
  t.gang = { s.gang with
    r := t.r, ext := none, wait := .none, promoted := false, seq := s.gang.seq + 1, ckpts := t.gang.ckpts
    stores := t.gang.stores, flash := t.gang.flash } ∧
  t.r = { s.r.mergeEvents evs with
    pc := s.nextPc len, win := t.r.win, s := t.r.s
    wdCount := s.watched.wdCount, wdWin := s.watched.wdWin, wdDue := s.watched.wdDue } ∧
  (∀ v : BitVec 6, v.toNat ≠ d.toNat → t.r.vreg v = s.r.vreg v) ∧
  (∀ c : BitVec 5, 0x40 + c.toNat ≠ d.toNat → t.r.sreg c = s.r.sreg c) ∧
  (∀ i, i < 16 → 0x60 + i ≠ d.toNat → t.gReg i = s.gReg i) ∧
  (∀ v : BitVec 6, v.toNat = d.toNat → ∀ l, lane s.gang.launched l = true →
    (t.r.vreg v).at l = if lane s.r.exec l then f l else (s.r.vreg v).at l) ∧
  (∀ c : BitVec 5, 0x40 + c.toNat = d.toNat → t.r.sreg c = match lowest s.r.exec with
    | some l => f l
    | none => s.r.sreg c) ∧
  (∀ i, i < 16 → 0x60 + i = d.toNat → t.gReg i = match lowest s.r.exec with
    | some l => f l
    | none => s.gReg i) ∧
  s.SameMem t ∧
  (d.toNat < 0x60 ∨ 0x70 ≤ d.toNat → s.OnlyGang t ∧ t.gang.stores = s.gang.stores ∧ t.gang.flash = s.gang.flash) ∧
  (s.gang.stores = [] → (s.holdStores = false ∨ d.toNat < 0x60 ∨ 0x70 ≤ d.toNat) → t.gang.ckpts = s.gang.ckpts)

/-! ### Running one instruction -/

/-- The instruction answers a next state, and `p` holds of it. -/
def State.Runs (s : State) (i : Instr) (p : State → Prop) : Prop := ∃ t, exec i s = .next t ∧ p t

/-- The instruction retires at the address after it, having written registers alone: `r` are the registers. -/
def State.Writes (s : State) (i : Instr) (r : Regs) : Prop := s.Runs i (fun t => s.Retires t (s.nextPc 4) s.gang r)

/-- As `Retires`, but a speculative read may have joined a checkpoint: only with stores not yet performed. -/
def State.RetiresRd (s t : State) (pc : Va) (r : Regs) : Prop :=
  s.OnlyGang t ∧ ∃ cs, (s.gang.stores = [] → cs = s.gang.ckpts) ∧ ({ s.gang with ckpts := cs } : Gang).Moved t.gang pc r

/-- The instruction retires at the address after it, having written registers alone, after reads. -/
def State.WritesRd (s : State) (i : Instr) (r : Regs) : Prop := s.Runs i (fun t => s.RetiresRd t (s.nextPc 4) r)

/-- The selectors of a lane instruction are ones it may have: the destination can be written, the sources can be
read, and a prefix stands before it exactly when a source asks for its immediate (R170, R172). -/
def State.Fits (s : State) (d : BitVec 7) (srcs : List (BitVec 7)) : Prop :=
  d.toNat ≤ 0x70 ∧ (∀ o ∈ srcs, o.toNat < 0x7D) ∧ (s.gang.ext.isSome = true ↔ 0x7C ∈ srcs)

/-- The lane instruction gives each active lane the value `f` names, with no event. -/
def State.Lanes (s : State) (i : Instr) (len : Nat) (d : BitVec 7) (f : Fin 32 → Word) : Prop :=
  s.Runs i (fun t => s.Delivers t len d f [])

/-- The events of the active lanes, lane by lane. -/
def State.laneEvents (s : State) (f : Fin 32 → Word × List Nat) : List Nat := (lanesOf s.r.exec).flatMap (fun l => (f l).2)

/-- The lane instruction gives each active lane the value and the events `f` names; when an event is enabled FPX is
taken on the boundary after that, once the gang is non-speculative (R37). -/
def State.LanesEv (s : State) (i : Instr) (len : Nat) (d : BitVec 7) (f : Fin 32 → Word × List Nat) : Prop :=
  let evs := s.laneEvents f
  let x := s.r.fpx evs
  (x = 0 → s.Runs i (fun t => s.Delivers t len d (fun l => (f l).1) evs))
  ∧ (x ≠ 0 → s.quiet = true → s.Runs i (fun t => ∃ u, s.Delivers u len d (fun l => (f l).1) evs ∧ t = u.boundary tcFPX x))

/-- The value an immediate field gives: sign-extended, or the payload of the prefix sign-extended, the field
then 0 (R175). -/
def State.Immediate (s : State) {n : Nat} (i : BitVec n) (v : Word) : Prop :=
  (s.gang.ext = none ∧ v = i.signExtend 32) ∨ (∃ p, s.gang.ext = some p ∧ i = 0 ∧ v = p.signExtend 32)

/-- The instruction traps precisely: the next state is the one taking the exception leaves. -/
def State.Raises (s : State) (i : Instr) (len code : Nat) (lanes : Word) (addr info : Nat) : Prop :=
  s.Runs i (fun t => t = (s.takeTrap (s.faultAt len code lanes addr info)).tick 1)

/-- Where a relative transfer goes: the word's own address plus twice the offset, sign-extended; a prefix supplies
the offset's high bits (R175, R201). -/
def State.Target (s : State) {n : Nat} (o : BitVec n) (t : Va) : Prop :=
  (s.gang.ext = none ∧ t = s.r.pc + (o.signExtend 48) <<< 1) ∨
  (∃ p : BitVec 25, s.gang.ext = some p ∧ t = s.r.pc + 4 + ((p ++ o).signExtend 48) <<< 1)

/-- The active lanes hold one value of a register, and there are some. -/
def Regs.Common (r : Regs) (v : BitVec 6) (w : Word) : Prop :=
  (∃ l, lane r.exec l = true) ∧ ∀ l, lane r.exec l = true → (r.vreg v).at l = w

/-- The value of an SY word's immediate that a prefix may widen or replace by a register (R207). -/
def State.SyValue (s : State) (i : BitVec 16) (v : Word) : Prop :=
  (s.gang.ext = none ∧ v = i.setWidth 32) ∨
  (∃ h : BitVec 16, s.gang.ext = some (h.setWidth 25) ∧ v = h ++ i) ∨
  (∃ c : BitVec 5, s.gang.ext = some ((c.setWidth 25) ||| 0x1000000) ∧ i = 0 ∧ v = s.r.sreg c)

end Sys2Proof.Machine
end

