-- ==== Sys2Proof/WellFormed.lean ====
section
/-! DEFINITION. Which instruction terms are well formed: what an encoding must hold beside its field widths
(R169, R170, R174, R178, R234, R239, R250).  Whether an EXT stands before an instruction is the machine's to
check. -/

namespace Sys2Proof

/-- A selector that names a source (R170). -/
def isSource (o : BitVec 7) : Bool := decide (o.toNat < 0x7D)

/-- A selector that can be a destination (R170). -/
def isDest (o : BitVec 7) : Bool := decide (o.toNat ≤ 0x70)

/-- A memory form: no offset register stands when N is 1, and the register group fits the window (R234). -/
def meForm (v : BitVec 6) (k : Nat) (o : BitVec 6) (n : BitVec 1) : Bool := (n != 1 || o == 0) && decide (v.toNat + k ≤ 64)

/-- The term is well formed.  Events take any parties: one whose conditions fail changes nothing. -/
def Instr.wf : Instr → Bool
  | .iaAdd d a b | .iaSub d a b | .iaMullo d a b | .iaMulhi d a b | .iaMulhin d a b | .iaMin d a b
  | .iaMax d a b | .iaMinn d a b | .iaMaxn d a b | .iaAdds d a b | .iaAddsn d a b | .iaSubs d a b
  | .iaSubsn d a b | .iaAbsdiff d a b | .ilAnd d a b | .ilOr d a b | .ilXor d a b | .ilAndn d a b | .ilOrn d a b
  | .ilShl d a b | .ilShr d a b | .ilSra d a b | .ilRotl d a b | .ilBfe d a b | .faAdd d a b | .faSub d a b
  | .faMul d a b | .faFmac d a b | .faFnmac d a b | .faMin d a b | .faMax d a b | .faCopysign d a b
  | .fhAdd d a b | .fhSub d a b | .fhMul d a b | .fhFmac d a b | .fhMin d a b | .fhMax d a b | .fhPk d a b
  | .cvH2f d a b | .cvB2f d a b | .cvPk8 d a b | .cvPk4 d a b | .cvUp8 d a b | .cvUp4 d a b | .sel d a b _
  | .xlShuf d a b | .xlShx d a b | .xlBcast d a b | .dpDot8f d a b | .dpDot8i d a b | .dpDot4f d a b
  | .dpDot4i d a b | .dpDot2 d a b => isDest d && isSource a && isSource b
  | .ilPopc d a | .ilClz d a | .ilCtz d a | .ilBrev d a | .faAbs d a | .faNeg d a | .fxRcp d a | .fxRsqrt d a
  | .fxSqrt d a | .fxExp2 d a | .fxLog2 d a | .fxSin d a | .fxCos d a | .fxTanh d a | .fxAct d a | .fxFloor d a
  | .fxCeil d a | .fxRint d a | .fxTrunc d a | .fxFract d a | .fxClass d a | .cvI2f d a | .cvN2f d a
  | .cvF2i d a | .cvF2n d a | .cvF2h d a | .cvF2b d a | .xlRdf d a | .xlRdl d a | .xlRadd d a | .xlRmin d a
  | .xlRmax d a | .xlFradd d a | .xlScan d a | .shpTag d a | .shpExpand d a | .shpAff d a | .shpUni d a => isDest d && isSource a
  | .iaiAddi _ _ _ | .iaiMuli _ _ _ | .iaiAndi _ _ _ | .iaiOri _ _ _ | .iaiXori _ _ _ | .iaiShli _ _ _
  | .iaiShri _ _ _ | .iaiSrai _ _ _ | .xlElect _ | .saAdd _ _ _ | .saSub _ _ _ | .saMul _ _ _ | .saMin _ _ _
  | .saMax _ _ _ | .saMinn _ _ _ | .saMaxn _ _ _ | .saAnd _ _ _ | .saOr _ _ _ | .saXor _ _ _ | .saAndn _ _ _
  | .saShl _ _ _ | .saShr _ _ _ | .saSra _ _ _ | .saPopc _ _ | .saFfs _ _ | .saiAddi _ _ _ | .saiAndi _ _ _
  | .saiOri _ _ _ | .saiXori _ _ _ | .saiShli _ _ _ | .saiShri _ _ _ | .saiSrai _ _ _ | .saiLui _ _
  | .maskSave _ | .maskRest _ | .maskSet _ _ | .maskAnd _ | .maskAndn _ | .maskOr _ | .maskFull | .brAl _
  | .brZ _ _ | .brNz _ _ | .brXz _ | .brXnz _ | .brVz _ _ | .brVnz _ _ | .jmpRet | .jmpJx _ | .jmpJtab _ _ _
  | .jmpJv _ | .ctlNop | .ctlHalt | .ctlYield | .ctlWait _ _ | .ctlRefresh | .ctlIvl _ | .ctlBrk _ | .ctlWdog _
  | .smLdw _ _ _ | .smStw _ _ _ | .syncBar _ | .syncCmtmx _ | .syncCmtcp _ | .syncTlrd _ _ | .syncIrrev
  | .mxZero _ _ | .mxMma _ _ _ _ | .mxMms _ _ _ _ | .mxMmx _ _ _ _ | .mxMmg _ _ _ _ _ | .mxSt _ _ _ _ _ _
  | .cpG2s _ _ _ _ | .cpS2g _ _ _ _ | .cpG2g _ _ _ _ | .cpG2o _ _ _ _ _ | .cpS2o _ _ _ _ _ | .cpGat _ _ _ _ _
  | .cpMeta _ _ _ _ | .cpAct _ _ | .sqBind _ _ _ | .sqBindFree _ | .sqFork _ _ _ | .sqSave _ _ _ | .sqRoll _ _
  | .sqRng _ _ | .sqAcc _ _ _ | .sqEmit _ _ | .sqRel _ _ | .sqVeto _ _ | .gxBind _ _ _ | .gxMask _ _ _
  | .gxPeek _ _ | .gxStep _ _ | .mapFork _ _ _ _ | .mapSet _ _ _ _ | .mapSwap _ _ _ | .mapDrop _ _
  | .mapRef _ _ _ _ | .lnchGrid _ _ _ | .lnchSig _ | .lnchGrant _ _ _ _ | .sysSrd _ _ | .sysSwr _ _
  | .sysTrap _ _ | .sysEret | .ext _ | .cIadd _ _ | .cIsub _ _ | .cImul _ _ | .cAnd _ _ | .cOr _ _ | .cXor _ _
  | .cShl _ _ | .cShr _ _ | .cSra _ _ | .cFadd _ _ | .cFsub _ _ | .cFmul _ _ | .cFmax _ _ | .cFmin _ _
  | .cIaddi _ _ | .wdog _ | .holderSliceWrite _ | .lineInvalidation _ _ | .lineMigration _ _ | .l2Eviction _
  | .loadCompletion _ | .pendingCommandStart _ | .matrixPass _ | .engineOperationComplete _ _ | .runFailure _ _
  | .spill _ | .refill _ | .copyOnWrite _ _ _ | .generationRelease _ _ | .gangRetire _ | .workgroupPlacement _
  | .promotion _ | .sliceEnd _ | .graceWindowExpiry _ | .workgroupResume _ | .grantBatchClose _
  | .grantTimeout _ | .grantServiceLaunch _ | .grantRegistrationWrite _ _ _ _ | .grantUnregister _ | .kick _ _ _
  | .rst _ _ | .registerWrite _ _ _ | .grid _ _ | .graph _ _ | .waittl _ _ | .signal _ _ | .mapopFork _ _
  | .mapopSetSwap _ _ | .mapopDrop _ _ | .caskkick _ _ | .checkpoint _ | .restore _ | .erase _ | .rcons _ _ _
  | .rctlEnable _ _ | .coalesceTimerExpiry _ _ | .msixUnmask _ _ | .hostPortRead _ _ _ | .hostPortWrite _ _ _
  | .hostReadCompletion _ | .atsCompletion _ _ _ _ _ | .priResponse _ _ | .priLimitExpiry _
  | .atsInvalidationRequest _ _ _ _ | .atsInvalidationComplete _ | .replicaRequest _ _ | .replicaArrival _
  | .handOver _ _ | .minimumResidencyExpiry _ | .peerWaitTimeout _ | .linkFailure _ | .uncorrectableError _
  | .correctableError _ _ | .gangStateError _ _ | .carve | .dissolve | .start | .attest | .mailboxBadcmd
  | .pwrcap _ | .clockStep _ _ | .thermalShutdown | .spareCoreReplacement _ | .secureBoot _ _ _
  | .functionReset _ | .badEntry _ _ => true
  | .cmpFeq _ a b | .cmpFne _ a b | .cmpFlt _ a b | .cmpFle _ a b | .cmpFgt _ a b | .cmpFge _ a b
  | .cmpFun _ a b | .cmpFord _ a b | .cmpIeq _ a b | .cmpIne _ a b | .cmpIlt _ a b | .cmpIle _ a b
  | .cmpNlt _ a b | .cmpNle _ a b | .cmpTst _ a b | .xlWrl _ a b => isSource a && isSource b
  | .xlBallot _ a | .xlVgrp _ a | .shpCmpr _ a => isSource a
  | .jmpCall k _ | .jmpCallx k _ => k != 0
  | .ldB v _ o n _ | .ldBn v _ o n _ | .ldH v _ o n _ | .ldHn v _ o n _ | .ldW v _ o n _ | .stB v _ o n _
  | .stH v _ o n _ | .stW v _ o n _ | .atAdd v _ o n _ | .atMin v _ o n _ | .atMax v _ o n _ | .atMinn v _ o n _
  | .atMaxn v _ o n _ | .atAnd v _ o n _ | .atOr v _ o n _ | .atXor v _ o n _ | .atXchg v _ o n _
  | .atInc v _ o n _ | .atFadd v _ o n _ | .atXadd v _ o n _ | .atXrd v _ o n _ | .atXclr v _ o n _
  | .spmLdw v _ o n _ | .spmStw v _ o n _ | .spmAdd v _ o n _ | .spmMin v _ o n _ | .spmMax v _ o n _
  | .spmOr v _ o n _ | .spmXchg v _ o n _ | .spmInc v _ o n _ => meForm v 1 o n
  | .ldD v _ o n _ | .stD v _ o n _ | .atCas v _ o n _ | .spmLdd v _ o n _ | .spmStd v _ o n _
  | .spmCas v _ o n _ => meForm v 2 o n
  | .ldQ v _ o n _ | .stQ v _ o n _ | .spmLdq v _ o n _ | .spmStq v _ o n _ => meForm v 4 o n
  | .smLdd d _ _ | .smStd d _ _ => d != 31
  | .mxClaim _ k | .mxRel _ k => k != 3
  | .cMov d s => d != 0 || s != 0

end Sys2Proof
end

