-- ==== Sys2Proof/Certificates/Slice0/Obligations.lean ====
section
/-! DEFINITION. The statements for the provers. -/

open Sys2Proof Sys2Proof.Machine

/-! ### Scalar instructions -/

/-- R198, the table: each function of `sa` writes sD with its value and retires; nothing else changes. -/
def Claims.ScalarResults : Prop :=
  ∀ (s : State) (d a b : BitVec 5), s.gang.ext = none →
    let x := s.r.sreg a
    let y := s.r.sreg b
    let gives := fun (i : Instr) (v : Word) => s.Writes i (s.r.setS d v)
    gives (.saAdd d a b) (x + y) ∧ gives (.saSub d a b) (x - y) ∧ gives (.saMul d a b) (x * y)
    ∧ gives (.saMin d a b) (if x.toInt ≤ y.toInt then x else y) ∧ gives (.saMax d a b) (if x.toInt ≤ y.toInt then y else x)
    ∧ gives (.saMinn d a b) (if x.toNat ≤ y.toNat then x else y) ∧ gives (.saMaxn d a b) (if x.toNat ≤ y.toNat then y else x)
    ∧ gives (.saAnd d a b) (x &&& y) ∧ gives (.saOr d a b) (x ||| y) ∧ gives (.saXor d a b) (x ^^^ y)
    ∧ gives (.saAndn d a b) (x &&& ~~~y)
    ∧ gives (.saShl d a b) (x <<< y.toNat) ∧ gives (.saShr d a b) (x >>> y.toNat) ∧ gives (.saSra d a b) (x.sshiftRight y.toNat)
    ∧ gives (.saPopc d a) (BitVec.ofNat 32 ((List.range 32).filter (fun i => x.getLsbD i)).length)
    ∧ gives (.saFfs d a) (BitVec.ofNat 32 (((List.range 32).find? (fun i => x.getLsbD i)).getD 32))

/-- R198: each function of `sa` writes sD with the value of the table, its sources read before the write; after a prefix
each is ILLOP. -/
def Obligations.ScalarArithmetic : Prop :=
  Claims.ScalarResults ∧ ∀ (s : State) (d a b : BitVec 5), s.gang.ext ≠ none → s.quiet = true →
    ∀ i ∈ [Instr.saAdd d a b, .saSub d a b, .saMul d a b, .saMin d a b, .saMax d a b, .saMinn d a b, .saMaxn d a b, .saAnd d a b,
      .saOr d a b, .saXor d a b, .saAndn d a b, .saShl d a b, .saShr d a b, .saSra d a b, .saPopc d a, .saFfs d a],
      s.Raises i 4 tcILLOP s.r.exec 0 0

/-- R199, the table: each function of `sai` writes sD from sA and the immediate, which a prefix may supply; a shift by
more than 31 is ILLOP. -/
def Claims.ImmediateResults : Prop :=
  ∀ (s : State) (d a : BitVec 5) (i : BitVec 12) (v : Word), s.Immediate i v →
    let x := s.r.sreg a
    let gives := fun (c : Instr) (w : Word) => s.Writes c (s.r.setS d w)
    gives (.saiAddi d a i) (x + v) ∧ gives (.saiAndi d a i) (x &&& v) ∧ gives (.saiOri d a i) (x ||| v)
    ∧ gives (.saiXori d a i) (x ^^^ v) ∧ gives (.saiLui d i) (v <<< 7)
    ∧ (v.toNat < 32 → gives (.saiShli d a i) (x <<< v.toNat) ∧ gives (.saiShri d a i) (x >>> v.toNat)
        ∧ gives (.saiSrai d a i) (x.sshiftRight v.toNat))
    ∧ (32 ≤ v.toNat → s.quiet = true → ∀ c ∈ [Instr.saiShli d a i, .saiShri d a i, .saiSrai d a i], s.Raises c 4 tcILLOP 0 0 0)

/-- R199: each function of `sai` writes sD from sA and the immediate, which a prefix may supply; then the field must be
0. -/
def Obligations.ScalarImmediates : Prop :=
  Claims.ImmediateResults ∧ ∀ (s : State) (d a : BitVec 5) (i : BitVec 12), s.gang.ext ≠ none → i ≠ 0 → s.quiet = true →
    ∀ c ∈ [Instr.saiAddi d a i, .saiAndi d a i, .saiOri d a i, .saiXori d a i, .saiShli d a i, .saiShri d a i, .saiSrai d a i,
      .saiLui d i], s.Raises c 4 tcILLOP s.r.exec 0 0

/-- R200: the `mask` instructions write `exec`, ANDed with `launched`, or `fmt`, or save both. -/
def Obligations.MaskInstructions : Prop :=
  ∀ (s : State) (x : BitVec 5), s.gang.ext = none →
    let m := s.gang.launched
    let e := s.r.exec
    let v := s.r.sreg x
    (x ≠ 31 → s.Writes (.maskSave x) ((s.r.setS x e).setS (x + 1) s.r.fmt)
      ∧ s.Writes (.maskRest x) { s.r with exec := v &&& m, fmt := (s.r.sreg (x + 1)) &&& 0xFFFF })
    ∧ s.Writes (.maskSet x 0) { s.r with exec := v &&& m } ∧ s.Writes (.maskSet x 1) { s.r with fmt := v &&& 0xFFFF }
    ∧ s.Writes (.maskAnd x) { s.r with exec := e &&& v &&& m } ∧ s.Writes (.maskAndn x) { s.r with exec := e &&& ~~~v &&& m }
    ∧ s.Writes (.maskOr x) { s.r with exec := (e ||| v) &&& m } ∧ s.Writes .maskFull { s.r with exec := m }

/-! ### Branches, calls and jumps -/

/-- R201: a branch goes to its target when its condition holds and to the next instruction otherwise; a uniform
branch falls through with no lane active, and raises NONUNI, naming them, when active lanes differ from the lowest. -/
def Obligations.Branches : Prop :=
  ∀ (s : State) (x : BitVec 5) (o : BitVec 17) (t : Va), s.Target o t →
    let goes := fun (i : Instr) (c : Bool) => s.Runs i (fun u => s.Retires u (if c then t else s.nextPc 4) s.gang s.r)
    let v : BitVec 6 := x.setWidth 6
    goes (.brAl o) true ∧ goes (.brZ x o) (s.r.sreg x == 0) ∧ goes (.brNz x o) (s.r.sreg x != 0)
    ∧ goes (.brXz o) (s.r.exec == 0) ∧ goes (.brXnz o) (s.r.exec != 0)
    ∧ (s.r.exec = 0 → goes (.brVz x o) false ∧ goes (.brVnz x o) false)
    ∧ (∀ w, s.r.Common v w → goes (.brVz x o) (w == 0) ∧ goes (.brVnz x o) (w != 0))
    ∧ (∀ l m, lowest s.r.exec = some l → m ≠ 0 → s.quiet = true →
        (∀ j, lane m j = (lane s.r.exec j && (s.r.vreg v).at j != (s.r.vreg v).at l)) →
        s.Raises (.brVz x o) 4 tcNONUNI m 0 0 ∧ s.Raises (.brVnz x o) 4 tcNONUNI m 0 0)

/-- A window that slides up by 8K: the registers below it, and its registers with fresh ones at the top. -/
def Claims.slidUp (r : Regs) (k : Nat) (ret : Va) : Regs :=
  { r with
    links := { ret := ret, k := k } :: r.links
    below := (r.win.toList.take (8 * k)).reverse ++ r.below
    win := tab (fun i => (r.win.toList[i.val + 8 * k]?).getD (.u 0)) }

/-- A window that slides back by 8K. -/
def Claims.slidDown (r : Regs) (k : Nat) : Regs :=
  { r with
    links := r.links.tail
    below := r.below.drop (8 * k)
    win := tab (fun i => if i.val < 8 * k then (r.below[8 * k - 1 - i.val]?).getD (.u 0)
      else (r.win.toList[i.val - 8 * k]?).getD (.u 0)) }

/-- R27, R202, R204: a call whose window fits the quota pushes its link, slides the window up and goes to its target;
at the call-depth limit it raises STKOVF; a return from a window whose caller's blocks are resident undoes both; at
call depth 0 a return is ILLOP. -/
def Obligations.CallsAndReturns : Prop :=
  ∀ (s : State) (k : BitVec 3) (o : BitVec 19) (x : BitVec 5) (t : Va), k ≠ 0 →
    (s.r.below.length + 8 * k.toNat + 64 - s.grid.k.regs) / 8 ≤ s.gang.spilled →
    (s.r.links.length < s.r.calllim.toNat →
      (s.Target o t → t.toNat % 2 = 0 → s.Runs (.jmpCall k o) (fun u =>
        s.Retires u t s.gang (Claims.slidUp s.r k.toNat (s.wordPc + 4))))
      ∧ (s.gang.ext = none → t = (s.r.pc &&& 0xFFFF00000000) ||| (s.r.sreg x).setWidth 48 → t.toNat % 2 = 0 →
        s.Runs (.jmpCallx k x) (fun u => s.Retires u t s.gang (Claims.slidUp s.r k.toNat (s.wordPc + 4)))))
    ∧ (s.r.calllim.toNat ≤ s.r.links.length → s.quiet = true → s.Raises (.jmpCall k o) 4 tcSTKOVF 0 0 1)
    ∧ (∀ y rest, s.r.links = y :: rest → s.gang.ext = none → 8 * y.k ≤ s.r.below.length → y.k ≤ 7 →
        s.gang.spilled ≤ (s.r.below.length - 8 * y.k) / 8 →
        s.Runs .jmpRet (fun u => s.Retires u y.ret s.gang (Claims.slidDown s.r y.k)))
    ∧ (s.r.links = [] → s.gang.ext = none → s.quiet = true → s.Raises .jmpRet 4 tcILLOP 0 0 0)

/-- R203, R205: a computed jump keeps bits [47:32] of the PC and takes the rest from its register, ALIGN when bit 0 is
set; `jmp.jv` takes the common value and falls through with no lane active; `jmp.jtab` adds the table's signed entry to
the table's address, and raises JTABR when the index is not below the length. -/
def Obligations.IndirectJumps : Prop :=
  ∀ (s : State) (x y : BitVec 5) (i : BitVec 9), s.gang.ext = none →
    let near := fun (w : Word) => (s.r.pc &&& 0xFFFF00000000) ||| w.setWidth 48
    let goes := fun (c : Instr) (t : Va) => s.Runs c (fun u => s.Retires u t s.gang s.r)
    let v : BitVec 6 := x.setWidth 6
    ((s.r.sreg x).toNat % 2 = 0 → goes (.jmpJx x) (near (s.r.sreg x)))
    ∧ ((s.r.sreg x).toNat % 2 = 1 → s.quiet = true →
        s.Raises (.jmpJx x) 4 tcALIGN 0 (near (s.r.sreg x)).toNat 0)
    ∧ (∀ w, s.r.Common v w → w.toNat % 2 = 0 → goes (.jmpJv x) (near w))
    ∧ (s.r.exec = 0 → goes (.jmpJv x) (s.nextPc 4))
    ∧ ((s.r.sreg y).toNat ≤ (s.r.sreg x).toNat → s.quiet = true →
        s.Raises (.jmpJtab x y i) 4 tcJTABR s.r.exec 0 (s.r.sreg x).toNat)
    ∧ (∀ (tab ea t : Va) (pa : Nat) (n : Bool) (e : Word), (s.r.sreg x).toNat < (s.r.sreg y).toNat →
        tab = (s.r.pc &&& 0xFFFFFFFFFFFC) + (i.signExtend 48) <<< 2 → ea = tab + (s.r.sreg x).setWidth 48 <<< 2 →
        s.needsRefresh false true ea.toNat = false → s.gxlate false true ea.toNat = .ok (.dram pa) n → s.old = [] →
        (∀ j, j < 4 → e.extractLsb' (8 * j) 8 = memRead s.mem (pa + j)) →
        t = tab + e.signExtend 48 → t.toNat % 2 = 0 → goes (.jmpJtab x y i) t)

/-! ### Control and synchronisation -/

/-- R175, R176, R206, R113: a prefix is kept for the instruction after it, with no boundary between them, and a second one is
ILLOP; `ctl.nop` has no effect; `ctl.yield` gives up the stream's next choice; `ctl.refresh` pins the current generation;
`ctl.halt` ends the gang, at trap class too. -/
def Obligations.ControlInstructions : Prop :=
  (∀ (s : State) (p : BitVec 25), (s.gang.ext = none → s.Runs (.ext p) (fun t =>
      s.OnlyGang t ∧ t.clk = s.clk ∧ t.gang = { s.gang with ext := some p }))
    ∧ (s.gang.ext ≠ none → s.quiet = true → s.Raises (.ext p) 4 tcILLOP s.r.exec 0 0))
  ∧ ∀ (s : State), s.gang.ext = none →
    s.Writes .ctlNop s.r
    ∧ s.Runs .ctlYield (fun t => s.Retires t (s.nextPc 4) { s.gang with yielded := true } s.r)
    ∧ (s.quiet = true → s.Runs .ctlRefresh (fun t => s.SameMem t ∧ (∀ k, k ≠ s.cur → t.gangAt k = s.gangAt k)
        ∧ ({ s.gang with gen := s.myAsid.cur.num } : Gang).Moved t.gang (s.nextPc 4) s.r))
    ∧ (s.quiet = true → s.gang.failMx = none → s.gang.failCp = none →
        s.Runs .ctlHalt (fun t => s.OnlyGang t ∧ ∃ g, s.gang.Moved g (s.nextPc 4) s.r
          ∧ t.gang = { g with st := .halted, trap := false }))

/-- R103, R207: a wait whose handle names a counter that has reached the value goes on; otherwise the gang waits, or runs on
speculatively with the wait in its order; one on the gang's own context beyond its last commit is ILLOP with the value. -/
def Claims.Waits : Prop :=
  ∀ (s : State) (h : BitVec 5) (i : BitVec 16) (n : Word) (c : BitVec 64), s.SyValue i n →
    s.counterOf (s.r.sreg h) = some c →
    let waits := if (c.setWidth 32 - n).toNat < 2 ^ 31 then s.Writes (.ctlWait h i) s.r
      else if s.specWaits = true ∧ s.gang.level = 0 then s.Runs (.ctlWait h i) (fun t => s.OnlyGang t ∧ ∃ w : PendWrite,
        w.space = .wait (s.r.sreg h) n ∧ w.writes = [] ∧ w.seq = s.gang.seq ∧ w.before = s.r ∧ w.after = t.r
        ∧ ({ s.gang with stores := s.gang.stores ++ [w] } : Gang).Moved t.gang (s.nextPc 4) s.r)
      else s.Runs (.ctlWait h i) (fun t => s.OnlyGang t ∧ t.gang = { s.gang with ext := none, wait := .timeline })
    ((s.r.sreg h).toNat % 2 ^ 28 ≠ s.gang.slot ∨ 2 ^ 29 ≤ (s.r.sreg h).toNat → waits)
    ∧ ∀ copy : Bool, (s.r.sreg h).toNat = s.gang.slot + (if copy then 2 ^ 28 else 0) → s.gang.slot < 2 ^ 28 →
        let last : Word := BitVec.ofNat 32 (if copy then s.r.commCp else s.r.commMx)
        let ahead := (n - last).toNat
        (1 ≤ ahead ∧ ahead < 2 ^ 31 → s.quiet = true → s.Raises (.ctlWait h i) 4 tcILLOP 0 0 n.toNat)
        ∧ (ahead = 0 ∨ 2 ^ 31 ≤ ahead → (if copy then s.gang.failCp else s.gang.failMx) = none → waits)

/-- R25, R26, R208: `ctl.wdog` writes WDOG and the count restarts with an empty window. -/
def Claims.WatchdogWrite : Prop :=
  ∀ (s : State) (i : BitVec 16) (v : Word), s.SyValue i v →
    let w : Word := if s.gang.ext.isSome then v else if i = 0 then 0
      else 0x80000000 ||| (i.extractLsb' 12 4).setWidth 32 <<< 24 ||| (i.extractLsb' 0 12).setWidth 32
    s.Runs (.ctlWdog i) (fun t => s.OnlyGang t ∧ t.r.wdCount = 0 ∧ t.r.wdWin = none
      ∧ s.gang.Moved t.gang (s.nextPc 4) { s.r with wdog := w &&& 0x8FFFFFFF })

/-- R26: the watchdog's count and window after an instruction that transfers to `jump`, or nowhere: a taken transfer to the
word's own address or below makes the window from the target to the word; inside the window the count goes up by one, and
the watchdog is due when it reaches the limit; outside it the count is 0 and the window empty. At trap class nothing
changes. -/
def Claims.Counted (s t : State) (jump : Option Va) : Prop :=
  let word := if s.gang.ext = none then s.r.pc else s.r.pc + 4
  let limit := s.r.wdog.toNat % 2 ^ 24 * 2 ^ (s.r.wdog.toNat / 2 ^ 24 % 16)
  (s.gang.trap = true → t.r.wdWin = s.r.wdWin ∧ t.r.wdCount = s.r.wdCount ∧ t.r.wdDue = s.r.wdDue)
  ∧ (s.gang.trap = false → ∀ win, win = (match jump with
      | some a => if a.toNat ≤ word.toNat then some (a, word) else s.r.wdWin
      | none => s.r.wdWin) →
    (∀ w : Va × Va, win = some w → w.1.toNat ≤ s.r.pc.toNat → s.r.pc.toNat ≤ w.2.toNat →
      t.r.wdWin = win ∧ t.r.wdCount = s.r.wdCount + 1
      ∧ (t.r.wdDue = true ↔ s.r.wdog.getLsbD 31 = true ∧ limit ≠ 0 ∧ s.r.wdCount + 1 = limit))
    ∧ ((∀ w : Va × Va, win = some w → s.r.pc.toNat < w.1.toNat ∨ w.2.toNat < s.r.pc.toNat) →
      t.r.wdWin = none ∧ t.r.wdCount = 0 ∧ t.r.wdDue = false))

/-- R25, R26: what each retired instruction does to the watchdog, for branches, calls, returns, jumps and instructions that
go on; a write of WDOG starts the count again. -/
def Claims.WatchdogCounts : Prop :=
  ∀ (s : State) (x y : BitVec 5) (o : BitVec 17) (c : BitVec 19) (k : BitVec 3) (v : BitVec 6) (a b : BitVec 7) (t u : Va),
    s.Target o t → s.Target c u →
    let counts := fun (i : Instr) (jump : Option Va) => s.Runs i (fun q => Claims.Counted s q jump)
    let on := fun (p : Bool) => if p then some t else none
    counts (.brAl o) (some t) ∧ counts (.brZ x o) (on (s.r.sreg x == 0)) ∧ counts (.brNz x o) (on (s.r.sreg x != 0))
    ∧ counts (.brXz o) (on (s.r.exec == 0)) ∧ counts (.brXnz o) (on (s.r.exec != 0))
    ∧ (∀ w, s.r.Common (x.setWidth 6) w → counts (.brVz x o) (on (w == 0)) ∧ counts (.brVnz x o) (on (w != 0)))
    ∧ (k ≠ 0 → (s.r.below.length + 8 * k.toNat + 64 - s.grid.k.regs) / 8 ≤ s.gang.spilled →
        s.r.links.length < s.r.calllim.toNat → u.toNat % 2 = 0 → counts (.jmpCall k c) (some u))
    ∧ (s.gang.ext = none →
      (∀ z rest, s.r.links = z :: rest → s.gang.spilled ≤ (s.r.below.length - 8 * z.k) / 8 → counts .jmpRet (some z.ret))
      ∧ ((s.r.sreg x).toNat % 2 = 0 → counts (.jmpJx x) (some ((s.r.pc &&& 0xFFFF00000000) ||| (s.r.sreg x).setWidth 48)))
      ∧ counts .ctlNop none ∧ counts (.saAdd x x y) none
      ∧ s.Runs (.sysSwr x 0x090) (fun q => q.r.wdCount = 0 ∧ q.r.wdWin = none ∧ q.r.wdog = (s.r.sreg x) &&& 0x8FFFFFFF))
    ∧ (s.Fits (v.setWidth 7) [a, b] → counts (.iaAdd (v.setWidth 7) a b) none)

/-- R25, R26, R103, R207, R208: `ctl.wait`, `ctl.wdog`, and the watchdog's count. Where the spec leaves it open, this is the
model's choice of assumptions 55 and 68. -/
def Obligations.WaitsAndWatchdog : Prop := Claims.Waits ∧ Claims.WatchdogWrite ∧ Claims.WatchdogCounts

/-- R41, R91, R162: `ctl.ivl` makes its interval current, at level 0, with a flashback point at itself that is valid when
the interval saves no more than 16 registers; an interval the kernel does not have, or one whose working set has more than 24
registers, is ILLOP. That the entry is read as an engine reads, with no refresh and no pin, is the model's choice of
assumption 72. -/
def Obligations.Intervals : Prop :=
  ∀ (s : State) (i : BitVec 16), s.gang.ext = none → s.gang.recipe = none → s.gang.trap = false → s.quiet = true →
    (∀ (bytes : List Byte), i.toNat < s.grid.k.ivlN →
      s.eread s.leafNo s.gang.asid ((s.grid.k.ivlVa + 24 * i.toNat) % 2 ^ 48) 24 (some s.cur) = .ok bytes →
      (24 < popBits 64 (leNat (bytes.take 8)) → s.Raises (.ctlIvl i) 4 tcILLOP 0 0 0)
      ∧ (popBits 64 (leNat (bytes.take 8)) ≤ 24 → s.gang.forward = none →
      let save := leNat ((bytes.drop 8).take 8)
      s.Runs (.ctlIvl i) (fun t => s.OnlyGang t ∧
        ({ s.gang with
            ivl := i.toNat, level := 0, rolls := []
            flash := { valid := decide (popBits 64 save ≤ 16), regs := s.r, save := save, seq := s.gang.seq
                       recipe := leNat ((bytes.drop 16).take 4), tries := 0 } } :
          Gang).Moved t.gang (s.nextPc 4) s.r)))
    ∧ (s.grid.k.ivlN ≤ i.toNat → s.Raises (.ctlIvl i) 4 tcILLOP 0 0 0)

/-- R22, R162, R209: an arrival counts toward the barrier's generation, or toward the next one when the gang has arrived in
this one already. With every gang of the workgroup that has not retired arrived, the next generation starts, with the
arrivals that were counted toward it, and the gang goes on; otherwise it waits. A gang that waits for a generation goes on
once it is over. -/
def Obligations.Barriers : Prop :=
  ∀ (s : State) (k : BitVec 2), s.gang.ext = none →
    (s.gang.wait = .none → s.quiet = true →
      let b := s.wg.bars[k.toNat]
      let me : Word := BitVec.ofNat 32 (2 ^ s.gang.slot)
      let arrived := b.arrived ||| me
      let lives := fun (g : Nat) => g ∈ s.wg.gangs ∧ (s.gangAt g).st ≠ .retired
      let all := ∀ g, lives g → arrived.getLsbD (s.gangAt g).slot = true
      let g0 : Gang := { s.gang with flash := { s.gang.flash with valid := false } }
      let leaves := fun (t : State) (c : Barrier) => s.SameMem t ∧ t.wg = { s.wg with bars := s.wg.bars.setIfInBounds k.toNat c }
      (s.gang.slot < 32 → b.arrived.getLsbD s.gang.slot = false →
        (all → (∃ g, lives g ∧ b.next.getLsbD (s.gangAt g).slot = false) → s.Runs (.syncBar k) (fun t =>
          leaves t { arrived := b.next, next := 0, gen := b.gen + 1 } ∧ g0.Moved t.gang (s.nextPc 4) s.r))
        ∧ (¬all → s.Runs (.syncBar k) (fun t =>
          leaves t { b with arrived := arrived } ∧ t.gang = { g0 with wait := .bar k.toNat b.gen })))
      ∧ (b.arrived.getLsbD s.gang.slot = true → ¬(∀ g, lives g → b.arrived.getLsbD (s.gangAt g).slot = true) →
        s.Runs (.syncBar k) (fun t =>
          leaves t { b with next := b.next ||| me } ∧ t.gang = { g0 with wait := .bar k.toNat (b.gen + 1) })))
    ∧ ∀ (j n : Nat) (b : Barrier), s.gang.wait = .bar j n → s.wg.bars[j]? = some b →
      if n < b.gen then s.Writes (.syncBar k) s.r
      else s.Runs (.syncBar k) (fun t => s.OnlyGang t ∧ t.gang = s.gang)

/-- R90: the commands in a gang's pending list: those of asynchronous engines and commits, and the synchronous instructions that
have their place among its events. -/
def Claims.InList (g : Gang) : Nat :=
  (g.cmds.filter (fun c => c.st == .pending)).length + (g.stores.filter (fun w => match w.space with
    | .cmd _ _ => true
    | _ => false)).length

/-- R90, R101, R102, R162, R210: a commit closes the batch being formed and gives its number's low half, ending the
flashback point's validity; with no command of the context outstanding its counter then stands at that number. Behind an
older event of its gang, or a command that has not started, it takes its place in the pending list instead, to write its
register when it starts. -/
def Claims.Commits : Prop :=
  ∀ (s : State) (d : BitVec 5), s.gang.ext = none →
    let g := s.gang
    let g0 : Gang := { g with flash := { g.flash with valid := false } }
    let later := fun (i : Instr) (copy : Bool) (n : Nat) (r : Regs) =>
      s.quiet = false ∨ (∃ c ∈ g.cmds, c.st = .pending) → Claims.InList g < 16 →
      n - g.counterNow copy < 2 ^ 31 → s.Runs i (fun t => s.Retires t (s.nextPc 4) { g with cmds := g.cmds ++ [{
        op := .commit d.toNat n g.trap, pc := s.r.pc, seq := g.seq, copy := copy, batch := n, after := t.r }] } r)
    (g.failMx = none →
      (s.quiet = true → g.cmds = [] → s.Runs (.syncCmtmx d) (fun t => s.OnlyGang t
        ∧ ({ g0 with tlMx := BitVec.ofNat 64 (s.r.commMx + 1), tlCp := BitVec.ofNat 64 s.r.commCp } : Gang).Moved t.gang (s.nextPc 4)
            { s.r.setS d (BitVec.ofNat 32 (s.r.commMx + 1)) with commMx := s.r.commMx + 1 }))
      ∧ later (.syncCmtmx d) false (s.r.commMx + 1) { s.r with commMx := s.r.commMx + 1 })
    ∧ (g.failCp = none →
      (s.quiet = true → g.cmds = [] → s.Runs (.syncCmtcp d) (fun t => s.OnlyGang t
        ∧ ({ g0 with tlMx := BitVec.ofNat 64 s.r.commMx, tlCp := BitVec.ofNat 64 (s.r.commCp + 1) } : Gang).Moved t.gang (s.nextPc 4)
            { s.r.setS d (BitVec.ofNat 32 (s.r.commCp + 1)) with commCp := s.r.commCp + 1 }))
      ∧ later (.syncCmtcp d) true (s.r.commCp + 1) { s.r with commCp := s.r.commCp + 1 })

/-- R89, R100, R210: `sync.tlrd` reads the counter its handle names into a pair; `sync.irrev` ends the flashback point and
has no other effect. -/
def Claims.TimelineReads : Prop :=
  ∀ (s : State) (d a : BitVec 5), s.gang.ext = none →
    let h := (s.r.sreg a).toNat
    let reads := fun (c : BitVec 64) => s.Writes (.syncTlrd d a) ((s.r.setS d (c.setWidth 32)).setS (d + 1) ((c >>> 32).setWidth 32))
    (d ≠ 31 →
      (∀ g, s.wg.gangs[h % 2 ^ 28]? = some g → (h / 2 ^ 28 = 0 → reads (s.gangAt g).tlMx) ∧ (h / 2 ^ 28 = 1 → reads (s.gangAt g).tlCp))
      ∧ (h / 2 ^ 28 = 2 → h % 2 ^ 28 < 64 → reads (tget ({} : Grant) s.grants (s.wg.core / 96 * 64 + h % 2 ^ 28)).counter)
      ∧ (h / 2 ^ 28 = 3 → h % 2 ^ 28 < 64 → reads (s.queueAt s.leafNo (h % 2 ^ 28)).tline)
      ∧ (h = 4 * 2 ^ 28 → reads s.leaf.reclaim) ∧ (h = 5 * 2 ^ 28 → reads s.leaf.caskTl)
      ∧ (6 ≤ h / 2 ^ 28 → s.quiet = true → s.Raises (.syncTlrd d a) 4 tcILLOP 0 0 0))
    ∧ (s.quiet = true → s.Runs .syncIrrev (fun t =>
        s.Retires t (s.nextPc 4) { s.gang with flash := { s.gang.flash with valid := false } } s.r))

/-- R100 to R102, R210: commits and counter reads. Where the spec leaves it open, this is the model's choice of assumption
48. -/
def Obligations.Timelines : Prop := Claims.Commits ∧ Claims.TimelineReads

/-! ### System registers and exceptions -/

/-- R39, R211: `sys.srd` writes sS with the register its number names; the low half of a 64-bit register latches its high
half for the next read of that; FEAT0 to FEAT3 fill a pair; a number that the table does not
have, within it or beyond it, is ILLOP. Where the spec leaves
it open, this is the model's choice of assumption 39. -/
def Obligations.SystemReads : Prop :=
  ∀ (s : State) (d : BitVec 5), s.gang.ext = none →
    let g := s.gang
    let r := s.r
    let nat := fun (n : Nat) => (BitVec.ofNat 32 n : Word)
    let reads := fun (n : BitVec 16) (v : Word) => s.Writes (.sysSrd d n) (r.setS d v)
    let latches := fun (n : BitVec 16) (v : Word) (q : Regs) => s.Writes (.sysSrd d n) (q.setS d v)
    reads 0x000 (nat g.slot) ∧ reads 0x001 (nat s.wg.x) ∧ reads 0x002 (nat s.wg.y) ∧ reads 0x003 (nat s.wg.z)
    ∧ reads 0x004 s.grid.id ∧ reads 0x005 (nat s.grid.depth) ∧ reads 0x006 (nat (s.wg.core % 96))
    ∧ reads 0x007 (nat (s.wg.core / 96)) ∧ reads 0x008 g.launched ∧ reads 0x010 r.fflags ∧ reads 0x011 r.fcount0
    ∧ reads 0x012 r.fcount1 ∧ reads 0x013 r.fcount2 ∧ reads 0x020 (nat (g.gen % 2 ^ 16 * 2 ^ 16 + g.asid))
    ∧ reads 0x021 (nat s.myAsid.cur.num) ∧ reads 0x030 (r.spbase.setWidth 32)
    ∧ reads 0x031 ((r.spbase >>> 32).setWidth 32) ∧ reads 0x032 (r.splim.setWidth 32)
    ∧ reads 0x033 ((r.splim >>> 32).setWidth 32) ∧ reads 0x034 (nat r.links.length) ∧ reads 0x035 r.calllim
    ∧ reads 0x040 (nat (g.ivl % 2 ^ 16 + if g.flash.valid then 2 ^ 31 else 0)) ∧ reads 0x070 (nat s.leafNo)
    ∧ reads 0x080 r.tfPc ∧ reads 0x081 r.tfExec ∧ reads 0x082 r.tfFmt ∧ reads 0x083 r.tfCode ∧ reads 0x084 r.tfLanes
    ∧ reads 0x087 r.tfInfo ∧ reads 0x090 r.wdog ∧ reads 0x0A0 (nat g.level) ∧ reads 0x0A1 (g.rollcnt + r.rollOff)
    ∧ reads 0x0B0 s.core.auditN
    ∧ latches 0x050 (g.tlMx.setWidth 32) { r with hiTlmx := some ((g.tlMx >>> 32).setWidth 32) }
    ∧ latches 0x051 (r.hiTlmx.getD ((g.tlMx >>> 32).setWidth 32)) { r with hiTlmx := none }
    ∧ latches 0x052 (g.tlCp.setWidth 32) { r with hiTlcp := some ((g.tlCp >>> 32).setWidth 32) }
    ∧ latches 0x053 (r.hiTlcp.getD ((g.tlCp >>> 32).setWidth 32)) { r with hiTlcp := none }
    ∧ latches 0x060 (s.clk.ref.setWidth 32) { r with hiClk := some ((s.clk.ref >>> 32).setWidth 32) }
    ∧ latches 0x061 (r.hiClk.getD ((s.clk.ref >>> 32).setWidth 32)) { r with hiClk := none }
    ∧ latches 0x085 (r.tfAddr.setWidth 32) { r with hiTfAddr := some ((r.tfAddr >>> 32).setWidth 32) }
    ∧ latches 0x086 (r.hiTfAddr.getD ((r.tfAddr >>> 32).setWidth 32)) { r with hiTfAddr := none }
    ∧ (d ≠ 31 → ∀ k : Fin 4, s.Writes (.sysSrd d (BitVec.ofNat 16 (0x71 + k.val)))
        ((r.setS d ((s.feat >>> (64 * k.val)).setWidth 32)).setS (d + 1) ((s.feat >>> (64 * k.val + 32)).setWidth 32)))
    ∧ (s.quiet = true → ∀ n : BitVec 16, n.toNat ∉ [0x000, 0x001, 0x002, 0x003, 0x004, 0x005, 0x006, 0x007, 0x008, 0x010, 0x011,
        0x012, 0x013, 0x020, 0x021, 0x030, 0x031, 0x032, 0x033, 0x034, 0x035, 0x040, 0x050, 0x051, 0x052, 0x053, 0x060, 0x061,
        0x070, 0x071, 0x072, 0x073, 0x074, 0x080, 0x081, 0x082, 0x083, 0x084, 0x085, 0x086, 0x087, 0x090, 0x0A0, 0x0A1, 0x0B0] →
      s.Raises (.sysSrd d n) 4 tcILLOP 0 0 0)
    ∧ (s.quiet = true → ∀ n ∈ [0x071, 0x072, 0x073, 0x074], s.Raises (.sysSrd 31 (BitVec.ofNat 16 n)) 4 tcILLOP 0 0 0)

/-- R37, R39, R211: `sys.swr` writes the register its number names, with the bits it stores; a spill register needs the
system flag and call depth 0; AUDITN, which belongs to the core, is clamped and needs the flag; a read-only register
is ILLOP, as is a number the table does not have, and one the kernel may not write is PRIV with its number. Where the spec leaves it open, this is the model's
choice of assumptions 39 and 48. -/
def Obligations.SystemWrites : Prop :=
  ∀ (s : State) (a : BitVec 5), s.gang.ext = none →
    let r := s.r
    let v := s.r.sreg a
    let writes := fun (n : BitVec 16) (q : Regs) => s.Writes (.sysSwr a n) q
    writes 0x010 { r with fflags := v &&& 0x3F3F } ∧ writes 0x011 { r with fcount0 := v } ∧ writes 0x012 { r with fcount1 := v }
    ∧ writes 0x013 { r with fcount2 := v } ∧ writes 0x035 { r with calllim := if v.toNat ≤ 1024 then v else 1024 }
    ∧ writes 0x080 { r with tfPc := v } ∧ writes 0x081 { r with tfExec := v } ∧ writes 0x082 { r with tfFmt := v }
    ∧ writes 0x083 { r with tfCode := v &&& 0xFF } ∧ writes 0x084 { r with tfLanes := v }
    ∧ writes 0x085 { r with tfAddr := (r.tfAddr &&& 0xFFFF00000000) ||| v.setWidth 48 }
    ∧ writes 0x086 { r with tfAddr := (r.tfAddr &&& 0xFFFFFFFF) ||| v.setWidth 48 <<< 32 }
    ∧ writes 0x087 { r with tfInfo := v } ∧ writes 0x090 { r with wdog := v &&& 0x8FFFFFFF }
    ∧ writes 0x0A1 { r with rollOff := v - s.gang.rollcnt }
    ∧ (s.grid.k.sys = true → r.links = [] →
        writes 0x030 { r with spbase := (r.spbase &&& 0xFFFF00000000) ||| (v &&& 0xFFFFFF80).setWidth 48 }
        ∧ writes 0x031 { r with spbase := (r.spbase &&& 0xFFFFFFFF) ||| v.setWidth 48 <<< 32 }
        ∧ writes 0x032 { r with splim := (r.splim &&& 0xFFFF00000000) ||| v.setWidth 48 }
        ∧ writes 0x033 { r with splim := (r.splim &&& 0xFFFFFFFF) ||| v.setWidth 48 <<< 32 })
    ∧ (s.quiet = true →
        (s.grid.k.sys = true → s.Runs (.sysSwr a 0x0B0) (fun t => s.SameMem t
            ∧ t.core.auditN = (if v.toNat < 16 then 16 else if 65536 < v.toNat then 65536 else v)
            ∧ ({ s.gang with flash := { s.gang.flash with valid := false } } : Gang).Moved t.gang (s.nextPc 4) r))
        ∧ (s.grid.k.sys = false → s.Raises (.sysSwr a 0x0B0) 4 tcPRIV 0 0 0x0B0
            ∧ (r.links = [] → ∀ n ∈ [0x030, 0x031, 0x032, 0x033], s.Raises (.sysSwr a (BitVec.ofNat 16 n)) 4 tcPRIV 0 0 n))
        ∧ (r.links ≠ [] → ∀ n ∈ [0x030, 0x031, 0x032, 0x033], s.Raises (.sysSwr a (BitVec.ofNat 16 n)) 4 tcILLOP 0 0 0)
        ∧ (∀ n : BitVec 16, n.toNat ∉ [0x010, 0x011, 0x012, 0x013, 0x030, 0x031, 0x032, 0x033, 0x035, 0x080, 0x081, 0x082, 0x083,
            0x084, 0x085, 0x086, 0x087, 0x090, 0x0A1, 0x0B0] → s.Raises (.sysSwr a n) 4 tcILLOP 0 0 0))

/-- R213: `sys.trap` waits until its gang is non-speculative and raises TRAPI, or GDEAD for selector 0x0D, with its
immediate in TF_INFO; any other selector is ILLOP. TF_PC holds the address of the word, or of its prefix; at trap class the
fault first raised goes to containment with the new code. -/
def Claims.Traps : Prop :=
  ∀ (s : State) (c : BitVec 5) (i : BitVec 16) (v : Word), s.SyValue i v →
    let code := if c = 0 then tcTRAPI else if c = 0x0D then tcGDEAD else tcILLOP
    let info := if c = 0 ∨ c = 0x0D then v else 0
    (s.quiet = false → exec (.sysTrap c i) s = s.stall)
    ∧ (s.quiet = true → s.Raises (.sysTrap c i) 4 code 0 0 info.toNat
      ∧ (s.gang.recipe = none → s.gang.trap = true → s.Runs (.sysTrap c i) (fun t =>
          t = (s.contain s.gang.fault code (faultClass s.gang.fault.code)).tick 1))
      ∧ ∀ h, s.gang.recipe = none → s.gang.trap = false → s.grid.k.handler = some h → s.Runs (.sysTrap c i) (fun t =>
          s.OnlyGang t ∧ t.gang.trap = true ∧ t.r.pc = h ∧ t.r.tfPc = s.r.pc.setWidth 32 ∧ t.r.tfCode = BitVec.ofNat 32 code
          ∧ t.r.tfLanes = 0 ∧ t.r.tfAddr = 0 ∧ t.r.tfInfo = info))

/-- R154: trap entry writes the trap frame, copies s28 to s31 into the trap shadow and sets them to the code, the lanes,
the address's low half and the information, enters trap class and goes to the handler; every other register, and all of
memory, stands. -/
def Claims.TrapTaken : Prop :=
  ∀ (s : State) (f : FaultRec) (h : Va), s.gang.recipe = none → s.gang.trap = false → s.grid.k.handler = some h →
    let g := s.gang
    let t := s.takeTrap f
    s.OnlyGang t ∧ t.gang = { g with
      trap := true, fault := f, ext := none, wait := .none, promoted := false, releasing := none
      shadow := #v[s.r.sreg 28, s.r.sreg 29, s.r.sreg 30, s.r.sreg 31]
      r := { (((s.r.setS 28 (BitVec.ofNat 32 f.code)).setS 29 f.lanes).setS 30 (f.addr.setWidth 32)).setS 31 f.info with
        pc := h, tfPc := f.pc.setWidth 32, tfExec := s.r.exec, tfFmt := s.r.fmt, tfCode := BitVec.ofNat 32 f.code
        tfLanes := f.lanes, tfAddr := f.addr, tfInfo := f.info } }

/-- R26, R153, R154, R155, R206: `ctl.brk` waits until its gang is non-speculative, completes, and raises BRK on the boundary
after it: TF_PC is the next PC, and TF_INFO the immediate, with bit 31 when the watchdog's count was reached on that boundary
as well. At trap class the fault first raised goes to containment with the code of BRK; with no handler BRK itself does. -/
def Claims.Breakpoints : Prop :=
  ∀ (s : State) (i : BitVec 16), s.gang.ext = none →
    let g := s.gang
    let due := g.trap = false ∧ (s.r.watch s.r.pc s.r.pc none).wdDue = true
    let info : Word := i.setWidth 32 ||| (if g.trap = false ∧ (s.r.watch s.r.pc s.r.pc none).wdDue = true then 0x80000000 else 0)
    let f : FaultRec := {
      code := 0x14, pc := s.r.pc + 4, info := info, exec := s.r.exec, fmt := s.r.fmt, resume := s.r.pc + 4 }
    -- the gang past the instruction, with the boundary's watchdog taken
    let q := if g.trap then s.r else s.r.watch s.r.pc s.r.pc none
    let u : State := (s.setGang { g with
      wait := .none, promoted := false, seq := g.seq + 1
      r := { s.r with pc := s.r.pc + 4, wdWin := q.wdWin, wdCount := q.wdCount, wdDue := false } }).tick 1
    (s.quiet = false → exec (.ctlBrk i) s = s.stall)
    ∧ (s.quiet = true → g.recipe = none →
      (∀ h, g.trap = false → s.grid.k.handler = some h → s.Runs (.ctlBrk i) (fun t => s.OnlyGang t
        ∧ (t.r.tfInfo.getLsbD 31 = true ↔ due)
        ∧ t.gang = { u.gang with
          trap := true, fault := f, releasing := none
          shadow := #v[s.r.sreg 28, s.r.sreg 29, s.r.sreg 30, s.r.sreg 31]
          r := { (((u.r.setS 28 0x14).setS 29 0).setS 30 0).setS 31 info with
            pc := h, tfPc := (s.r.pc + 4).setWidth 32, tfExec := s.r.exec, tfFmt := s.r.fmt, tfCode := 0x14, tfLanes := 0
            tfAddr := 0, tfInfo := info } }))
      ∧ (g.trap = true → s.Runs (.ctlBrk i) (fun t => t = u.contain g.fault 0x14 (faultClass g.fault.code)))
      ∧ (g.trap = false → s.grid.k.handler = none → s.Runs (.ctlBrk i) (fun t => t = u.contain f 0 (faultClass 0x14))))

/-- R206, R213: `sys.trap` and `ctl.brk`. That neither ends the flashback point is the model's choice of assumption 48. -/
def Obligations.SoftwareTraps : Prop := Claims.Traps ∧ Claims.Breakpoints

/-- R90, R101, R156, R163, R210, R214: `sys.eret` takes the PC's low half from TF_PC, `exec` ANDed with `launched` from TF_EXEC, `fmt` from
TF_FMT and s28 to s31 from the trap shadow, leaves trap class and restarts the watchdog's count. A gang whose pre-emption is
pending is then dealt with as any other: with a valid flashback point it stops there, else it may run forward. An odd TF_PC is
ALIGN, raised at trap class, so that the fault first raised goes to containment; outside trap class the instruction is ILLOP.
That a commit of the handler that has still to start writes none of s28 to s31 any more is the model's choice of assumption
96. -/
def Obligations.TrapReturn : Prop :=
  ∀ (s : State), s.gang.ext = none → s.quiet = true →
    let g : Gang := { s.gang with
      trap := false, wait := .none, recipe := none, promoted := false, seq := s.gang.seq + 1
      cmds := s.gang.cmds.map (fun c => match c.op with
        | .commit n num true => { c with op := .commit (if n < 28 then n else 32) num false }
        | _ => c)
      r := { (((s.r.setS 28 s.gang.shadow[0]).setS 29 s.gang.shadow[1]).setS 30 s.gang.shadow[2]).setS 31 s.gang.shadow[3] with
        pc := (s.r.pc &&& 0xFFFF00000000) ||| s.r.tfPc.setWidth 48
        exec := s.r.tfExec &&& s.gang.launched, fmt := s.r.tfFmt &&& 0xFFFF
        wdWin := none, wdCount := 0, wdDue := false } }
    (s.gang.trap = true → s.r.tfPc.toNat % 2 = 0 →
      (s.gang.forward = none → s.Runs .sysEret (fun t => s.OnlyGang t ∧ t.gang = g))
      ∧ (s.gang.forward ≠ none → s.gang.st = .live →
        (g.flash.valid = true → s.Runs .sysEret (fun t =>
          t = ((s.setGang (g.stopAtPoint (s.quota g))).tryFinish g.wg).tick 1
          ∧ (g.stopAtPoint (s.quota g)).st = .saved ∧ (g.stopAtPoint (s.quota g)).kind = 1
          ∧ (g.stopAtPoint (s.quota g)).forward = none ∧ (g.stopAtPoint (s.quota g)).r = g.flash.regs))
        ∧ (g.flash.valid = false → s.cur ∈ s.wg.gangs → s.Runs .sysEret (fun t => s.OnlyGang t ∧ t.gang = g))))
    ∧ (s.gang.trap = true → s.gang.recipe = none → s.r.tfPc.toNat % 2 = 1 →
        s.Runs .sysEret (fun t => t = (s.contain s.gang.fault tcALIGN (faultClass s.gang.fault.code)).tick 1))
    ∧ (s.gang.trap = false → s.Raises .sysEret 4 tcILLOP 0 0 0)

/-- R155, R164: a trap raised at trap class, or by a recipe, is not taken: it goes to containment, at trap class with the
fault first raised and the code of the new one. -/
def Claims.TrapNotTaken : Prop :=
  ∀ (s : State) (f : FaultRec),
    (s.gang.recipe ≠ none → s.takeTrap f = s.contain f 0 (faultClass f.code))
    ∧ (s.gang.recipe = none → s.gang.trap = true → s.takeTrap f = s.contain s.gang.fault f.code (faultClass s.gang.fault.code))
    ∧ (s.gang.recipe = none → s.gang.trap = false → s.grid.k.handler = none → s.takeTrap f = s.contain f 0 (faultClass f.code))

/-- R87, R154: a gang that holds a checkpoint, or a store not yet performed, does not take a precise trap yet. -/
def Claims.TrapWaits : Prop :=
  ∀ (s : State) (len code : Nat) (lanes : Word) (addr info : Nat), s.raise len code lanes addr info =
    if s.gang.ckpts = [] ∧ s.gang.stores = [] then .next ((s.takeTrap (s.faultAt len code lanes addr info)).tick 1) else s.stall

/-- R157: the grids above grid `k`, nearest first. -/
def Claims.Above (s : State) : Nat → List Nat → Prop
  | k, [] => (s.gridAt k).seed ≠ .child
  | k, j :: rest => (s.gridAt k).seed = .child ∧ (s.gridAt k).parent = j ∧ Claims.Above s j rest

/-- R158: the 32 bytes of an error record. -/
def Claims.Record (s : State) (f : FaultRec) (code hcode level action : Nat) (b : List Byte) : Prop :=
  let at' := fun (o n : Nat) => leNat ((b.drop o).take n)
  let g := s.gang
  b.length = 32 ∧ at' 0 1 = code ∧ at' 1 1 = level + 8 * action ∧ at' 2 1 = hcode ∧ at' 3 1 = g.slot
  ∧ at' 4 4 = (s.gridAt (s.wgAt g.wg).grid).id.toNat ∧ at' 8 8 = f.pc.toNat ∧ at' 0x10 6 = f.addr.toNat ∧ at' 0x16 2 = g.asid
  ∧ at' 0x18 4 = f.info.toNat ∧ at' 0x1C 4 = f.lanes.toNat

/-- R158: the gang resumes after an ignored fault: out of trap class, with s28 to s31 from the shadow and `exec` and `fmt` as they
were at the trap; with no trap entry its registers stay as they are. -/
def Claims.Ignored (f : FaultRec) (g h : Gang) : Prop :=
  h.trap = false ∧ h.st = g.st ∧ h.r = (if g.trap then
    { (((g.r.setS 28 g.shadow[0]).setS 29 g.shadow[1]).setS 30 g.shadow[2]).setS 31 g.shadow[3] with
      pc := f.resume, exec := f.exec, fmt := f.fmt }
    else { g.r with pc := f.resume })

/-- R5, R158: the gang rewinds to its flashback point and re-executes. -/
def Claims.Retried (g h : Gang) : Prop :=
  h.st = .live ∧ h.flash.tries = g.flash.tries + 1 ∧ h.trap = false ∧ h.recipe = none ∧ h.level = 0 ∧ h.rolls = []
  ∧ h.stores = g.stores.filter (fun x => decide (x.seq < g.flash.seq))
  ∧ h.r = { g.flash.regs.watch g.flash.regs.pc g.flash.regs.pc none with pc := g.flash.regs.pc + 4 }

/-- R157, R158: a level absorbs a fault of class `cls` with an action: the record is written, and the gang resumes, re-executes, or
is killed with its workgroup, its grid, the queue's command or the partition. -/
def Claims.Absorbed (s : State) (f : FaultRec) (hcode cls level action grid : Nat) : Prop :=
  let g := s.gang
  let gr := s.gridAt (s.wgAt g.wg).grid
  let act := if action = 1 ∧ ¬(g.flash.valid = true ∧ g.flash.tries < 3) then 2 else action
  ∀ (b : List Byte) (t : State), Claims.Record s f (if cls = 1 ∧ act = 2 then 0x12 else f.code) hcode level act b →
    t = s.contain f hcode cls →
    let u := s.record gr.leaf gr.queue b
    let v := u.gang
    (act = 0 → t = u.setGang t.gang ∧ (v.recipe = none → v.forward = none → Claims.Ignored f v t.gang))
    ∧ (act = 1 → t = u.setGang t.gang
      ∧ (v.st = .live → v.forward = none → Claims.Retried v t.gang))
    ∧ (act = 2 → (level = 0 → t = u.killWg v.wg ∧ ((u.wgAt v.wg).st = .live → (t.wgAt v.wg) = { u.wgAt v.wg with killed := true }
        ∧ ∀ k ∈ (u.wgAt v.wg).gangs, (u.gangAt k).st = .live → let h := t.gangAt k
          h.st = .halted ∧ h.stores = [] ∧ h.ckpts = [] ∧ h.cmds = (u.gangAt k).cmds.filter (fun c => c.st != .pending)
          ∧ h.r = (u.gangAt k).r))
      ∧ (level = 1 ∨ level = 2 → t = u.killGrid grid)
      ∧ (level = 3 → (t.queueAt gr.leaf gr.queue).halt = true
        ∧ (t.queueAt gr.leaf gr.queue).tline = (u.queueAt gr.leaf gr.queue).tline)
      ∧ (level = 4 → ∀ q < 64, (t.queueAt gr.leaf q).halt = true ∧ (t.queueAt gr.leaf q).run = .none
        ∧ (t.queueAt gr.leaf q).tline = (u.queueAt gr.leaf q).tline))

/-- R157: the levels in order upward: the workgroup and the grid by the kernel's policy, each grid above by its own, the queue, the
partition; the first whose action is not kill parent absorbs the fault, and at the partition kill parent acts as kill self. -/
def Claims.Contained : Prop :=
  ∀ (s : State) (f : FaultRec) (hcode cls : Nat) (ks : List Nat), cls < 3 → f.code < 256 → hcode < 256 → s.gang.slot < 256 →
    s.gang.asid < 2 ^ 16 → ks.length < 13 →
    let k := (s.wgAt s.gang.wg).grid
    let gr := s.gridAt k
    let act := fun (p : Word) (base : Nat) => p.toNat / 2 ^ (base + 2 * cls) % 4
    let mine := act gr.k.policy 0
    let grid := act gr.k.policy 8
    let above := fun (j : Nat) => act (s.gridAt j).k.policy 8
    let queue := act (s.queueAt gr.leaf gr.queue).policy 0
    let part := act (s.leafAt gr.leaf).policy 0
    Claims.Above s k ks →
    (mine ≠ 3 → Claims.Absorbed s f hcode cls 0 mine k)
    ∧ (mine = 3 → grid ≠ 3 → Claims.Absorbed s f hcode cls 1 grid k)
    ∧ (mine = 3 → grid = 3 →
      (∀ pre j post, ks = pre ++ j :: post → (∀ i ∈ pre, above i = 3) → above j ≠ 3 →
        Claims.Absorbed s f hcode cls 2 (above j) j)
      ∧ ((∀ j ∈ ks, above j = 3) →
        (queue ≠ 3 → Claims.Absorbed s f hcode cls 3 queue 0)
        ∧ (queue = 3 → Claims.Absorbed s f hcode cls 4 (if part = 3 then 2 else part) 0)))

/-- R5, R87, R154, R155, R157, R158, R164: a trap is taken, waits, or goes to containment, which takes it up a level until one
absorbs it. That a recipe's trap does, and how it goes on, is the model's choice of assumption 15; the code and the PC of the
record are its choices of assumptions 29 and 103. -/
def Obligations.TrapEntry : Prop := Claims.TrapTaken ∧ Claims.TrapNotTaken ∧ Claims.TrapWaits ∧ Claims.Contained

/-! ### Lane instructions -/

/-- R23, R29, R170, R171: what a selector names as a source, in every lane. -/
def Obligations.SelectorsRead : Prop :=
  ∀ (s : State) (k : OpKind) (l : Fin 32),
    let at' := fun (n : Nat) => (s.src k (BitVec.ofNat 7 n)).at l
    (∀ v : BitVec 6, at' v.toNat = (s.r.vreg v).at l) ∧ (∀ c : BitVec 5, at' (0x40 + c.toNat) = s.r.sreg c)
    -- a g register: the gang's own last write of the present cycle, else the value at the cycle's beginning
    ∧ (s.gang.stores = [] → ∀ i : Fin 16,
      ((∀ p ∈ s.wg.gNext, p.1 = s.cur → p.2.1 ≠ i.val) → at' (0x60 + i.val) = s.wg.g[i])
      ∧ ∀ pre post v, s.wg.gNext = pre ++ (s.cur, i.val, v) :: post → (∀ p ∈ post, p.1 = s.cur → p.2.1 ≠ i.val) →
        at' (0x60 + i.val) = v)
    ∧ at' 0x79 = BitVec.ofNat 32 l.val ∧ at' 0x7A = BitVec.ofNat 32 s.gang.slot ∧ at' 0x7B = s.grid.params.setWidth 32
    ∧ (k = .int → [at' 0x70, at' 0x71, at' 0x72, at' 0x73, at' 0x74, at' 0x75, at' 0x76, at' 0x77, at' 0x78] =
        ([0, 1, 2, 4, -1, 8, 16, 255, 65535] : List Word))
    ∧ (k = .fp → [at' 0x70, at' 0x71, at' 0x72, at' 0x73, at' 0x74, at' 0x75, at' 0x76, at' 0x77, at' 0x78] =
        ([0, 0x3F800000, 0x40000000, 0x40800000, 0xBF800000, 0x3F000000, 0x3E800000, 0x3FB8AA3B, 0x3F317218] : List Word))
    ∧ (k = .pair false → [at' 0x70, at' 0x71, at' 0x72, at' 0x73, at' 0x74, at' 0x75, at' 0x76, at' 0x77, at' 0x78] =
        ([0, 0x3C003C00, 0x40004000, 0x44004400, 0xBC00BC00, 0x38003800, 0x34003400, 0x3DC53DC5, 0x398C398C] : List Word))
    ∧ (k = .pair true → [at' 0x70, at' 0x71, at' 0x72, at' 0x73, at' 0x74, at' 0x75, at' 0x76, at' 0x77, at' 0x78] =
        ([0, 0x3F803F80, 0x40004000, 0x40804080, 0xBF80BF80, 0x3F003F00, 0x3E803E80, 0x3FB93FB9, 0x3F313F31] : List Word))
    ∧ (∀ p, s.gang.ext = some p → at' 0x7C = if k = .int then p.signExtend 32 else p.setWidth 32 <<< 7)

/-- R217, R219, R215: each function of `ia` and `il`, and each integer halfword, gives every active lane the value of the
table; an inactive lane, every other register, the flags and memory stand. -/
def Claims.IntegerWords : Prop :=
  ∀ (s : State) (d a b : BitVec 7),
    let x := fun l => (s.src .int a).at l
    let y := fun l => (s.src .int b).at l
    let gives := fun (i : Instr) (f : Word → Word → Word) => s.Lanes i 4 d (fun l => f (x l) (y l))
    (s.Fits d [a, b] →
      gives (.iaAdd d a b) (fun x y => x + y) ∧ gives (.iaSub d a b) (fun x y => x - y) ∧ gives (.iaMullo d a b) (fun x y => x * y)
      ∧ gives (.iaMulhi d a b) (fun x y => BitVec.ofInt 32 (x.toInt * y.toInt / 2 ^ 32))
      ∧ gives (.iaMulhin d a b) (fun x y => BitVec.ofNat 32 (x.toNat * y.toNat / 2 ^ 32))
      ∧ gives (.iaMin d a b) (fun x y => if x.toInt ≤ y.toInt then x else y)
      ∧ gives (.iaMax d a b) (fun x y => if x.toInt ≤ y.toInt then y else x)
      ∧ gives (.iaMinn d a b) (fun x y => if x.toNat ≤ y.toNat then x else y)
      ∧ gives (.iaMaxn d a b) (fun x y => if x.toNat ≤ y.toNat then y else x)
      ∧ gives (.iaAdds d a b) (fun x y => BitVec.ofInt 32 (max (-2 ^ 31) (min (2 ^ 31 - 1) (x.toInt + y.toInt))))
      ∧ gives (.iaAddsn d a b) (fun x y => BitVec.ofNat 32 (min (2 ^ 32 - 1) (x.toNat + y.toNat)))
      ∧ gives (.iaSubs d a b) (fun x y => BitVec.ofInt 32 (max (-2 ^ 31) (min (2 ^ 31 - 1) (x.toInt - y.toInt))))
      ∧ gives (.iaSubsn d a b) (fun x y => if x.toNat ≤ y.toNat then 0 else x - y)
      ∧ gives (.iaAbsdiff d a b) (fun x y => if x.toInt ≤ y.toInt then y - x else x - y)
      ∧ gives (.ilAnd d a b) (fun x y => x &&& y) ∧ gives (.ilOr d a b) (fun x y => x ||| y) ∧ gives (.ilXor d a b) (fun x y => x ^^^ y)
      ∧ gives (.ilAndn d a b) (fun x y => x &&& ~~~y) ∧ gives (.ilOrn d a b) (fun x y => x ||| ~~~y)
      ∧ gives (.ilShl d a b) (fun x y => x <<< y.toNat) ∧ gives (.ilShr d a b) (fun x y => x >>> y.toNat)
      ∧ gives (.ilSra d a b) (fun x y => x.sshiftRight y.toNat) ∧ gives (.ilRotl d a b) (fun x y => x.rotateLeft (y.toNat % 32))
      ∧ gives (.ilBfe d a b) (fun x y => BitVec.ofNat 32 (x.toNat / 2 ^ (y.toNat % 32) % 2 ^ (y.toNat / 256 % 64))))
    ∧ (s.Fits d [a] →
      s.Lanes (.ilPopc d a) 4 d (fun l => BitVec.ofNat 32 ((List.range 32).filter (fun i => (x l).getLsbD i)).length)
      ∧ s.Lanes (.ilClz d a) 4 d (fun l => BitVec.ofNat 32 (((List.range 32).find? (fun i => (x l).getLsbD (31 - i))).getD 32))
      ∧ s.Lanes (.ilCtz d a) 4 d (fun l => BitVec.ofNat 32 (((List.range 32).find? (fun i => (x l).getLsbD i)).getD 32))
      ∧ s.Lanes (.ilBrev d a) 4 d (fun l => (x l).reverse))

/-- R173, R174: the integer halfwords compute vD = vD op vA, `mov` copies, and `iaddi` adds its immediate. -/
def Claims.IntegerHalfwords : Prop :=
  ∀ (s : State) (d : BitVec 6) (a i : BitVec 5), s.gang.ext = none →
    let x := fun l => (s.r.vreg d).at l
    let y := fun l => (s.r.vreg (a.setWidth 6)).at l
    let gives := fun (c : Instr) (f : Word → Word → Word) => s.Lanes c 2 (d.setWidth 7) (fun l => f (x l) (y l))
    gives (.cMov d a) (fun _ y => y) ∧ gives (.cIadd d a) (fun x y => x + y) ∧ gives (.cIsub d a) (fun x y => x - y)
    ∧ gives (.cImul d a) (fun x y => x * y) ∧ gives (.cAnd d a) (fun x y => x &&& y) ∧ gives (.cOr d a) (fun x y => x ||| y)
    ∧ gives (.cXor d a) (fun x y => x ^^^ y) ∧ gives (.cShl d a) (fun x y => x <<< y.toNat)
    ∧ gives (.cShr d a) (fun x y => x >>> y.toNat) ∧ gives (.cSra d a) (fun x y => x.sshiftRight y.toNat)
    ∧ gives (.cIaddi d i) (fun x _ => x + i.signExtend 32)

/-- R218: each function of `iai` computes vD from vA and the immediate, which a prefix may supply; a shift count is below
32. -/
def Claims.IntegerImmediates : Prop :=
  ∀ (s : State) (d a : BitVec 6) (i : BitVec 10) (v : Word), s.Immediate i v →
    let gives := fun (c : Instr) (f : Word → Word) => s.Lanes c 4 (d.setWidth 7) (fun l => f ((s.r.vreg a).at l))
    gives (.iaiAddi d a i) (fun x => x + v) ∧ gives (.iaiMuli d a i) (fun x => x * v) ∧ gives (.iaiAndi d a i) (fun x => x &&& v)
    ∧ gives (.iaiOri d a i) (fun x => x ||| v) ∧ gives (.iaiXori d a i) (fun x => x ^^^ v)
    ∧ (v.toNat < 32 → gives (.iaiShli d a i) (fun x => x <<< v.toNat) ∧ gives (.iaiShri d a i) (fun x => x >>> v.toNat)
        ∧ gives (.iaiSrai d a i) (fun x => x.sshiftRight v.toNat))

/-- R170, R172: the selectors are ones the instruction may not have: a destination that cannot be written, a source that cannot be
read, 0x7C with no prefix, or a prefix with no 0x7C. -/
def Claims.Misfit (s : State) (d : BitVec 7) (srcs : List (BitVec 7)) : Prop :=
  0x70 < d.toNat ∨ (∃ o ∈ srcs, 0x7D ≤ o.toNat) ∨ (s.gang.ext = none ∧ 0x7C ∈ srcs) ∨ (s.gang.ext ≠ none ∧ 0x7C ∉ srcs)

/-- R152, R170, R172, R174 to R176, R218: the lane instructions raise ILLOP, naming the active lanes, for selectors they may not
have; a halfword does so after a prefix, and an immediate for a shift by more than 31 or a field that is not 0 after a prefix. -/
def Claims.LaneIllops : Prop :=
  ∀ (s : State) (d a b : BitVec 7) (c : BitVec 5) (k : BitVec 4) (v w : BitVec 6) (i : BitVec 10) (x : Word), s.quiet = true →
    let bad := fun (c : Instr) => s.Raises c 4 tcILLOP s.r.exec 0 0
    (Claims.Misfit s d [a, b] → ∀ q ∈ [Instr.iaAdd d a b, .iaSub d a b, .iaMullo d a b, .iaMulhi d a b, .iaMulhin d a b,
        .iaMin d a b, .iaMax d a b, .iaMinn d a b, .iaMaxn d a b, .iaAdds d a b, .iaAddsn d a b, .iaSubs d a b, .iaSubsn d a b,
        .iaAbsdiff d a b, .ilAnd d a b, .ilOr d a b, .ilXor d a b, .ilAndn d a b, .ilOrn d a b, .ilShl d a b, .ilShr d a b,
        .ilSra d a b, .ilRotl d a b, .ilBfe d a b, .faAdd d a b, .faSub d a b, .faMul d a b, .faFmac d a b, .faFnmac d a b,
        .faMin d a b, .faMax d a b, .faCopysign d a b, .fhAdd d a b, .fhSub d a b, .fhMul d a b, .fhFmac d a b, .fhMin d a b,
        .fhMax d a b, .fhPk d a b, .cvH2f d a b, .cvB2f d a b, .cvPk8 d a b, .cvPk4 d a b, .cvUp8 d a b, .cvUp4 d a b,
        .sel d a b k, .xlShuf d a b, .xlShx d a b, .xlBcast d a b, .dpDot8f d a b, .dpDot8i d a b, .dpDot4f d a b,
        .dpDot4i d a b, .dpDot2 d a b, .gxBind d a b], bad q)
    ∧ (Claims.Misfit s d [a] → ∀ q ∈ [Instr.ilPopc d a, .ilClz d a, .ilCtz d a, .ilBrev d a, .faAbs d a, .faNeg d a, .fxRcp d a,
        .fxRsqrt d a, .fxSqrt d a, .fxExp2 d a, .fxLog2 d a, .fxSin d a, .fxCos d a, .fxTanh d a, .fxAct d a, .fxFloor d a,
        .fxCeil d a, .fxRint d a, .fxTrunc d a, .fxFract d a, .fxClass d a, .cvI2f d a, .cvN2f d a, .cvF2i d a, .cvF2n d a,
        .cvF2h d a, .cvF2b d a, .xlRdf d a, .xlRdl d a, .xlRadd d a, .xlRmin d a, .xlRmax d a, .xlFradd d a, .xlScan d a,
        .shpTag d a, .shpExpand d a, .shpAff d a, .shpUni d a, .gxPeek d a], bad q)
    ∧ (Claims.Misfit s 0 [a, b] → ∀ q ∈ [Instr.cmpFeq c a b, .cmpFne c a b, .cmpFlt c a b, .cmpFle c a b, .cmpFgt c a b,
        .cmpFge c a b, .cmpFun c a b, .cmpFord c a b, .cmpIeq c a b, .cmpIne c a b, .cmpIlt c a b, .cmpIle c a b, .cmpNlt c a b,
        .cmpNle c a b, .cmpTst c a b, .xlWrl v a b, .gxMask v a b, .gxStep a b], bad q)
    ∧ (Claims.Misfit s 0 [a] → ∀ q ∈ [Instr.xlBallot c a, .xlVgrp c a, .shpCmpr v a], bad q)
    ∧ (s.gang.ext ≠ none → bad (.xlElect c) ∧ (i ≠ 0 → ∀ q ∈ [Instr.iaiAddi v w i, .iaiMuli v w i, .iaiAndi v w i, .iaiOri v w i,
        .iaiXori v w i, .iaiShli v w i, .iaiShri v w i, .iaiSrai v w i], bad q)
      ∧ ∀ q ∈ [Instr.cMov v c, .cIadd v c, .cIsub v c, .cImul v c, .cAnd v c, .cOr v c, .cXor v c, .cShl v c, .cShr v c, .cSra v c,
        .cIaddi v c, .cFadd v c, .cFsub v c, .cFmul v c, .cFmax v c, .cFmin v c], s.Raises q 2 tcILLOP s.r.exec 0 0)
    ∧ (s.Immediate i x → 32 ≤ x.toNat → ∀ q ∈ [Instr.iaiShli v w i, .iaiShri v w i, .iaiSrai v w i], bad q)

/-- R152, R170, R172 to R176, R215, R217 to R219: the integer words, halfwords and immediates, and the encodings that every lane
family refuses. -/
def Obligations.IntegerLanes : Prop :=
  Claims.IntegerWords ∧ Claims.IntegerHalfwords ∧ Claims.IntegerImmediates ∧ Claims.LaneIllops

/-- R29, R30: an affine source keeps its tag through addition, subtraction, and multiplication or a left shift by a
uniform one, base and stride computed with the operation and a stride of 0 recorded as U; two uniform sources give a
uniform result. -/
def Obligations.ShapeTags : Prop :=
  ∀ (s : State) (d a b : BitVec 6) (x t y : Word), s.gang.ext = none → s.r.exec = s.gang.launched → s.r.exec ≠ 0 →
    let o := fun (v : BitVec 6) => (v.setWidth 7 : BitVec 7)
    let affine := fun (base stride : Word) => if stride = 0 then VReg.u base else VReg.a base stride
    let leaves := fun (c : Instr) (v : VReg) => s.Runs c (fun u => u.r.vreg d = v)
    (s.r.vreg a = .a x t → s.r.vreg b = .u y →
      leaves (.iaAdd (o d) (o a) (o b)) (affine (x + y) t) ∧ leaves (.iaSub (o d) (o a) (o b)) (affine (x - y) t)
      ∧ leaves (.iaSub (o d) (o b) (o a)) (affine (y - x) (-t)) ∧ leaves (.iaMullo (o d) (o a) (o b)) (affine (x * y) (t * y))
      ∧ leaves (.ilShl (o d) (o a) (o b)) (affine (x <<< y.toNat) (t <<< y.toNat))
      ∧ s.Runs (.ilAnd (o d) (o a) (o b)) (fun u => ∃ e, u.r.vreg d = .g e))
    ∧ (s.r.vreg a = .u x → s.r.vreg b = .u y →
      leaves (.iaAdd (o d) (o a) (o b)) (.u (x + y)) ∧ leaves (.ilAnd (o d) (o a) (o b)) (.u (x &&& y))
      ∧ leaves (.iaMulhin (o d) (o a) (o b)) (.u (BitVec.ofNat 32 (x.toNat * y.toNat / 2 ^ 32))))

/-- R44, R62, R220, R221: each function of `fa` and `fh` gives every active lane its exact result rounded once in the mode
of `fmt`, with its events: in FP32, and for `fh` in each half of the word in the 16-bit format of `fmt`. -/
def Claims.FloatWords : Prop :=
  ∀ (s : State) (d a b : BitVec 7),
    let rm := s.r.rm
    let h := s.r.hfmt
    let p := OpKind.pair s.r.h16
    let xs := fun (k : OpKind) (l : Fin 32) => [(s.src k a).at l, (s.src k b).at l]
    let acc := fun (k : OpKind) (l : Fin 32) => xs k l ++ [(s.src k d).at l]
    (s.Fits d [a, b] →
      s.LanesEv (.faAdd d a b) 4 d (fun l => faAdd rm (xs .fp l)) ∧ s.LanesEv (.faSub d a b) 4 d (fun l => faSub rm (xs .fp l))
      ∧ s.LanesEv (.faMul d a b) 4 d (fun l => faMul rm (xs .fp l)) ∧ s.LanesEv (.faFmac d a b) 4 d (fun l => faFmac rm (acc .fp l))
      ∧ s.LanesEv (.faFnmac d a b) 4 d (fun l => faFnmac rm (acc .fp l))
      ∧ s.LanesEv (.faMin d a b) 4 d (fun l => faMinMax false (xs .fp l)) ∧ s.LanesEv (.faMax d a b) 4 d (fun l => faMinMax true (xs .fp l))
      ∧ s.LanesEv (.faCopysign d a b) 4 d (fun l => faCopysign (xs .fp l))
      ∧ s.LanesEv (.fhAdd d a b) 4 d (fun l => fhAdd h rm (xs p l)) ∧ s.LanesEv (.fhSub d a b) 4 d (fun l => fhSub h rm (xs p l))
      ∧ s.LanesEv (.fhMul d a b) 4 d (fun l => fhMul h rm (xs p l)) ∧ s.LanesEv (.fhFmac d a b) 4 d (fun l => fhFmac h rm (acc p l))
      ∧ s.LanesEv (.fhMin d a b) 4 d (fun l => fhMinMax h false (xs p l)) ∧ s.LanesEv (.fhMax d a b) 4 d (fun l => fhMinMax h true (xs p l))
      ∧ s.LanesEv (.fhPk d a b) 4 d (fun l => fhPk h rm (xs .fp l)))
    ∧ (s.Fits d [a] → s.LanesEv (.faAbs d a) 4 d (fun l => faAbs [(s.src .fp a).at l])
      ∧ s.LanesEv (.faNeg d a) 4 d (fun l => faNeg [(s.src .fp a).at l]))

/-- R173, R174: the floating halfwords compute vD = vD op vA in FP32. -/
def Claims.FloatHalfwords : Prop :=
  ∀ (s : State) (d : BitVec 6) (a : BitVec 5), s.gang.ext = none →
    let xs := fun l => [(s.r.vreg d).at l, (s.r.vreg (a.setWidth 6)).at l]
    let gives := fun (c : Instr) (f : List Word → Word × List Nat) => s.LanesEv c 2 (d.setWidth 7) (fun l => f (xs l))
    gives (.cFadd d a) (faAdd s.r.rm) ∧ gives (.cFsub d a) (faSub s.r.rm) ∧ gives (.cFmul d a) (faMul s.r.rm)
    ∧ gives (.cFmax d a) (faMinMax true) ∧ gives (.cFmin d a) (faMinMax false)

/-- R57: the exact sum of finite terms, each a sign, a magnitude and an exponent of 2: a sum of 0 is −0 when every term is a
zero of negative sign, +0 when every one is a zero of positive sign, and otherwise −0 only when rounding down. -/
def Claims.total (rm : Nat) (ts : List (Bool × Nat × Int)) : Machine.Num :=
  let lo := (ts.map (fun t => t.2.2)).foldl min 0
  let i : Int := (ts.map (fun t => (if t.1 then -1 else 1) * ((t.2.1 * 2 ^ (t.2.2 - lo).toNat : Nat) : Int))).sum
  if i = 0 then .fin (if ts.all (fun t => t.1 && t.2.1 == 0) then true else if ts.all (fun t => !t.1 && t.2.1 == 0) then false
    else rm == 2) 0 0
  else .fin (decide (i < 0)) i.natAbs lo

/-- The exact product of two finite values. -/
def Claims.times (x y : Bool × Nat × Int) : Bool × Nat × Int := (x.1 != y.1, x.2.1 * y.2.1, x.2.2 + y.2.2)

/-- A finite value: a sign, a magnitude and an exponent of 2. -/
def Claims.value (t : Bool × Nat × Int) : Machine.Num := .fin t.1 t.2.1 t.2.2

/-- R48: half `h` of a word as the `fh` operations read it, a subnormal as a zero of its sign. -/
def Claims.half (f : FpFmt) (w : Word) (h : Nat) : Machine.Num :=
  let b := w.toNat / 2 ^ (16 * h) % 65536
  if b / 2 ^ f.mw % 2 ^ f.ew = 0 then .fin (b.testBit 15) 0 0 else ofIeee f b

/-- R44, R48, R57, R220, R221: a fused multiply-add of finite operands is the exact one rounded once, its product not rounded;
each half of an `fh` sum, product or fused multiply-add is the exact one of the flushed operands, rounded once in the 16-bit
format and flushed when tiny, with its own events; `fh.pk` narrows each operand so. -/
def Claims.FusedOnce : Prop :=
  ∀ (rm : Nat) (x y z : Word) (u v w : Bool × Nat × Int), let neg := fun (t : Bool × Nat × Int) => (!t.1, t.2)
    (ofF32 x = Claims.value u → ofF32 y = Claims.value v → ofF32 z = Claims.value w →
      let once := fun (n : Machine.Num) => ((roundF32 rm n).1, [(roundF32 rm n).2])
      faFmac rm [x, y, z] = once (Claims.total rm [w, Claims.times u v])
      ∧ faFnmac rm [x, y, z] = once (Claims.total rm [w, neg (Claims.times u v)]))
    ∧ ∀ f ∈ [f16, bf16], ∀ h < 2,
      let once := fun (r : Word × List Nat) (n : Machine.Num) =>
        r.1.toNat / 2 ^ (16 * h) % 65536 = (roundTo f true rm n).1 ∧ r.2.length = 2 ∧ r.2[h]? = some (roundTo f true rm n).2
      (Claims.half f x h = Claims.value u → Claims.half f y h = Claims.value v →
        once (fhAdd f rm [x, y]) (Claims.total rm [u, v]) ∧ once (fhSub f rm [x, y]) (Claims.total rm [u, neg v])
        ∧ once (fhMul f rm [x, y]) (Claims.value (Claims.times u v))
        ∧ (Claims.half f z h = Claims.value w → once (fhFmac f rm [x, y, z]) (Claims.total rm [w, Claims.times u v])))
      ∧ once (fhPk f rm [x, y]) (ofF32 (if h = 0 then x else y))

/-- R45, R220: `abs` clears the sign bit, `neg` inverts it and `copysign` takes it from the second operand, the other bits as they
were; of a NaN each gives 0x7FC00000; none raises an event. -/
def Claims.SignBits : Prop :=
  ∀ (x y : Word),
    let gives := fun (r : Word × List Nat) (sign : Bool) => r.2 = []
      ∧ ∀ i < 32, r.1.getLsbD i = if i = 31 then sign else x.getLsbD i
    ((ofF32 x).isNan = true → ∀ r ∈ [faAbs [x], faNeg [x], faCopysign [x, y]], r = (0x7FC00000, []))
    ∧ ((ofF32 x).isNan = false → gives (faAbs [x]) false ∧ gives (faNeg [x]) (!x.getLsbD 31)
      ∧ gives (faCopysign [x, y]) (y.getLsbD 31))

/-- R46, R48, R221: the minimum and the maximum of two halves, subnormals as zeros of their sign: −0 below +0; of a NaN and another
half the other, of two NaNs the NaN of the format; no event. -/
def Claims.HalfMinMax : Prop :=
  ∀ (x y : Word), ∀ f ∈ [f16, bf16], ∀ h < 2,
    let p := Claims.half f x h
    let q := Claims.half f y h
    let bits := fun (w : Word) =>
      let b := w.toNat / 2 ^ (16 * h) % 65536
      if b / 2 ^ f.mw % 2 ^ f.ew = 0 then b / 32768 * 32768 else b
    let give := fun (lo hi : Nat) => (fhMinMax f false [x, y]).1.toNat / 2 ^ (16 * h) % 65536 = lo
      ∧ (fhMinMax f true [x, y]).1.toNat / 2 ^ (16 * h) % 65536 = hi
    (fhMinMax f false [x, y]).2 = [] ∧ (fhMinMax f true [x, y]).2 = []
    ∧ (p = .nan → q = .nan → let n := if f = f16 then 0x7E00 else 0x7FC0
      give n n)
    ∧ (p = .nan → q ≠ .nan → give (bits y) (bits y)) ∧ (p ≠ .nan → q = .nan → give (bits x) (bits x))
    ∧ (p ≠ .nan → q ≠ .nan →
      (p.lt q = true → give (bits x) (bits y)) ∧ (q.lt p = true → give (bits y) (bits x))
      ∧ (bits x = bits y → give (bits x) (bits x))
      ∧ (bits x = 32768 → bits y = 0 → give 32768 0) ∧ (bits x = 0 → bits y = 32768 → give 32768 0))

/-- R57, R220, R221: an infinite operand makes a sum, a product and a fused multiply-add infinite, with the sign of the infinite
term, when no NaN, no 0 × ∞ and no infinity of the other sign is among its terms: in FP32, and in each half. -/
def Claims.Infinities : Prop :=
  ∀ (rm : Nat) (x y z : Word) (s t : Bool),
    let inf := fun (n : Bool) => ((if n then 0xFF800000 else 0x7F800000, [0]) : Word × List Nat)
    (ofF32 x = .inf s →
      (ofF32 y ≠ .nan → (ofF32 y ≠ .inf (!s) → faAdd rm [x, y] = inf s ∧ faAdd rm [y, x] = inf s)
        ∧ (ofF32 y ≠ .inf s → faSub rm [x, y] = inf s ∧ faSub rm [y, x] = inf (!s)))
      ∧ (ofF32 y ≠ .nan → (∀ n e, ofF32 y ≠ .fin n 0 e) → (ofF32 y).sign = t → ∀ xs ∈ [[x, y], [y, x]],
        faMul rm xs = inf (s != t)
        ∧ (ofF32 z ≠ .nan → (ofF32 z ≠ .inf (s == t) → faFmac rm (xs ++ [z]) = inf (s != t))
          ∧ (ofF32 z ≠ .inf (s != t) → faFnmac rm (xs ++ [z]) = inf (s == t))))
      ∧ (∀ u v, ofF32 y = Claims.value u → ofF32 z = Claims.value v → faFmac rm [y, z, x] = inf s ∧ faFnmac rm [y, z, x] = inf s))
    ∧ ∀ f ∈ [f16, bf16], ∀ h < 2,
      let at' := fun (r : Word × List Nat) (n : Bool) =>
        r.1.toNat / 2 ^ (16 * h) % 65536 = (if n then 32768 else 0) + (2 ^ f.ew - 1) * 2 ^ f.mw ∧ r.2[h]? = some 0
      let p := Claims.half f y h
      let q := Claims.half f z h
      Claims.half f x h = .inf s → p ≠ .nan →
        (p ≠ .inf (!s) → at' (fhAdd f rm [x, y]) s) ∧ (p ≠ .inf s → at' (fhSub f rm [x, y]) s ∧ at' (fhSub f rm [y, x]) (!s))
        ∧ ((∀ n e, p ≠ .fin n 0 e) → p.sign = t → at' (fhMul f rm [x, y]) (s != t)
          ∧ (q ≠ .nan → q ≠ .inf (s == t) → at' (fhFmac f rm [x, y, z]) (s != t)))

/-- R44 to R46, R48, R57, R173, R220, R221: the floating-point words and the floating-point halfwords, and what they give: one
rounding, sign bits, minima and maxima of halves, infinities. -/
def Obligations.FloatLanes : Prop :=
  Claims.FloatWords ∧ Claims.FloatHalfwords ∧ Claims.FusedOnce ∧ Claims.SignBits ∧ Claims.HalfMinMax ∧ Claims.Infinities

/-- R35, R44: the multiple n of 2^q that the magnitude m × 2^e rounds to: the nearest, a tie going to the even one, the one
below, or the one on the side the mode names. -/
def Claims.Rounds (rm : Nat) (neg : Bool) (m : Nat) (e q : Int) (n : Nat) : Prop :=
  let exact : Nat := m * 2 ^ (e - min e q).toNat
  let unit : Nat := 2 ^ (q - min e q).toNat
  (rm = 0 → 2 * (n * unit) ≤ 2 * exact + unit ∧ 2 * exact ≤ 2 * (n * unit) + unit
    ∧ (2 * (n * unit) = 2 * exact + unit ∨ 2 * exact = 2 * (n * unit) + unit → n % 2 = 0))
  ∧ (rm = 1 ∨ (rm = 2 ∧ neg = false) ∨ (rm = 3 ∧ neg = true) → n * unit ≤ exact ∧ exact < n * unit + unit)
  ∧ (rm = 2 ∧ neg = true ∨ rm = 3 ∧ neg = false → exact ≤ n * unit ∧ n * unit < exact + unit)

/-- The magnitude is a multiple of 2^q. -/
def Claims.Fits2 (m : Nat) (e q : Int) : Prop := ∃ n : Nat, n * 2 ^ (q - min e q).toNat = m * 2 ^ (e - min e q).toNat

/-- A finite value is n × 2^q. -/
def Claims.Is (x : Machine.Num) (neg : Bool) (n : Nat) (q : Int) : Prop :=
  ∃ (k : Nat) (p : Int), x = .fin neg k p ∧ q ≤ p ∧ n = k * 2 ^ (p - q).toNat

/-- R49: two finite values of one sign are equal, and infinities and NaNs stay what they are. -/
def Claims.SameValue (x y : Machine.Num) : Prop :=
  match x, y with
  | .nan, .nan => True
  | .inf s, .inf t => s = t
  | .fin s m e, .fin t n f => s = t ∧ m * 2 ^ (e - min e f).toNat = n * 2 ^ (f - min e f).toNat
  | _, _ => False

/-- A word of memory, lowest byte first. -/
def Claims.word (m : List Host.Cell) (a : Nat) : Word := memRead m (a + 3) ++ memRead m (a + 2) ++ memRead m (a + 1) ++ memRead m a

/-- a × 2^p < b × 2^q. -/
def Claims.Below (a : Nat) (p : Int) (b : Nat) (q : Int) : Prop := a * 2 ^ (p - min p q).toNat < b * 2 ^ (q - min p q).toNat

/-- R35, R44: the multiple n of 2^q that a positive real rounds to, as the magnitude of a value with that sign: `lo n q` says that
the real lies below n × 2^q, `hi n q` that it lies above. -/
def Claims.RoundsReal (lo hi : Nat → Int → Prop) (rm : Nat) (neg : Bool) (q : Int) (n : Nat) : Prop :=
  (rm = 0 → ¬hi (2 * n + 1) (q - 1) ∧ (n ≠ 0 → ¬lo (2 * n - 1) (q - 1))
    ∧ (¬lo (2 * n + 1) (q - 1) ∨ (n ≠ 0 ∧ ¬hi (2 * n - 1) (q - 1)) → n % 2 = 0))
  ∧ (rm = 1 ∨ (rm = 2 ∧ neg = false) ∨ (rm = 3 ∧ neg = true) → ¬lo n q ∧ lo (n + 1) q)
  ∧ (rm = 2 ∧ neg = true ∨ rm = 3 ∧ neg = false → ¬hi n q ∧ hi (n - 1) q)

/-- R44: a positive real rounded once to FP32, with its sign: OF and NX beyond the largest value, NX when the result is inexact, and
UF when it is also tiny. -/
def Claims.RoundedReal (lo hi : Nat → Int → Prop) (rm : Nat) (neg : Bool) (w : Word) (ev : Nat) : Prop :=
  ∃ (t : Int) (n u : Nat), ¬lo (2 ^ 23) t ∧ lo (2 ^ 24) t ∧
    let q : Int := max t (-149)
    Claims.RoundsReal lo hi rm neg q n ∧ Claims.RoundsReal lo hi rm neg t u ∧
    let large := 104 < q ∨ (q = 104 ∧ 2 ^ 24 ≤ n)
    let tiny := t < -149 ∧ (t = -150 → u < 2 ^ 24)
    let exact := ∃ k, ¬lo k q ∧ ¬hi k q
    (large → ev = evOF + evNX ∧ ofF32 w =
      if rm = 0 ∨ (rm = 2 ∧ neg = true) ∨ (rm = 3 ∧ neg = false) then .inf neg else .fin neg (2 ^ 24 - 1) 104)
    ∧ (¬large → Claims.Is (ofF32 w) neg n q ∧ (exact → ev = 0) ∧ (¬exact → tiny → ev = evUF + evNX) ∧ (¬exact → ¬tiny → ev = evNX))

/-- R222: the reciprocal, the square root and its reciprocal of a finite operand are the exact ones, rounded once. -/
def Claims.RootsOnce : Prop :=
  ∀ (rm : Nat) (x : Word) (neg : Bool) (m : Nat) (e : Int), rm < 4 → ofF32 x = .fin neg m e → m ≠ 0 →
    let once := fun (f : Machine.Num → Word × Nat) (lo hi : Nat → Int → Prop) (s : Bool) =>
      ∃ ev, fxOf f [x] = ((fxOf f [x]).1, [ev]) ∧ Claims.RoundedReal lo hi rm s (fxOf f [x]).1 ev
    once (rcpF32 rm) (fun n q => Claims.Below 1 0 (n * m) (q + e)) (fun n q => Claims.Below (n * m) (q + e) 1 0) neg
    ∧ (neg = false → once (sqrtF32 rm) (fun n q => Claims.Below m e (n * n) (2 * q)) (fun n q => Claims.Below (n * n) (2 * q) m e) false
      ∧ once (rsqrtF32 rm) (fun n q => Claims.Below 1 0 (n * n * m) (2 * q + e))
        (fun n q => Claims.Below (n * n * m) (2 * q + e) 1 0) false)

/-- R222: the functions of special operands: NaNs, infinities, zeros, and negative ones of roots and logarithms. -/
def Claims.SpecialOperands : Prop :=
  ∀ (rm : Nat) (x : Word), rm < 4 →
    let rcp := fxOf (rcpF32 rm) [x]
    let rsqrt := fxOf (rsqrtF32 rm) [x]
    let sqrt := fxOf (sqrtF32 rm) [x]
    let exp2 := fxOf (exp2F32 rm) [x]
    let log2 := fxOf (log2F32 rm) [x]
    let sin := fxOf (turnF32 false rm) [x]
    let cos := fxOf (turnF32 true rm) [x]
    let tanh := fxOf (tanhF32 rm) [x]
    let rint := fxRint rm [x]
    let fract := fxOf (fractF32 rm) [x]
    let whole := [fxIntegral 2 [x], fxIntegral 3 [x], fxIntegral 1 [x]]
    let invalid : Word × List Nat := (0x7FC00000, [evNV])
    (ofF32 x = .nan → (∀ r ∈ [rcp, rsqrt, sqrt, exp2, log2, sin, cos, tanh, rint, fract], r = (0x7FC00000, [0]))
      ∧ ∀ r ∈ whole, r = (0x7FC00000, []))
    ∧ (∀ s, ofF32 x = .inf s →
      rcp = (if s then 0x80000000 else 0, [0]) ∧ rsqrt = (if s then invalid else (0, [0]))
      ∧ sqrt = (if s then invalid else (0x7F800000, [0])) ∧ exp2 = (if s then 0 else 0x7F800000, [0])
      ∧ log2 = (if s then invalid else (0x7F800000, [0])) ∧ sin = invalid ∧ cos = invalid
      ∧ tanh = (if s then 0xBF800000 else 0x3F800000, [0]) ∧ rint = (x, [0]) ∧ fract = invalid ∧ ∀ r ∈ whole, r = (x, []))
    ∧ (∀ s e, ofF32 x = .fin s 0 e →
      rcp = (if s then 0xFF800000 else 0x7F800000, [evDZ]) ∧ rsqrt = (if s then 0xFF800000 else 0x7F800000, [evDZ])
      ∧ sqrt = (x, [0]) ∧ exp2 = (0x3F800000, [0]) ∧ log2 = (0xFF800000, [evDZ]) ∧ sin = (x, [0]) ∧ cos = (0x3F800000, [0])
      ∧ tanh = (x, [0]) ∧ rint = (x, [0]) ∧ fract = (0, [0]) ∧ ∀ r ∈ whole, r = (x, []))
    ∧ (∀ m e, ofF32 x = .fin true m e → m ≠ 0 → rsqrt = invalid ∧ sqrt = invalid ∧ log2 = invalid)

/-- R222: floor, ceil, trunc and rint give the integral value of their mode; fract gives the exact distance from the floor, rounded
once. A fract of an integral value is a zero whose sign follows the mode, by the model's choice. -/
def Claims.IntegralParts : Prop :=
  ∀ (rm : Nat) (x : Word) (neg : Bool) (m : Nat) (e : Int), rm < 4 → ofF32 x = .fin neg m e → m ≠ 0 →
    (∀ mode ∈ [1, 2, 3], (fxIntegral mode [x]).2 = []
      ∧ ∃ n, Claims.Rounds mode neg m e 0 n ∧ Claims.SameValue (ofF32 (fxIntegral mode [x]).1) (.fin neg n 0))
    ∧ (∃ n, Claims.Rounds rm neg m e 0 n ∧ Claims.SameValue (ofF32 (fxRint rm [x]).1) (.fin neg n 0))
    ∧ (Claims.Fits2 m e 0 → (fxRint rm [x]).2 = [0]) ∧ (¬Claims.Fits2 m e 0 → (fxRint rm [x]).2 = [evNX])
    ∧ (let k := min e 0
      let v : Int := ((m * 2 ^ (e - k).toNat : Nat) : Int)
      let part := ((if neg then -v else v) % 2 ^ (-k).toNat).toNat
      let r := if part = 0 then (if rm = 2 then 0x80000000 else 0, 0) else roundF32 rm (.fin false part k)
      fxOf (fractF32 rm) [x] = (r.1, [r.2]))

/-- R222: exp2 of an integer and log2 of a power of two are exact, and so are sin and cos at the quarters of a turn; exp2 of a large
operand overflows or is tiny, and tanh of one lies next to 1; tanh keeps the sign. -/
def Claims.ExactArguments : Prop :=
  ∀ (rm : Nat) (x : Word) (s : Bool) (m : Nat) (e : Int), rm < 4 → ofF32 x = .fin s m e →
    (∀ k : Int, -149 ≤ k → k ≤ 127 →
      (m ≠ 0 → Claims.SameValue (.fin s m e) (.fin (decide (k < 0)) k.natAbs 0) →
        (fxOf (exp2F32 rm) [x]).2 = [0] ∧ Claims.SameValue (ofF32 (fxOf (exp2F32 rm) [x]).1) (.fin false 1 k))
      ∧ (Claims.SameValue (.fin s m e) (.fin false 1 k) → (fxOf (log2F32 rm) [x]).2 = [0]
        ∧ Claims.SameValue (ofF32 (fxOf (log2F32 rm) [x]).1) (.fin (decide (k < 0)) k.natAbs 0)))
    ∧ (∀ k : Nat, Claims.SameValue (.fin s m e) (.fin s k (-2)) →
      let one' := fun (neg : Bool) => ((if neg then 0xBF800000 else 0x3F800000 : Word), [0])
      fxOf (turnF32 false rm) [x] = (if k % 2 = 0 then (if s then 0x80000000 else 0, [0]) else one' (s != decide (k % 4 = 3)))
      ∧ fxOf (turnF32 true rm) [x] = (if k % 2 = 1 then (0, [0]) else one' (decide (k % 4 = 2))))
    ∧ (¬Claims.Below m e 256 0 → fxOf (exp2F32 rm) [x] =
        if s then (if rm = 3 then 1 else 0, [evUF + evNX])
        else (if rm = 0 ∨ rm = 3 then 0x7F800000 else 0x7F7FFFFF, [evOF + evNX]))
    ∧ (fxOf (tanhF32 rm) [x]).1.getLsbD 31 = x.getLsbD 31
    ∧ (¬Claims.Below m e 64 0 →
      let inward := rm = 1 ∨ (rm = 2 ∧ s = false) ∨ (rm = 3 ∧ s = true)
      fxOf (tanhF32 rm) [x] = ((if s then 0x80000000 else 0) + (if inward then 0x3F7FFFFF else 0x3F800000), [evNX]))

/-- R222: the class of an operand by the fields of its word. -/
def Claims.Classes : Prop :=
  ∀ (x : Word), let s := x.getLsbD 31
    let e := x.toNat / 2 ^ 23 % 256
    let f := x.toNat % 2 ^ 23
    fxClass [x] = (
      if e = 255 then (if f ≠ 0 then 0x100 else if s then 0x01 else 0x80)
      else if e = 0 then (if f = 0 then (if s then 0x08 else 0x10) else if s then 0x04 else 0x20)
      else if s then 0x02 else 0x40, [])

/-- R223: an activation takes the last entry of the current bank whose START is at most the operand, or the first, and makes two
fused steps with its coefficients; their events are one sub-element's. -/
def Claims.ActSteps : Prop :=
  ∀ (c : CoreSt) (rm : Nat) (x : Word),
    let at' := fun (i off : Nat) => Claims.word (if c.bank then c.bank1 else c.bank0) (16 * i + off)
    let start := fun (i : Nat) => ofF32 (at' i 0)
    let below := fun (i : Nat) => start i ≠ .nan ∧ (ofF32 x).lt (start i) = false
    (ofF32 x = .nan → fxAct c rm [x] = (0x7FC00000, []))
    ∧ ∀ i, i < 256 → ofF32 x ≠ .nan → (i = 0 ∨ below i) → (∀ j, i < j → j < 256 → ¬below j) →
      let t := faFmac rm [x, at' i 12, at' i 8]
      let r := faFmac rm [x, t.1, at' i 4]
      ∀ ev ev', t.2 = [ev] → r.2 = [ev'] → fxAct c rm [x] = (r.1, [ev ||| ev'])

/-- R222, R223: each function of `fx` gives every active lane the function of its operand, rounded in the mode of `fmt`, with its
events, and these are what the functions give: roots and reciprocals the exact value rounded once, integral parts, special
operands, exact arguments, classes; `fx.act` evaluates the core's current activation table. That `fx.fract` rounds the
difference from the floor, zeros too, is the model's choice of assumption 41. -/
def Obligations.FunctionLanes : Prop :=
  (∀ (s : State) (d a : BitVec 7), s.Fits d [a] →
    let rm := s.r.rm
    let gives := fun (i : Instr) (f : List Word → Word × List Nat) => s.LanesEv i 4 d (fun l => f [(s.src .fp a).at l])
    gives (.fxRcp d a) (fxOf (rcpF32 rm)) ∧ gives (.fxRsqrt d a) (fxOf (rsqrtF32 rm)) ∧ gives (.fxSqrt d a) (fxOf (sqrtF32 rm))
    ∧ gives (.fxExp2 d a) (fxOf (exp2F32 rm)) ∧ gives (.fxLog2 d a) (fxOf (log2F32 rm)) ∧ gives (.fxSin d a) (fxOf (turnF32 false rm))
    ∧ gives (.fxCos d a) (fxOf (turnF32 true rm)) ∧ gives (.fxTanh d a) (fxOf (tanhF32 rm)) ∧ gives (.fxAct d a) (fxAct s.core rm)
    ∧ gives (.fxFloor d a) (fxIntegral 2) ∧ gives (.fxCeil d a) (fxIntegral 3) ∧ gives (.fxRint d a) (fxRint rm)
    ∧ gives (.fxTrunc d a) (fxIntegral 1) ∧ gives (.fxFract d a) (fxOf (fractF32 rm)) ∧ gives (.fxClass d a) fxClass)
  ∧ Claims.RootsOnce ∧ Claims.SpecialOperands ∧ Claims.IntegralParts ∧ Claims.ExactArguments ∧ Claims.Classes ∧ Claims.ActSteps

/-- R51: narrowing to F8A, F8B or F4: overflow saturates, whatever the mode; a result of 0 is +0; UF says that a result tiny
after rounding is inexact, NX that any is. `mw` is the mantissa's width, 2^qmin the smallest subnormal, and the largest
value has its last place at 2^qtop. -/
def Claims.Narrows (f : FpFmt) (mw : Nat) (qmin qtop : Int) : Prop :=
  ∀ (rm : Nat) (neg : Bool) (m : Nat) (e : Int), 0 < m → rm < 4 →
    let t : Int := e + (Nat.log2 m : Int) - mw
    let q : Int := max t qmin
    let r := narrowTo f rm (.fin neg m e)
    ∃ n u, Claims.Rounds rm neg m e q n ∧ Claims.Rounds rm neg m e t u ∧
      let large := qtop < t ∨ (t = qtop ∧ 2 ^ (mw + 1) - 1 < u)
      let tiny := t < qmin ∧ (t = qmin - 1 → u < 2 ^ (mw + 1))
      (large → Claims.Is (ofNarrow f r.1) neg (2 ^ (mw + 1) - 1) qtop ∧ r.2 = evOF + evNX)
      ∧ (¬large → (n = 0 → r.1 = 0) ∧ (n ≠ 0 → Claims.Is (ofNarrow f r.1) neg n q)
        ∧ (Claims.Fits2 m e q → r.2 = 0) ∧ (¬Claims.Fits2 m e q → tiny → r.2 = evUF + evNX)
        ∧ (¬Claims.Fits2 m e q → ¬tiny → r.2 = evNX))

/-- R45, R55, R224: a conversion to an integer of bounds `lo` and `hi`: the value rounded to an integer, NX when that changes
it; the nearest bound with NV when it is out of range, 0 with NV for a NaN. -/
def Claims.ToInteger (g : Nat → List Word → Word × List Nat) (lo hi : Int) : Prop :=
  ∀ (rm : Nat) (x : Word),
    (ofF32 x = .nan → g rm [x] = (0, [evNV]))
    ∧ (∀ neg, ofF32 x = .inf neg → g rm [x] = (BitVec.ofInt 32 (if neg then lo else hi), [evNV]))
    ∧ ∀ neg m e, ofF32 x = .fin neg m e → rm < 4 → ∃ n : Nat, Claims.Rounds rm neg m e 0 n ∧
      let i : Int := if neg then -(n : Int) else n
      (i < lo → g rm [x] = (BitVec.ofInt 32 lo, [evNV])) ∧ (hi < i → g rm [x] = (BitVec.ofInt 32 hi, [evNV]))
      ∧ (lo ≤ i → i ≤ hi → (g rm [x]).1 = BitVec.ofInt 32 i ∧ (Claims.Fits2 m e 0 → (g rm [x]).2 = [0])
        ∧ (¬Claims.Fits2 m e 0 → (g rm [x]).2 = [evNX]))

/-- R47, R49 to R55, R224 to R226: what each conversion gives: an integer rounded to FP32; FP32 rounded to an integer, the
nearest bound with NV when out of range, 0 with NV for a NaN; the narrow codes' values; widening that is exact; narrowing
that rounds once. -/
def Claims.ConvertsOnce : Prop :=
  (∀ (rm : Nat) (x : Word),
    cvI2f rm [x] = (let r := roundF32 rm (.fin (decide (x.toInt < 0)) x.toInt.natAbs 0); (r.1, [r.2]))
    ∧ cvN2f rm [x] = (let r := roundF32 rm (.fin false x.toNat 0); (r.1, [r.2])))
  ∧ Claims.ToInteger cvF2i (-2 ^ 31) (2 ^ 31 - 1) ∧ Claims.ToInteger cvF2n 0 (2 ^ 32 - 1)
  ∧ (∀ c < 256, let s := Nat.testBit c 7
      (c ≠ 0x80 → ofNarrow f8a c = (if c / 8 % 16 = 0 then .fin s (c % 8) (-9) else .fin s (8 + c % 8) ((c / 8 % 16 : Nat) - 10)))
      ∧ (c ≠ 0x80 → ofNarrow f8b c = (if c / 4 % 32 = 0 then .fin s (c % 4) (-16) else .fin s (4 + c % 4) ((c / 4 % 32 : Nat) - 17)))
      ∧ ofNarrow f8a 0x80 = .nan ∧ ofNarrow f8b 0x80 = .nan)
  ∧ (∀ c < 16, (c ≠ 8 → ofNarrow f4 c = (if c / 2 % 4 = 0 then .fin (Nat.testBit c 3) (c % 2) (-1)
      else .fin (Nat.testBit c 3) (2 + c % 2) ((c / 2 % 4 : Nat) - 2))) ∧ ofNarrow f4 8 = .nan)
  ∧ Claims.Narrows f8a 3 (-9) 5 ∧ Claims.Narrows f8b 2 (-16) 14 ∧ Claims.Narrows f4 1 (-1) 1
  ∧ (∀ (f : FpFmt), f ∈ [f8a, f8b, f4] → ∀ rm, narrowTo f rm .nan = (f.signBit, 0)
      ∧ ∀ neg, narrowTo f rm (.inf neg) = ((if neg then f.signBit else 0) + (f.signBit - 1), evOF + evNX)
        ∧ ∀ e, narrowTo f rm (.fin neg 0 e) = (0, 0))
  ∧ (∀ (f : FpFmt), f ∈ [f16, bf16] → ∀ (rm : Nat) (x b : Word),
      cvF2x f rm [x] = (BitVec.ofNat 32 (roundTo f true rm (ofF32 x)).1, [(roundTo f true rm (ofF32 x)).2])
      ∧ (cvX2f f [x, b]).2 = []
      ∧ Claims.SameValue (ofF32 (cvX2f f [x, b]).1) (ofIeee f (x.toNat / 2 ^ (16 * (b.toNat % 2)) % 65536)))
  ∧ (∀ (el : Elem) (rm : Nat) (x y d : Word) (u v : Bool × Nat × Int), ofF32 x = Claims.value u → ofF32 y = Claims.value v →
      let c := encodeElem el rm (Claims.value (Claims.times u v))
      cvPk el rm 8 [x, y, d] = (BitVec.ofNat 32 (d.toNat / 2 ^ 8 + c.1 * 2 ^ 24), [c.2])
      ∧ cvPk el rm 4 [x, y, d] = (BitVec.ofNat 32 (d.toNat / 2 ^ 4 + c.1 * 2 ^ 28), [c.2]))
  ∧ (∀ (el : Elem) (x b : Word), (∀ f, el = .narrow f → f ∈ [f8a, f8b, f4]) → el ≠ .fp32 → (∀ f, el ≠ .ieee f) →
      (∀ lo hi n, el = .int lo hi n → n ≤ 8) → ∀ w ∈ [4, 8],
      let r := decodeElem el (x.toNat / 2 ^ (w * (b.toNat % (32 / w))) % 2 ^ w)
      Claims.SameValue (ofF32 (cvUp el w [x, b]).1) r.1 ∧ (cvUp el w [x, b]).2 = [if r.2 then evNV + evRC else 0])

/-- R47, R49 to R55, R224 to R226: each conversion gives every active lane its operand in the other format, rounded once; the
packed ones use the format of `fmt.EA`, one they accept, and are ILLOP with any other. -/
def Obligations.ConversionLanes : Prop :=
  Claims.ConvertsOnce ∧
  ∀ (s : State) (d a b : BitVec 7),
    let rm := s.r.rm
    let x := fun (k : OpKind) (l : Fin 32) => (s.src k a).at l
    let y := fun (k : OpKind) (l : Fin 32) => (s.src k b).at l
    (s.Fits d [a] →
      s.LanesEv (.cvI2f d a) 4 d (fun l => cvI2f rm [x .int l]) ∧ s.LanesEv (.cvN2f d a) 4 d (fun l => cvN2f rm [x .int l])
      ∧ s.LanesEv (.cvF2i d a) 4 d (fun l => cvF2i rm [x .fp l]) ∧ s.LanesEv (.cvF2n d a) 4 d (fun l => cvF2n rm [x .fp l])
      ∧ s.LanesEv (.cvF2h d a) 4 d (fun l => cvF2x f16 rm [x .fp l]) ∧ s.LanesEv (.cvF2b d a) 4 d (fun l => cvF2x bf16 rm [x .fp l]))
    ∧ (s.Fits d [a, b] →
      s.LanesEv (.cvH2f d a b) 4 d (fun l => cvX2f f16 [x (.pair false) l, y .int l])
      ∧ s.LanesEv (.cvB2f d a b) 4 d (fun l => cvX2f bf16 [x (.pair true) l, y .int l])
      ∧ ∀ e, elemOf s.r.fea = some e →
        (s.r.fea ∈ [3, 4, 6, 7] →
          s.LanesEv (.cvPk8 d a b) 4 d (fun l => cvPk e rm 8 [x .fp l, y .fp l, (s.src .int d).at l])
          ∧ s.LanesEv (.cvUp8 d a b) 4 d (fun l => cvUp e 8 [x .int l, y .int l]))
        ∧ (s.r.fea ∈ [5, 8, 9] →
          s.LanesEv (.cvPk4 d a b) 4 d (fun l => cvPk e rm 4 [x .fp l, y .fp l, (s.src .int d).at l])
          ∧ s.LanesEv (.cvUp4 d a b) 4 d (fun l => cvUp e 4 [x .int l, y .int l])))
    ∧ (s.quiet = true → (s.r.fea ∉ [3, 4, 6, 7] → ∀ i ∈ [Instr.cvPk8 d a b, .cvUp8 d a b], s.Raises i 4 tcILLOP s.r.exec 0 0)
      ∧ (s.r.fea ∉ [5, 8, 9] → ∀ i ∈ [Instr.cvPk4 d a b, .cvUp4 d a b], s.Raises i 4 tcILLOP s.r.exec 0 0))

/-- R48, R53, R57 to R59: what a dot step computes: of finite elements and accumulator the exact sum of the accumulator and
all the products, rounded once to FP32, and for `dot2` of flushed halves and flushed when tiny; a reserved code makes it the
NaN, and counts NV and RC once for each one read; an integer step's exact sum, modulo 2^32, or clamped with OF. -/
def Claims.DotOnce : Prop :=
  (∀ (ea eb : Elem) (rm w n : Nat) (a b d : Word) (z : Bool × Nat × Int) (xs ys : List (Bool × Nat × Int)),
    let at' := fun (v : Word) (i : Nat) => v.toNat / 2 ^ (w * i) % 2 ^ w
    ofF32 d = Claims.value z → xs.length = n → ys.length = n →
    (∀ i x, xs[i]? = some x → decodeElem ea (at' a i) = (Claims.value x, false)) →
    (∀ i y, ys[i]? = some y → decodeElem eb (at' b i) = (Claims.value y, false)) →
    dotF ea eb rm w n [a, b, d] = (let r := roundF32 rm (Claims.total rm (z :: List.zipWith Claims.times xs ys)); (r.1, [r.2])))
  ∧ (∀ (ea eb : Elem) (rm w n : Nat) (a b d : Word), ea ∈ [.narrow f8a, .narrow f8b, .narrow f4] →
    eb ∈ [.narrow f8a, .narrow f8b, .narrow f4] →
    let bad := fun (e : Elem) (v : Word) => (List.range n).filter (fun i => (decodeElem e (v.toNat / 2 ^ (w * i) % 2 ^ w)).2)
    let k := (bad ea a).length + (bad eb b).length
    k ≠ 0 → (dotF ea eb rm w n [a, b, d]).1 = 0x7FC00000 ∧ (dotF ea eb rm w n [a, b, d]).2.take k = List.replicate k (evNV + evRC))
  ∧ (∀ (f : FpFmt), f ∈ [f16, bf16] → ∀ (rm : Nat) (a b d : Word) (z x0 x1 y0 y1 : Bool × Nat × Int),
    ofF32 d = Claims.value z → Claims.half f a 0 = Claims.value x0 → Claims.half f a 1 = Claims.value x1 →
    Claims.half f b 0 = Claims.value y0 → Claims.half f b 1 = Claims.value y1 →
    dot2 f rm [a, b, d] = (let r := roundTo f32 true rm (Claims.total rm [z, Claims.times x0 y0, Claims.times x1 y1])
      (BitVec.ofNat 32 r.1, [r.2])))
  ∧ (∀ (lo hi lo' hi' : Int) (sat : Bool) (w n : Nat) (a b d : Word), w = 4 ∨ w = 8 → lo < 0 ∨ lo = 0 → lo' < 0 ∨ lo' = 0 →
    let at' := fun (l : Int) (v : Word) (i : Nat) =>
      let x : BitVec w := BitVec.ofNat w (v.toNat / 2 ^ (w * i))
      if l < 0 then x.toInt else (x.toNat : Int)
    let t := d.toInt + ((List.range n).map (fun i => at' lo a i * at' lo' b i)).sum
    dotI (.int lo hi w) (.int lo' hi' w) sat w n [a, b, d] =
      (BitVec.ofInt 32 (if sat then max (-2 ^ 31) (min (2 ^ 31 - 1) t) else t),
        [if sat ∧ (t < -2 ^ 31 ∨ 2 ^ 31 - 1 < t) then evOF else 0]))

/-- R48, R53, R57 to R59, R231: each dot product adds the products of its elements to the accumulator in D: exactly, rounded
once, for a floating step; modulo 2^32 or clamped for an integer step; with format codes it accepts, and ILLOP with
others. -/
def Obligations.DotLanes : Prop :=
  Claims.DotOnce ∧ ∀ (s : State) (d a b : BitVec 7), s.Fits d [a, b] →
    let rm := s.r.rm
    let xs := fun (k c : OpKind) (l : Fin 32) => [(s.src k a).at l, (s.src k b).at l, (s.src c d).at l]
    s.LanesEv (.dpDot2 d a b) 4 d (fun l => dot2 s.r.hfmt rm (xs (.pair s.r.h16) .fp l))
    ∧ (∀ ea eb, elemOf s.r.fea = some ea → elemOf s.r.feb = some eb →
      (s.r.fea ∈ [3, 4] → s.r.feb ∈ [3, 4] → s.LanesEv (.dpDot8f d a b) 4 d (fun l => dotF ea eb rm 8 4 (xs .int .fp l)))
      ∧ (s.r.fea = 5 → s.r.feb = 5 → s.LanesEv (.dpDot4f d a b) 4 d (fun l => dotF ea eb rm 4 8 (xs .int .fp l)))
      ∧ (s.r.fea ∈ [6, 7] → s.r.feb ∈ [6, 7] → s.LanesEv (.dpDot8i d a b) 4 d (fun l => dotI ea eb s.r.sat 8 4 (xs .int .int l)))
      ∧ (s.r.fea ∈ [8, 9] → s.r.feb ∈ [8, 9] → s.LanesEv (.dpDot4i d a b) 4 d (fun l => dotI ea eb s.r.sat 4 8 (xs .int .int l))))
    ∧ (s.quiet = true → let bad := fun (i : Instr) => s.Raises i 4 tcILLOP s.r.exec 0 0
      (s.r.fea ∉ [3, 4] ∨ s.r.feb ∉ [3, 4] → bad (.dpDot8f d a b)) ∧ (s.r.fea ≠ 5 ∨ s.r.feb ≠ 5 → bad (.dpDot4f d a b))
      ∧ (s.r.fea ∉ [6, 7] ∨ s.r.feb ∉ [6, 7] → bad (.dpDot8i d a b))
      ∧ (s.r.fea ∉ [8, 9] ∨ s.r.feb ∉ [8, 9] → bad (.dpDot4i d a b)))

/-- R38, R63: `q` is `r` with `n i` events of each kind i merged: each raised one ORed into FFLAGS, its enables as they were,
and its number added to its 16-bit count, which stops at 0xFFFF. -/
def Claims.Merged (r q : Regs) (n : Nat → Nat) : Prop :=
  let sat := fun (c : Word) (hi lo : Nat) => min 0xFFFF (c.toNat / 2 ^ 16 + n hi) * 2 ^ 16 + min 0xFFFF (c.toNat % 2 ^ 16 + n lo)
  q = { r with fflags := q.fflags, fcount0 := q.fcount0, fcount1 := q.fcount1, fcount2 := q.fcount2 }
  ∧ (∀ i, i < 6 → q.fflags.getLsbD i = (r.fflags.getLsbD i || decide (0 < n i)))
  ∧ (∀ i, 6 ≤ i → q.fflags.getLsbD i = r.fflags.getLsbD i)
  ∧ q.fcount0.toNat = sat r.fcount0 1 0 ∧ q.fcount1.toNat = sat r.fcount1 3 2 ∧ q.fcount2.toNat = sat r.fcount2 5 4

/-- R38: the event sets of one instruction merge, one count for every set that holds the event. -/
def Claims.Flags : Prop :=
  ∀ (r : Regs) (evs : List Nat), (∀ e ∈ evs, e < 64) →
    Claims.Merged r (r.mergeEvents evs) (fun i => (evs.filter (fun e => e.testBit i)).length)

/-- R37, R152, R154: a gang `u` on a boundary takes FPX: TF_PC holds the next PC, TF_CODE FPX, TF_LANES and TF_ADDR 0, TF_INFO
the enabled events, with bit 31 when the watchdog's count was reached as well; s28 to s31 go to the trap shadow and hold the
same; `exec`, `fmt`, the window and every other register stand, and the gang runs on at the handler. -/
def Claims.Fpx (u t : State) (x : Nat) (h : Va) : Prop :=
  let info : Word := BitVec.ofNat 32 x ||| (if u.r.wdDue then 0x80000000 else 0)
  t = { u with gangs := t.gangs } ∧ (∀ k, k ≠ u.cur → t.gangAt k = u.gangAt k)
  ∧ t.gang = { u.gang with
    trap := true, ext := none, wait := .none, promoted := false, releasing := none
    fault := { code := 0x17, pc := u.r.pc, info := info, exec := u.r.exec, fmt := u.r.fmt, resume := u.r.pc }
    shadow := #v[u.r.sreg 28, u.r.sreg 29, u.r.sreg 30, u.r.sreg 31]
    r := { (((u.r.setS 28 0x17).setS 29 0).setS 30 0).setS 31 info with
      pc := h, wdDue := false, tfPc := u.r.pc.setWidth 32, tfExec := u.r.exec, tfFmt := u.r.fmt, tfCode := 0x17, tfLanes := 0
      tfAddr := 0, tfInfo := info } }

/-- R37, R63, R170, R220 to R231: an instruction that raises an event whose enable is set completes, writing its results,
flags and counts, and then takes FPX on the boundary after it; so do the words and halfwords of every floating family, and
an ordered compare. -/
def Claims.EnabledEvents : Prop :=
  ∀ (s : State) (d a b : BitVec 7) (v : BitVec 6) (c m : BitVec 5) (h : Va), s.quiet = true → s.gang.recipe = none →
    s.gang.trap = false → s.grid.k.handler = some h →
    let rm := s.r.rm
    let xs := fun (k : OpKind) (l : Fin 32) => [(s.src k a).at l, (s.src k b).at l]
    let acc := fun (k : OpKind) (l : Fin 32) => xs k l ++ [(s.src k d).at l]
    let p := OpKind.pair s.r.h16
    let traps := fun (i : Instr) (len : Nat) (e : BitVec 7) (f : Fin 32 → Word × List Nat) =>
      let x := s.r.fpx (s.laneEvents f)
      x ≠ 0 → s.Runs i (fun t => ∃ u, s.Delivers u len e (fun l => (f l).1) (s.laneEvents f) ∧ Claims.Fpx u t x h)
    (s.Fits d [a, b] →
      traps (.faAdd d a b) 4 d (fun l => faAdd rm (xs .fp l)) ∧ traps (.faSub d a b) 4 d (fun l => faSub rm (xs .fp l))
      ∧ traps (.faMul d a b) 4 d (fun l => faMul rm (xs .fp l)) ∧ traps (.faFmac d a b) 4 d (fun l => faFmac rm (acc .fp l))
      ∧ traps (.faFnmac d a b) 4 d (fun l => faFnmac rm (acc .fp l))
      ∧ traps (.fhAdd d a b) 4 d (fun l => fhAdd s.r.hfmt rm (xs p l)) ∧ traps (.fhSub d a b) 4 d (fun l => fhSub s.r.hfmt rm (xs p l))
      ∧ traps (.fhMul d a b) 4 d (fun l => fhMul s.r.hfmt rm (xs p l)) ∧ traps (.fhFmac d a b) 4 d (fun l => fhFmac s.r.hfmt rm (acc p l))
      ∧ traps (.fhPk d a b) 4 d (fun l => fhPk s.r.hfmt rm (xs .fp l))
      ∧ traps (.dpDot2 d a b) 4 d (fun l => dot2 s.r.hfmt rm [(s.src p a).at l, (s.src p b).at l, (s.src .fp d).at l]))
    ∧ (s.Fits d [a] →
      traps (.fxRcp d a) 4 d (fun l => fxOf (rcpF32 rm) [(s.src .fp a).at l])
      ∧ traps (.fxSqrt d a) 4 d (fun l => fxOf (sqrtF32 rm) [(s.src .fp a).at l])
      ∧ traps (.cvI2f d a) 4 d (fun l => cvI2f rm [(s.src .int a).at l])
      ∧ traps (.cvF2i d a) 4 d (fun l => cvF2i rm [(s.src .fp a).at l])
      ∧ traps (.cvF2h d a) 4 d (fun l => cvF2x f16 rm [(s.src .fp a).at l]))
    ∧ (s.gang.ext = none →
      let ys := fun l => [(s.r.vreg v).at l, (s.r.vreg (c.setWidth 6)).at l]
      traps (.cFadd v c) 2 (v.setWidth 7) (fun l => faAdd rm (ys l)) ∧ traps (.cFmul v c) 2 (v.setWidth 7) (fun l => faMul rm (ys l)))
    ∧ (s.Fits 0 [a, b] →
      let nan := fun l => (ofF32 ((s.src .fp a).at l)).isNan || (ofF32 ((s.src .fp b).at l)).isNan
      let evs := s.laneEvents (fun l => (0, if nan l then [evNV] else []))
      let lt := maskOf (fun l => lane s.r.exec l && !nan l && (ofF32 ((s.src .fp a).at l)).lt (ofF32 ((s.src .fp b).at l)))
      s.r.fpx evs ≠ 0 → s.Runs (.cmpFlt m a b) (fun t => ∃ u,
        s.RetiresRd u (s.nextPc 4) ((s.r.setS m lt).mergeEvents evs)
        ∧ u.r.wdDue = s.watched.wdDue ∧ Claims.Fpx u t (s.r.fpx evs) h))

/-- R37: the events that turn into FPX are those raised whose enable, the bit of FFLAGS[13:8] of the same number, is set. -/
def Claims.Enables : Prop :=
  (∀ (r : Regs) (evs : List Nat) (i : Nat), (∀ e ∈ evs, e < 64) →
    ((r.fpx evs).testBit i = true ↔ i < 6 ∧ r.fflags.getLsbD (8 + i) = true ∧ ∃ e ∈ evs, e.testBit i = true))
  ∧ ∀ (s : State) (d a b : BitVec 7) (h : Va), s.Fits d [a, b] → s.quiet = true → s.gang.recipe = none → s.gang.trap = false →
    s.grid.k.handler = some h →
    let f := fun (l : Fin 32) => faAdd s.r.rm [(s.src .fp a).at l, (s.src .fp b).at l]
    let enabled := fun (i : Nat) => i < 6 ∧ s.r.fflags.getLsbD (8 + i) = true
      ∧ ∃ l, lane s.r.exec l = true ∧ ∃ e ∈ (f l).2, e.testBit i = true
    ((∀ i, ¬enabled i) → s.Runs (.faAdd d a b) (fun t => s.Delivers t 4 d (fun l => (f l).1) (s.laneEvents f)))
    ∧ ((∃ i, enabled i) → s.Runs (.faAdd d a b) (fun t => t.gang.trap = true ∧ t.r.pc = h ∧ t.r.tfCode = 0x17
      ∧ t.r.tfPc = (s.nextPc 4).setWidth 32 ∧ ∀ i < 31, t.r.tfInfo.getLsbD i = true ↔ enabled i))

/-- R37, R38: flags, counts and enabled events. Where the spec leaves it open, this is the model's choice of assumption
38. -/
def Obligations.FlagsAndCounts : Prop := Claims.Flags ∧ Claims.Enables ∧ Claims.EnabledEvents

/-- R46: the minimum and the maximum order −0 below +0; of a NaN and another operand they give the other, of two NaNs
0x7FC00000; they raise no event. -/
def Claims.MinMax : Prop :=
  ∀ (x y : Word),
    let nan := fun (w : Word) => (ofF32 w).isNan
    let below := fun (v w : Word) => (ofF32 v).lt (ofF32 w) = true ∨ (v = 0x80000000 ∧ w = 0)
    let give := fun (lo hi : Word) => faMinMax false [x, y] = (lo, []) ∧ faMinMax true [x, y] = (hi, [])
    (nan x = true → nan y = false → give y y) ∧ (nan x = false → nan y = true → give x x)
    ∧ (nan x = true → nan y = true → give 0x7FC00000 0x7FC00000)
    ∧ (nan x = false → nan y = false → x = y → give x x)
    ∧ (nan x = false → nan y = false → x ≠ y → (below x y ∧ give x y) ∨ (below y x ∧ give y x))

/-- R45: a NaN result is 0x7FC00000 whatever the operands; a quiet NaN operand raises nothing in arithmetic. -/
def Claims.Nans : Prop :=
  ∀ (rm : Nat) (x y z : Word),
    (∀ f ∈ [faAdd rm, faSub rm, faMul rm, faFmac rm, faFnmac rm, faMinMax false, faMinMax true, faAbs, faNeg, faCopysign,
        fxOf (rcpF32 rm), fxOf (rsqrtF32 rm), fxOf (sqrtF32 rm), fxOf (exp2F32 rm), fxOf (log2F32 rm), fxOf (turnF32 false rm),
        fxOf (turnF32 true rm), fxOf (tanhF32 rm), fxOf (fractF32 rm), fxIntegral 1, fxIntegral 2, fxIntegral 3, fxRint rm,
        cvX2f f16, cvX2f bf16],
      (ofF32 (f [x, y, z]).1).isNan = true → (f [x, y, z]).1 = 0x7FC00000)
    ∧ ((ofF32 x).isNan = true ∨ (ofF32 y).isNan = true → (∀ f ∈ [faAdd rm, faSub rm, faMul rm], f [x, y] = (0x7FC00000, [0]))
      ∧ ∀ f ∈ [faFmac rm, faFnmac rm], f [x, y, z] = (0x7FC00000, [0]))
    ∧ ((ofF32 x).isNan = true → ∀ f ∈ [rcpF32 rm, rsqrtF32 rm, sqrtF32 rm, exp2F32 rm, log2F32 rm, turnF32 false rm,
        turnF32 true rm, tanhF32 rm, fractF32 rm], fxOf f [x] = (0x7FC00000, [0]))

/-- R45: the invalid operations give 0x7FC00000 with NV: ∞ − ∞, 0 × ∞, 0/0 and √x for x < 0. -/
def Claims.InvalidOperations : Prop :=
  ∀ (rm : Nat) (x y z : Word) (s t u : Bool) (m : Nat) (e : Int),
    let invalid : Word × List Nat := (0x7FC00000, [evNV])
    (ofF32 x = .inf s → ofF32 y = .inf t → (s ≠ t → faAdd rm [x, y] = invalid) ∧ (s = t → faSub rm [x, y] = invalid))
    ∧ (ofF32 x = .inf s → ofF32 y = .fin t 0 e → (∀ f ∈ [[x, y], [y, x]], faMul rm f = invalid)
      ∧ ∀ f ∈ [[x, y, z], [y, x, z]], faFmac rm f = invalid ∧ faFnmac rm f = invalid)
    ∧ (ofF32 x = .inf s → ofF32 y = .fin t m e → m ≠ 0 → ofF32 z = .inf u → ∀ f ∈ [[x, y, z], [y, x, z]],
      if u = (s != t) then faFnmac rm f = invalid else faFmac rm f = invalid)
    ∧ divF32 rm (.fin s 0 e) (.fin t 0 m) = (0x7FC00000, evNV)
    ∧ (ofF32 x = .inf true ∨ (ofF32 x = .fin true m e ∧ m ≠ 0) → fxOf (sqrtF32 rm) [x] = invalid)

/-- R45: an ordered compare with a NaN operand in an active lane sets NV. -/
def Claims.OrderedNans : Prop :=
  ∀ (s : State) (d : BitVec 5) (a b : BitVec 7) (l : Fin 32), s.Fits 0 [a, b] → lane s.r.exec l = true →
    (ofF32 ((s.src .fp a).at l)).isNan = true ∨ (ofF32 ((s.src .fp b).at l)).isNan = true → s.r.fpx [evNV] = 0 →
    ∀ i ∈ [Instr.cmpFlt d a b, .cmpFle d a b, .cmpFgt d a b, .cmpFge d a b], s.Runs i (fun t => t.r.fflags.getLsbD 0 = true)

/-- R45, R46: NaNs, the invalid operations, minima and maxima. -/
def Obligations.NanResults : Prop :=
  Claims.Nans ∧ Claims.InvalidOperations ∧ Claims.ToInteger cvF2i (-2 ^ 31) (2 ^ 31 - 1) ∧ Claims.ToInteger cvF2n 0 (2 ^ 32 - 1)
  ∧ Claims.OrderedNans ∧ Claims.MinMax

/-- R44: one rounding. The magnitude m × 2^e becomes a multiple n of 2^q, 2^q being the last place of a 24-bit significand
and at least 2^−149: the nearest, a tie going to the even one, the one below, or the one on the side the mode names. NX says
that it is not the exact value; a multiple below 2^128 is delivered, and another overflows. -/
def Claims.RoundedOnce : Prop :=
  ∀ (rm : Nat) (neg : Bool) (m : Nat) (e : Int), 0 < m → rm < 4 →
    let q : Int := max (e + (Nat.log2 m : Int) - 23) (-149)
    let exact : Nat := m * 2 ^ (e - min e q).toNat
    let unit : Nat := 2 ^ (q - min e q).toNat
    let r := roundF32 rm (.fin neg m e)
    ∃ n : Nat,
      (rm = 0 → 2 * (n * unit) ≤ 2 * exact + unit ∧ 2 * exact ≤ 2 * (n * unit) + unit
        ∧ (2 * (n * unit) = 2 * exact + unit ∨ 2 * exact = 2 * (n * unit) + unit → n % 2 = 0))
      ∧ (rm = 1 ∨ (rm = 2 ∧ neg = false) ∨ (rm = 3 ∧ neg = true) → n * unit ≤ exact ∧ exact < n * unit + unit)
      ∧ (rm = 2 ∧ neg = true ∨ rm = 3 ∧ neg = false → exact ≤ n * unit ∧ n * unit < exact + unit)
      ∧ (q < 104 ∨ (q = 104 ∧ n < 2 ^ 24) → ((r.2.testBit 4 = true) ↔ n * unit ≠ exact) ∧ r.2.testBit 2 = false
        ∧ ∃ (k : Nat) (p : Int), ofF32 r.1 = .fin neg k p ∧ q ≤ p ∧ n = k * 2 ^ (p - q).toNat)
      ∧ (104 < q ∨ (q = 104 ∧ 2 ^ 24 ≤ n) → r.2 = evOF + evNX
        ∧ ofF32 r.1 = if rm = 0 ∨ (rm = 2 ∧ neg = true) ∨ (rm = 3 ∧ neg = false) then .inf neg else .fin neg (2 ^ 24 - 1) 104)

/-- R44, R57, R220: a sum, a difference and a product of finite operands is the exact one rounded once; an exact zero takes
the sign IEEE 754 gives it. -/
def Claims.ExactOnce : Prop :=
  ∀ (rm : Nat) (x y : Word) (s t : Bool) (m n : Nat) (e f : Int), ofF32 x = .fin s m e → ofF32 y = .fin t n f →
    let lo := min e f
    let part := fun (neg : Bool) (k : Nat) (p : Int) => ((if neg then -1 else 1) * (k * 2 ^ (p - lo).toNat : Nat) : Int)
    let gives := fun (r : Word × List Nat) (i : Int) (zero : Bool) =>
      r = ((roundF32 rm (if i = 0 then .fin zero 0 0 else .fin (decide (i < 0)) i.natAbs lo)).1,
        [(roundF32 rm (if i = 0 then .fin zero 0 0 else .fin (decide (i < 0)) i.natAbs lo)).2])
    let zero := fun (u v : Bool) => if m = 0 ∧ n = 0 ∧ u = v then u else rm == 2
    gives (faAdd rm [x, y]) (part s m e + part t n f) (zero s t)
    ∧ gives (faSub rm [x, y]) (part s m e - part t n f) (zero s !t)
    ∧ faMul rm [x, y] = ((roundF32 rm (.fin (s != t) (m * n) (e + f))).1, [(roundF32 rm (.fin (s != t) (m * n) (e + f))).2])

/-- R44, R47, R48, R52: one rounding into a format whose mantissa has `mw` bits, whose smallest subnormal is 2^qmin and whose
largest value has its last place at 2^qtop: OF and NX with an infinity, or the largest value, on the side the mode names; NX
says that the value is inexact, and UF that it is also tiny: below the smallest normal when rounded with an unbounded
exponent. With `flush` a tiny result is a zero of its sign, with both. -/
def Claims.RoundsInto (f : FpFmt) (flush : Bool) (mw : Nat) (qmin qtop : Int) : Prop :=
  ∀ (rm : Nat) (neg : Bool) (m : Nat) (e : Int), 0 < m → rm < 4 →
    let t : Int := e + (Nat.log2 m : Int) - mw
    let q : Int := max t qmin
    let r := roundTo f flush rm (.fin neg m e)
    ∃ n u, Claims.Rounds rm neg m e q n ∧ Claims.Rounds rm neg m e t u ∧
      let large := qtop < q ∨ (q = qtop ∧ 2 ^ (mw + 1) ≤ n)
      let tiny := t < qmin ∧ (t = qmin - 1 → u < 2 ^ (mw + 1))
      (large → r.2 = evOF + evNX ∧ ofIeee f r.1 =
        if rm = 0 ∨ (rm = 2 ∧ neg = true) ∨ (rm = 3 ∧ neg = false) then .inf neg else .fin neg (2 ^ (mw + 1) - 1) qtop)
      ∧ (¬large → tiny → flush = true → ofIeee f r.1 = .fin neg 0 qmin ∧ r.2 = evUF + evNX)
      ∧ (¬large → ¬(tiny ∧ flush = true) → Claims.Is (ofIeee f r.1) neg n q
        ∧ (Claims.Fits2 m e q → r.2 = 0) ∧ (¬Claims.Fits2 m e q → tiny → r.2 = evUF + evNX)
        ∧ (¬Claims.Fits2 m e q → ¬tiny → r.2 = evNX))

/-- R44, R47, R48, R52, R57, R220: sums and products are exact and rounded once; what one rounding is in FP32, in FP16 and in
BF16. -/
def Obligations.Rounding : Prop :=
  Claims.RoundedOnce ∧ Claims.ExactOnce ∧ Claims.RoundsInto f32 false 23 (-149) 104 ∧ Claims.RoundsInto f32 true 23 (-149) 104
  ∧ Claims.RoundsInto f16 true 10 (-24) 5 ∧ Claims.RoundsInto bf16 true 7 (-133) 120

/-- R227: a compare writes sD with one bit for each active lane where its condition holds, whatever `exec` is; ordered
compares of a NaN raise NV. -/
def Claims.Compares : Prop :=
  ∀ (s : State) (d : BitVec 5) (a b : BitVec 7), s.Fits 0 [a, b] →
    let lanes := fun (c : Fin 32 → Bool) => maskOf (fun l => lane s.r.exec l && c l)
    let x := fun l => (s.src .int a).at l
    let y := fun l => (s.src .int b).at l
    let p := fun l => ofF32 ((s.src .fp a).at l)
    let q := fun l => ofF32 ((s.src .fp b).at l)
    let nan := fun l => (p l).isNan || (q l).isNan
    let int := fun (i : Instr) (c : Word → Word → Bool) => s.WritesRd i (s.r.setS d (lanes (fun l => c (x l) (y l))))
    let quiet := fun (i : Instr) (c : Fin 32 → Bool) => s.WritesRd i (s.r.setS d (lanes c))
    let ordered := fun (i : Instr) (c : Machine.Num → Machine.Num → Bool) =>
      let evs := s.laneEvents (fun l => (0, if nan l then [evNV] else []))
      s.r.fpx evs = 0 → s.WritesRd i ((s.r.setS d (lanes (fun l => !nan l && c (p l) (q l)))).mergeEvents evs)
    quiet (.cmpFeq d a b) (fun l => !nan l && (p l).eq (q l)) ∧ quiet (.cmpFne d a b) (fun l => nan l || !(p l).eq (q l))
    ∧ quiet (.cmpFun d a b) nan ∧ quiet (.cmpFord d a b) (fun l => !nan l)
    ∧ ordered (.cmpFlt d a b) (fun p q => p.lt q) ∧ ordered (.cmpFle d a b) (fun p q => !q.lt p)
    ∧ ordered (.cmpFgt d a b) (fun p q => q.lt p) ∧ ordered (.cmpFge d a b) (fun p q => !p.lt q)
    ∧ int (.cmpIeq d a b) (fun x y => x == y) ∧ int (.cmpIne d a b) (fun x y => x != y)
    ∧ int (.cmpIlt d a b) (fun x y => x.slt y) ∧ int (.cmpIle d a b) (fun x y => x.sle y)
    ∧ int (.cmpNlt d a b) (fun x y => x.ult y) ∧ int (.cmpNle d a b) (fun x y => x.ule y)
    ∧ int (.cmpTst d a b) (fun x y => (x &&& y) != 0)

/-- R230: `ballot`, `vgrp` and `elect` write scalar registers from the active lanes, with none active as well. -/
def Claims.MaskWriters : Prop :=
  ∀ (s : State) (d : BitVec 5) (a : BitVec 7),
    let x := fun l => (s.src .int a).at l
    (s.Fits 0 [a] →
      s.WritesRd (.xlBallot d a) (s.r.setS d (maskOf (fun l => lane s.r.exec l && x l != 0)))
      ∧ (d ≠ 31 → s.WritesRd (.xlVgrp d a) (match lowest s.r.exec with
          | some j => (s.r.setS d (maskOf (fun l => lane s.r.exec l && x l == x j))).setS (d + 1) (x j)
          | none => (s.r.setS d 0).setS (d + 1) 0)))
    ∧ (s.Fits 0 [a] → s.quiet = true → s.Raises (.xlVgrp 31 a) 4 tcILLOP s.r.exec 0 0)
    ∧ (s.gang.ext = none → s.WritesRd (.xlElect d) (s.r.setS d (match lowest s.r.exec with
          | some j => BitVec.ofNat 32 (2 ^ j.val)
          | none => 0)))

/-- R227, R230: compares, and the instructions that write a mask of lanes. -/
def Obligations.Compares : Prop := Claims.Compares ∧ Claims.MaskWriters

/-- R61, R229: each cross-lane function gives every active lane the value of the table; the sums and extrema run over the
active lanes in ascending order. -/
def Obligations.CrossLanes : Prop :=
  ∀ (s : State) (d a b : BitVec 7),
    let x := fun l => (s.src .int a).at l
    let y := fun l => (s.src .int b).at l
    let f := fun l => (s.src .fp a).at l
    let n := fun (w : Word) => (⟨w.toNat % 32, Nat.mod_lt _ (by decide)⟩ : Fin 32)
    let act := lanesOf s.r.exec
    let low := act.headD 0
    let high := act.getLastD 0
    let sum := fun (ls : List (Fin 32)) => ls.foldl (fun t l => t + x l) (0 : Word)
    let pick := fun (isMax : Bool) => act.tail.foldl
      (fun t l => BitVec.ofNat 32 (minMax f32 isMax t.toNat (f l).toNat (ofF32 t) (ofF32 (f l)))) (canon (f low) (f low))
    let adds := act.tail.foldl (fun (t : Word × List Nat) l =>
      ((sumF32 s.r.rm [termOf (ofF32 t.1), termOf (ofF32 (f l))]).1,
        t.2 ++ [(sumF32 s.r.rm [termOf (ofF32 t.1), termOf (ofF32 (f l))]).2])) (canon (f low) (f low), [])
    (s.Fits d [a, b] →
      s.Lanes (.xlShuf d a b) 4 d (fun l => x (n (y l)))
      ∧ s.Lanes (.xlShx d a b) 4 d (fun l => x (n (BitVec.ofNat 32 (l.val ^^^ (y l).toNat % 32))))
      ∧ s.Lanes (.xlBcast d a b) 4 d (fun _ => x (n (y low))))
    ∧ (s.Fits d [a] →
      s.Lanes (.xlRdf d a) 4 d (fun _ => x low) ∧ s.Lanes (.xlRdl d a) 4 d (fun _ => x high)
      ∧ s.Lanes (.xlRadd d a) 4 d (fun _ => sum act) ∧ s.Lanes (.xlScan d a) 4 d (fun l => sum (act.filter (fun j => j ≤ l)))
      ∧ s.Lanes (.xlRmin d a) 4 d (fun _ => pick false) ∧ s.Lanes (.xlRmax d a) 4 d (fun _ => pick true)
      ∧ (s.r.fpx adds.2 = 0 → s.Runs (.xlFradd d a) (fun t => s.Delivers t 4 d (fun _ => adds.1) adds.2)))

/-- R31, R228, R229, R232: `sel` takes each launched active lane from A or B by the mask register; `xl.wrl` writes one
lane; `shp.tag` gives the tag's code, `shp.aff` and `shp.uni` keep every value, `shp.expand` and `shp.cmpr` spread and
gather the active lanes. Where the spec leaves it open, this is the model's choice of assumption 54. -/
def Obligations.LaneMoves : Prop :=
  ∀ (s : State) (d a b : BitVec 7) (v : BitVec 6) (k : BitVec 4),
    let x := fun l => (s.src .int a).at l
    let y := fun l => (s.src .int b).at l
    let act := lanesOf s.r.exec
    let m := s.r.sreg (k.setWidth 5 + 16)
    let merges := fun (i : Instr) (f : Fin 32 → Word) => s.Runs i (fun t => ∃ r, s.RetiresRd t (s.nextPc 4) (s.r.setV v r)
      ∧ ∀ l, lane s.gang.launched l = true → r.at l = f l)
    (s.Fits d [a, b] → (∀ l, lane s.r.exec l = true → lane s.gang.launched l = true) →
      s.Lanes (.sel d a b k) 4 d (fun l => if lane m l then x l else y l))
    ∧ (s.Fits 0 [a, b] → ∀ j, lowest s.r.exec = some j → merges (.xlWrl v a b) (fun l =>
        if l.val = (y j).toNat % 32 then x j else (s.r.vreg v).at l))
    ∧ (s.Fits d [a] →
      s.Lanes (.shpTag d a) 4 d (fun _ => match s.src .int a with
        | .u _ => 0
        | .a _ _ => 1
        | .g _ => 2)
      ∧ s.Lanes (.shpAff d a) 4 d x ∧ s.Lanes (.shpUni d a) 4 d x
      ∧ s.Lanes (.shpExpand d a) 4 d (fun l => x ⟨(act.filter (fun j => j < l)).length % 32, Nat.mod_lt _ (by decide)⟩))
    ∧ (s.Fits 0 [a] → (∀ l : Fin 32, l.val < act.length → lane s.gang.launched l = true) →
      merges (.shpCmpr v a) (fun l => (act[l.val]?).elim ((s.r.vreg v).at l) x))

/-! ### Memory and scratchpad instructions -/

/-- R233, R175: the displacement of an ME instruction: units of the size, or a prefix's 20-bit offset. -/
def Claims.disp (s : State) (i : BitVec 3) (size : Nat) : Va :=
  match s.gang.ext with
  | none => BitVec.ofNat 48 (i.toNat * size)
  | some p => (p.setWidth 20).signExtend 48

/-- R233: the base, a lane's offset and the displacement. -/
def Claims.sum (s : State) (b : BitVec 5) (o : BitVec 6) (n : BitVec 1) (i : BitVec 3) (size : Nat) (l : Fin 32) : Va :=
  (s.r.sreg b).setWidth 48 + (if n = 1 then 0 else ((s.r.vreg o).at l).signExtend 48) + Claims.disp s i size

/-- R233: the VA of a lane: the data segment and the sum. -/
def Claims.va (s : State) (b : BitVec 5) (o : BitVec 6) (n : BitVec 1) (i : BitVec 3) (size : Nat) (l : Fin 32) : Nat :=
  ((s.grid.params &&& 0xFFFF00000000) + Claims.sum s b o n i size l).toNat

/-- R233: the scratchpad offset of a lane. -/
def Claims.off (s : State) (b : BitVec 5) (o : BitVec 6) (n : BitVec 1) (i : BitVec 3) (size : Nat) (l : Fin 32) : Nat :=
  ((Claims.sum s b o n i size l).setWidth 32 : Word).toNat

/-- R234, R175: the fields of an ME instruction whose group has `k` registers are ones it may have. -/
def Claims.MeForm (s : State) (load : Bool) (v : BitVec 6) (k : Nat) (o : BitVec 6) (n : BitVec 1) (i : BitVec 3) : Prop :=
  (n = 1 → o = 0) ∧ v.toNat + k ≤ 64 ∧ ∀ p, s.gang.ext = some p → i = 0 ∧ (load = true ∨ p.toNat < 2 ^ 20)

/-- R235, R28: the access of an active lane is aligned and, for a store, clear of the gang's spill area. -/
def Claims.Aligned (s : State) (size : Nat) (va : Fin 32 → Nat) : Prop :=
  ∀ l, lane s.r.exec l = true → va l % size = 0 ∧ (va l + size ≤ s.r.spbase.toNat ∨ s.r.splim.toNat ≤ va l)

/-- R110: the access of an active lane translates under the pinned root to local DRAM at `pa`; Grant has built no parameter
block for the gang's grid or one above it. -/
def Claims.Reaches (s : State) (write : Bool) (va pa : Fin 32 → Nat) : Prop :=
  s.hasBlocks s.cur = false ∧ ∀ l, lane s.r.exec l = true → s.needsRefresh write false (va l) = false
    ∧ (∃ n, s.gxlate write false (va l) = .ok (.dram (pa l)) n)

/-- R28: what an active lane reads lies in no spill area of the address space, where the bytes are undefined. -/
def Claims.Defined (s : State) (size : Nat) (va : Fin 32 → Nat) : Prop := ∀ l, lane s.r.exec l = true → s.inSpill (va l) size = false

/-- R109: no active lane reads a poisoned line. -/
def Claims.Sound (s : State) (pa : Fin 32 → Nat) : Prop := ∀ l, lane s.r.exec l = true → s.poisoned (.dram (pa l)) = false

/-- R85: the L1 of the gang's core has a way for the line of each active lane: it holds the line, or read sets do not hold all
16 ways of the line's set. -/
def Claims.Room (s : State) (pa : Fin 32 → Nat) : Prop := ∀ l, lane s.r.exec l = true → s.l1Full s.wg.core (pa l / 128) = false

/-- The registers after a group of `k` is written from vV upward: in an active lane word `j` gets `f j`. -/
def Claims.Group (s : State) (r : Regs) (v : BitVec 6) (k : Nat) (f : Nat → Fin 32 → Word) : Prop :=
  r = { s.r with win := r.win } ∧ (∀ w : BitVec 6, w.toNat < v.toNat ∨ v.toNat + k ≤ w.toNat → r.vreg w = s.r.vreg w)
  ∧ ∀ j, j < k → ∀ l, lane s.gang.launched l = true →
    (r.vreg (v + BitVec.ofNat 6 j)).at l = if lane s.r.exec l then f j l else (s.r.vreg (v + BitVec.ofNat 6 j)).at l

/-- The instruction retires with a group written; but for cache lines nothing else of the machine changes. -/
def Claims.Loads (s : State) (i : Instr) (v : BitVec 6) (k : Nat) (f : Nat → Fin 32 → Word) : Prop :=
  s.Runs i (fun t => t = { s with gangs := t.gangs, clk := t.clk, lines := t.lines }
    ∧ (∀ g, g ≠ s.cur → t.gangAt g = s.gangAt g) ∧ ∃ r, s.gang.Moved t.gang (s.nextPc 4) r ∧ Claims.Group s r v k f)

/-- R235 to R237: each `ld` writes its register group, in each active lane, with the bytes at the lane's address: extended
by sign or by zero, or as words. -/
def Claims.VectorLoads : Prop :=
  ∀ (s : State) (v : BitVec 6) (b : BitVec 5) (o : BitVec 6) (n : BitVec 1) (i : BitVec 3) (pa : Fin 32 → Nat),
    s.gang.stores = [] → s.holdLoads = false →
    let can := fun (size k : Nat) => Claims.MeForm s true v k o n i ∧ Claims.Aligned s size (Claims.va s b o n i size)
      ∧ Claims.Defined s size (Claims.va s b o n i size) ∧ Claims.Reaches s false (Claims.va s b o n i size) pa
      ∧ Claims.Sound s pa ∧ Claims.Room s pa
    let byte := fun (j : Nat) (l : Fin 32) => memRead s.mem (pa l + j)
    let word := fun (j : Nat) (l : Fin 32) => Claims.word s.mem (pa l + 4 * j)
    (can 1 1 → Claims.Loads s (.ldB v b o n i) v 1 (fun _ l => (byte 0 l).signExtend 32)
      ∧ Claims.Loads s (.ldBn v b o n i) v 1 (fun _ l => (byte 0 l).setWidth 32))
    ∧ (can 2 1 → Claims.Loads s (.ldH v b o n i) v 1 (fun _ l => (byte 1 l ++ byte 0 l).signExtend 32)
      ∧ Claims.Loads s (.ldHn v b o n i) v 1 (fun _ l => (byte 1 l ++ byte 0 l).setWidth 32))
    ∧ (can 4 1 → Claims.Loads s (.ldW v b o n i) v 1 word) ∧ (can 8 2 → Claims.Loads s (.ldD v b o n i) v 2 word)
    ∧ (can 16 4 → Claims.Loads s (.ldQ v b o n i) v 4 word)

/-- R233, R239: the VA of an `sm`. -/
def Claims.smVa (s : State) (a : BitVec 5) (x : Word) : Nat :=
  ((s.grid.params &&& 0xFFFF00000000) + (s.r.sreg a).setWidth 48 + x.signExtend 48).toNat

/-- R239: `sm.ldw` and `sm.ldd` write sD, and s(D+1), with the words at their address, whatever `exec` is. -/
def Claims.ScalarLoads : Prop :=
  ∀ (s : State) (d a : BitVec 5) (i : BitVec 12) (x : Word) (pa : Nat) (n : Bool), s.Immediate i x → s.gang.stores = [] →
    s.holdLoads = false → s.hasBlocks s.cur = false →
    let va := Claims.smVa s a x
    s.needsRefresh false false va = false → s.gxlate false false va = .ok (.dram pa) n → s.poisoned (.dram pa) = false →
    s.l1Full s.wg.core (pa / 128) = false →
    let loads := fun (c : Instr) (r : Regs) => s.Runs c (fun t => t = { s with gangs := t.gangs, clk := t.clk, lines := t.lines }
      ∧ (∀ g, g ≠ s.cur → t.gangAt g = s.gangAt g) ∧ s.gang.Moved t.gang (s.nextPc 4) r)
    let clear := fun (size : Nat) => va % size = 0 ∧ s.inSpill va size = false
    (clear 4 → loads (.smLdw d a i) (s.r.setS d (Claims.word s.mem pa)))
    ∧ (clear 8 → d ≠ 31 →
      loads (.smLdd d a i) ((s.r.setS d (Claims.word s.mem pa)).setS (d + 1) (Claims.word s.mem (pa + 4))))

/-- R235 to R237, R239: vector and scalar loads. Where the spec leaves it open, this is the model's choice of assumption
34. -/
def Obligations.Loads : Prop := Claims.VectorLoads ∧ Claims.ScalarLoads

/-- A memory after lanes in ascending order have each stored bytes: where several store one byte the last remains, and
every other byte stands. -/
def Claims.Stored (m m' : List Host.Cell) (act : List (Fin 32)) (pa : Fin 32 → Nat) (size : Nat)
    (byte : Fin 32 → Nat → Byte) : Prop :=
  ∀ a, memRead m' a = match (act.filter (fun l => pa l ≤ a ∧ a < pa l + size)).getLast? with
    | some l => byte l (a - pa l)
    | none => memRead m a

/-- The byte of a register group a store writes: byte `j` of the words from vV upward. -/
def Claims.groupByte (r : Regs) (v : BitVec 6) (l : Fin 32) (j : Nat) : Byte :=
  ((r.vreg (v + BitVec.ofNat 6 (j / 4))).at l).extractLsb' (8 * (j % 4)) 8

/-- The gang has moved past a store: its registers stand, and its flashback point has ended (R162). -/
def Claims.StoreDone (s t : State) : Prop :=
  ({ s.gang with flash := { s.gang.flash with valid := false } } : Gang).Moved t.gang (s.nextPc 4) s.r
  ∧ t.hostMem = s.hostMem ∧ t.peerMem = s.peerMem

/-- R72, R84, R238: a store of a non-speculative gang whose writes perform at once writes, in ascending lane order, the low
bytes of its register group at each active lane's address, and no other byte; it writes no register. The premise rules out
a store into the tables that translate its own later lanes. -/
def Claims.VectorStores : Prop :=
  ∀ (s : State) (v : BitVec 6) (b : BitVec 5) (o : BitVec 6) (n : BitVec 1) (i : BitVec 3) (pa : Fin 32 → Nat),
    s.quiet = true → s.holdStores = false → s.r.exec ≠ 0 → Memory.wf s.mem = true →
    let act := lanesOf s.r.exec
    let can := fun (size k : Nat) =>
      let va := Claims.va s b o n i size
      let after := fun (j : Nat) => (act.take j).foldl (fun m l =>
        memPut m (pa l) ((List.range size).map (Claims.groupByte s.r v l))) s.mem
      Claims.MeForm s false v k o n i ∧ Claims.Aligned s size va ∧ Claims.Reaches s true va pa
      ∧ ∀ j, j < act.length → ∀ l ∈ act, ({ s with mem := after j } : State).gxlate true false (va l) = s.gxlate true false (va l)
          ∧ ({ s with mem := after j } : State).needsRefresh true false (va l) = false
    let stores := fun (c : Instr) (size : Nat) => s.Runs c (fun t => Claims.StoreDone s t
      ∧ Claims.Stored s.mem t.mem act pa size (Claims.groupByte s.r v))
    (can 1 1 → stores (.stB v b o n i) 1) ∧ (can 2 1 → stores (.stH v b o n i) 2) ∧ (can 4 1 → stores (.stW v b o n i) 4)
    ∧ (can 8 2 → stores (.stD v b o n i) 8) ∧ (can 16 4 → stores (.stQ v b o n i) 16)

/-- R239: `sm.stw` and `sm.std` of a non-speculative gang store sD, and s(D+1), at their address. -/
def Claims.ScalarStores : Prop :=
  ∀ (s : State) (d a : BitVec 5) (i : BitVec 12) (x : Word) (pa : Nat) (n : Bool), s.Immediate i x → s.quiet = true →
    s.holdStores = false → Memory.wf s.mem = true → s.hasBlocks s.cur = false →
    let va := Claims.smVa s a x
    s.needsRefresh true false va = false → s.gxlate true false va = .ok (.dram pa) n →
    let stores := fun (c : Instr) (size : Nat) (byte : Nat → Byte) => s.Runs c (fun t => Claims.StoreDone s t
      ∧ Claims.Stored s.mem t.mem [0] (fun _ => pa) size (fun _ => byte))
    let clear := fun (size : Nat) => va % size = 0 ∧ (va + size ≤ s.r.spbase.toNat ∨ s.r.splim.toNat ≤ va)
    (clear 4 → stores (.smStw d a i) 4 (fun j => (s.r.sreg d).extractLsb' (8 * j) 8))
    ∧ (clear 8 → d ≠ 31 → stores (.smStd d a i) 8 (fun j => ((s.r.sreg (d + 1)) ++ (s.r.sreg d)).extractLsb' (8 * j) 8))

/-- R84, R238, R239: vector and scalar stores. Where the spec leaves it open, this is the model's choice of assumption 34.
-/
def Obligations.Stores : Prop := Claims.VectorStores ∧ Claims.ScalarStores

/-- R84: behind an older store that is not yet performed, a store takes its place in the gang's order: memory and the
registers stand, and its addresses and bytes wait. Where the spec leaves it open, this is the model's choice of
assumption 34. -/
def Obligations.StoresWait : Prop :=
  ∀ (s : State) (v : BitVec 6) (b : BitVec 5) (o : BitVec 6) (n : BitVec 1) (i : BitVec 3), s.gang.stores ≠ [] → s.r.exec ≠ 0 →
    let act := lanesOf s.r.exec
    let waits := fun (c : Instr) (size k : Nat) =>
      let va := Claims.va s b o n i size
      Claims.MeForm s false v k o n i → Claims.Aligned s size va →
      s.Runs c (fun t => s.OnlyGang t ∧ ∃ w : PendWrite, w.space = .dram ∧ w.rmw = none ∧ w.seq = s.gang.seq ∧ w.before = s.r ∧ w.after = t.r
        ∧ w.writes = act.map (fun l => (va l, (List.range size).map (Claims.groupByte s.r v l)))
        ∧ ({ s.gang with stores := s.gang.stores ++ [w] } : Gang).Moved t.gang (s.nextPc 4) s.r)
    waits (.stB v b o n i) 1 1 ∧ waits (.stH v b o n i) 2 1 ∧ waits (.stW v b o n i) 4 1 ∧ waits (.stD v b o n i) 8 2
    ∧ waits (.stQ v b o n i) 16 4

/-- R75, R109, R235: the access of an active lane is aligned, lies in the workgroup's scratchpad, and meets no line that an
error has marked. -/
def Claims.InScratch (s : State) (size : Nat) (off : Fin 32 → Nat) : Prop :=
  ∀ l, lane s.r.exec l = true → off l % size = 0 ∧ off l + size ≤ s.grid.k.scratch ∧ off l / 128 ∉ s.wg.badScr

/-- R243: scratchpad loads write their register group from the workgroup's scratchpad; stores write it, in ascending lane
order, and no register. -/
def Claims.ScratchAccesses : Prop :=
  ∀ (s : State) (v : BitVec 6) (b : BitVec 5) (o : BitVec 6) (n : BitVec 1) (i : BitVec 3), s.gang.stores = [] →
    let act := lanesOf s.r.exec
    let can := fun (size k : Nat) => Claims.MeForm s false v k o n i ∧ Claims.InScratch s size (Claims.off s b o n i size)
    let loads := fun (c : Instr) (size k : Nat) => Claims.Loads s c v k
      (fun j l => Claims.word s.wg.scr (Claims.off s b o n i size l + 4 * j))
    let stores := fun (c : Instr) (size : Nat) => s.holdStores = false → s.r.exec ≠ 0 → Memory.wf s.wg.scr = true →
      s.Runs c (fun t => Claims.StoreDone s t ∧ t.mem = s.mem ∧ Claims.Stored s.wg.scr t.wg.scr act (Claims.off s b o n i size) size (Claims.groupByte s.r v))
    (can 4 1 → loads (.spmLdw v b o n i) 4 1 ∧ stores (.spmStw v b o n i) 4)
    ∧ (can 8 2 → loads (.spmLdd v b o n i) 8 2 ∧ stores (.spmStd v b o n i) 8)
    ∧ (can 16 4 → loads (.spmLdq v b o n i) 16 4 ∧ stores (.spmStq v b o n i) 16)

/-- A memory after lanes in ascending order have each replaced the bytes at their address by a function of them. -/
def Claims.rmwAll (size : Nat) (pa : Fin 32 → Nat) (f : Fin 32 → List Byte → List Byte) : List Host.Cell → List (Fin 32) → List Host.Cell
  | m, [] => m
  | m, l :: t => Claims.rmwAll size pa f (memPut m (pa l) (f l (memBytes m (pa l) size))) t

/-- The word functions of an atomic: its new word from the old one and the lane's data. -/
def Claims.wordFun (f : Fin 32 → Word → Word) (l : Fin 32) (old : List Byte) : List Byte :=
  leBytes 4 (f l (BitVec.ofNat 32 (leNat old))).toNat

/-- R240's bounded increment. -/
def Claims.inc (m v : Word) : Word := if v.toNat ≤ m.toNat then 0 else m + 1

/-- R72, R243: a scratchpad read-modify-write of a non-speculative gang performs in ascending lane order, each lane seeing
the lanes before it: it leaves the function's word in the scratchpad and returns the old one in vV. -/
def Claims.ScratchAtomics : Prop :=
  ∀ (s : State) (v : BitVec 6) (b : BitVec 5) (o : BitVec 6) (n : BitVec 1) (i : BitVec 3), s.quiet = true →
    Claims.InScratch s 4 (Claims.off s b o n i 4) →
    let act := lanesOf s.r.exec
    let off := Claims.off s b o n i 4
    let x := fun l => (s.r.vreg v).at l
    let does := fun (c : Instr) (k : Nat) (f : Fin 32 → Word → Word) => Claims.MeForm s false v k o n i → s.r.exec ≠ 0 →
      s.Runs c (fun t => s.SameMem t ∧ t.wg.scr = Claims.rmwAll 4 off (Claims.wordFun f) s.wg.scr act
        ∧ ∃ r, ({ s.gang with flash := { s.gang.flash with valid := false } } : Gang).Moved t.gang (s.nextPc 4) r
          ∧ Claims.Group s r v 1 (fun _ l =>
              Claims.word (Claims.rmwAll 4 off (Claims.wordFun f) s.wg.scr (act.filter (fun j => j < l))) (off l)))
    does (.spmAdd v b o n i) 1 (fun l m => m + x l)
    ∧ does (.spmMin v b o n i) 1 (fun l m => if m.toInt ≤ (x l).toInt then m else x l)
    ∧ does (.spmMax v b o n i) 1 (fun l m => if m.toInt ≤ (x l).toInt then x l else m)
    ∧ does (.spmOr v b o n i) 1 (fun l m => m ||| x l) ∧ does (.spmXchg v b o n i) 1 (fun l _ => x l)
    ∧ does (.spmCas v b o n i) 2 (fun l m => if m = x l then (s.r.vreg (v + 1)).at l else m)
    ∧ does (.spmInc v b o n i) 1 (fun l m => Claims.inc m (x l))

/-- R72, R75, R243: scratchpad loads, stores and read-modify-writes. Where the spec leaves it open, this is the model's
choice of assumption 34. -/
def Obligations.Scratchpad : Prop := Claims.ScratchAccesses ∧ Claims.ScratchAtomics

/-- What an atomic of local DRAM leaves: the memory after its lanes in ascending order, and nothing else of memory. -/
def Claims.AtomicDone (s t : State) (m : List Host.Cell) : Prop := t.mem = m ∧ t.hostMem = s.hostMem ∧ t.peerMem = s.peerMem

/-- R72, R74, R240: each atomic of a non-speculative gang performs in ascending lane order, each lane seeing the lanes before
it: it leaves the function's word at the lane's address and returns the old one in vV. -/
def Claims.WordAtomics : Prop :=
  ∀ (s : State) (v : BitVec 6) (b : BitVec 5) (o : BitVec 6) (n : BitVec 1) (i : BitVec 3) (pa : Fin 32 → Nat),
    s.quiet = true → s.r.exec ≠ 0 → Claims.Aligned s 4 (Claims.va s b o n i 4) →
    Claims.Reaches s true (Claims.va s b o n i 4) pa → Claims.Sound s pa →
    let act := lanesOf s.r.exec
    let x := fun l => (s.r.vreg v).at l
    let old := fun (f : Fin 32 → Word → Word) (l : Fin 32) =>
      Claims.word (Claims.rmwAll 4 pa (Claims.wordFun f) s.mem (act.filter (fun j => j < l))) (pa l)
    let does := fun (c : Instr) (k : Nat) (f : Fin 32 → Word → Word) (evs : List Nat) =>
      Claims.MeForm s false v k o n i → s.r.fpx evs = 0 → s.Runs c (fun t =>
        Claims.AtomicDone s t (Claims.rmwAll 4 pa (Claims.wordFun f) s.mem act)
        ∧ ∃ r, ({ s.gang with flash := { s.gang.flash with valid := false } } : Gang).Moved t.gang (s.nextPc 4) (r.mergeEvents evs)
          ∧ Claims.Group s r v 1 (fun _ l => old f l))
    let sum := fun (l : Fin 32) (m : Word) => faAdd s.r.rm [m, x l]
    does (.atAdd v b o n i) 1 (fun l m => m + x l) []
    ∧ does (.atMin v b o n i) 1 (fun l m => if m.toInt ≤ (x l).toInt then m else x l) []
    ∧ does (.atMax v b o n i) 1 (fun l m => if m.toInt ≤ (x l).toInt then x l else m) []
    ∧ does (.atMinn v b o n i) 1 (fun l m => if m.toNat ≤ (x l).toNat then m else x l) []
    ∧ does (.atMaxn v b o n i) 1 (fun l m => if m.toNat ≤ (x l).toNat then x l else m) []
    ∧ does (.atAnd v b o n i) 1 (fun l m => m &&& x l) [] ∧ does (.atOr v b o n i) 1 (fun l m => m ||| x l) []
    ∧ does (.atXor v b o n i) 1 (fun l m => m ^^^ x l) [] ∧ does (.atXchg v b o n i) 1 (fun l _ => x l) []
    ∧ does (.atCas v b o n i) 2 (fun l m => if m = x l then (s.r.vreg (v + 1)).at l else m) []
    ∧ does (.atInc v b o n i) 1 (fun l m => Claims.inc m (x l)) []
    ∧ does (.atFadd v b o n i) 1 (fun l m => (sum l m).1) (act.flatMap (fun l => (sum l (old (fun l m => (sum l m).1) l)).2))

/-- R64 to R66, R241: `xadd` adds its FP32 addend to each lane's cell and leaves vV; `xrd` returns the cell's value and
leaves the cell; `xclr` writes the cell as zero. -/
def Claims.CellAtomics : Prop :=
  ∀ (s : State) (v : BitVec 6) (b : BitVec 5) (o : BitVec 6) (n : BitVec 1) (i : BitVec 3) (pa : Fin 32 → Nat),
    s.quiet = true → s.r.exec ≠ 0 → Memory.wf s.mem = true → Claims.MeForm s false v 1 o n i → Claims.Aligned s 64 (Claims.va s b o n i 64) →
    Claims.Reaches s true (Claims.va s b o n i 64) pa → Claims.Sound s pa →
    let act := lanesOf s.r.exec
    let g0 : Gang := { s.gang with flash := { s.gang.flash with valid := false } }
    let leaves := fun (c : Instr) (f : Fin 32 → List Byte → List Byte) => s.Runs c (fun t =>
      Claims.AtomicDone s t (Claims.rmwAll 64 pa f s.mem act) ∧ g0.Moved t.gang (s.nextPc 4) s.r)
    let cell := fun (l : Fin 32) => cellRead s.r.rm (memBytes s.mem (pa l) 64)
    leaves (.atXadd v b o n i) (fun l => cellAdd (ofF32 ((s.r.vreg v).at l)))
    ∧ leaves (.atXclr v b o n i) (fun _ _ => List.replicate 64 0)
    ∧ (s.r.fpx (act.map (fun l => (cell l).2)) = 0 → s.Runs (.atXrd v b o n i) (fun t =>
        (∀ a, memRead t.mem a = memRead s.mem a) ∧ t.hostMem = s.hostMem ∧ t.peerMem = s.peerMem
        ∧ ∃ r, g0.Moved t.gang (s.nextPc 4) (r.mergeEvents (act.map (fun l => (cell l).2)))
          ∧ Claims.Group s r v 1 (fun _ l => (cell l).1)))

/-- R64, R65: a cell after an addend x: its value goes up by x × 2^280 modulo 2^384, and BIG is set when |x| is at least 2^96; an
infinity or a NaN sets its mark and leaves the value; every other bit of the status word and of the cell stands. -/
def Claims.CellSum : Prop :=
  ∀ (x : Word) (old : List Byte), old.length = 64 →
    let value := fun (b : List Byte) => leNat (b.take 48)
    let status := fun (b : List Byte) => leNat ((b.drop 48).take 4)
    let new := cellAdd (ofF32 x) old
    let marks := fun (i : Nat) (p : Prop) => ∀ j < 32, (status new).testBit j = true ↔ (status old).testBit j = true ∨ (j = i ∧ p)
    new.length = 64 ∧ new.drop 52 = old.drop 52
    ∧ (ofF32 x = .nan → marks 0 True ∧ value new = value old) ∧ (ofF32 x = .inf false → marks 1 True ∧ value new = value old)
    ∧ (ofF32 x = .inf true → marks 2 True ∧ value new = value old)
    ∧ (∀ s m e, ofF32 x = .fin s m e → marks 3 (¬Claims.Below m e 1 96) ∧ -280 ≤ e
      ∧ (value new : Int) = ((value old : Int) + (if s then -1 else 1) * ((m * 2 ^ (e + 280).toNat : Nat) : Int)) % 2 ^ 384)

/-- R66: what a cell reads as: 0x7FC00000 with NV when BIG is set, or both infinities; 0x7FC00000 after a NaN; an infinity; +0 for a
value of 0; else the signed value × 2^−280, rounded once to FP32 in the mode of `fmt`. -/
def Claims.CellValue : Prop :=
  ∀ (rm : Nat) (old : List Byte), old.length = 64 → rm < 4 →
    let mark := fun (i : Nat) => (leNat ((old.drop 48).take 4)).testBit i
    let v : Int := (BitVec.ofNat 384 (leNat (old.take 48))).toInt
    let r := cellRead rm old
    (mark 3 = true ∨ (mark 1 = true ∧ mark 2 = true) → r = (0x7FC00000, evNV))
    ∧ (mark 3 = false → (mark 1 = false ∨ mark 2 = false) →
      (mark 0 = true → r = (0x7FC00000, 0))
      ∧ (mark 0 = false → (mark 1 = true → r = (0x7F800000, 0)) ∧ (mark 2 = true → r = (0xFF800000, 0))
        ∧ (mark 1 = false → mark 2 = false → (v = 0 → r = (0, 0))
          ∧ (v ≠ 0 → let q : Int := max ((Nat.log2 v.natAbs : Int) - 303) (-149)
            ∃ n, Claims.Rounds rm (decide (v < 0)) v.natAbs (-280) q n ∧ Claims.Is (ofF32 r.1) (decide (v < 0)) n q
              ∧ r = roundF32 rm (.fin (decide (v < 0)) v.natAbs (-280))))))

/-- R64 to R66, R72, R74, R240, R241: atomics of memory and of accumulator cells, and what a cell holds and reads as. Where the
spec leaves it open, this is the model's choice of assumption 34. -/
def Obligations.Atomics : Prop := Claims.WordAtomics ∧ Claims.CellAtomics ∧ Claims.CellSum ∧ Claims.CellValue

/-- R75, R152, R153, R235: an access that fails its checks traps before any lane makes an event, with the code of the first lane
that fails, every lane that meets that code, and the lowest one's address: ALIGN where it is misaligned, SPILLX where one
that may write meets the gang's own spill area. -/
def Claims.Checked (s : State) (c : Instr) (size : Nat) (write : Bool) (va : Fin 32 → Nat) : Prop :=
  ∀ (l : Fin 32) (m : Word),
    let spill := fun (j : Fin 32) => write && decide (va j < s.r.splim.toNat) && decide (s.r.spbase.toNat < va j + size)
    lane s.r.exec l = true → (∀ j, lane s.r.exec j = true → j < l → va j % size = 0 ∧ spill j = false) →
    (va l % size ≠ 0 → (∀ j, lane m j = (lane s.r.exec j && va j % size != 0)) → s.Raises c 4 tcALIGN m (va l) 0)
    ∧ (va l % size = 0 → spill l = true → (∀ j, lane m j = (lane s.r.exec j && spill j)) → s.Raises c 4 tcSPILLX m (va l) 0)

/-- R110, R129, R153, R235: an access whose translation is refused in some active lane, with none that waits or copies, traps
before any lane makes an event, with the code of the first lane that is refused, XLATE or PERM, every lane that meets that code,
and the address and information of the first. -/
def Claims.Refused (s : State) (c : Instr) (size : Nat) (write : Bool) (va : Fin 32 → Nat) : Prop :=
  ∀ (l : Fin 32) (m : Word) (code info : Nat),
    let xl := fun (j : Fin 32) => s.gxlate write false (va j)
    let reached := fun (j : Fin 32) => ∃ loc n, xl j = .ok loc n ∧ loc.isHost = false
    (write = false → s.holdLoads = false) →
    (∀ j, lane s.r.exec j = true → va j % size = 0 ∧ s.needsRefresh write false (va j) = false
      ∧ (write = true → va j + size ≤ s.r.spbase.toNat ∨ s.r.splim.toNat ≤ va j) ∧ (reached j ∨ ∃ q i, xl j = .trap q i)) →
    lane s.r.exec l = true → xl l = .trap code info → (∀ j, lane s.r.exec j = true → j < l → reached j) →
    (∀ j, lane m j = true ↔ lane s.r.exec j = true ∧ ∃ i, xl j = .trap code i) → s.Raises c 4 code m (va l) info

/-- R75, R235: a scratchpad access that is misaligned in some active lane raises ALIGN, naming those lanes; one that is aligned in
all, and lies beyond the workgroup's scratchpad in some, XLATE with cause 1. -/
def Claims.CheckedScratch (s : State) (c : Instr) (size : Nat) (off : Fin 32 → Nat) : Prop :=
  ∀ (l : Fin 32) (m : Word) (p : Fin 32 → Bool), lane s.r.exec l = true → p l = true →
    (∀ j, lane s.r.exec j = true → j < l → p j = false) → (∀ j, lane m j = (lane s.r.exec j && p j)) →
    ((p = fun j => off j % size != 0) → s.Raises c 4 tcALIGN m (off l) 0)
    ∧ ((∀ j, lane s.r.exec j = true → off j % size = 0) → (p = fun j => decide (s.grid.k.scratch < off j + size)) →
      s.Raises c 4 tcXLATE m (off l) 0xF1)

/-- R64, R129, R235 to R243: every vector access of memory and of the scratchpad makes these checks, in its own width, and `sm` makes
those of one lane, naming none. -/
def Claims.AccessFaults : Prop :=
  ∀ (s : State) (v : BitVec 6) (b : BitVec 5) (o : BitVec 6) (n : BitVec 1) (i : BitVec 3), s.quiet = true →
    let mem := fun (load : Bool) (size k : Nat) (cs : List Instr) => Claims.MeForm s load v k o n i → ∀ c ∈ cs,
      Claims.Checked s c size (!load) (Claims.va s b o n i size) ∧ Claims.Refused s c size (!load) (Claims.va s b o n i size)
    let scr := fun (size k : Nat) (cs : List Instr) => Claims.MeForm s false v k o n i → ∀ c ∈ cs,
      Claims.CheckedScratch s c size (Claims.off s b o n i size)
    mem true 1 1 [.ldB v b o n i, .ldBn v b o n i] ∧ mem true 2 1 [.ldH v b o n i, .ldHn v b o n i] ∧ mem true 4 1 [.ldW v b o n i] ∧ mem true 8 2 [.ldD v b o n i]
    ∧ mem true 16 4 [.ldQ v b o n i]
    ∧ mem false 1 1 [.stB v b o n i] ∧ mem false 2 1 [.stH v b o n i] ∧ mem false 8 2 [.stD v b o n i]
    ∧ mem false 16 4 [.stQ v b o n i]
    ∧ mem false 4 1 [.stW v b o n i, .atAdd v b o n i, .atMin v b o n i, .atMax v b o n i, .atMinn v b o n i, .atMaxn v b o n i,
        .atAnd v b o n i, .atOr v b o n i, .atXor v b o n i, .atXchg v b o n i, .atInc v b o n i, .atFadd v b o n i]
    ∧ mem false 4 2 [.atCas v b o n i] ∧ mem false 64 1 [.atXadd v b o n i, .atXrd v b o n i, .atXclr v b o n i]
    ∧ scr 4 1 [.spmLdw v b o n i, .spmStw v b o n i, .spmAdd v b o n i, .spmMin v b o n i, .spmMax v b o n i, .spmOr v b o n i,
        .spmXchg v b o n i, .spmInc v b o n i]
    ∧ scr 8 2 [.spmLdd v b o n i, .spmStd v b o n i] ∧ scr 16 4 [.spmLdq v b o n i, .spmStq v b o n i]
    ∧ scr 4 2 [.spmCas v b o n i]
    ∧ ∀ (d a : BitVec 5) (j : BitVec 12) (x : Word), s.Immediate j x →
      let va := Claims.smVa s a x
      let spill := fun (size : Nat) => va < s.r.splim.toNat ∧ s.r.spbase.toNat < va + size
      (va % 4 ≠ 0 → ∀ c ∈ [Instr.smLdw d a j, .smStw d a j], s.Raises c 4 tcALIGN 0 va 0)
      ∧ (va % 4 = 0 → spill 4 → s.Raises (.smStw d a j) 4 tcSPILLX 0 va 0)
      ∧ (d ≠ 31 → (va % 8 ≠ 0 → ∀ c ∈ [Instr.smLdd d a j, .smStd d a j], s.Raises c 4 tcALIGN 0 va 0)
        ∧ (va % 8 = 0 → spill 8 → s.Raises (.smStd d a j) 4 tcSPILLX 0 va 0))
      ∧ (d = 31 → ∀ c ∈ [Instr.smLdd d a j, .smStd d a j], s.Raises c 4 tcILLOP 0 0 0)
      -- its translation is refused
      ∧ ∀ code info,
        (s.needsRefresh false false va = false → s.gxlate false false va = .trap code info → s.holdLoads = false →
          (va % 4 = 0 → s.Raises (.smLdw d a j) 4 code 0 va info)
          ∧ (d ≠ 31 → va % 8 = 0 → s.Raises (.smLdd d a j) 4 code 0 va info))
        ∧ (s.needsRefresh true false va = false → s.gxlate true false va = .trap code info →
          (va % 4 = 0 → ¬spill 4 → s.Raises (.smStw d a j) 4 code 0 va info)
          ∧ (d ≠ 31 → va % 8 = 0 → ¬spill 8 → s.Raises (.smStd d a j) 4 code 0 va info))

/-- R73: with no lane active a vector memory instruction makes no access and only retires. -/
def Claims.NoActiveLane : Prop :=
  ∀ (s : State) (v : BitVec 6) (b : BitVec 5) (o : BitVec 6) (n : BitVec 1) (i : BitVec 3), s.r.exec = 0 →
    let idle := fun (c : Instr) => s.Writes c s.r
    (Claims.MeForm s false v 1 o n i → idle (.ldB v b o n i) ∧ idle (.ldBn v b o n i) ∧ idle (.ldH v b o n i) ∧ idle (.ldHn v b o n i)
      ∧ idle (.ldW v b o n i) ∧ idle (.stB v b o n i) ∧ idle (.stH v b o n i) ∧ idle (.stW v b o n i) ∧ idle (.spmLdw v b o n i)
      ∧ idle (.spmStw v b o n i) ∧ idle (.atAdd v b o n i) ∧ idle (.atMin v b o n i) ∧ idle (.atMax v b o n i)
      ∧ idle (.atMinn v b o n i) ∧ idle (.atMaxn v b o n i) ∧ idle (.atAnd v b o n i) ∧ idle (.atOr v b o n i)
      ∧ idle (.atXor v b o n i) ∧ idle (.atXchg v b o n i) ∧ idle (.atInc v b o n i) ∧ idle (.atFadd v b o n i)
      ∧ idle (.atXadd v b o n i) ∧ idle (.atXrd v b o n i) ∧ idle (.atXclr v b o n i) ∧ idle (.spmAdd v b o n i)
      ∧ idle (.spmMin v b o n i) ∧ idle (.spmMax v b o n i) ∧ idle (.spmOr v b o n i) ∧ idle (.spmXchg v b o n i)
      ∧ idle (.spmInc v b o n i))
    ∧ (Claims.MeForm s false v 2 o n i → idle (.ldD v b o n i) ∧ idle (.stD v b o n i) ∧ idle (.spmLdd v b o n i)
      ∧ idle (.spmStd v b o n i) ∧ idle (.atCas v b o n i) ∧ idle (.spmCas v b o n i))
    ∧ (Claims.MeForm s false v 4 o n i → idle (.ldQ v b o n i) ∧ idle (.stQ v b o n i) ∧ idle (.spmLdq v b o n i)
      ∧ idle (.spmStq v b o n i))

/-- R64, R73, R75, R129, R152, R153, R235 to R243: accesses that trap, untranslated and forbidden ones among them, and vector accesses with no lane active. -/
def Obligations.AccessOutcomes : Prop := Claims.AccessFaults ∧ Claims.NoActiveLane


/-! ### Engine instructions -/

/-- R90, R246, R248: the instruction retires with its command at the end of the gang's pending list: the formats at issue,
the PC, the batch being formed, and, with `DEP`, the batches closed so far. -/
def Claims.Issues (s : State) (i : Instr) (copy : Bool) (dep : BitVec 1) (op : CmdOp) : Prop :=
  s.Runs i (fun t => s.Retires t (s.nextPc 4) { s.gang with cmds := s.gang.cmds ++ [{
    op := op, fmt := s.r.cmdFmt, pc := s.r.pc, seq := s.gang.seq, copy := copy
    batch := (if copy then s.r.commCp else s.r.commMx) + 1
    depMx := if dep = 1 then s.r.commMx else 0, depCp := if dep = 1 then s.r.commCp else 0, after := t.r }] } s.r)

/-- R90, R247, R250: the context has no failed command to tell of, the pending list has room, and no release of the gang's own
has its place there. -/
def Claims.MayIssue (s : State) (copy : Bool) : Prop :=
  (if copy then s.gang.failCp else s.gang.failMx) = none ∧ Claims.InList s.gang < 16
  ∧ ∀ w ∈ s.gang.stores, ∀ a k pre, w.space ≠ .cmd (.mxRel a k) pre

/-- R249, R250: the workgroup holds a number of a kind, 0 slot, 1 tile, 2 metadata slot, and no other gang of it has started its
release. -/
def Claims.Holds (s : State) (kind n : Nat) : Prop :=
  (match kind with
    | 0 => n < 32 ∧ s.wg.slots.getLsbD n = true
    | 1 => n < 8 ∧ s.wg.tiles.getLsbD n = true
    | _ => n < 8 ∧ s.wg.metas.getLsbD n = true)
  ∧ ∀ k ∈ s.wg.gangs, k ≠ s.cur → (s.gangAt k).releasing ≠ some (kind, n)

/-- R245: the base of global operands: the data segment, or that of a prefix. -/
def Claims.Segment (s : State) (g : Nat) : Prop :=
  (s.gang.ext = none ∧ g = s.grid.params.toNat / 2 ^ 32 * 2 ^ 32)
  ∨ ∃ p : BitVec 25, s.gang.ext = some p ∧ p.toNat < 2 ^ 16 ∧ g = p.toNat * 2 ^ 32

/-- R252: the quarters of a mask: each is wholly active or wholly inactive. -/
def Claims.Quarters (e : Word) (q : Nat) : Prop :=
  q < 16 ∧ ∀ i : Fin 4, e.extractLsb' (8 * i.val) 8 = if q / 2 ^ i.val % 2 = 1 then 0xFF else 0

/-- R251: the input formats of `fmt` are a pair the array accepts. -/
def Claims.Formats (s : State) : Prop :=
  let a := s.r.fmt.toNat % 16
  let b := s.r.fmt.toNat / 16 % 16
  (a ∈ [1, 2] ∧ b ∈ [1, 2]) ∨ (a ∈ [3, 4] ∧ b ∈ [3, 4]) ∨ (a = 5 ∧ b = 5) ∨ (a ∈ [6, 7] ∧ b ∈ [6, 7]) ∨ (a ∈ [8, 9] ∧ b ∈ [8, 9])

/-- R244, R248 to R257: the matrix instructions queue their commands. A quarter operation starts the active quarters, has
no effect with no lane active, and raises MASKQ, naming the quarters and their lanes, when one is partly active; a tile or slot
that the workgroup does not hold, or that another gang of it has started to release, raises SLOT with its number. -/
def Obligations.MatrixIssue : Prop :=
  ∀ (s : State) (a b c : BitVec 5) (p : BitVec 1),
    let x := (s.r.sreg a).toNat
    let y := (s.r.sreg b).toNat
    let z := (s.r.sreg c).toNat
    let slot := fun (n : Nat) => Claims.Holds s 0 n
    let tile := fun (n : Nat) => Claims.Holds s 1 n
    let metas := fun (n k : Nat) => n % k = 0 ∧ n + k ≤ 8 ∧ ∀ j, j < k → Claims.Holds s 2 (n + j)
    let span := if s.r.fmt.toNat % 16 ∈ [1, 2] then 1 else if s.r.fmt.toNat % 16 ∈ [5, 8, 9] then 4 else 2
    (s.gang.ext = none → Claims.MayIssue s false → tile x → Claims.Issues s (.mxZero a p) false p (.zero x))
    ∧ (s.gang.ext = none → Claims.MayIssue s false → Claims.Formats s → ∀ q, 0 < q → Claims.Quarters s.r.exec q →
        (tile x → slot y → slot z → Claims.Issues s (.mxMma a b c p) false p (.mma 3 q x y z 0 0 0))
        ∧ (∀ t m u v, x = t + 256 * m → z = u + 256 * v → tile t → metas m span → slot y → slot u → slot v →
            Claims.Issues s (.mxMms a b c p) false p (.mma 4 q t y u v m 0))
        ∧ (∀ t o, x = t + 256 * o → o < 2 ^ 14 → 16 * o + 512 ≤ s.grid.k.scratch → tile t → slot y → slot z →
            Claims.Issues s (.mxMmx a b c p) false p (.mma 5 q t y z 0 0 (16 * o)))
        ∧ (∀ g : BitVec 1, slot y → 1 ≤ z → z ≤ 64 → x % 8 = 0 → x + 1024 ≤ s.grid.k.scratch →
            Claims.Issues s (.mxMmg a b c g p) false p (.mmg q x y z (g == 1))))
    ∧ (∀ n : BitVec 1, Claims.MayIssue s false → tile x → ∀ w,
        (if n = 1 then (s.r.fout, w) ∈ [(6, 8), (7, 8), (8, 4), (9, 4), (10, 32)]
          else (s.r.fout, w) ∈ [(0, 32), (1, 16), (2, 16), (3, 8), (4, 8), (5, 4)]) →
        y % 32 = 0 → z % 32 = 0 → 8 * w ≤ z →
        (∀ g, Claims.Segment s g → Claims.Issues s (.mxSt a b c n 1 p) false p (.st x true (n == 1) (g + y) z))
        ∧ (s.gang.ext = none → y + 63 * z + 8 * w ≤ s.grid.k.scratch →
            Claims.Issues s (.mxSt a b c n 0 p) false p (.st x false (n == 1) y z)))
    ∧ (s.gang.ext = none → Claims.Formats s → s.r.exec = 0 → s.gang.failMx = none →
        ∀ i ∈ [Instr.mxMma a b c p, .mxMms a b c p, .mxMmx a b c p, .mxMmg a b c 0 p, .mxMmg a b c 1 p], s.Writes i s.r)
    ∧ (s.gang.ext = none → Claims.Formats s → s.quiet = true → ∀ (m : Word) (info : Nat), info < 16 → info ≠ 0 →
        (∀ i : Fin 4, let e := s.r.exec.extractLsb' (8 * i.val) 8
          if e = 0 ∨ e = 0xFF then info / 2 ^ i.val % 2 = 0 ∧ m.extractLsb' (8 * i.val) 8 = 0
          else info / 2 ^ i.val % 2 = 1 ∧ m.extractLsb' (8 * i.val) 8 = e) →
        let bad := fun (i : Instr) => s.Raises i 4 tcMASKQ m 0 info
        (tile (x % 8) → slot (y % 32) → slot (z % 32) → bad (.mxMma a b c p) ∧ bad (.mxMmx a b c p))
        ∧ (tile (x % 8) → slot (y % 32) → slot (z % 32) → slot (z / 256 % 32) →
            (∀ j, j < span → Claims.Holds s 2 (x / 256 % 8 + j)) → bad (.mxMms a b c p))
        ∧ (slot (y % 32) → bad (.mxMmg a b c 0 p) ∧ bad (.mxMmg a b c 1 p)))
    ∧ (s.quiet = true → s.gang.ext = none →
        -- a number that is not held: the tile first, then the slots, then the metadata slots
        let lacks := fun (i : Instr) (kind n : Nat) => s.Raises i 4 tcSLOT 0 0 (n + 256 * kind)
        (¬tile (x % 8) → lacks (.mxZero a p) 1 (x % 8)
          ∧ (s.r.fout ≤ 5 → lacks (.mxSt a b c 0 0 p) 1 (x % 8) ∧ lacks (.mxSt a b c 0 1 p) 1 (x % 8))
          ∧ (6 ≤ s.r.fout → s.r.fout ≤ 10 → lacks (.mxSt a b c 1 0 p) 1 (x % 8) ∧ lacks (.mxSt a b c 1 1 p) 1 (x % 8)))
        ∧ (∀ k : BitVec 2, k ≠ 3 → ¬Claims.Holds s k.toNat (x % 256) → lacks (.mxRel a k) k.toNat (x % 256))
        ∧ (Claims.Formats s → s.r.exec ≠ 0 →
          (¬tile (x % 8) → ∀ i ∈ [Instr.mxMma a b c p, .mxMms a b c p, .mxMmx a b c p], lacks i 1 (x % 8))
          ∧ (tile (x % 8) → ¬slot (y % 32) → ∀ i ∈ [Instr.mxMma a b c p, .mxMms a b c p, .mxMmx a b c p], lacks i 0 (y % 32))
          ∧ (tile (x % 8) → slot (y % 32) → ¬slot (z % 32) →
              ∀ i ∈ [Instr.mxMma a b c p, .mxMms a b c p, .mxMmx a b c p], lacks i 0 (z % 32))
          ∧ (¬slot (y % 32) → lacks (.mxMmg a b c 0 p) 0 (y % 32) ∧ lacks (.mxMmg a b c 1 p) 0 (y % 32))))

/-- R245, R248, R259 to R262: the copy instructions queue their commands, with global operands in the data segment or in a
prefix's; a length that is not a multiple of 4 raises ENGCMD with cause 1, and a slot that is not held SLOT. -/
def Obligations.CopyIssue : Prop :=
  ∀ (s : State) (a b c : BitVec 5) (h : BitVec 2) (p : BitVec 1) (g : Nat),
    let x := (s.r.sreg a).toNat
    let y := (s.r.sreg b).toNat
    let z := (s.r.sreg c).toNat
    let slot := Claims.Holds s 0 x
    let meta' := Claims.Holds s 2 x
    let pitched := y % 32 = 0 ∧ z % 32 = 0
    let rows := if h = 0 then 64 else if h = 1 then 32 else 128
    (Claims.MayIssue s true →
      (Claims.Segment s g →
        (z % 4 = 0 → x % 4 = 0 → y % 4 = 0 →
          (x + z ≤ s.grid.k.scratch → Claims.Issues s (.cpG2s a b c p) true p (.g2s x (g + y) z))
          ∧ (y + z ≤ s.grid.k.scratch → Claims.Issues s (.cpS2g a b c p) true p (.s2g (g + x) y z))
          ∧ (z = 0 ∨ x + z ≤ y ∨ y + z ≤ x → Claims.Issues s (.cpG2g a b c p) true p (.g2g (g + x) (g + y) z)))
        ∧ (h ≠ 3 → slot → pitched → Claims.Issues s (.cpG2o a b c h p) true p (.slot x true (g + y) z h.toNat))
        ∧ (meta' → y % 64 = 0 → Claims.Issues s (.cpMeta a b 0 p) true p (.metaLd x true (g + y)))
        ∧ (x % 128 = 0 → Claims.Issues s (.cpAct a p) true p (.act (g + x))))
      ∧ (s.gang.ext = none →
        (h ≠ 3 → slot → pitched → y + ((rows - 1) * z + 4096 / rows) ≤ s.grid.k.scratch →
          Claims.Issues s (.cpS2o a b c h p) true p (.slot x false y z h.toNat))
        ∧ (h ≠ 3 → slot → 1 ≤ z → z ≤ rows → y + 8 * z ≤ s.grid.k.scratch →
          Claims.Issues s (.cpGat a b c h p) true p (.gat x y z h.toNat))
        ∧ (meta' → y % 64 = 0 → y + 512 ≤ s.grid.k.scratch → Claims.Issues s (.cpMeta a b 1 p) true p (.metaLd x false y))))
    ∧ (Claims.Segment s g → s.gang.failCp = none → s.quiet = true → z % 4 ≠ 0 →
        s.Raises (.cpG2s a b c p) 4 tcENGCMD 0 0 0xFF11 ∧ s.Raises (.cpS2g a b c p) 4 tcENGCMD 0 0 0xFF11
        ∧ s.Raises (.cpG2g a b c p) 4 tcENGCMD 0 0 0xFF11)
    ∧ (s.quiet = true → h ≠ 3 → ¬Claims.Holds s 0 (x % 32) →
        (Claims.Segment s g → s.Raises (.cpG2o a b c h p) 4 tcSLOT 0 0 (x % 32))
        ∧ (s.gang.ext = none → s.Raises (.cpS2o a b c h p) 4 tcSLOT 0 0 (x % 32) ∧ s.Raises (.cpGat a b c h p) 4 tcSLOT 0 0 (x % 32)))
    ∧ (s.quiet = true → ¬Claims.Holds s 2 (x % 8) → (Claims.Segment s g → s.Raises (.cpMeta a b 0 p) 4 tcSLOT 0 0 (x % 8 + 512))
        ∧ (s.gang.ext = none → s.Raises (.cpMeta a b 1 p) 4 tcSLOT 0 0 (x % 8 + 512)))

/-- R246: a synchronous engine instruction of a gang may start: it is non-speculative and no command of it is pending. -/
def Claims.Ready (s : State) : Prop := s.quiet = true ∧ ∀ c ∈ s.gang.cmds, c.st ≠ .pending

/-- R162, R246: the instruction has completed on the state `u`: its gang has moved on with registers `r`, past its word and a
prefix, and its flashback point has ended; the rest is as `u` has it. -/
def Claims.Synced (u t : State) (r : Regs) : Prop :=
  u.Retires t (r.pc + (if u.gang.ext.isSome then 8 else 4)) { u.gang with flash := { u.gang.flash with valid := false } } r

/-- The instruction completes with registers `r` on the state `u`. -/
def Claims.Completes (s : State) (i : Instr) (u : State) (r : Regs) : Prop := s.Runs i (fun t => Claims.Synced u t r)

/-- R250: when the claim of the current gang has come to the core: now, unless it waits there already. -/
def Claims.since (s : State) (k : Nat) : Nat :=
  match s.gang.wait with
  | .claim j t => if j = k then t else s.clk.core
  | _ => s.clk.core

/-- R250: another gang of the core has waited longer with a claim of the kind, or as long, on a lower stream or slot. -/
def Claims.Behind (s : State) (k : Nat) : Prop :=
  ∃ j ∈ s.gangKeys, ∃ t, j ≠ s.cur ∧ (s.gangAt j).st = .live ∧ (s.wgAt (s.gangAt j).wg).core = s.wg.core
    ∧ (s.gangAt j).wait = .claim k t ∧ (t < Claims.since s k ∨ (t = Claims.since s k
      ∧ (s.gangAt j).stream * 32 + (s.gangAt j).slot < s.gang.stream * 32 + s.gang.slot))

/-- R246, R249, R250: a claim takes the lowest free number of its kind for the workgroup, with contents that read as zero, and
writes it to sA; it waits while none is free, or another has waited longer. A release gives a number back, and waits while a
command that names the number has not completed, with the number no longer held for the commands of other gangs. One that
waits has started, and ended the flashback point. A claim beyond the kernel's slots raises SLOT. -/
def Obligations.NumberClaims : Prop :=
  ∀ (s : State) (a : BitVec 5) (k : BitVec 2), s.gang.ext = none → k ≠ 3 → Memory.wf s.core.slots = true → Memory.wf s.core.tiles = true → Memory.wf s.core.metas = true →
    let n := (s.r.sreg a).toNat
    let limit := if k = 0 then 32 else 8
    let owned := fun (m : Nat) => thas (s.core.owners k.toNat).1 m
    let g0 : Gang := { s.gang with flash := { s.gang.flash with valid := false } }
    let others := fun (t : State) => s.SameMem t ∧ ∀ j, j ≠ s.cur → t.gangAt j = s.gangAt j
    (∀ m, Claims.Ready s → s.gang.failMx = none → (k = 0 → popBits 32 s.wg.slots.toNat < s.grid.k.slots) →
      ¬Claims.Behind s k.toNat → m < limit → owned m = false → (∀ j, j < m → owned j = true) →
      s.Runs (.mxClaim a k) (fun t => others t ∧ g0.Moved t.gang (s.nextPc 4) (s.r.setS a (BitVec.ofNat 32 m))
        ∧ (∀ j i, t.wg.holds j i = true ↔ s.wg.holds j i = true ∨ ((min j 2) = k.toNat ∧ i = m))
        ∧ (∀ i, thas (t.core.owners k.toNat).1 i = (owned i || i == m))
        ∧ (k = 0 → ∀ i, memRead t.core.slots i = if 4096 * m ≤ i ∧ i < 4096 * m + 4096 then 0 else memRead s.core.slots i)
        ∧ (k = 1 → ∀ i, memRead t.core.tiles i = if 16384 * m ≤ i ∧ i < 16384 * m + 16384 then 0 else memRead s.core.tiles i)
        ∧ (k = 2 → ∀ i, memRead t.core.metas i = if 512 * m ≤ i ∧ i < 512 * m + 512 then 0 else memRead s.core.metas i)))
    ∧ (Claims.Ready s → s.gang.failMx = none → Claims.Holds s k.toNat n → s.inUse k.toNat n = false →
      s.Runs (.mxRel a k) (fun t => others t ∧ { g0 with releasing := none }.Moved t.gang (s.nextPc 4) s.r
        ∧ (∀ j i, t.wg.holds j i = true ↔ s.wg.holds j i = true ∧ ¬((min j 2) = k.toNat ∧ i = n))
        ∧ (∀ i, thas (t.core.owners k.toNat).1 i = (owned i && i != n))))
    ∧ (Claims.Ready s → s.gang.failMx = none → Claims.Holds s k.toNat n →
      (∃ j ∈ s.wg.gangs, ∃ c ∈ (s.gangAt j).cmds, (k.toNat, n) ∈ c.op.names c.fmt) →
      s.Runs (.mxRel a k) (fun t => s.OnlyGang t ∧ t.gang = { g0 with
        ext := none, wait := .unit, releasing := some (k.toNat, n) }))
    ∧ (Claims.Ready s → s.gang.failMx = none → (k = 0 → popBits 32 s.wg.slots.toNat < s.grid.k.slots) →
      Claims.Behind s k.toNat ∨ (∀ m, m < limit → owned m = true) →
      s.Runs (.mxClaim a k) (fun t => s.OnlyGang t ∧ t.gang = { g0 with
        ext := none, wait := .claim k.toNat (Claims.since s k.toNat) }))
    ∧ (s.quiet = true → k = 0 → s.grid.k.slots ≤ popBits 32 s.wg.slots.toNat → s.Raises (.mxClaim a k) 4 tcSLOT 0 0 0xFF)

/-! ### Sequences and grammars -/

/-- R135: the mixing function of draws. -/
def Claims.mix (x : BitVec 64) : BitVec 64 :=
  let a := (x ^^^ (x >>> 30)) * 0xBF58476D1CE4E5B9
  let b := (a ^^^ (a >>> 27)) * 0x94D049BB133111EB
  b ^^^ (b >>> 31)

/-- The handle of record `k` with an instance tag (R130). -/
def Claims.handle (k : Nat) (tag : BitVec 16) : Word := BitVec.ofNat 32 (tag.toNat * 2 ^ 16 + k)

/-- R131, R132, R135: a bind takes the free record of the die with the lowest index, starts it and gives its handle, 0
with none free; a free gives it back; a draw returns the mixed counter and advances it; a fork copies a record over a
forked address space. A handle that names no bound record of its tag raises SQERR with cause 1. Where the spec leaves
it open, this is the model's choice of assumptions 17, 18 and 21. -/
def Obligations.SequenceRecords : Prop :=
  ∀ (s : State) (a b c : BitVec 5), s.gang.ext = none → Claims.Ready s →
    let y := s.r.sreg b
    let z := (s.r.sreg c).toNat
    let k := handleKey y
    let r := s.seqAt k
    let w := z / 2 ^ 16 % 64
    let new : Nat → SeqRec := fun n => {
      bound := true, tag := if (s.seqAt n).tag = 0xFFFF then 1 else (s.seqAt n).tag + 1, leaf := s.leafNo, asid := z % 2 ^ 16
      seed := s.r.sreg (b + 1) ++ s.r.sreg b, w := w, ring := z / 2 ^ 24 % 64 }
    (b ≠ 31 → w ≠ 0 → (s.asidAt s.leafNo (z % 2 ^ 16)).st = .live →
      (∀ n p u, s.freeSeq s.die = some n → s.takeSnap (new n) 0 = .ok (p, u) →
        Claims.Completes s (.sqBind a b c) (u.setSeq n { new n with snaps := [p] })
          (s.r.setS a (Claims.handle n (new n).tag)))
      ∧ (s.freeSeq s.die = none → Claims.Completes s (.sqBind a b c) s (s.r.setS a 0)))
    ∧ (b ≠ 31 → w = 0 → s.Raises (.sqBind a b c) 4 tcSQERR 0 0 5)
    ∧ (s.handleOk y = true →
      Claims.Completes s (.sqBindFree b) ((s.dropSnaps r.leaf r.snaps []).setSeq k { tag := r.tag }) s.r
      ∧ (a ≠ 31 → let z := Claims.mix (r.seed + r.ctr * 0x9E3779B97F4A7C15)
          Claims.Completes s (.sqRng a b) (s.setSeq k { r with ctr := r.ctr + 1 })
            ((s.r.setS a (z.setWidth 32)).setS (a + 1) ((z >>> 32).setWidth 32)))
      ∧ (∀ n u v p, (s.asidAt s.leafNo (z % 2 ^ 16)).st = .free → s.freeSeq (k / 16384) = some n →
          (r.gram = none ∨ s.gramUse (k / 16384) < 4096) → s.fork s.leafNo r.asid (z % 2 ^ 16) false = .ok u →
          let salt := z / 2 ^ 16
          let x : SeqRec := { r with
            tag := if (s.seqAt n).tag = 0xFFFF then 1 else (s.seqAt n).tag + 1, asid := z % 2 ^ 16, rel := r.e, toks := []
            snaps := [], seed := if salt = 0 then r.seed else Claims.mix (r.seed ^^^ BitVec.ofNat 64 salt)
            ctr := if salt = 0 then r.ctr else 0 }
          u.takeSnap x r.e = .ok (p, v) →
          Claims.Completes s (.sqFork a b c) (v.setSeq n { x with snaps := [p] }) (s.r.setS a (Claims.handle n x.tag))))
    ∧ (s.handleOk y = false → s.Raises (.sqBindFree b) 4 tcSQERR 0 0 1 ∧ s.Raises (.sqFork a b c) 4 tcSQERR 0 0 1
      ∧ (a ≠ 31 → s.Raises (.sqRng a b) 4 tcSQERR 0 0 1))

/-- R141, R296: the entries that the sequence unit holds for an egress ring go to it in their order, each at the place of RPROD,
which it advances, with an event on the ring's vector; a ring that is full or disabled, or whose write has failed, holds them,
and the first failure writes a queue record. -/
def Claims.RingWrites : Prop :=
  ∀ (s : State) (l i : Nat) (e : List Byte) (es : List (List Byte)),
    let r := s.ringAt l i
    let a := (s.queueAt l 0).asid.toNat
    let shut := r.en = false ∨ r.failed = true ∨ 2 ^ r.log2n ≤ (r.prod - r.cons).toNat
    let put := s.ewrite none { leaf := l, asid := some a } l a (r.rbase.toNat + 16 * (r.prod.toNat % 2 ^ r.log2n)) e
    let holds := s.setRing l i { r with held := e :: es }
    s.ringFlush l i [] = s.setRing l i { r with held := [] }
    ∧ (shut → s.ringFlush l i (e :: es) = holds)
    ∧ (¬shut →
      (∀ u, put = .ok u → s.ringFlush l i (e :: es) =
        ((u.setRing l i { u.ringAt l i with prod := r.prod + 1 }).vecEvent l r.vec).ringFlush l i es)
      ∧ ∀ x, put = .error x →
        (x.waits = true → s.ringFlush l i (e :: es) = holds.ask l x)
        ∧ (x.waits = false → s.ringFlush l i (e :: es) =
          (s.setRing l i { r with held := e :: es, failed := true }).queueRecord l 0 6 i))

/-- R140 to R142, R296: an emit appends its token at position E with a snapshot, and waits while the window is full; a release
raises REL to its position, not beyond E, and gives the record's egress ring an entry for each token that it passes, of its
handle, position and token, by ascending position, behind the entries held; a veto goes back to the snapshot at its position, and is nothing at E. An emit
also waits while another on the record that arrived earlier waits (R143). Positions out of range raise SQERR. Where the spec
leaves it open, this is the model's choice of assumptions 17, 56 (a snapshot with no tree) and 89 (cause 8 while the window is
full). -/
def Obligations.EgressGate : Prop :=
  Claims.RingWrites ∧ ∀ (s : State) (a b : BitVec 5), s.gang.ext = none → Claims.Ready s → s.handleOk (s.r.sreg a) = true →
    let k := handleKey (s.r.sreg a)
    let r := s.seqAt k
    let n := (s.r.sreg b).toNat
    let now := s.clk.core
    let since := match s.gang.wait with
      | .emit j t => if j = k then t else now
      | _ => now
    let behind := ∃ j t, j ≠ s.cur ∧ (s.gangAt j).st = .live ∧ (s.gangAt j).wait = .emit k t ∧ t < since
    (∀ p u, r.e ≠ 0xFFFFFFFF → r.e - r.rel < r.w → ¬behind → s.takeSnap r (r.e + 1) = .ok (p, u) →
      Claims.Completes s (.sqEmit a b)
        (u.setSeq k { r with e := r.e + 1, toks := r.toks ++ [s.r.sreg b], snaps := r.snaps ++ [p] }) s.r)
    ∧ (r.e ≠ 0xFFFFFFFF → r.w ≤ r.e - r.rel ∨ behind → s.Runs (.sqEmit a b) (fun t =>
        s.OnlyGang t ∧ t.gang = { s.gang with
          flash := { s.gang.flash with valid := false }, ext := none, wait := .emit k since }))
    ∧ (r.e = 0xFFFFFFFF → s.Raises (.sqEmit a b) 4 tcSQERR 0 0 8)
    ∧ (n ≤ r.e →
      let rel := max r.rel n
      let keep := r.snaps.filter (fun q => rel ≤ q.pos)
      let u := (s.setSeq k { r with rel := rel, toks := r.toks.drop (rel - r.rel), snaps := keep }).dropSnaps r.leaf
        (r.snaps.filter (fun q => q.pos < rel)) keep
      let entries := (r.toks.take (rel - r.rel)).mapIdx (fun i x =>
        leBytes 4 (s.r.sreg a).toNat ++ leBytes 4 (r.rel + i) ++ leBytes 4 x.toNat ++ leBytes 4 0)
      Claims.Completes s (.sqRel a b) (u.ringFlush r.leaf r.ring ((u.ringAt r.leaf r.ring).held ++ entries)) s.r)
    ∧ (r.e < n → s.Raises (.sqRel a b) 4 tcSQERR 0 0 2)
    ∧ (n < r.rel ∨ r.e < n → s.Raises (.sqVeto a b) 4 tcSQERR 0 0 3)
    ∧ (r.rel ≤ n → n = r.e → Claims.Completes s (.sqVeto a b) s s.r)
    ∧ (∀ p u, r.rel ≤ n → n < r.e → r.snaps.find? (fun q => q.pos == n) = some p → (s.asidAt r.leaf r.asid).st = .live →
        (if p.root = 0 then .ok s else s.swapRoot r.leaf r.asid p.root) = .ok u →
        let gram := match r.gram, p.gram with
          | some g, some x => some { g with state := x.state, stack := x.stack }
          | g, _ => g
        let keep := r.snaps.filter (fun q => q.pos ≤ n)
        Claims.Completes s (.sqVeto a b)
          ((u.setSeq k { r with e := n, toks := r.toks.take (n - r.rel), snaps := keep, ctr := p.ctr, gram := gram }).dropSnaps
            r.leaf (r.snaps.filter (fun q => n < q.pos)) keep) u.r)

/-- R133, R134, R136 to R138: a save forks the address space READONLY and writes the session image; a roll reads a
well-formed image of a READONLY fork and takes its place; an acceptance counts the draft's tokens, drawing once unless
the block is one of thresholds. Where the spec leaves it open, this is the model's choice of assumptions 17 and 21. -/
def Obligations.SessionsAndDrafts : Prop :=
  ∀ (s : State) (a b c : BitVec 5), Claims.Ready s →
    (∀ g u v w, Claims.Segment s g → s.handleOk (s.r.sreg a) = true → (g + (s.r.sreg b).toNat) % 128 = 0 →
      let own : OwnerTag := { leaf := s.leafNo, asid := some s.gang.asid }
      s.ewrite none own s.leafNo s.gang.asid (g + (s.r.sreg b).toNat) (List.replicate 128 0) (some s.cur) = .ok w →
      let r := s.seqAt (handleKey (s.r.sreg a))
      let snap := (s.r.sreg c).toNat % 2 ^ 16
      (s.asidAt s.leafNo snap).st = .free → s.fork s.leafNo r.asid snap true = .ok u →
      u.ewrite none own s.leafNo s.gang.asid (g + (s.r.sreg b).toNat) (r.image snap) (some s.cur) = .ok v →
      Claims.Completes s (.sqSave a b c) v v.r)
    ∧ (∀ g bytes p u v, Claims.Segment s g → (g + (s.r.sreg b).toNat) % 128 = 0 →
      s.eread s.leafNo s.gang.asid (g + (s.r.sreg b).toNat) 128 (some s.cur) = .ok bytes → s.handleOk (s.r.sreg a) = true →
      imageOk bytes = true →
      let k := handleKey (s.r.sreg a)
      let r := s.seqAt k
      let src := s.asidAt s.leafNo (leNat ((bytes.drop 0x20).take 2))
      let x := r.rolled bytes
      src.st = .readonly → (s.asidAt r.leaf r.asid).st = .live → (x.gram = none ∨ r.gram ≠ none ∨ s.gramUse (k / 16384) < 4096) →
      s.rollSwap r x src.cur.root = .ok u → (s.dropSnaps r.leaf r.snaps []).rollSwap r x src.cur.root = .ok (p, v) →
      Claims.Completes s (.sqRoll a b) (v.setSeq k { x with snaps := [p] }) v.r)
    ∧ (s.gang.ext = none → s.handleOk (s.r.sreg b) = true →
      let off := (s.r.sreg c).toNat
      let n := memNat s.wg.scr off 4
      let blk := memBytes s.wg.scr off (16 + 16 * n)
      let es := (List.range n).map (draftEntry blk)
      let k := handleKey (s.r.sreg b)
      let r := s.seqAt k
      off % 16 = 0 → 1 ≤ n → n ≤ 16 → off + 16 + 16 * n ≤ s.grid.k.scratch → s.wg.badScr = [] → draftBad blk n = none →
      ((draftEntry blk 0).flags % 2 = 1 → Claims.Completes s (.sqAcc a b c) s (s.r.setS a (BitVec.ofNat 32
          (leading (ofIeee f32 (leNat ((blk.drop 4).take 4))) (ofIeee f32 (leNat ((blk.drop 8).take 4))) es))))
      ∧ ((draftEntry blk 0).flags % 2 = 0 → Claims.Completes s (.sqAcc a b c) (s.setSeq k { r with ctr := r.ctr + 1 })
          (s.r.setS a (BitVec.ofNat 32 (acceptLoop
            (variate (Claims.mix (r.seed + r.ctr * 0x9E3779B97F4A7C15))) es 1 0x3F800000 0)))))

/-- R31, R33: a grammar instruction has delivered its result on the state `u`. -/
def Claims.Answers (s : State) (i : Instr) (u : State) (d : BitVec 7) (f : Fin 32 → Word) : Prop :=
  s.Runs i (fun t => (u.setGang { u.gang with flash := { u.gang.flash with valid := false } }).Delivers t 4 d f [])

/-- R145: entries of `w` bytes each, as an image holds them from an offset on. -/
def Claims.Table (s : State) (m : Image) (w off : Nat) (es : List (List Byte)) : Prop :=
  ∀ (i : Nat) (x : List Byte), es[i]? = some x → s.eread m.leaf m.asid ((m.va + off + w * i) % 2 ^ 48) w m.who = .ok x

/-- R144, R145, R147 to R149: the mask of a context is that of the first entry of its state's mask list that names the stack-top
class, and empty without one. A span is 128 bytes of it, and zeros beyond the vocabulary. A step goes by the first transition
of its state that names the class and the token: it checks the mask, the transition, what it pops and pushes and the limit, in
that order, and leaves the new state with the stack popped and pushed. -/
def Claims.Automaton : Prop :=
  ∀ (s : State) (m : Image) (g : Gram) (head first count : List Byte) (list : List (List Byte)),
    let num := fun (b : List Byte) (o n : Nat) => leNat ((b.drop o).take n)
    let row := num head 0x18 8 + 16 * g.state
    s.eread m.leaf m.asid m.va 64 m.who = .ok head → Claims.Table s m 4 (row + 8) [first, count] →
    Claims.Table s m 4 (num head 0x28 8 + 4 * leNat first) list → list.length = leNat count →
    let vocab := num head 0x0C 4
    let size := (vocab + 1023) / 1024 * 128
    let top := match g.stack.getLast? with
      | some x => x.toNat
      | none => 0
    let mask := (list.find? (fun e => leNat e % 256 == top)).map (fun e => num head 0x30 8 + leNat e / 256 * size)
    (∀ k, size ≤ 128 * k → m.span s g k = .ok [])
    ∧ (∀ t, vocab ≤ t → m.step s g t = .ok (.dead 0))
    ∧ (mask = none → (∀ k, m.span s g k = .ok []) ∧ m.whole s g = .ok [] ∧ ∀ t, m.step s g t = .ok (.dead 0))
    ∧ ∀ off, mask = some off →
      (∀ k bytes, 128 * k < size → s.eread m.leaf m.asid ((m.va + off + 128 * k) % 2 ^ 48) 128 m.who = .ok bytes →
        m.span s g k = .ok bytes)
      ∧ (∀ bytes, s.eread m.leaf m.asid ((m.va + off) % 2 ^ 48) size m.who = .ok bytes → m.whole s g = .ok bytes)
      ∧ ∀ t x, t < vocab → s.eread m.leaf m.asid ((m.va + off + t / 8) % 2 ^ 48) 1 m.who = .ok x →
        ((leNat x).testBit (t % 8) = false → m.step s g t = .ok (.dead 0))
        ∧ ∀ c n rows, (leNat x).testBit (t % 8) = true → Claims.Table s m 4 row [c, n] →
          Claims.Table s m 16 (num head 0x20 8 + 16 * leNat c) rows → rows.length = leNat n →
          match rows.find? (fun e => num e 0 4 == t && num e 4 2 == top) with
          | none => m.step s g t = .ok (.dead 1)
          | some e =>
            let pop := num e 8 1
            let push := num e 9 1
            let syms := (e.drop 10).take push
            let depth := g.stack.length - pop + push
            (g.stack.length < pop ∨ 4 < push ∨ 0 ∈ syms → m.step s g t = .ok (.dead 2))
            ∧ (pop ≤ g.stack.length → push ≤ 4 → 0 ∉ syms →
              (num head 0x10 4 < depth → m.step s g t = .ok (.over depth))
              ∧ (depth ≤ num head 0x10 4 → m.step s g t = .ok (.ok { g with
                  state := num e 6 2, stack := g.stack.take (g.stack.length - pop) ++ syms })))

/-- R144 to R149, R264: with operands from the lowest active lane, a bind gives the sequence a context at its image's
start state; a mask returns a span of the current mask, lane by lane; a peek says whether no token, one, or several
are allowed; a step moves the context, or raises GDEAD or GSTKOVF, as the image's tables say. With no lane active nothing
happens. Where the spec leaves it open, this is the model's choice of assumptions 17 and 95. -/
def Obligations.Grammar : Prop :=
  Claims.Automaton ∧ ∀ (s : State) (d a b : BitVec 7) (v : BitVec 6),
    (s.r.exec = 0 →
      (s.Fits d [a, b] → s.Writes (.gxBind d a b) s.r) ∧ (s.Fits (v.setWidth 7) [a, b] → s.Writes (.gxMask v a b) s.r)
      ∧ (s.Fits d [a] → s.Writes (.gxPeek d a) s.r) ∧ (s.Fits 0x70 [a, b] → s.Writes (.gxStep a b) s.r))
    ∧ ∀ l : Fin 32, Claims.Ready s → lowest s.r.exec = some l →
    let x := (s.src .int a).at l
    let y := (s.src .int b).at l
    let k := handleKey x
    let r := s.seqAt k
    let va := s.grid.params.toNat / 2 ^ 32 * 2 ^ 32 + y.toNat
    (∀ bytes h, s.Fits d [a, b] → va % 64 = 0 → s.eread s.leafNo s.gang.asid va 64 (some s.cur) = .ok bytes →
      parseHead bytes = .ok h → s.handleOk x = true → (r.gram ≠ none ∨ s.gramUse (k / 16384) < 4096) →
      Claims.Answers s (.gxBind d a b)
        (s.setSeq k { r with gram := some { image := va, state := h.start, stack := [] } }) d (fun _ => 0))
    ∧ (∀ g, s.handleOk x = true → r.gram = some g →
      let m : Image := { leaf := s.leafNo, asid := s.gang.asid, who := some s.cur, va := g.image }
      (∀ bytes, s.Fits (v.setWidth 7) [a, b] → m.span s g y.toNat = .ok bytes →
        Claims.Answers s (.gxMask v a b) s (v.setWidth 7) (fun l => BitVec.ofNat 32 (leNat ((bytes.drop (4 * l.val)).take 4))))
      ∧ (∀ bytes, s.Fits d [a] → m.whole s g = .ok bytes →
        Claims.Answers s (.gxPeek d a) s d (fun _ =>
          match (List.range (8 * bytes.length)).filter (fun t => (bytes.getD (t / 8) 0).getLsbD (t % 8)) with
          | [] => 0
          | [t] => BitVec.ofNat 32 (1 + t * 256)
          | _ => 2))
      ∧ (s.Fits 0x70 [a, b] →
        (∀ h, m.step s g y.toNat = .ok (.ok h) →
          Claims.Answers s (.gxStep a b) (s.setSeq k { r with gram := some h }) 0x70 (fun _ => 0))
        ∧ (∀ n, m.step s g y.toNat = .ok (.dead n) → s.Raises (.gxStep a b) 4 tcGDEAD 0 0 n)
        ∧ (∀ n, m.step s g y.toNat = .ok (.over n) → s.Raises (.gxStep a b) 4 tcGSTKOVF 0 0 n)))
    ∧ (s.handleOk x = true → r.gram = none → s.Fits 0x70 [a, b] → s.Raises (.gxStep a b) 4 tcGDEAD 0 0 3)

/-! ### Maps and launches -/

/-- R114, R119, R121, R265, R266: a map instruction leaves its status in sA, 0 for success; a status other than 0 changes
nothing else; a swap that zeroes a frame of a page that another device owns waits for the page. An entry with a reserved kind or bit, writable and copy-on-write at once, misaligned, or with no frame at
level 1 is BADENT. A poisoned node is DATALOSS. Where the spec leaves it open, this is the model's choice of assumptions 21,
84 and 90. -/
def Obligations.Maps : Prop :=
  ∀ (s : State) (a b c : BitVec 5) (h : BitVec 1) (e : BitVec 3), s.gang.ext = none → Claims.Ready s →
    let l := s.leafNo
    let y := (s.r.sreg b).toNat
    let z := (s.r.sreg c).toNat
    let fails := fun (i : Instr) (code : Nat) => Claims.Completes s i s (s.r.setS a (BitVec.ofNat 32 code))
    let x := s.asidAt l (y % 2 ^ 16)
    let edit : Edit := { page := y, lvl1 := h == 1, entry := s.r.sreg (c + 1) ++ s.r.sreg c }
    let kind := edit.entry.toNat % 4
    let pa := edit.entry.toNat / 2 ^ 11 % 2 ^ 41
    (∀ root u, x.st = .live ∨ x.st = .readonly → (s.asidAt l (z % 2 ^ 16)).st = .free → s.copyRoot l x.cur.root = .ok (root, u) →
      Claims.Completes s (.mapFork a b c h)
        (u.setAsid l (z % 2 ^ 16) {
          st := if h = 1 then .readonly else .live, gens := [{ num := 1, root := root }]
          ord := (s.asidAt l (z % 2 ^ 16)).ord + 1 }) (s.r.setS a 0))
    ∧ ((x.st ≠ .live ∧ x.st ≠ .readonly) ∨ (s.asidAt l (z % 2 ^ 16)).st ≠ .free → fails (.mapFork a b c h) 3)
    ∧ (c ≠ 31 →
      (64 ≤ s.gang.edits.length → fails (.mapSet a b c h) 5)
      ∧ (s.gang.edits.length < 64 → s.editOk l edit.full = false → fails (.mapSet a b c h) 4)
      ∧ (s.gang.edits.length < 64 →
          kind = 1 ∨ (h = 1 ∧ y % 256 ≠ 0) ∨ edit.entry.toNat / 2 ^ 6 % 4 ≠ 0 ∨ (edit.entry[2] ∧ edit.entry[4])
            ∨ (kind = 2 ∧ h = 1 ∧ pa % 2 ^ 13 ≠ 0) ∨ (kind = 2 ∧ h = 0 ∧ pa % 2 ^ 5 ≠ 0) ∨ (kind = 2 ∧ h = 1 ∧ pa = 0) →
          fails (.mapSet a b c h) 4)
      ∧ (s.gang.edits.length < 64 → s.editOk l edit.full = true → Claims.Completes s (.mapSet a b c h)
          (s.setGang { s.gang with edits := s.gang.edits ++ [edit] }) (s.r.setS a 0)))
    ∧ (∀ u, s.mapSwap l (y % 2 ^ 16) (h == 1) (s.gang.edits.map Edit.full) = .ok u →
        (s.swapLack l (y % 2 ^ 16) (s.gang.edits.map Edit.full) = none →
          Claims.Completes s (.mapSwap a b h) (u.setGang { u.gang with edits := [] }) (u.r.setS a 0))
        ∧ (∀ key own va, s.swapLack l (y % 2 ^ 16) (s.gang.edits.map Edit.full) = some (.page key own va) → s.gang.wait = .none →
          s.Runs (.mapSwap a b h) (fun t => s.SameMem t ∧ t.leaf = s.leaf
            ∧ t.gang = { s.gang with wait := .peer key own s.now })))
    ∧ (∀ code, s.mapSwap l (y % 2 ^ 16) (h == 1) (s.gang.edits.map Edit.full) = .error code →
        if code = 6 then s.Raises (.mapSwap a b h) 4 tcDATALOSS 0 0 0 else fails (.mapSwap a b h) code)
    ∧ (x.st ≠ .live → fails (.mapSwap a b h) 3)
    ∧ (x.st = .live ∨ x.st = .readonly →
        Claims.Completes s (.mapDrop a b) (s.setAsid l (y % 2 ^ 16) { x with st := .dropping }) (s.r.setS a 0))
    ∧ (x.st ≠ .live → x.st ≠ .readonly → fails (.mapDrop a b) 3)
    ∧ (e.toNat ≤ 4 → if s.refLost l (z % 2 ^ 16) (y * 65536) e.toNat then s.Raises (.mapRef a b c e) 4 tcDATALOSS 0 0 0
        else Claims.Completes s (.mapRef a b c e) s (s.r.setS a (BitVec.ofNat 32 (s.refOf l (z % 2 ^ 16) (y * 65536) e.toNat))))
    ∧ (4 < e.toNat → s.Raises (.mapRef a b c e) 4 tcILLOP 0 0 0)

/-- R13, R14, R16, R267 to R269, R280: `lnch.grid` creates a child grid from its descriptor and dimensions; `lnch.sig`
lowers its node's count and launches it at 0; `lnch.grant` adds a row and returns its ticket. Beyond depth 10 a launch
raises NEST. Where the spec leaves it open, this is the model's choice of assumptions 11 and 58. -/
def Obligations.Launches : Prop :=
  ∀ (s : State) (a b c : BitVec 5) (q : BitVec 6) (g : Nat), Claims.Ready s →
    let d := g + (s.r.sreg a).toNat
    let p := g + (s.r.sreg b).toNat
    let v := (s.r.sreg c).toNat
    let gr := s.grid
    let spawn := (s.gridAt gr.root).spawn
    (Claims.Segment s g → c ≠ 31 →
      (∀ bytes k ps, gr.depth < 10 → spawn < 0x7FFFFFFF → d % 128 = 0 → p % 8 = 0 → s.vaStop d = none → s.vaStop p = none →
        s.eread s.leafNo s.gang.asid d 128 (some s.cur) = .ok bytes → parseDesc bytes = .ok k →
        let child : Grid := {
          parent := s.wg.grid, root := gr.root, seed := .child, depth := gr.depth + 1, k := k, params := BitVec.ofNat 48 p
          nx := v % 2 ^ 16 + 1, ny := v / 2 ^ 16 + 1, nz := (s.r.sreg (c + 1)).toNat % 2 ^ 16 + 1, leaf := gr.leaf, queue := gr.queue
          asid := s.gang.asid, prio := gr.prio }
        s.latchPatches child (some s.cur) = .ok ps → Claims.Completes s (.lnchGrid a b c) (s.newGrid { child with patches := ps }).2 s.r)
      ∧ (10 ≤ gr.depth ∨ 0x7FFFFFFF ≤ spawn → s.Raises (.lnchGrid a b c) 4 tcNEST 0 0 gr.depth))
    ∧ (s.gang.ext = none →
      let x := (s.r.sreg a).toNat
      let n := x % 2 ^ 16
      let i := x / 2 ^ 16 % 4 * 65536 + n
      let node := s.nodeAt i
      s.leaf.part.hasNode (x / 2 ^ 16 % 4) n = true →
      (node.used = true → node.leaf = s.leafNo → 1 < node.count →
        Claims.Completes s (.lnchSig a) (s.setNode i { node with count := node.count - 1 }) s.r)
      ∧ (node.used = true → node.leaf = s.leafNo → node.count = 1 →
        let u := State.launchNodes 65537 (s.setNode i { node with count := 0 }) [i]
        Claims.Completes s (.lnchSig a) u u.r)
      ∧ (node.used = false →
        let u := s.graphcnt s.leafNo gr.queue 0 n 1 gr.id.toNat s.r.pc.toNat
        Claims.Completes s (.lnchSig a) u u.r))
    ∧ (Claims.Segment s g →
      let k := s.die * 64 + q.toNat
      let x := s.grantAt k
      x.registered = true → x.leaf = s.leafNo → p % 64 = 0 →
      (s.grantOpen k = true → Claims.Completes s (.lnchGrant a b c q)
        (s.setGrant k { x with
          ticket := x.ticket + 1, since := if x.rows = [] then s.now else x.since
          rows := x.rows ++ [{ va := p, tag := s.r.sreg c, ticket := x.ticket + 1 }] })
        (s.r.setS a ((x.ticket + 1).setWidth 32)))
      ∧ (s.grantOpen k = false → s.Runs (.lnchGrant a b c q) (fun t =>
          s.OnlyGang t ∧ t.gang = { s.gang with
            flash := { s.gang.flash with valid := false }, ext := none, wait := .unit })))

/-! ### Events of the memory system, the engines and the scheduler -/

/-- The event leaves this state. -/
def Claims.Leaves (s : State) (e : Instr) (t : State) : Prop := exec e s = .next t

/-- Of all gangs only `k` differs. -/
def Claims.OnlyAt (s t : State) (k : Nat) : Prop := ∀ j, j ≠ k → t.gangAt j = s.gangAt j

/-- R23, R76: a cycle is over once none of its gangs that have still to issue can; then the writes of g registers that it has seen
take effect, by ascending slot, so that the highest slot's remains, and no other. -/
def Claims.CycleEnds : Prop :=
  ∀ (s : State),
    ((∃ k ∈ s.round, s.readyToIssue k = true) → s.closed = s)
    ∧ ((∀ k ∈ s.round, s.readyToIssue k = false) → s.SameMem s.closed ∧ ∀ w, (s.closed.wgAt w).gNext = []
      ∧ ∀ i : Fin 16, let now := (s.wgAt w).gNext
        ((∀ p ∈ now, p.2.1 ≠ i.val) → (s.closed.wgAt w).g[i] = (s.wgAt w).g[i])
        ∧ ∀ pre k v post, now = pre ++ (k, i.val, v) :: post →
          (∀ p ∈ pre, p.2.1 = i.val → (s.gangAt p.1).slot ≤ (s.gangAt k).slot) →
          (∀ p ∈ post, p.2.1 = i.val → (s.gangAt p.1).slot < (s.gangAt k).slot) → (s.closed.wgAt w).g[i] = v)

/-- R23, R26, R76, R78, R80 to R86, R92, R98, R120, R123, R152: what each event of the memory system, and the watchdog's, does
when its condition holds, and what the end of a cycle does to g registers. Where the spec leaves it open, this is the model's
choice of assumptions 1, 34, 36 (what one cycle is), 47 (an AtomicOp's answer), 64 (the slice that takes a line) and 71 (a write
that goes back to its instruction). -/
def Obligations.MemoryEvents : Prop :=
  Claims.CycleEnds ∧ ∀ (s : State),
    -- the watchdog traps on the boundary
    (∀ k h, let g := s.gangAt k
      g.st = .live → g.r.wdDue = true → g.trap = false → g.recipe = none → g.quiet = true →
      (s.gridAt (s.wgAt g.wg).grid).k.handler = some h →
      s.Runs (.wdog k) (fun t => t = { s with gangs := t.gangs } ∧ Claims.OnlyAt s t k ∧ (let r := (t.gangAt k).r
        (t.gangAt k).trap = true ∧ r.pc = h ∧ r.wdDue = false ∧ r.tfCode = BitVec.ofNat 32 tcWDOG ∧ r.tfPc = g.r.pc.setWidth 32
        ∧ r.tfLanes = g.r.exec ∧ r.tfAddr = 0 ∧ r.win = g.r.win
        ∧ r.tfInfo = match g.r.wdWin with
          | some w => w.1.setWidth 32
          | none => 0)))
    -- the oldest write of a gang performs: one to a g register, and one that is translated
    ∧ (∀ k w rest, let g := s.gangAt k
      (g.st = .live ∨ g.st = .halted) → g.stores = w :: rest →
      (∀ n i bytes, w.space = .greg n → w.writes = [(i, bytes)] → w.rmw = none → (∀ x ∈ rest, x.seq ≠ w.seq) → g.ckpts = [] →
        s.Runs (.holderSliceWrite k) (fun t => s.SameMem t ∧ (t.gangAt k).stores = rest ∧ (t.gangAt k).flash.valid = false
          ∧ (t.gangAt k).r = g.r
          -- at once, or with the other writes of a cycle in which gangs have still to issue
          ∧ (s.round = [] → (s.wgAt n).gNext = [] →
            (t.wgAt n).g = (s.wgAt n).g.setIfInBounds i (BitVec.ofNat 32 (leNat bytes)) ∧ (t.wgAt n).gNext = [])
          ∧ (s.round ≠ [] ∨ (s.wgAt n).gNext ≠ [] → (t.wgAt n).g = (s.wgAt n).g
            ∧ (t.wgAt n).gNext = (s.wgAt n).gNext ++ [(k, i, BitVec.ofNat 32 (leNat bytes))])))
      ∧ (let v : State := { s with cur := k }
        v.drains = true →
        (∀ u, v.perform w = some u →
          let after := ((u.gang.stores.find? (fun x => x.seq == w.seq)).getD w).after
          Claims.Leaves s (.holderSliceWrite k) { u.setGang (replaceCkpts w.seq after
            { u.gang with stores := u.gang.stores.filter (fun x => x.seq != w.seq) }) with cur := s.cur })
        -- one whose translation fails then goes back to its instruction, and what came after it with it
        ∧ (v.perform w = none → s.Runs (.holderSliceWrite k) (fun t => s.SameMem t ∧ Claims.OnlyAt s t k
          ∧ (t.gangAt k).r = w.before ∧ (t.gangAt k).stores = g.stores.filter (fun x => decide (x.seq < w.seq))
          ∧ (t.gangAt k).rollcnt = g.rollcnt ∧ (t.gangAt k).wait = .none ∧ (t.gangAt k).ext = none))))
    -- an L1 copy, or a die's remote copy, of a line is invalidated
    ∧ (∀ who line, s.Runs (.lineInvalidation who line) (fun t => s.SameMem t
      ∧ (thas s.lines line = true → (t.lineAt line).l1 = (s.lineAt line).l1.filter (fun p => !coversCore who p.1)
        ∧ (384 ≤ who → (t.lineAt line).remote = (s.lineAt line).remote.filter (fun d => d ≠ who - 384)))
      ∧ (∀ n, n ≠ line → t.lineAt n = s.lineAt n)
      ∧ (∀ k, (coversCore who (s.wgAt (s.gangAt k).wg).core = false
          ∨ ∀ c ∈ (s.gangAt k).ckpts, ∀ p ∈ c.reads, p.2 ≠ .line line) → t.gangAt k = s.gangAt k)
      ∧ ∀ k c rest, coversCore who (s.wgAt (s.gangAt k).wg).core = true → s.gangKeys.count k = 1 →
          (s.gangAt k).ckpts = c :: rest → (∃ p ∈ c.reads, p.2 = .line line) →
          (t.gangAt k).r = c.regs ∧ (t.gangAt k).rollcnt = (s.gangAt k).rollcnt + 1))
    ∧ (∀ line slice, s.sliceOk line slice = true →
      Claims.Leaves s (.lineMigration line slice) { s with lines := tput s.lines line { s.lineAt line with holder := some slice } })
    ∧ (∀ line, thas s.lines line = true →
      Claims.Leaves s (.l2Eviction line) { s with lines := tput s.lines line { s.lineAt line with dirty := false, holder := none } })
    -- a waiting scalar load performs
    ∧ (∀ k q, let g := s.gangAt k
      let u : State := { s.setGangAt k { g with ext := q.pre, wait := .none } with cur := k }
      let va := q.addrs.getD 0 0
      let done := fun (e : Instr) (g0 : Gang) (m : List Host.Cell) (pa : Nat) => s.Runs e (fun t =>
        t = { u with gangs := t.gangs, clk := t.clk, lines := t.lines } ∧ Claims.OnlyAt s t k
        ∧ g0.Moved (t.gangAt k) (u.nextPc 4) (g.r.setS (BitVec.ofNat 5 q.reg) (Claims.word m pa)))
      g.st = .live → q.scalar = true → q.size = 4 → g.stores = [] → u.inSpill va 4 = false → u.hasBlocks k = false →
      u.needsRefresh false false va = false →
      (∀ pa n, g.wait = .load q → u.gxlate false false va = .ok (.dram pa) n → u.poisoned (.dram pa) = false →
        u.l1Full u.wg.core (pa / 128) = false →
        done (.loadCompletion k) { g with ext := q.pre } s.mem pa)
      ∧ (∀ key keys n, g.wait = .host q keys → g.sent = [] → g.ckpts = [] → u.gxlate false false va = .ok (.host key) n → u.poisoned (.host key) = false →
        done (.hostReadCompletion { gang := k }) { g with ext := q.pre, flash := { g.flash with valid := false } } s.hostMem key))
    -- a host AtomicOp is answered, by Unsupported Request or not, and its gang takes it up
    ∧ (∀ k ur keys, (s.gangAt k).wait = .atomicOp keys → (s.gangAt k).sent = [] →
        s.Runs (.hostReadCompletion { gang := k, ur := ur }) (fun t => t = { s with gangs := t.gangs }
        ∧ Claims.OnlyAt s t k ∧ (t.gangAt k).wait = .atomicDone ur ∧ (t.gangAt k).r = (s.gangAt k).r))
    ∧ (∀ l a va u, s.exlate l a true va = .cow → s.copyOnWrite l a va = .ok u → Claims.Leaves s (.copyOnWrite l a va) u)
    ∧ (∀ l a, (s.asidAt l a).releasable = true → s.Runs (.generationRelease l a) (fun t =>
      (t.asidAt l a).gens = (s.asidAt l a).gens.tail ∧ (t.leafAt l).reclaim = (s.leafAt l).reclaim + 1
      ∧ ((s.asidAt l a).gens.tail = [] → (t.asidAt l a).st = .free)))

/-- R57, R59, R60: what one chunk makes of a word of the array: with finite elements, scales and accumulator the exact sum of
the accumulator and all the products with their scales, rounded once to FP32; the NaN when an element is one; of integers the
exact sum, modulo 2^32 or clamped with OF. Without an accumulator there is only the sum. -/
def Claims.ChunkOnce : Prop :=
  ∀ (m : MFmt) (acc : Option Word) (ps : List (Nat × Nat)),
    (m.ea.isInt = false → ∀ (sc : Option (Word × Word)) (zs ks xs ys : List (Bool × Nat × Int)),
      (acc = none ∧ zs = [] ∨ ∃ w z, acc = some w ∧ ofF32 w = Claims.value z ∧ zs = [z]) →
      (sc = none ∧ ks = [] ∨ ∃ v w x y, sc = some (v, w) ∧ ofF32 v = Claims.value x ∧ ofF32 w = Claims.value y ∧ ks = [Claims.times x y]) →
      ps.map (fun p => (decodeElem m.ea p.1).1) = xs.map Claims.value → ps.map (fun p => (decodeElem m.eb p.2).1) = ys.map Claims.value →
      zs ++ xs ≠ [] →
      m.acc acc sc ps = roundF32 m.rm (Claims.total m.rm (zs ++ (List.zipWith Claims.times xs ys).map (fun t => ks.foldl Claims.times t))))
    ∧ (m.ea.isInt = false → ∀ sc, (∃ p ∈ ps, (decodeElem m.ea p.1).1 = .nan ∨ (decodeElem m.eb p.2).1 = .nan) →
        (m.acc acc sc ps).1 = 0x7FC00000)
    ∧ (∀ lo hi w lo' hi' w', m.ea = .int lo hi w → m.eb = .int lo' hi' w' →
      let t := (acc.map BitVec.toInt).getD 0 + (ps.map (fun p => intOf lo w p.1 * intOf lo' w' p.2)).sum
      m.acc acc none ps = (BitVec.ofInt 32 (if m.sat && acc.isSome then max (-2 ^ 31) (min (2 ^ 31 - 1) t) else t),
        if m.sat && acc.isSome && (decide (t < -2 ^ 31) || decide (2 ^ 31 - 1 < t)) then evOF else 0))

/-- R251: element `i` of a packed row of `w`-bit elements at an address. -/
def Claims.element (m : List Host.Cell) (a w i : Nat) : Nat := memNat m a 64 / 2 ^ (w * i) % 2 ^ w
def Claims.bElement (m : List Host.Cell) (slot w k n : Nat) : Nat := memNat m (4096 * slot + 8 * w * k) (8 * w) / 2 ^ (w * n) % 2 ^ w

/-- R253: the 2-bit index of stored value `j` in row `i` of `S` values, in the metadata from slot `m` on. -/
def Claims.index (c : CoreSt) (m S i j : Nat) : Nat :=
  let bit := 2 * (S * i + j)
  (memRead c.metas (512 * m + bit / 8)).toNat / 2 ^ (bit % 8) % 4

/-- R252, R253, R255, R258: a started quarter of a tile operation gives each word of its 16 rows the chunk of its row of A and
its column of B: with `mx.mms` the stored values meet the rows their metadata name, with `mx.mmx` row and column have their
scales; other tiles and rows stand, and the events are those of the words, with NV and RC for each reserved code. A tile
marked invalid fails with cause 4, metadata that is ill formed with cause 5. `mx.mmg` gives the row its scatter entry names. -/
def Claims.QuarterResults : Prop :=
  ∀ (s : State) (k q : Nat) (c : Cmd), q < 4 →
    let w := (s.gangAt k).wg
    let core := (s.wgAt w).core
    let cs := s.coreAt core
    let m := c.fmt.m
    let S := m.k
    (∀ fn qs t a b b2 md o, c.op = .mma fn qs t a b b2 md o → fn = 3 ∨ fn = 4 ∨ fn = 5 →
      let rows := fun (p : Nat → Prop) => ∀ i, 16 * q ≤ i → i < 16 * q + 16 → p i
      let wellFormed := rows (fun i => ∀ g, g < S / 2 → Claims.index cs md S i (2 * g) < Claims.index cs md S i (2 * g + 1))
      ((s.wgAt w).badTiles.getLsbD t = true → s.runQuarter k c q = .fail s { cause := 4, tile := t })
      ∧ ((s.wgAt w).badTiles.getLsbD t = false → fn = 4 → ¬wellFormed → s.runQuarter k c q = .fail s { cause := 5, tile := t })
      ∧ ((s.wgAt w).badTiles.getLsbD t = false → (fn = 4 → wellFormed) → (s.wgAt w).badScr = [] → Memory.wf cs.tiles = true → t < 8 →
        let pairs := fun (i n : Nat) => (List.range S).map (fun j =>
          let p := if fn = 4 then 4 * (j / 2) + Claims.index cs md S i j else j
          (Claims.element cs.slots (4096 * a + 64 * i) m.w j,
            if p < S then Claims.bElement cs.slots b m.w p n else Claims.bElement cs.slots b2 m.w (p - S) n))
        let scale := fun (i n : Nat) => if fn = 5 then
          some (Claims.word (s.wgAt w).scr (o + 4 * i), Claims.word (s.wgAt w).scr (o + 256 + 4 * n)) else none
        let new := fun (i n : Nat) => m.acc (some (Claims.word cs.tiles (16384 * t + 256 * i + 4 * n))) (scale i n) (pairs i n)
        ∃ u ev, s.runQuarter k c q = .done u ev
          ∧ (cs.audits % cs.auditN.toNat ≠ 0 → s.SameMem u ∧ u.gangs = s.gangs ∧ u.wgs = s.wgs)
          ∧ (u.coreAt core).audits = cs.audits + 1
          ∧ rows (fun i => ∀ n, n < 64 → Claims.word (u.coreAt core).tiles (16384 * t + 256 * i + 4 * n) = (new i n).1)
          ∧ (∀ x, x < 16384 * t + 4096 * q ∨ 16384 * t + 4096 * q + 4096 ≤ x → memRead (u.coreAt core).tiles x = memRead cs.tiles x)
          ∧ (rows (fun i => ∀ n, n < 64 → ∀ p ∈ pairs i n, (decodeElem m.ea p.1).2 = false ∧ (decodeElem m.eb p.2).2 = false) →
            ∀ e, e < 6 → ev.getD e 0 = ((List.range 16).map (fun i =>
              ((List.range 64).filter (fun n => (new (16 * q + i) n).2.testBit e)).length)).sum)))
    ∧ (∀ qs off b acc, let leaf := (s.gridAt (s.wgAt w).grid).leaf
      let asid := (s.gangAt k).asid
      let entry := fun (base : Nat) => memNat (s.wgAt w).scr (off + base + 128 * q) 8
      c.op = .mmg qs off b (16 * q + 1) acc → (s.wgAt w).badScr = [] → cs.audits % cs.auditN.toNat ≠ 0 → entry 0 % 64 = 0 → entry 512 % 128 = 0 →
      entry 0 < 2 ^ 48 → entry 512 < 2 ^ 48 → ∀ ab old u, s.eread leaf asid (entry 0) 64 (some k) = .ok ab →
      (acc = true → s.eread leaf asid (entry 512) 256 (some k) = .ok old) →
      let new := fun (n : Nat) => m.acc (if acc then some (BitVec.ofNat 32 (leNat ((old.drop (4 * n)).take 4))) else none) none
        ((List.range S).map (fun j => (leNat ab / 2 ^ (m.w * j) % 2 ^ m.w, Claims.bElement cs.slots b m.w j n)))
      s.ewrite none { leaf := leaf, asid := some asid } leaf asid (entry 512)
        ((List.range 64).flatMap (fun n => leBytes 4 (new n).1.toNat)) (some k) = .ok u →
      ∃ v ev, s.runQuarter k c q = .done v ev ∧ u.SameMem v)

/-- R256, R257, R260 to R262: commands outside the array: a tile's words converted into the rows of a store, bytes copied, a
slot's rows loaded with a pitch or by a gather list, zeros after its last entry, an activation table loaded into the bank
that is not current and made current. -/
def Claims.CommandData (s : State) (k id : Nat) (c : Cmd) : Prop :=
  let g := s.gangAt k
  let w := g.wg
  let core := (s.wgAt w).core
  let cs := s.coreAt core
  let scr := (s.wgAt w).scr
  let leaf := (s.gridAt (s.wgAt w).grid).leaf
  let tag : OwnerTag := { leaf := leaf, asid := some g.asid }
  let names := fun (l : List Cmd) => l.map (fun x => (x.seq, x.id, x.op))
  let doneOn := fun (u : State) (p : State → Prop) => s.Runs (.engineOperationComplete k id) (fun t =>
    names (t.gangAt k).cmds = names ((u.gangAt k).cmds.filter (fun x => x.st == .pending || x.id != c.id)) ∧ p t)
  let done := doneOn s
  let shape := fun (h : Nat) => if h = 0 then (64, 64) else if h = 1 then (32, 128) else (128, 32)
  let slots := fun (n : Nat) (f : Nat → Byte) (t : State) => s.SameMem t ∧ ∀ a, memRead (t.coreAt core).slots a =
    if 4096 * n ≤ a ∧ a < 4096 * n + 4096 then f (a - 4096 * n) else memRead cs.slots a
  (s.wgAt w).badScr = [] → Memory.wf cs.slots = true → Memory.wf scr = true →
    (∀ n, c.op = .zero n → Memory.wf cs.tiles = true → done (fun t => s.SameMem t ∧ (t.wgAt w).badTiles.getLsbD n = false
      ∧ ∀ a, memRead (t.coreAt core).tiles a = if 16384 * n ≤ a ∧ a < 16384 * n + 16384 then 0 else memRead cs.tiles a))
    ∧ (∀ n int base pitch e, c.op = .st n false int base pitch → (s.wgAt w).badTiles.getLsbD n = false → elemOf c.fmt.out = some e →
      8 * e.width ≤ pitch → base + 64 * pitch ≤ 2 ^ 32 → g.ckpts = [] → (if int then e.isInt = true else e.isInt = false) → done (fun t => s.SameMem t
        ∧ ∀ i x, i < 64 → x < 64 →
          let old := Claims.word cs.tiles (16384 * n + 256 * i + 4 * x)
          memNat (t.wgAt w).scr (base + i * pitch) (8 * e.width) / 2 ^ (e.width * x) % 2 ^ e.width =
            match e with
            | .fp32 => old.toNat
            | .ieee f => (roundTo f true c.fmt.rm (ofF32 old)).1
            | .narrow f => (narrowTo f c.fmt.rm (ofF32 old)).1
            | .int lo hi b => (BitVec.ofInt b (max lo (min hi old.toInt))).toNat))
    ∧ (∀ dst src n b, c.op = .g2s dst src n → 0 < n → dst % 4096 + n ≤ 4096 → g.ckpts = [] → s.eread leaf g.asid src n (some k) = .ok b → done (fun t =>
        s.SameMem t ∧ ∀ a, memRead (t.wgAt w).scr a = if dst ≤ a ∧ a < dst + n then b.getD (a - dst) 0 else memRead scr a))
    ∧ (∀ dst src n u, c.op = .s2g dst src n → 0 < n → dst % 4096 + n ≤ 4096 →
      s.ewrite none tag leaf g.asid dst (memBytes scr src n) (some k) = .ok u → doneOn u (fun t => u.SameMem t))
    ∧ (∀ dst src n b u, c.op = .g2g dst src n → 0 < n → dst % 4096 + n ≤ 4096 → s.eread leaf g.asid src n (some k) = .ok b →
      s.ewrite none tag leaf g.asid dst b (some k) = .ok u → doneOn u (fun t => u.SameMem t))
    ∧ (∀ n src pitch h, c.op = .slot n false src pitch h → src + 128 * pitch + 128 < 2 ^ 32 →
      done (slots n (fun a => memRead scr (src + a / (shape h).2 * pitch + a % (shape h).2))))
    ∧ (∀ n src pitch h (b : Nat → List Byte), c.op = .slot n true src pitch h → src + 128 * pitch + 128 < 2 ^ 48 →
      (∀ i, i < (shape h).1 → s.eread leaf g.asid (src + i * pitch) (shape h).2 (some k) = .ok (b i)) →
      done (slots n (fun a => (b (a / (shape h).2)).getD (a % (shape h).2) 0)))
    ∧ (∀ n off rows h (b : Nat → List Byte), c.op = .gat n off rows h → rows ≤ (shape h).1 →
      (∀ i, i < rows → let va := memNat scr (off + 8 * i) 8
        va % 32 = 0 ∧ va < 2 ^ 48 ∧ s.eread leaf g.asid va (shape h).2 (some k) = .ok (b i)) →
      done (slots n (fun a => if a / (shape h).2 < rows then (b (a / (shape h).2)).getD (a % (shape h).2) 0 else 0)))
    ∧ (∀ n src, c.op = .metaLd n false src → Memory.wf cs.metas = true → done (fun t => s.SameMem t
      ∧ ∀ a, memRead (t.coreAt core).metas a = if 512 * n ≤ a ∧ a < 512 * n + 512 then memRead scr (src + (a - 512 * n))
        else memRead cs.metas a))
    ∧ (∀ src b, c.op = .act src → s.actHeld core c.id = false → s.eread leaf g.asid src 4096 (some k) = .ok b → done (fun t => s.SameMem t
      ∧ (t.coreAt core).bank = !cs.bank ∧ (t.coreAt core).actVa = some src
      ∧ ∀ a, a < 4096 → memRead (if cs.bank then (t.coreAt core).bank0 else (t.coreAt core).bank1) a = b.getD a 0))

/-- Two lists are related place by place. -/
def Claims.Each {α : Type} (p : α → α → Prop) (l m : List α) : Prop :=
  l.length = m.length ∧ ∀ (i : Nat) (x y : α), l[i]? = some x → m[i]? = some y → p x y

/-- The instruction of the pending list. -/
noncomputable def Claims.instr : SyncInstr → Instr
  | .mxClaim a k => .mxClaim a k
  | .mxRel a k => .mxRel a k
  | .sqBind a b c => .sqBind a b c
  | .sqBindFree b => .sqBindFree b
  | .sqFork a b c => .sqFork a b c
  | .sqSave a b c => .sqSave a b c
  | .sqRoll a b => .sqRoll a b
  | .sqRng a b => .sqRng a b
  | .sqAcc a b c => .sqAcc a b c
  | .gxBind d a b => .gxBind d a b
  | .gxMask d a b => .gxMask d a b
  | .gxPeek d a => .gxPeek d a
  | .gxStep a b => .gxStep a b
  | .lnchGrid a b c => .lnchGrid a b c
  | .lnchSig a => .lnchSig a
  | .lnchGrant a b c q => .lnchGrant a b c q

/-- R88, R90, R246: behind an older event of its gang, or a command that has not started, a synchronous instruction enters
the pending list, while that has room, and its gang goes on. -/
def Claims.Deferred : Prop :=
  ∀ (s : State) (a b c : BitVec 5) (k : BitVec 2) (d x y : BitVec 7) (v q : BitVec 6) (g : Nat), ¬Claims.Ready s →
    Claims.InList s.gang < 16 →
    let enters := fun (i : SyncInstr) => s.Runs (Claims.instr i) (fun t => s.OnlyGang t ∧ ∃ w : PendWrite,
      w.space = .cmd i s.gang.ext ∧ w.writes = [] ∧ w.rmw = none ∧ w.seq = s.gang.seq ∧ w.before = s.r ∧ w.after = t.r
      ∧ ({ s.gang with stores := s.gang.stores ++ [w] } : Gang).Moved t.gang (s.nextPc 4) s.r)
    let at' := fun (r : BitVec 5) => g + (s.r.sreg r).toNat
    (s.gang.ext = none →
      (k ≠ 3 → s.gang.failMx = none →
        ((k = 0 → popBits 32 s.wg.slots.toNat < s.grid.k.slots) → enters (.mxClaim a k))
        ∧ (Claims.Holds s k.toNat (s.r.sreg a).toNat → (∀ w ∈ s.gang.stores, ∀ a k pre, w.space ≠ .cmd (.mxRel a k) pre) →
          enters (.mxRel a k)))
      ∧ (b ≠ 31 → enters (.sqBind a b c)) ∧ enters (.sqBindFree b) ∧ enters (.sqFork a b c) ∧ (a ≠ 31 → enters (.sqRng a b))
      ∧ ((s.r.sreg c).toNat % 16 = 0 → (s.r.sreg c).toNat + 16 ≤ s.grid.k.scratch → enters (.sqAcc a b c))
      ∧ (s.leaf.part.hasNode ((s.r.sreg a).toNat / 2 ^ 16 % 4) ((s.r.sreg a).toNat % 2 ^ 16) = true → enters (.lnchSig a)))
    ∧ (Claims.Segment s g →
      (at' b % 128 = 0 → enters (.sqSave a b c) ∧ enters (.sqRoll a b))
      ∧ (c ≠ 31 → s.grid.depth < 10 → (s.gridAt s.grid.root).spawn < 0x7FFFFFFF → at' a % 128 = 0 → at' b % 8 = 0 →
        enters (.lnchGrid a b c))
      ∧ (at' b % 64 = 0 → (s.grantAt (s.die * 64 + q.toNat)).registered = true →
        (s.grantAt (s.die * 64 + q.toNat)).leaf = s.leafNo → enters (.lnchGrant a b c q)))
    ∧ (s.r.exec ≠ 0 → (s.Fits d [x, y] → enters (.gxBind d x y)) ∧ (s.Fits (v.setWidth 7) [x, y] → enters (.gxMask v x y))
      ∧ (s.Fits d [x] → enters (.gxPeek d x)) ∧ (s.Fits 0x70 [x, y] → enters (.gxStep x y)))

/-- R85, R88, R90, R162: a synchronous instruction of the pending list starts once all that is older has performed or started. It
acts as it stood, and the registers it writes go to its gang; one that does not complete at once, or traps, is taken up again,
and what came after it is discarded. -/
def Claims.DeferredStarts : Prop :=
  ∀ (s : State) (k : Nat) (w : PendWrite) (rest : List PendWrite) (i : SyncInstr) (pre : Option (BitVec 25)),
    let g := s.gangAt k
    g.stores = w :: rest → w.space = .cmd i pre → (∀ x ∈ g.cmds, x.st = .pending → w.seq < x.seq) →
    let back : Gang := { g with
      r := w.before, seq := w.seq, ext := pre, wait := .none, stores := [], ckpts := []
      cmds := g.cmds.filter (fun c => decide (c.seq < w.seq)) }
    let ahead := replaceCkpts w.seq w.after { g with stores := rest }
    let u : State := { s with
      cur := k, nextKey := s.nextKey + 1, gangs := tput (tput s.gangs s.nextKey ahead) k back }
    ∀ t, exec (Claims.instr i) u = .next t →
      let did := t.gangAt k
      let on := t.gangAt s.nextKey
      (did.seq = w.seq + 1 → s.Runs (.pendingCommandStart k) (fun z => z = { t with cur := s.cur, clk := s.clk, gangs := z.gangs }
        ∧ (∀ j, j ≠ k → j ≠ s.nextKey → z.gangAt j = t.gangAt j)
        ∧ (let h := z.gangAt k
          h.seq = on.seq ∧ h.flash = did.flash ∧ h.st = on.st ∧ h.stores.map (fun x => x.seq) = on.stores.map (fun x => x.seq)
          ∧ h.r = { on.r with s := h.r.s, win := h.r.win }
          ∧ (∀ r, h.r.sreg r = if did.r.sreg r = w.before.sreg r then on.r.sreg r else did.r.sreg r)
          ∧ ∀ r, h.r.vreg r = if did.r.vreg r = w.before.vreg r then on.r.vreg r else did.r.vreg r)))
      ∧ (did.seq ≠ w.seq + 1 → s.Runs (.pendingCommandStart k) (fun z => z = { s with gangs := z.gangs } ∧ Claims.OnlyAt s z k
        ∧ (let h := z.gangAt k
          h.r = w.before ∧ h.wait = .none ∧ h.ext = none
          ∧ h.stores = g.stores.filter (fun x => decide (x.seq < w.seq)))))

/-- R28, R57 to R60, R63, R85, R88, R90, R101, R102, R162, R246, R247, R252 to R257, R260 to R262: a pending command starts, a
commit, which writes its scalar register, or a synchronous instruction; commands run, and as they complete move their data,
merge their events and advance the counters, or fail; the array runs a pass; Sparge moves a block. Where the spec leaves it
open, this is the model's choice of assumptions 5, 8, 13, 61, 70, 75 and 97. -/
def Obligations.EngineEvents : Prop :=
  Claims.ChunkOnce ∧ Claims.QuarterResults ∧ Claims.Deferred ∧ Claims.DeferredStarts ∧ ∀ (s : State) (k : Nat),
    let g := s.gangAt k
    let core := (s.wgAt g.wg).core
    (∀ pre c post, g.cmds = pre ++ c :: post → (∀ x ∈ pre, x.st ≠ .pending) → c.st = .pending → (∀ w ∈ g.stores, c.seq < w.seq) →
      c.depMx ≤ g.counterNow false → c.depCp ≤ g.counterNow true →
      let g1 : Gang := { replaceCkpts c.seq c.after g with flash := { g.flash with valid := false } }
      ((if c.copy then g.failCp else g.failMx) = none → (∀ a b d, c.op ≠ .commit a b d) →
        let c1 : Cmd := { c with st := .started, id := s.nextKey, left := c.op.quarters }
        s.Runs (.pendingCommandStart k) (fun t => t = { s with gangs := t.gangs, cores := t.cores, nextKey := s.nextKey + 1 }
          ∧ Claims.OnlyAt s t k ∧ t.gangAt k = { g1 with cmds := pre ++ c1 :: post }
          ∧ t.coreAt core = { s.coreAt core with
            quarters := (s.coreAt core).quarters ++ c.op.quarters.map (fun q => { gang := k, cmd := s.nextKey, q := q }) }))
      ∧ (∀ (a : BitVec 5) n, c.op = .commit a.toNat n false → (∀ x ∈ pre ++ post, x.seq ≠ c.seq) → g.trap = false →
        s.Runs (.pendingCommandStart k) (fun t => t = { s with gangs := t.gangs } ∧ Claims.OnlyAt s t k
          ∧ (t.gangAt k).r = g.r.setS a (BitVec.ofNat 32 n) ∧ (t.gangAt k).cmds.map (fun x => x.id) = (pre ++ post).map (fun x => x.id)
          ∧ (t.gangAt k).flash.valid = false
          ∧ (c.copy = false → (∀ x ∈ pre ++ post, x.copy = true) → (t.gangAt k).tlMx = BitVec.ofNat 64 g.r.commMx)
          ∧ (c.copy = true → (∀ x ∈ pre ++ post, x.copy = false) → (t.gangAt k).tlCp = BitVec.ofNat 64 g.r.commCp))))
    ∧ (∀ id c, g.cmdAt id = some c → (s.wgAt g.wg).st = .live →
      let left := fun (x : Cmd) => x.st == .pending || x.id != c.id
      let merged := fun (r q : Regs) => Claims.Merged r q (fun i => c.ev.getD i 0)
      (c.st = .ran → s.Runs (.engineOperationComplete k id) (fun t => t = { s with gangs := t.gangs } ∧ Claims.OnlyAt s t k
        ∧ (t.gangAt k).cmds.map (fun x => (x.seq, x.id, x.op)) = (g.cmds.filter left).map (fun x => (x.seq, x.id, x.op))
        ∧ merged g.r (t.gangAt k).r ∧ merged g.flash.regs (t.gangAt k).flash.regs
        ∧ Claims.Each (fun d e => merged d.regs e.regs ∧ d.reads = e.reads ∧ d.seq = e.seq) g.ckpts (t.gangAt k).ckpts
        ∧ Claims.Each (fun d e => merged d.before e.before ∧ merged d.after e.after ∧ d.seq = e.seq) g.stores (t.gangAt k).stores
        ∧ (c.copy = false → (∀ x ∈ g.cmds.filter left, x.copy = true) → (t.gangAt k).tlMx = BitVec.ofNat 64 g.r.commMx)
        ∧ (c.copy = true → (∀ x ∈ g.cmds.filter left, x.copy = false) → (t.gangAt k).tlCp = BitVec.ofNat 64 g.r.commCp)))
      ∧ (c.st = .started → g.tileBusy c = false → Claims.CommandData s k id c)
      ∧ (∀ f, c.st = .failed f → let u := s.failCmd k c f
        Claims.Leaves s (.runFailure k id) (u.tryFinish g.wg) ∧ c ∉ (u.gangAt k).cmds ∧ (u.gangAt k).r = g.r
        ∧ (if c.copy then (u.gangAt k).failCp else (u.gangAt k).failMx) ≠ none))
    ∧ (∀ n q c u ev, s.formPass [] [] (s.coreAt n).quarters = [q] → (s.gangAt q.gang).cmdAt q.cmd = some c → c.st = .started →
      s.runQuarter q.gang c q.q = .done u ev →
      s.Runs (.matrixPass n) (fun t => u.SameMem t ∧ t.gangAt q.gang = (u.gangAt q.gang).mapCmd q.cmd (fun x => { x with
        ev := (List.range 6).map (fun i => x.ev.getD i 0 + ev.getD i 0), left := c.left.filter (fun i => i != q.q)
        st := if (c.left.filter (fun i => i != q.q)).isEmpty then .ran else .started })))
    ∧ (∀ u, g.st = .live → 8 * (g.spilled + 1) ≤ g.r.base → g.r.spbase.toNat + 1152 * (g.spilled + 1) ≤ g.r.splim.toNat →
      ({ s with cur := k } : State).sparge true g.spilled = .ok u →
      Claims.Leaves s (.spill k) { u.setGang { u.gang with spilled := g.spilled + 1 } with cur := s.cur })
    ∧ (∀ u n, g.st = .live → g.spilled = n + 1 → g.r.base + 64 - 8 * n ≤ (s.gridAt (s.wgAt g.wg).grid).k.regs →
      ({ s with cur := k } : State).sparge false n = .ok u →
      Claims.Leaves s (.refill k) { u.setGang { u.gang with spilled := n } with cur := s.cur })

/-- R42: registers a program can leave in a gang: no bit is set that a write of it stores as 0, and window base, CDEPTH
and interval number lie below 2^16. -/
def Claims.Savable (g : Gang) : Prop :=
  g.r.exec &&& g.launched = g.r.exec ∧ g.r.fmt &&& 0xFFFF = g.r.fmt ∧ g.r.fflags &&& 0x3F3F = g.r.fflags
  ∧ g.r.wdog &&& 0x8FFFFFFF = g.r.wdog ∧ g.r.calllim.toNat ≤ 1024 ∧ g.r.below.length < 2 ^ 16 ∧ g.r.links.length < 2 ^ 16
  ∧ g.ivl < 2 ^ 16 ∧ g.kind ≤ 1

/-- R42, R164: a save area has the length its tags give and is well formed. A full save followed by a restore gives back every
register of the gang; a flashback save gives back those of the interval's SAVE mask, and U 0 for the others. -/
def Claims.SaveAreas : Prop :=
  ∀ (g : Gang) (free : Nat), Claims.Savable g →
    let b := g.saveArea
    let save := g.flash.save
    areaBad b save = none ∧ b.length = areaLen b save ∧ b.length ≤ 8464
    ∧ g.restoreArea b (areaWin b save) free = { g with
        flash := { g.flash with valid := false }, spilled := g.r.below.length / 8
        r := { g.r with win := if g.kind = 0 then g.r.win else Vector.ofFn (fun i =>
          if save.testBit i.val then g.r.win[i] else .u 0) } }

/-- R165: a workgroup's record that is restored gives back its g registers, barriers, numbers and scratchpad, and the
contents of the operand slots, tiles and metadata slots it holds. -/
def Claims.Records : Prop :=
  ∀ (s : State) (w core : Nat) (areas : List Nat),
    let x := s.wgAt w
    let c := s.coreAt x.core
    let n := (s.gridAt x.grid).k.scratch
    let b := s.wgRecord w areas
    let t := s.restoreRecord w core b
    let y := t.wgAt w
    let d := t.coreAt core
    Memory.wf (s.coreAt core).slots = true → Memory.wf (s.coreAt core).tiles = true → Memory.wf (s.coreAt core).metas = true →
    (∀ a ∈ areas, a < 2 ^ 48) → n < 2 ^ 32 → (∀ i : Fin 4, x.bars[i].gen < 2 ^ 32) →
    x.tiles.toNat < 256 → x.badTiles.toNat < 256 → x.metas.toNat < 256 → (∀ v, c.actVa = some v → v < 2 ^ 48) →
    recordBad b = none ∧ b.length = recordLen n x
    ∧ (∀ i, i < 32 → leNat ((b.drop (0x80 + 8 * i)).take 8) = areas.getD i 0)
    ∧ leNat ((b.drop 0x60).take 4) = x.gangs.length % 2 ^ 32 ∧ leNat ((b.drop 0x6C).take 4) = n
    ∧ leNat ((b.drop 0x70).take 8) = (match c.actVa with
        | some v => v + 2 ^ 63
        | none => 0)
    ∧ y = { x with st := .live, core := core, hold := .none, scr := y.scr }
    ∧ (∀ a, a < n → memRead y.scr a = memRead x.scr a)
    ∧ (∀ i, i < 32 → x.slots.getLsbD i = true → tget 0 d.slotOwner i = w
        ∧ ∀ a, a < 4096 → memRead d.slots (4096 * i + a) = memRead c.slots (4096 * i + a))
    ∧ (∀ i, i < 8 → x.tiles.getLsbD i = true → tget 0 d.tileOwner i = w
        ∧ ∀ a, a < 16384 → memRead d.tiles (16384 * i + a) = memRead c.tiles (16384 * i + a))
    ∧ (∀ i, i < 8 → x.metas.getLsbD i = true → tget 0 d.metaOwner i = w
        ∧ ∀ a, a < 512 → memRead d.metas (512 * i + a) = memRead c.metas (512 * i + a))

/-- R10, R15, R27, R32, R40, R42, R163 to R165, R276, R278, R279: gangs retire, workgroups are placed, saved and resumed,
slices and grace windows end, a gang that has waited is promoted. A resumed gang has the registers of its save area, and a
save followed by a restore gives back all that the area and the workgroup record hold. -/
def Obligations.SchedulerEvents : Prop :=
  Claims.SaveAreas ∧ Claims.Records ∧ ∀ (s : State),
    (∀ k j, let g := s.gangAt k
      let gr := s.gridAt (s.wgAt g.wg).grid
      g.st = .halted → g.cmds = [] → g.stores = [] → (s.wgAt g.wg).st = .live → j ∈ (s.wgAt g.wg).gangs → j ≠ k →
      (s.gangAt j).st ≠ .retired → s.Runs (.gangRetire k) (fun t => s.SameMem t ∧ Claims.OnlyAt s t k
        ∧ t.gangAt k = { g with st := .retired, edits := [], wait := .none, ckpts := [] }
        ∧ t.asidAt gr.leaf g.asid = (s.asidAt gr.leaf g.asid).pin g.gen (fun n => n - 1)))
    ∧ (∀ k, let g := s.gangAt k
      g.st = .live → g.r.wdDue = false → g.promoted = false → max g.readySince g.lastIssue + 4096 ≤ s.clk.core →
      Claims.Leaves s (.promotion k) (s.setGangAt k { g with promoted := true }))
    ∧ (∀ l k c streams spills used u, (s.settleRamp l).placement l = some (k, c, streams, spills, used) →
      (s.settleRamp l).activate l c = some u →
      let g := u.gridAt k
      let w := u.nextKey
      let lanes := g.k.wx * g.k.wy * g.k.wz
      s.Runs (.workgroupPlacement l) (fun t => u.SameMem t ∧ t.nextKey = w + 1 + g.k.gangs
        ∧ (t.wgAt w).st = .live ∧ (t.wgAt w).core = c ∧ (t.wgAt w).grid = k ∧ (t.wgAt w).scr = []
        ∧ (t.wgAt w).g = Vector.replicate 16 0
        ∧ (t.wgAt w).x = g.nextWg % g.nx ∧ (t.wgAt w).y = g.nextWg / g.nx % g.ny ∧ (t.wgAt w).z = g.nextWg / (g.nx * g.ny)
        ∧ ∀ j, j < g.k.gangs →
          let r := (t.gangAt (w + 1 + j)).r
          let mask : Word := if j + 1 = (lanes + 31) / 32 ∧ lanes % 32 ≠ 0 then BitVec.ofNat 32 (2 ^ (lanes % 32) - 1) else 0xFFFFFFFF
          (t.gangAt (w + 1 + j)).st = .live ∧ (t.gangAt (w + 1 + j)).slot = j ∧ (t.gangAt (w + 1 + j)).launched = mask
          ∧ r.pc = g.k.entry ∧ r.exec = mask ∧ (∀ v, r.vreg v = .u 0) ∧ (∀ v, r.sreg v = 0) ∧ r.links = [] ∧ r.fflags = 0))
    ∧ (∀ l a, (s.leafAt l).live = true → (s.leafAt l).part.sliced = true → s.sliceOver l = true → s.tenantWgs l = [] →
      (s.leafAt l).nextPart = none → (s.tenants l).find? (fun a => (s.leafAt l).tenant < a) = some a →
      Claims.Leaves s (.sliceEnd l) (s.setLeafAt l { s.leafAt l with
        tenant := a, sliceEnd := s.now + 2700 * (s.leafAt l).part.slice, refused := [] }))
    -- a workgroup of the slice whose last gang has stopped goes to its queue's save region
    ∧ (∀ l w u, let gr := s.gridAt (s.wgAt w).grid
      (s.leafAt l).live = true → (s.leafAt l).part.sliced = true → s.tenantWgs l = [w] → s.stopped w = true →
      s.saveWg w = .ok u → u.sliceOver l = false →
      s.Runs (.sliceEnd l) (fun t => t = u ∧ (t.wgAt w).st = .saved ∧ (t.wgAt w).hold = .none
        ∧ ((t.wgAt w).recVa, (t.wgAt w).recLen) ∈ (t.queueAt gr.leaf gr.queue).saves))
    ∧ (∀ k d j, let g := s.gangAt k
      g.forward = some d → d ≤ s.now → g.st = .live → g.recipe = none → g.trap = false → g.quiet = true →
      j ∈ (s.wgAt g.wg).gangs → j ≠ k → (s.gangAt j).st = .live →
      Claims.Leaves s (.graceWindowExpiry k) (s.setGangAt k { g with st := .saved, kind := 0, ext := none, forward := none, releasing := none }))
    ∧ (∀ w b areas act c u streams, let x := s.wgAt w
      let gr := s.gridAt x.grid
      let v := s.settleRamp gr.leaf
      let n := (s.unretired w).length
      x.st = .saved → x.killed = false → s.thermal = false → s.inSlice gr = true → s.imageAct w = .ok ((b, areas), act) →
      (v.leafAt gr.leaf).rotation.find? (fun c => (v.coreAt c).freeFor (BitVec.ofNat 32 (leNat ((b.drop 0x64).take 4)))
        (BitVec.ofNat 32 (leNat ((b.drop 0x68).take 1))) (BitVec.ofNat 32 (leNat ((b.drop 0x6A).take 1)))
        && (v.fitCore c x.grid n).isSome) = some c →
      v.activate gr.leaf c = some u → v.fitCore c x.grid n = some streams → recordBad b = none →
      (∀ p ∈ (s.unretired w).zip areas, areaBad p.2 (s.gangAt p.1).flash.save = none) → (s.unretired w).Nodup →
      s.Runs (.workgroupResume w) (fun t => (t.wgAt w).st = .live ∧ (t.wgAt w).core = c
        ∧ (∀ i : Fin 16, (t.wgAt w).g[i] = BitVec.ofNat 32 (leNat ((b.drop (4 * i.val)).take 4)))
        -- a gang whose area is the one that `h` left, saved whole or with no recipe to run, has the registers of `h`
        ∧ ∀ p ∈ (s.unretired w).zip areas, ∀ h : Gang, let g := s.gangAt p.1
          Claims.Savable h → p.2 = h.saveArea → h.launched = g.launched → h.flash.save = g.flash.save →
          h.r.below.length = g.r.below.length → h.r.links.length = g.r.links.length → (h.kind = 0 ∨ g.flash.recipe = 0) →
          (t.gangAt p.1).st = .live ∧ (t.gangAt p.1).ivl = h.ivl ∧ (t.gangAt p.1).r = { g.r with
            pc := h.r.pc, exec := h.r.exec, fmt := h.r.fmt, fflags := h.r.fflags, s := h.r.s, wdog := h.r.wdog
            fcount0 := h.r.fcount0, fcount1 := h.r.fcount1, fcount2 := h.r.fcount2, calllim := h.r.calllim
            win := if h.kind = 0 then h.r.win else Vector.ofFn (fun i =>
              if h.flash.save.testBit i.val then h.r.win[i] else .u 0) }))

/-! ### Events of queues, rings and the host -/

/-- R106, R280, R281: rows gather in an open batch, which closes full or by its timeout; a batch's grid launches when its
buffer is free; a registration record takes effect with its EN bit, and ends once nothing of the queue is left. Where
the spec leaves it open, this is the model's choice of assumptions 22 and 23. -/
def Obligations.GrantEvents : Prop :=
  ∀ (s : State) (q : Nat),
    let g := s.grantAt q
    let closed : Grant := { g with
      batches := g.batches ++ [{ k := g.nextBatch, rows := g.rows }], rows := [], nextBatch := g.nextBatch + 1 }
    (g.registered = true → g.rows ≠ [] → g.size ≤ g.rows.length → Claims.Leaves s (.grantBatchClose q) (s.setGrant q closed))
    ∧ (g.registered = true → g.rows ≠ [] → g.since + g.f 0x1C 4 * 2700 / 1000 ≤ s.now →
        Claims.Leaves s (.grantTimeout q) (s.setGrant q closed))
    ∧ (∀ b t k u ps, g.nextLaunch = some b →
        let l := g.leaf
        let a := (s.queueAt l (g.f 0x2C 1 % 64)).asid.toNat
        let buf := (g.f 0x10 8 + 4096 * (b.k % g.f 0x1A 1)) % 2 ^ 48
        s.eread l a (g.f 0x08 8) (g.f 0x20 8) = .ok t → s.readDesc l a (g.f 0 8) = .ok k →
        s.ewrite none { leaf := l, asid := some a } l a buf
          (b.rows.flatMap (fun r => leBytes 8 r.va ++ leBytes 4 r.tag.toNat ++ leBytes 4 r.ticket.toNat)) = .ok u →
        let grid : Grid := {
          seed := .grant q b.k, k := k, params := BitVec.ofNat 48 (g.f 0x08 8), nx := (b.rows.length + 63) / 64, ny := 1, nz := 1
          block := leBytes 8 buf ++ leBytes 4 b.rows.length ++ leBytes 4 b.k ++ t.drop 16
          leaf := l, queue := g.f 0x2C 1 % 64, asid := a, prio := g.f 0x1B 1 % 4 }
        u.latchPatches grid = .ok ps →
        let mark : Grant := { u.grantAt q with
          hold := .none, batches := (u.grantAt q).batches.map (fun c => if c.k = b.k then { c with launched := true } else c) }
        Claims.Leaves s (.grantServiceLaunch q) ((u.setGrant q mark).newGrid { grid with patches := ps }).2)
    ∧ (∀ l off (v : Word), (s.leafAt l).live = true → (s.leafAt l).part.hasGrant q = true → q < 256 → off % 4 = 0 → off < 64 →
        (g.en = false → g.closing = false → off ≠ 0x28 → s.Runs (.grantRegistrationWrite l q off v) (fun t =>
          t = s.setGrant q (t.grantAt q) ∧ (t.grantAt q).f off 4 = Nat.land v.toNat (grantMask off)
          ∧ t.grantAt q = { g with block := (t.grantAt q).block, leaf := l }))
        ∧ (g.en = true → off = 0x28 → v.getLsbD 31 = false → s.Runs (.grantRegistrationWrite l q off v) (fun t =>
          t = s.setGrant q (t.grantAt q) ∧ (t.grantAt q).en = false ∧ (t.grantAt q).closing = g.registered
          ∧ t.grantAt q = { g with block := (t.grantAt q).block, closing := g.registered }))
        ∧ (g.en = false → g.closing = false → off = 0x28 → v.getLsbD 31 = true → g.legal = true → s.feature 4 = true →
          s.Runs (.grantRegistrationWrite l q off v) (fun t =>
            t = s.setGrant q (t.grantAt q) ∧ (t.grantAt q).en = true ∧ (t.grantAt q).registered = true)))
    ∧ (g.closing = true → g.rows = [] → g.batches = [] →
        Claims.Leaves s (.grantUnregister q) (s.setGrant q { g with registered := false, closing := false }))

/-- R271: the write-maximum rule. -/
def Claims.raised (old v : Word) : Word := if 1 ≤ (v - old).toNat ∧ (v - old).toNat ≤ 0x7FFFFFFF then v else old

/-- Bits [31:0] of a VA register written, but for the low bits that its alignment makes zero. -/
def Claims.low (y : Va) (v mask : Word) : Va := (y &&& 0xFFFF00000000) ||| (v &&& mask).setWidth 48
/-- Bits [47:32] of it. -/
def Claims.high (y : Va) (v : Word) : Va := (y &&& 0xFFFFFFFF) ||| ((v &&& 0xFFFF).setWidth 48 <<< 32)
/-- A log2 field outside 4 to its limit stores 4. -/
def Claims.log2 (x hi : Nat) : Nat := if 4 ≤ x ∧ x ≤ hi then x else 4
/-- A word stands in a table of bytes, each byte under a mask, and no other byte has changed. -/
def Claims.WordPut (t u : Tab Byte) (off : Nat) (v : Word) (m : Byte) : Prop :=
  ∀ j, tget 0 u j = if off ≤ j ∧ j < off + 4 then (v >>> (8 * (j - off))).setWidth 8 &&& m else tget 0 t j
/-- A write to RCTL. -/
def Claims.rctl (r : Ring) (v : Word) : Ring := { r with
  en := v.getLsbD 31, vec := v.toNat % 64, log2n := if r.en then r.log2n else Claims.log2 (v.toNat / 2 ^ 8 % 16) 15
  failed := r.failed && !v.getLsbD 31 }
/-- A write to a field of an MSI-X entry. -/
def Claims.msix (m : Msix) (v : Word) (off : Nat) : Msix :=
  if off = 0 then { m with addr := (m.addr >>> 32).setWidth 32 ++ v }
  else if off = 4 then { m with addr := v ++ m.addr.setWidth 32 } else { m with data := v }

/-- R282, R294, R296, R298: writes to a function's window beside its queue block: the Cask ring, an egress ring and the telemetry
ring, whose bases and lengths do not change while they are enabled, the vectors of errors and of Cask completions, COALESCE and
the MSI-X table. Registers that are read-only, and offsets that name none, ignore them. -/
def Claims.FunctionWindow : Prop :=
  ∀ (s : State) (l q : Nat) (v : Word), s.fnUp l = true → l < 32 → q < 64 →
    let f := s.leafAt l
    let c := Claims.raised f.caskP v
    let ring := s.ringAt l q
    let m := tget ({} : Msix) f.msix q
    let same := fun (off : Nat) => Claims.Leaves s (.registerWrite l off v) s
    let leaf := fun (off : Nat) (y : Leaf) => Claims.Leaves s (.registerWrite l off v) (s.setLeafAt l y)
    let egress := fun (off : Nat) (y : Ring) =>
      Claims.Leaves s (.registerWrite l (0x1800 + 32 * q + off) v) ((s.setRing l q y).setRing l q y)
    (f.caskEn = false →
      leaf 0x1000 { f with caskBase := Claims.low f.caskBase v 0xFFFFF000 } ∧ leaf 0x1004 { f with caskBase := Claims.high f.caskBase v })
    ∧ (f.caskEn = true → same 0x1000 ∧ same 0x1004)
    ∧ leaf 0x1008 { f with
        caskEn := v.getLsbD 31, caskHold := if f.caskEn && v.getLsbD 31 then f.caskHold else .none
        caskLog2 := if f.caskEn then f.caskLog2 else Claims.log2 (v.toNat % 16) 12 }
    ∧ ((c - f.caskCons).toNat ≤ 2 ^ f.caskLog2 → leaf 0x100C { f with caskP := c })
    ∧ (∀ off ∈ [0x1010, 0x1014, 0x1018, 0x101C], same off)
    ∧ (ring.en = false →
      egress 0x00 { ring with rbase := Claims.low ring.rbase v 0xFFFFF000 } ∧ egress 0x04 { ring with rbase := Claims.high ring.rbase v })
    ∧ (ring.en = true → same (0x1800 + 32 * q) ∧ same (0x1804 + 32 * q))
    ∧ (ring.held = [] ∨ v.getLsbD 31 = false → egress 0x08 (Claims.rctl ring v))
    ∧ (ring.held = [] → egress 0x10 { ring with cons := Claims.raised ring.cons v })
    ∧ (∀ off ∈ [0x0C, 0x14, 0x18, 0x1C], same (0x1800 + 32 * q + off))
    ∧ (f.telem.en = false →
      leaf 0x2000 { f with telem := { f.telem with rbase := Claims.low f.telem.rbase v 0xFFFFF000 } }
      ∧ leaf 0x2004 { f with telem := { f.telem with rbase := Claims.high f.telem.rbase v } })
    ∧ (f.telem.en = true → leaf 0x2000 f ∧ leaf 0x2004 f)
    ∧ leaf 0x2008 { f with telem := Claims.rctl f.telem v } ∧ (∀ off ∈ [0x200C, 0x2010], leaf off f)
    ∧ (∀ i, i < 16 → s.Runs (.registerWrite l (0x2020 + 4 * i) v) (fun t =>
        t = s.setLeafAt l { f with errVec := (t.leafAt l).errVec } ∧ Claims.WordPut f.errVec (t.leafAt l).errVec (4 * i) v 0xBF))
    ∧ leaf 0x2060 { f with caskVec := (v &&& 0xBF).setWidth 8 }
    ∧ leaf 0x2064 { f with coalesceT := v.toNat / 2 ^ 16, coalesceN := max 1 (v.toNat % 256) }
    ∧ (m.pending = false ∨ m.masked = true → ∀ off ∈ [0, 4, 8],
        leaf (0x3000 + 16 * q + off) { f with msix := tput f.msix q (Claims.msix m v off) })
    ∧ (v.getLsbD 0 = true → leaf (0x300C + 16 * q) { f with msix := tput f.msix q { m with masked := true } })
    ∧ (∀ off, (0x1020 ≤ off ∧ off < 0x1800) ∨ (0x2068 ≤ off ∧ off < 0x3000) ∨ (0x3400 ≤ off ∧ off < 0x4000) ∨ 0x8000 ≤ off → same off)

/-- R7, R126, R295, R299 to R302: writes to the PF's window: the mailbox, which takes none to MBCTL and MBIN while a command
runs and is all there is after a failed boot; the accepted features until START; the peer masks, the PASID tables and the
PF's MSI-X table. Its read-only registers ignore them. -/
def Claims.PfWindow : Prop :=
  ∀ (s : State) (v : Word),
    let same := fun (off : Nat) => Claims.Leaves s (.registerWrite 32 off v) s
    (s.mbGo = true → same 0x0 ∧ ∀ i, i < 64 → same (0x100 + 4 * i))
    ∧ (s.mbGo = false →
      Claims.Leaves s (.registerWrite 32 0x0 v) { s with
        mbCmd := v.setWidth 8, mbGo := v.getLsbD 31, mbDone := s.mbDone && !v.getLsbD 31 }
      ∧ ∀ i, i < 64 → s.Runs (.registerWrite 32 (0x100 + 4 * i) v) (fun t =>
        t = { s with mbIn := t.mbIn } ∧ Claims.WordPut s.mbIn t.mbIn (4 * i) v 0xFF))
    ∧ Claims.Leaves s (.registerWrite 32 0x8 v) { s with mbVec := (v &&& 0xBF).setWidth 8 }
    ∧ same 0x4 ∧ (∀ off, 0x200 ≤ off → off < 0x400 → same off)
    ∧ (s.boot ≠ .ok → ∀ off, 0x1000 ≤ off → same off)
    ∧ (s.boot = .ok →
      (s.started = true → ∀ i, i < 8 → same (0x1020 + 4 * i))
      ∧ (s.started = false → ∀ i, i < 8 → s.Runs (.registerWrite 32 (0x1020 + 4 * i) v) (fun t =>
          t = { s with featAcc := t.featAcc } ∧ ∀ j, j < 256 →
            t.featAcc.getLsbD j = if 32 * i ≤ j ∧ j < 32 * i + 32 then v.getLsbD (j - 32 * i) else s.featAcc.getLsbD j))
      ∧ (∀ off, (0x1000 ≤ off ∧ off < 0x1020) ∨ off = 0x1104 ∨ off = 0x1108 ∨ 0x100000 ≤ off → same off)
      ∧ (∀ l, l < 32 → let f := s.leafAt l
        (∀ i, i < 128 → s.Runs (.registerWrite 32 (0x2000 + 512 * l + 4 * i) v) (fun t =>
          t = s.setLeafAt l { f with peerMask := (t.leafAt l).peerMask }
          ∧ Claims.WordPut f.peerMask (t.leafAt l).peerMask (4 * i) v 0xFF))
        ∧ ∀ i, i < 4096 → Claims.Leaves s (.registerWrite 32 (0x80000 + 16384 * l + 4 * i) v)
          (s.setLeafAt l { f with pasids := tput f.pasids i (v &&& 0x800FFFFF) }))
      ∧ ∀ q, q < 64 → let m := tget ({} : Msix) s.pfMsix q
        (m.pending = false ∨ m.masked = true → ∀ off ∈ [0, 4, 8], Claims.Leaves s (.registerWrite 32 (0x6000 + 16 * q + off) v)
          { s with pfMsix := tput s.pfMsix q (Claims.msix m v off) })
        ∧ (v.getLsbD 0 = true → Claims.Leaves s (.registerWrite 32 (0x600C + 16 * q) v)
          { s with pfMsix := tput s.pfMsix q { m with masked := true } })
        ∧ (v.getLsbD 0 = false → Claims.Leaves s (.registerWrite 32 (0x600C + 16 * q) v) { s with
            pfMsix := tput s.pfMsix q { m with masked := false, pending := false }
            out := if m.pending then .pfMsix q m.addr m.data :: s.out else s.out }))

/-- R298: an event counts on its vector, whose message is sent, or held while the vector is masked, once N events have come, or
at once with a T of 0. -/
def Claims.Vectors : Prop :=
  ∀ (s : State) (l v : Nat), v < 64 →
    let f := s.leafAt l
    let m := tget ({} : Msix) f.msix v
    let counted : Msix := { m with events := m.events + 1, since := if m.events = 0 then s.now else m.since }
    let t := s.vecEvent l v
    (f.coalesceT ≠ 0 → m.events + 1 < f.coalesceN → t = s.setLeafAt l { f with msix := tput f.msix v counted })
    ∧ (f.coalesceT = 0 ∨ f.coalesceN ≤ m.events + 1 →
      t = { s with leaves := t.leaves, out := if m.masked then s.out else .msix l v m.addr m.data :: s.out }
      ∧ tget ({} : Msix) (t.leafAt l).msix v = { counted with events := 0, pending := m.pending || m.masked })

/-- R127, R270, R271, R282, R294 to R296, R298, R302: writes of the host to every register of a function and of the PF but for the
registration records of Grant; the events of vectors and a coalescing timer's end; a reset of a function. Where the spec
leaves it open, this is the model's choice of assumptions 24, 26 and 44. -/
def Obligations.RegisterEvents : Prop :=
  Claims.FunctionWindow ∧ Claims.PfWindow ∧ Claims.Vectors ∧ ∀ (s : State) (l q : Nat) (v : Word), s.fnUp l = true → q < 64 →
    let f := s.leafAt l
    let x := s.queueAt l q
    let p := Claims.raised x.p v
    let c := Claims.raised f.caskP v
    let ring := s.ringAt l q
    let m := tget ({} : Msix) f.msix q
    ((p - x.cons).toNat ≤ 2 ^ x.log2n → Claims.Leaves s (.kick l q v) (s.setQueue l q { x with p := p }))
    ∧ (2 ^ x.log2n < (p - x.cons).toNat → Claims.Leaves s (.kick l q v) (s.queueRecord l q 3 v.toNat))
    ∧ ((∀ d a b c, x.run ≠ .graph d a b c) →
        Claims.Leaves s (.rst l q) (s.setQueue l q { x with halt := false, cons := 0, p := 0, run := .none, hold := .none }))
    ∧ (l < 32 →
      let store := fun (off : Nat) (y : Queue) => Claims.Leaves s (.registerWrite l (64 * q + off) v) (s.setQueue l q y)
      let low := fun (y : Va) (m : Word) => Claims.low y v m
      let high := fun (y : Va) => Claims.high y v
      (x.en = false →
        store 0x00 { x with qbase := low x.qbase 0xFFFFF000 } ∧ store 0x04 { x with qbase := high x.qbase }
        ∧ store 0x20 { x with errbase := low x.errbase 0xFFFFFFE0 } ∧ store 0x24 { x with errbase := high x.errbase }
        ∧ store 0x28 { x with errlog2 := if 4 ≤ v.toNat % 32 ∧ v.toNat % 32 ≤ 16 then v.toNat % 32 else 4 }
        ∧ store 0x2C { x with spillpart := BitVec.ofNat 32 (min (v &&& 0xFFFFFF80).toNat x.savesize.toNat) }
        ∧ store 0x30 { x with savebase := low x.savebase 0xFFFFFF80 } ∧ store 0x34 { x with savebase := high x.savebase }
        ∧ store 0x38 { x with
            savesize := v &&& 0xFFFFFF80
            spillpart := BitVec.ofNat 32 (min x.spillpart.toNat (v &&& 0xFFFFFF80).toNat) }
        ∧ ∀ off ∈ [0x10, 0x14, 0x18, 0x1C, 0x3C], store off x)
      ∧ (x.en = true → ∀ off ∈ [0x00, 0x04, 0x10, 0x14, 0x18, 0x1C, 0x20, 0x24, 0x28, 0x2C, 0x30, 0x34, 0x38, 0x3C],
          Claims.Leaves s (.registerWrite l (64 * q + off) v) s)
      ∧ (v.getLsbD 29 = false → store 0x08 { x with
          en := v.getLsbD 31, prio := (v >>> 8).setWidth 2, asid := if x.en then x.asid else (v >>> 10).setWidth 16
          log2n := if x.en then x.log2n else if 4 ≤ v.toNat % 16 then v.toNat % 16 else 4 })
      ∧ ((p - x.cons).toNat ≤ 2 ^ x.log2n → store 0x0C { x with p := p }))
    ∧ (ring.held = [] → Claims.Leaves s (.rcons l q v)
        ((s.setRing l q { ring with cons := Claims.raised ring.cons v }).setRing l q
          { ring with cons := Claims.raised ring.cons v, held := [] }))
    ∧ (ring.held = [] → s.Runs (.rctlEnable l q) (fun t =>
        t.ringAt l q = { ring with en := true, failed := false } ∧ s.SameMem t ∧ t.gangs = s.gangs))
    ∧ (0 < m.events → m.since + 2700 * f.coalesceT ≤ s.now →
        Claims.Leaves s (.coalesceTimerExpiry l q) (s.sendVec l q))
    ∧ s.Runs (.msixUnmask l q) (fun t =>
        t = { s with leaves := t.leaves, out := if m.pending then .msix l q m.addr m.data :: s.out else s.out }
        ∧ tget ({} : Msix) (t.leafAt l).msix q = { m with masked := false, pending := false })
    ∧ ((c - f.caskCons).toNat ≤ 2 ^ f.caskLog2 → Claims.Leaves s (.caskkick l v) (s.setLeafAt l { f with caskP := c }))
    ∧ (2 ^ f.caskLog2 < (c - f.caskCons).toNat → Claims.Leaves s (.caskkick l v) (s.queueRecord l 0 3 v.toNat))
    ∧ Claims.Leaves s (.pwrcap v) { s with pwrcap := min 2400 (max 800 v.toNat) }
    ∧ Claims.Leaves s (.functionReset l) (s.setLeafAt l { f with priStopped := false, priOut := [], priQueue := [] })

/-- R11, R16, R100, R180, R272 to R275: an entry whose checks pass acts, and one of any kind that is bad completes with its
record: a byte no field names that is not zero, a field outside its limits, a VA that is misaligned or fails; so does a GRID
whose descriptor is bad. A WAITTL completes when its counter, compared on 64 bits, has reached its value. Where the spec
leaves it open, this is the model's choice of assumptions 11, 25, 45 (a SIGNAL that waits for a page) and 82. -/
def Obligations.QueueEntries : Prop :=
  ∀ (s : State) (l q : Nat) (b : List Byte), s.runnable l q = true → s.entry l q = .ok b →
    let a := (s.queueAt l q).asid.toNat
    let x := s.queueAt l q
    let kind := (b.headD 0).toNat
    let fields := fun (o n : Nat) => leNat ((b.drop o).take n)
    let bad := fun (e : Instr) => Claims.Leaves s e ((s.queueRecord l q 1 x.cons.toNat).entryComplete l q)
    let stray := fun (last : Nat) => ∃ i, (1 ≤ i ∧ i < 8 ∨ last ≤ i ∧ i < 64) ∧ b.getD i 0 ≠ 0
    let long := fun (o : Nat) => 2 ^ 48 ≤ fields o 8
    let own : OwnerTag := { leaf := l, asid := some a }
    (kind = 1 →
      (∀ g, s.checkGrid l q b = .ok g →
          (∃ k ps, g = {
            seed := .queue, k := k, params := BitVec.ofNat 48 (fields 0x10 8), leaf := l, queue := q, asid := a, prio := x.prio.toNat
            patches := ps })
          ∧ Claims.Leaves s (.grid l q) ((s.newGrid g).2.setQueue l q { (s.newGrid g).2.queueAt l q with
            run := .grid (s.newGrid g).1, hold := .none }))
      ∧ (stray 0x18 ∨ long 0x08 ∨ long 0x10 → bad (.grid l q))
      ∧ (∀ k, s.seedDesc l a (fields 0x08 8) = .ok k → fields 0x10 8 % 8 ≠ 0 → bad (.grid l q))
      ∧ (s.checkGrid l q b = .bad → bad (.grid l q))
      ∧ (∀ o, s.checkGrid l q b = .desc o → Claims.Leaves s (.grid l q) ((s.queueRecord l q 2 o).entryComplete l q))
      ∧ (¬stray 0x18 → ¬long 0x08 → ¬long 0x10 → fields 0x08 8 % 128 ≠ 0 →
          Claims.Leaves s (.grid l q) ((s.queueRecord l q 2 0xFFFFFFFF).entryComplete l q)))
    ∧ (kind = 2 →
      (∀ ns, s.checkGraph l q b = .ok ns → Claims.Leaves s (.graph l q) (s.startGraph l q b ns))
      ∧ (stray 0x18 ∨ long 0x08 ∨ fields 0x08 8 % 32 ≠ 0 ∨ 2 ^ 18 ≤ fields 0x10 4 ∨ fields 0x14 4 = 0 ∨ 65536 < fields 0x14 4
          ∨ (∃ p ∈ s.nodes, p.2.used = true ∧ fields 0x10 4 ≤ p.1 ∧ p.1 < fields 0x10 4 + fields 0x14 4)
          ∨ (∃ c v i, s.eread l a (fields 0x08 8) (32 * fields 0x14 4) = .error (.trap c v i)) → bad (.graph l q))
      ∧ (s.checkGraph l q b = .bad → bad (.graph l q)))
    ∧ (kind = 3 → let h : Word := BitVec.ofNat 32 (fields 0x08 4)
      let v := fields 0x10 8
      (∀ c, entryZero 3 b = true → s.waitCounter l h = some c →
        (v ≤ c.toNat → x.halt = false → Claims.Leaves s (.waittl l q)
          (s.setQueue l q { x with run := .none, hold := .none, cons := x.cons + 1, tline := x.tline + 1 }))
        ∧ (c.toNat < v → Claims.Leaves s (.waittl l q)
          (s.setQueue l q { x with run := .wait h (BitVec.ofNat 64 v), hold := .none })))
      ∧ (stray 0x18 ∨ fields 0x0C 4 ≠ 0 ∨ fields 0x08 4 / 2 ^ 28 ∉ [2, 3, 4, 5] ∨ 64 ≤ fields 0x08 4 % 2 ^ 28
          ∨ (4 ≤ fields 0x08 4 / 2 ^ 28 ∧ fields 0x08 4 % 2 ^ 28 ≠ 0) → bad (.waittl l q)))
    ∧ (kind = 4 →
      (∀ u, entryZero 4 b = true → ¬long 0x08 → fields 0x08 8 % 8 = 0 → fields 0x18 2 / 2 ^ 11 % 16 = 0 →
        s.ewrite none own l a (fields 0x08 8) (leBytes 8 (fields 0x10 8)) = .ok u →
        (fields 0x18 2 < 2 ^ 15 → Claims.Leaves s (.signal l q) (u.entryComplete l q))
        ∧ (2 ^ 15 ≤ fields 0x18 2 → Claims.Leaves s (.signal l q)
          ((u.vecEvent l (fields 0x18 2 % 2 ^ 11)).entryComplete l q)))
      ∧ (stray 0x1A ∨ long 0x08 ∨ fields 0x08 8 % 8 ≠ 0 ∨ fields 0x18 2 / 2 ^ 11 % 16 ≠ 0
          ∨ (∃ c v i, s.ewrite none own l a (fields 0x08 8) (leBytes 8 (fields 0x10 8)) = .error (.trap c v i)) → bad (.signal l q))
      ∧ (∀ key va, s.checkSignal l q b = .wait (.page key true va) false → x.hold = .none →
          s.Runs (.signal l q) (fun t => t.queueAt l q = { x with hold := .peer key true s.now } ∧ s.SameMem t ∧ t.gangs = s.gangs)))
    ∧ (kind = 5 →
      let op := fields 0x10 1
      (∀ edits, s.checkMapop l q b = .ok edits →
        (op = 0 → Claims.Leaves s (.mapopFork l q)
          (s.finishMapop l q b (s.fork l (fields 0x12 2) (fields 0x14 2) (fields 0x11 1 == 1))))
        ∧ (∀ es, op = 1 → s.stageAll l edits (fields 0x20 4) = .ok es →
          ((∃ code, s.mapSwap l (fields 0x12 2) (fields 0x11 1 == 1) (es.map Edit.full) = .error code)
            ∨ s.swapLack l (fields 0x12 2) (es.map Edit.full) = none) → Claims.Leaves s (.mapopSetSwap l q)
          (s.finishMapop l q b (s.mapSwap l (fields 0x12 2) (fields 0x11 1 == 1) (es.map Edit.full))))
        ∧ (∀ code, op = 1 → s.stageAll l edits (fields 0x20 4) = .error code → Claims.Leaves s (.mapopSetSwap l q)
          (s.finishMapop l q b (.error code)))
        ∧ (op = 2 → Claims.Leaves s (.mapopDrop l q) (s.finishMapop l q b (s.dropAsid l (fields 0x12 2)))))
      ∧ (op ≤ 2 → stray 0x24 ∨ long 0x08 ∨ fields 0x08 8 % 4 ≠ 0 ∨ 1 < fields 0x11 1
          ∨ (op = 1 ∧ (fields 0x20 4 = 0 ∨ 64 < fields 0x20 4 ∨ fields 0x18 8 % 8 ≠ 0 ∨ long 0x18))
          ∨ (op ≠ 1 ∧ (fields 0x18 8 ≠ 0 ∨ fields 0x20 4 ≠ 0)) ∨ (op ≠ 0 ∧ fields 0x14 2 ≠ 0) ∨ (op = 2 ∧ fields 0x11 1 ≠ 0)
          ∨ (∃ c v i, s.ewrite none own l a (fields 0x08 8) (leBytes 4 0) = .error (.trap c v i)) →
          bad (if op = 0 then .mapopFork l q else if op = 1 then .mapopSetSwap l q else .mapopDrop l q)))
    ∧ (kind = 0 ∨ 5 < kind ∨ (kind = 5 ∧ 2 < fields 0x10 1) → bad (.badEntry l q))

/-- R283 to R288: a Cask command whose checks pass, and that waits for no page, acts and writes its status, and a bad one the status BADCMD; a
checkpoint forks its address space READONLY and drops the fork when it is done; a restore of an address space that is
not FREE has the status STATE. A command whose status block waits for its page after the command has acted ends once the
block is written. Where the spec leaves it open, this is the model's choice of assumptions 7, 32 and 91. -/
def Obligations.CaskCommands : Prop :=
  ∀ (s : State) (l : Nat), s.caskReady l = true →
    (∀ d, (s.leafAt l).caskDone = some d → ∀ e ∈ [Instr.checkpoint l, .restore l, .erase l],
      let block := s.ewrite none (s.qTag l 0) l (s.qAsid l 0) d.va d.bytes
      (∀ u, block = .ok u → Claims.Leaves s e (u.caskFinish l d.bad))
      ∧ (∀ err h, block = .error err → err.next (s.leafAt l).caskHold s.now = some h →
        s.Runs e (fun t => s.SameMem t ∧ (t.leafAt l).caskDone = some d ∧ (t.leafAt l).caskHold = h
          ∧ (t.leafAt l).caskCons = (s.leafAt l).caskCons)))
    ∧ ∀ (b : List Byte) (c : CaskCmd), (s.leafAt l).caskDone = none → s.caskEntry l = .ok b →
    let kind := leNat (b.take 1)
    let va := leNat ((b.drop 0x20).take 8)
    (s.checkCask l b = .ok c →
      (kind = 1 →
        (∀ u v st w, s.itemLack l c = none → s.fork l c.asid (leNat ((c.b.drop 4).take 2)) true = .ok u →
          u.storeShard l (leNat ((c.b.drop 4).take 2)) c = (v, st) → v.dropAsid l (leNat ((c.b.drop 4).take 2)) = .ok w →
          Claims.Leaves s (.checkpoint l) (w.caskEnd l va st))
        ∧ (s.fork l c.asid (leNat ((c.b.drop 4).take 2)) true = .error 3 →
          Claims.Leaves s (.checkpoint l) (s.caskEnd l va { code := 2 })))
      ∧ (kind = 2 → (s.fillLack l c = none → Claims.Leaves s (.restore l) ((s.restoreShard l c).1.caskEnd l va (s.restoreShard l c).2))
        ∧ ((s.asidAt l c.asid).st ≠ .free → Claims.Leaves s (.restore l) (s.caskEnd l va { code := 2 })))
      ∧ (kind = 3 →
        let x := s.flashOf s.devnum
        let ms := x.manifests.filter (fun m => !(m.1 == c.step && m.2.1 == c.shard))
        let kept := x.frames.filter (fun f => ms.any (fun m => manifestOwns m.2.2 f.1))
        s.Runs (.erase l) (fun t => ∃ u : State, t = u.caskEnd l va {}
          ∧ u.flashOf s.devnum = { frames := kept, manifests := ms } ∧ u = { s with flash := u.flash, flashRoom := u.flashRoom }
          ∧ s.flashRoom + 65536 * (x.frames.length - kept.length) ≤ u.flashRoom)))
    ∧ (s.checkCask l b = .bad → s.statusLack l (va % 2 ^ 48) = none →
      (kind = 1 → Claims.Leaves s (.checkpoint l) (s.caskEnd l (va % 2 ^ 48) { code := 1 }))
      ∧ (kind = 2 → Claims.Leaves s (.restore l) (s.caskEnd l (va % 2 ^ 48) { code := 1 }))
      ∧ (kind ≠ 1 → kind ≠ 2 → Claims.Leaves s (.erase l) (s.caskEnd l (va % 2 ^ 48) { code := 1 })))

/-- R98, R99, R127, R128, R294: the host reads and writes through its port; answers of the host's translation service let
a waiting gang go on, or fail it; an invalidation rolls back read sets, when it comes and when it completes, once no access
of its range waits. Where the spec leaves it open, this is the model's choice of assumptions 35, 45 and 63 (page requests of
queues, Cask, Grant, nodes and saves, which count together), 50, 86 and 91. -/
def Obligations.HostEvents : Prop :=
  ∀ (s : State),
    (∀ win off len, (33 ≤ win → s.fnUp (win - 33) = true → s.portLack false (win - 33) off len = none) →
      s.Runs (.hostPortRead win off len) (fun t => t = { s with out := t.out, free := s.free + 1, portHold := .none }
      ∧ ∃ bytes, t.out = .read win off bytes :: s.out ∧ bytes.length = len
        ∧ ∀ l pa i, win = 33 + l → s.fnUp l = true → i < len → (s.leafAt l).part.bar2 (off + i) = some pa →
            bytes.getD i 0 = memRead s.mem pa))
    ∧ (∀ l off bytes pa, s.fnUp l = true → bytes ≠ [] → off % 4096 + bytes.length ≤ 4096 → (s.leafAt l).part.bar2 off = some pa →
        s.portLack true l off bytes.length = none →
        Claims.Leaves s (.hostPortWrite l off bytes) { s.writeDram none none { leaf := l } pa bytes with portHold := .none })
    -- one of a page that another device holds asks for it, and takes its place in the port's order
    ∧ (∀ l off n key, s.fnUp l = true → s.portHold = .none →
        let waits := fun (e : Instr) (p : PortAccess) (w : Bool) => Claims.Leaves s e
          { s with port := p :: s.port, portHold := .peer key w s.now, out := s.pageAsk key w :: s.out }
        (s.portLack false l off n = some key → waits (.hostPortRead (33 + l) off n) (.read (33 + l) off n) false)
        ∧ ∀ bytes, s.portLack true l off bytes.length = some key → waits (.hostPortWrite l off bytes) (.write l off bytes) true)
    -- a translation, cached with its size, ends the wait of the gang; a denial sends its page request, when it is non-speculative
    ∧ (∀ l die pasid page log y k w, let g := s.gangAt k
        s.gangs = [(k, g)] → g.wait = .ats pasid y w none → s.leafOfGang k = l → (s.wgAt g.wg).core / 96 = die →
        y / 2 ^ log = page / 2 ^ log → (∀ who ∈ s.waiters, who ≠ .gang k → s.holdOf who = .none) →
        (s.leafAt l).queues = [] → (s.leafAt l).rings = [] → (s.leafAt l).telem.held = [] →
        s.wgs.all (fun p => p.2.st != .preempting) = true →
        (s.Runs (.atsCompletion ⟨l, die⟩ pasid ⟨page, log⟩ true true) (fun t =>
          t.gangAt k = { g with wait := .none, readySince := s.clk.core } ∧ s.SameMem t ∧ t.out = s.out
          ∧ ({ leaf := l, die := die, pasid := pasid, page := page, log := log, w := true } : Atc) ∈ t.atc))
        -- one that grants the write alone, or the read alone, ends a wait for that
        ∧ s.Runs (.atsCompletion ⟨l, die⟩ pasid ⟨page, log⟩ (!w) w) (fun t =>
          t.gangAt k = { g with wait := .none, readySince := s.clk.core } ∧ s.SameMem t ∧ t.out = s.out
          ∧ ({ leaf := l, die := die, pasid := pasid, page := page, log := log, r := !w, w := w } : Atc) ∈ t.atc)
        ∧ (g.quiet = true → (s.leafAt l).priStopped = false → s.Runs (.atsCompletion ⟨l, die⟩ pasid ⟨page, log⟩ false false) (fun t =>
          t.gangAt k = { g with wait := .ats pasid y w (some s.now) } ∧ s.SameMem t ∧ t.atc = s.atc
          ∧ (let a : PageAsk := { who := .gang k, pasid := pasid, page := y, write := w }
            ((s.leafAt l).priOut.length < (s.leafAt l).priCap → t.out = .pri l pasid y w :: s.out
              ∧ t.leafAt l = { s.leafAt l with priOut := (s.leafAt l).priOut ++ [a] })
            ∧ ((s.leafAt l).priCap ≤ (s.leafAt l).priOut.length → t.out = s.out
              ∧ t.leafAt l = { s.leafAt l with priQueue := (s.leafAt l).priQueue ++ [a] }))))
        ∧ (g.quiet = false → s.Runs (.atsCompletion ⟨l, die⟩ pasid ⟨page, log⟩ false false) (fun t =>
          t.gangAt k = { g with wait := .denied pasid y w } ∧ s.SameMem t ∧ t.atc = s.atc ∧ t.out = s.out)))
    -- the answer to a page request, for whoever waits or waits no more; the next request that is still wanted goes out
    ∧ (∀ a : PageAsk, let who := a.who
        let l := s.leafOfWaiter who
        let f := s.leafAt l
        let u := s.priDone l a
        let v := (s.setLeafAt l { f with priStopped := true }).priDone l a
        let again := Wait.ats a.pasid a.page a.write none
        let fail := fun (info : Nat) => Wait.atsFail a.pasid a.page a.write info
        (f.priOut.find? (fun b => b.who == who) = some a →
          (∀ since, s.holdOf who = .ats a.pasid a.page a.write (some since) →
            Claims.Leaves s (.priResponse who 0)
              { u.setHold again who with out := .ats l a.pasid a.page a.write :: (u.setHold again who).out }
            ∧ Claims.Leaves s (.priResponse who 1) (u.setHold (fail 1) who)
            ∧ Claims.Leaves s (.priResponse who 2) (v.setHold (fail 2) who))
          ∧ ((∀ since, s.holdOf who ≠ .ats a.pasid a.page a.write (some since)) →
            Claims.Leaves s (.priResponse who 0) u ∧ Claims.Leaves s (.priResponse who 1) u ∧ Claims.Leaves s (.priResponse who 2) v))
        -- or its absence, whether the request has gone out or not
        ∧ (∀ since, s.holdOf who = .ats a.pasid a.page a.write (some since) → since + 2700 * (1000 * f.part.priLimit) ≤ s.now →
          (a ∈ f.priOut → Claims.Leaves s (.priLimitExpiry who) (u.setHold (fail 3) who))
          ∧ (a ∉ f.priOut → Claims.Leaves s (.priLimitExpiry who)
            ((s.setLeafAt l { f with priQueue := f.priQueue.filter (fun b => b != a) }).setHold (fail 3) who)))
        ∧ (f.priQueue = [] → u.leafAt l = { f with priOut := f.priOut.erase a } ∧ u.out = s.out)
        ∧ (∀ b rest, f.priQueue = b :: rest → f.priStopped = false → a ∈ f.priOut → f.priOut.length ≤ f.priCap →
          (∃ since, s.holdOf b.who = .ats b.pasid b.page b.write (some since)) →
          u.out = .pri l b.pasid b.page b.write :: s.out
          ∧ u.leafAt l = { f with priOut := f.priOut.erase a ++ [b], priQueue := rest }))
    ∧ (∀ k w, (s.setHold w (.gang k)) = s.setGangAt k { s.gangAt k with
        wait := w, readySince := if w = .none then s.clk.core else (s.gangAt k).readySince })
    ∧ (∀ l pasid page count, s.Runs (.atsInvalidationRequest l pasid page count) (fun t =>
        t = { s with gangs := t.gangs, leaves := t.leaves }
        ∧ (t.leafAt l).atsInv = (s.leafAt l).atsInv ++ [(pasid, page, count)]
        ∧ ∀ k, (∀ c ∈ (s.gangAt k).ckpts, ∀ p ∈ c.reads, s.hitsHost l pasid page count p.2 = false) →
            t.gangAt k = s.gangAt k))
    -- an access that has been sent holds it up until it is answered, also when its gang waits for it no more
    ∧ (∀ l r rest k keys key, (s.leafAt l).atsInv = r :: rest → k ∈ s.gangKeys → s.leafOfGang k = l → key ∈ keys →
        keys ∈ (s.gangAt k).sent ∨ (∃ q, (s.gangAt k).wait = .host q keys) ∨ (s.gangAt k).wait = .atomicOp keys →
        key / 2 ^ 64 = r.1 → r.2.1 ≤ key % 2 ^ 64 / 4096 → key % 2 ^ 64 / 4096 < r.2.1 + r.2.2 →
        Claims.Leaves s (.atsInvalidationComplete l) s)
    ∧ (∀ k keys rest ur, (s.gangAt k).sent = keys :: rest →
        Claims.Leaves s (.hostReadCompletion { gang := k, ur := ur }) (s.setGangAt k { s.gangAt k with sent := rest }))
    ∧ (∀ l r rest, (s.leafAt l).atsInv = r :: rest → s.hostBusy l r = false →
        s.Runs (.atsInvalidationComplete l) (fun t => t = { s with
          gangs := t.gangs, leaves := t.leaves
          atc := s.atc.filter (fun c => !(c.leaf == l && c.pasid == r.1
            && decide (r.2.1 < (c.page / 2 ^ c.log + 1) * 2 ^ c.log) && decide (c.page / 2 ^ c.log * 2 ^ c.log < r.2.1 + r.2.2)))
          out := .atsDone l :: s.out }
        ∧ t.leafAt l = { s.leafAt l with atsInv := rest }
        ∧ ∀ k, (∀ c ∈ (s.gangAt k).ckpts, ∀ p ∈ c.reads, s.hitsHost l r.1 r.2.1 r.2.2 p.2 = false) → t.gangAt k = s.gangAt k))

/-- R94, R95, R109: the image's bytes, poison markers and owner tags lie in the page `key` of `u`, but for a tag of a partition of
this device that has been dissolved since. -/
def Claims.Brought (key : Nat) (img : PageImage) (u : State) : Prop :=
  let m := if key / 2 ^ 36 = u.devnum then u.mem else u.peerMem
  (∀ c ∈ img.cells, c.1 < 65536 → img.cells.countP (fun d => d.1 == c.1) = 1 → memRead m (u.pageBase key + c.1) = c.2)
  ∧ (∀ i, i < 65536 → (∀ c ∈ img.cells, c.1 ≠ i) → memRead m (u.pageBase key + i) = 0)
  ∧ (∀ n, n < 512 → (∀ y ∈ img.lines, y.line ≠ n) → (u.lineAt (u.pageLine key + n)).poison = false
      ∧ (u.lineAt (u.pageLine key + n)).tag = none)
  ∧ ∀ n y, n < 512 → img.lines.find? (fun x => x.line == n) = some y → (u.lineAt (u.pageLine key + n)).poison = y.poison
      ∧ (u.lineAt (u.pageLine key + n)).tag = if y.dev = u.devnum ∧ y.leaf ∈ (u.pageAt key).gone then none
        else some { leaf := y.leaf, asid := y.asid, dev := if y.dev = u.devnum then none else some y.dev }

/-- R94 to R97, R109: a page's requests are answered at once, or wait in order while its owner keeps it; the owner sends
the page with its bytes, poison and owner tags; a hand-over invalidates this device's copies and rolls back the read sets
that hold them; a page that arrives has the bytes it came with and wakes those who wait for it; a wait for a page that
cannot be reached fails, a gang's and a command's. Where the spec leaves it open, this is the model's choice of
assumptions 28, 45 (what waits beside gangs), 46 and 84 (replicas of a page its owner keeps). -/
def Obligations.PeerEvents : Prop :=
  ∀ (s : State) (key dev : Nat) (img : PageImage),
    let p := s.pageAt key
    let idle := p.residentUntil ≤ s.now ∧ p.requests = []
    let home := key / 2 ^ 36 = s.devnum
    let until' := s.now + s.residency key
    let answer : Msg := if p.owner = s.devnum then .page key dev (s.pageImage key) else .replica key p.owner dev
    (idle → home → dev ∉ p.replicas → Claims.Leaves s (.replicaRequest key dev)
      { s with pages := tput s.pages key { p with replicas := p.replicas ++ [dev] }, out := answer :: s.out })
    ∧ (idle → ¬home ∨ dev ∈ p.replicas → Claims.Leaves s (.replicaRequest key dev) { s with out := answer :: s.out })
    ∧ (¬idle → Claims.Leaves s (.replicaRequest key dev)
        { s with pages := tput s.pages key { p with requests := p.requests ++ [(dev, false, {})] } }
      ∧ Claims.Leaves s (.handOver ⟨key, img⟩ dev)
        { s with pages := tput s.pages key { p with requests := p.requests ++ [(dev, true, img)] } })
    ∧ (idle → dev ≠ s.devnum → s.Runs (.handOver ⟨key, img⟩ dev) (fun t => s.SameMem t
      ∧ t.out = (if p.owner = s.devnum then [Msg.page key dev (s.pageImage key)] else []) ++ [.owner key dev] ++ s.out
      ∧ t.pageAt key = { p with owner := dev, replicas := [], here := false, residentUntil := until' }
      ∧ (∀ n, s.pageLine key ≤ n → n < s.pageLine key + 512 → (t.lineAt n).l1 = [] ∧ (t.lineAt n).remote = []
          ∧ (t.lineAt n).holder = none)
      ∧ (∀ n, n < s.pageLine key ∨ s.pageLine key + 512 ≤ n → t.lineAt n = s.lineAt n)
      ∧ (∀ k, (∀ c ∈ (s.gangAt k).ckpts, ∀ q ∈ c.reads, ∀ n, q.2 = .line n → n < s.pageLine key ∨ s.pageLine key + 512 ≤ n) →
          t.gangAt k = s.gangAt k)
      ∧ ∀ k c rest, s.gangKeys.count k = 1 → (s.gangAt k).ckpts = c :: rest →
          (∃ q ∈ c.reads, ∃ n, q.2 = .line n ∧ s.pageLine key ≤ n ∧ n < s.pageLine key + 512) →
          (t.gangAt k).r = c.regs ∧ (t.gangAt k).rollcnt = (s.gangAt k).rollcnt + 1))
    ∧ (let v := (s.dropPage key).putPage key img
      let u := (v.setPage key { p with
        owner := dev, replicas := [], here := true, residentUntil := until', gone := [] }).wakePage key true
      idle → dev = s.devnum → p.owner ≠ s.devnum → Claims.Leaves s (.handOver ⟨key, img⟩ dev) u.retryAll
        ∧ (s.memWf → Claims.Brought key img v) ∧ ∀ k w t, (s.gangAt k).wait = .peer key w t → (u.gangAt k).wait = .none)
    ∧ (let v := (s.dropPage key).putPage key img
      let u := (v.setPage key { p with here := true }).wakePage key false
      p.owner ≠ s.devnum → Claims.Leaves s (.replicaArrival ⟨key, img⟩) u.retryAll
        ∧ (s.memWf → Claims.Brought key img v) ∧ ∀ k t, (s.gangAt k).wait = .peer key false t → (u.gangAt k).wait = .none)
    ∧ (p.owner = s.devnum → Claims.Leaves s (.replicaArrival ⟨key, img⟩) s)
    ∧ (p.residentUntil ≤ s.now → p.requests = [(dev, false, img)] → ¬home → s.Runs (.minimumResidencyExpiry key) (fun t =>
        t = { s with pages := t.pages, out := answer :: s.out } ∧ t.pageAt key = { p with requests := [] }))
    ∧ (∀ who q w since, s.holdOf who = .peer q w since → since + 2700 * 1000 ≤ s.now →
        let fail := Wait.peerFail q w
        Claims.Leaves s (.peerWaitTimeout who) (s.setHold fail who)
        ∧ (∀ k, who = .gang k → s.setHold fail who = s.setGangAt k { s.gangAt k with wait := fail })
        ∧ ∀ k id, who = .cmd k id →
          s.setHold fail who = s.setGangAt k ((s.gangAt k).mapCmd id (fun c => { c with hold := fail })))
    ∧ ∀ link, Claims.Leaves s (.linkFailure link) { s with links := s.links.filter (fun n => n != link) }

/-- R159: a gang holds state on its core: it runs, has halted with work outstanding, or has stopped for a pre-emption that is
not done. -/
def Claims.OnCore (s : State) (k : Nat) : Prop :=
  let g := s.gangAt k
  g.st = .live ∨ (g.st = .halted ∧ (g.cmds ≠ [] ∨ g.stores ≠ [])) ∨ (g.st = .saved ∧ (s.wgAt g.wg).st = .preempting)

/-- R42, R109, R158 to R162, R297: an uncorrectable error poisons its line, of memory or of a scratchpad, whose bytes are
known no more, and its loss goes to the queues of its owner; a correctable one only leaves a record; one in a gang's own
state makes it retry from its flashback point where its kernel's policy says so, with every register as it was there and its
`ctl.ivl` counted by the watchdog. Where the spec leaves it open, this is the model's choice of assumptions 6, 14, 29, 79 and
94 (a line of another device's partition). -/
def Obligations.ErrorEvents : Prop :=
  ∀ (s : State),
    -- a line of local memory, or one numbered from 2^50 of another device's
    (∀ line tag, let x := s.lineAt line
      let lost := (List.range 128).map (fun i => Config.freeByte (s.free + i))
      let u : State := { s with
        mem := if line < 2 ^ 50 then memPut s.mem (line * 128) lost else s.mem
        peerMem := if line < 2 ^ 50 then s.peerMem else memPut s.peerMem ((line - 2 ^ 50) * 128) lost
        free := s.free + 128, lines := tput s.lines line { x with poison := true, tag := some tag } }
      x.tag = some tag →
      -- the owner is another device's partition: the record goes to the partition whose channel holds the line
      (tag.dev ≠ none → (2 ^ 50 ≤ line ∨ s.leafOf (line * 128) = none → Claims.Leaves s (.uncorrectableError (.line line)) u)
        ∧ ∀ l, line < 2 ^ 50 → s.leafOf (line * 128) = some l → Claims.Leaves s (.uncorrectableError (.line line)) (u.errTelemetry l {
          place := line * 128 % 2 ^ 52, array := if x.dirty || x.holder.isSome then 8 else 9, die := homeDie (line * 128)
          uncorrectable := true, outcome := 3, asid := tag.asid.getD 0, noAsid := tag.asid.isNone }))
      ∧ (tag.dev = none → (s.leafAt tag.leaf).live = false → Claims.Leaves s (.uncorrectableError (.line line)) u)
      ∧ (tag.dev = none → (s.leafAt tag.leaf).telem.en = false →
        (tag.asid = none → Claims.Leaves s (.uncorrectableError (.line line)) u)
        ∧ (∀ a, tag.asid = some a → (s.leafAt tag.leaf).live = true → Claims.Leaves s (.uncorrectableError (.line line))
          ((u.lossQueues tag.leaf a).foldl (fun v q => v.deliverLoss tag.leaf a q) u))))
    -- a line of a workgroup's scratchpad
    ∧ (∀ w n, let x := s.wgAt w
      let gr := s.gridAt x.grid
      let u : State := { s.setWgAt w { x with
          scr := memPut x.scr (n * 128) ((List.range 128).map (fun i => Config.freeByte (s.free + i)))
          badScr := n :: x.badScr.filter (fun m => m != n) } with free := s.free + 128 }
      (x.st = .live ∨ x.st = .preempting) → n * 128 < gr.k.scratch →
      Claims.Leaves s (.uncorrectableError (.scr w n)) (u.chargeLoss gr.leaf (some gr.asid)
        { place := n * 128, core := x.core % 96, array := 6, die := x.core / 96 }))
    ∧ (∀ k array pa, Claims.OnCore s k → 1 ≤ array → array ≤ 9 →
      (array ≤ 7 → ((s.leafAt (s.leafOfGang k)).telem.en = false → Claims.Leaves s (.correctableError k ⟨array, pa⟩) s)
        ∧ Claims.Leaves s (.correctableError k ⟨array, pa⟩) (s.errTelemetry (s.leafOfGang k)
          { s.errOfGang k array with place := if array ≤ 3 then (s.gangAt k).r.pc.toNat else pa % 2 ^ 52 }))
      ∧ (8 ≤ array → Claims.Leaves s (.correctableError k ⟨array, pa⟩) (s.errTelemetry ((s.leafOf pa).getD (s.leafOfGang k))
          { array := array, place := pa / 128 * 128 % 2 ^ 52, die := homeDie pa, asid := (s.gangAt k).asid })))
    -- a retry: the gang, a halted one too, goes on behind its flashback point with the registers it had there
    ∧ (∀ k array, let g := s.gangAt k
      let gr := s.gridAt (s.wgAt g.wg).grid
      (array = 2 ∨ array = 3) → Claims.OnCore s k → (s.wgAt g.wg).st = .live → g.flash.valid = true → g.flash.tries < 3 →
      gr.k.policy.toNat / 4 % 4 = 1 → (s.queueAt gr.leaf gr.queue).held ≠ [] → (s.leafAt gr.leaf).telem.en = false →
      g.st ≠ .saved → g.forward = none →
      s.Runs (.gangStateError k array) (fun t => s.SameMem t ∧ Claims.OnlyAt s t k ∧ (let h := t.gangAt k
        h.st = .live ∧ h.flash.tries = g.flash.tries + 1 ∧ h.stores = g.stores.filter (fun x => decide (x.seq < g.flash.seq))
        ∧ h.ckpts = g.ckpts.filter (fun c => decide (c.seq < g.flash.seq)) ∧ h.trap = false ∧ h.recipe = none
        ∧ h.level = 0 ∧ h.rolls = []
        ∧ h.r = { g.flash.regs.watch g.flash.regs.pc g.flash.regs.pc none with pc := g.flash.regs.pc + 4 })))

/-- R290 to R293, R295, R300 to R302: the mailbox's commands, with their status; the boot chain; clock steps; thermal
shutdown; a spare core. Where the spec leaves it open, this is the model's choice of assumptions 3 (a new leaf at CARVE), 7, 30,
31 and 85 (the audit count of a spare core). -/
def Obligations.FirmwareEvents : Prop :=
  ∀ (s : State),
    let p := parsePart (s.mbBytes 128)
    let id := leNat (s.mbBytes 2)
    let cmd := s.mbCmd.toNat
    (s.mbGo = true → s.boot = .ok → s.thermal = false →
      let ends := fun (i : Instr) (u : State) (code : Nat) => Claims.Leaves s i (u.mbEnd code)
      (cmd = 1 →
        (p.id = 0 → s.started = true → ends .carve s 5)
        ∧ (p.id = 0 → s.started = false → rootOk (s.mbBytes 128) = false → ends .carve s 1)
        ∧ (p.id = 0 → s.started = false → rootOk (s.mbBytes 128) = true →
          ends .carve { s with parts := tput s.parts 0 p, devnum := p.devnum } 0)
        ∧ (p.id ≠ 0 → (p.limitsOk && s.treeOk p) = false → ends .carve s 1)
        ∧ (p.id ≠ 0 → (p.limitsOk && s.treeOk p) = true → s.owned p = true → ends .carve s 2)
        ∧ (p.id ≠ 0 → (p.limitsOk && s.treeOk p) = true → s.owned p = false → s.overBudget p = true → ends .carve s 3)
        ∧ (p.id ≠ 0 → (p.limitsOk && s.treeOk p) = true → s.owned p = false → s.overBudget p = false → s.partAt p.id = none →
          p.leaf = true → let f := s.leafAt p.leafNo
          ends .carve (({ s with parts := tput s.parts p.id p } : State).setLeafAt p.leafNo {
            live := true, part := p, pasids := f.pasids, peerMask := f.peerMask
            nodePool := { base := p.nodeBase, size := p.nodeSize }, framePool := { base := p.frameBase, size := p.frameSize } }) 0))
      ∧ (cmd = 2 → (s.partAt id = none → ends .dissolve s 1)
        ∧ (∀ d, s.partAt id = some d → s.siblings id 0 = [] → d.leaf = false →
          ends .dissolve { s with parts := tdel s.parts id } 0)
        ∧ (∀ d q, s.partAt id = some d → s.siblings id 0 = [] → d.leaf = true → q ∈ (s.leafAt d.leafNo).queues →
          (s.queueAt d.leafNo q.1).en = true → ends .dissolve s 2)
        ∧ (∀ d, s.partAt id = some d → s.siblings id 0 = [] → d.leaf = true →
          (∀ q ∈ (s.leafAt d.leafNo).queues, (s.queueAt d.leafNo q.1).en = false) →
          ends .dissolve s.dissolve.1 0 ∧ (s.dissolve.1.leafAt d.leafNo).live = false ∧ thas s.dissolve.1.parts id = false))
      ∧ (cmd = 3 → (s.started = true → ends .start s 5)
        ∧ (s.started = false → s.featAcc.getLsbD 0 = true → s.featAcc &&& ~~~s.featOff = 0 →
          ends .start { s with feat := s.featAcc, started := true } 0)
        ∧ (s.started = false → s.featAcc.getLsbD 0 = false ∨ s.featAcc &&& ~~~s.featOff ≠ 0 → ends .start s 4))
      ∧ (cmd = 4 → (s.started = false → ends .attest s 6)
        ∧ (s.started = true →
          ends .attest { s with mbOut := s.report ++ beBytes 132 (Config.identitySign (beNat (sha512 s.report))) } 0))
      ∧ (cmd = 0 ∨ 4 < cmd → ends .mailboxBadcmd s 9))
    ∧ (s.mbGo = true → (s.boot = .failed → cmd = 3 → Claims.Leaves s .start (s.mbEnd 7))
      ∧ (s.boot = .ok → s.thermal = true → cmd = 3 → Claims.Leaves s .start (s.mbEnd 8)))
    ∧ (∀ version sig, let ok := fun (m : Nat) => Config.rhatikVerify m sig && decide (s.rollback ≤ version)
      (s.boot = .cold → Claims.Leaves s (.secureBoot 0 version sig)
        { s with boot := if ok Config.measureRoot then .rooted else .failed })
      ∧ (s.boot = .rooted → Claims.Leaves s (.secureBoot 1 version sig)
        { s with boot := if ok Config.measureFunction then .ok else .failed }))
    ∧ (∀ cause, (cause = 1 ∨ cause = 2) →
      (s.clockMhz + 100 ≤ 2700 → Claims.Leaves s (.clockStep true cause) (({ s with clockMhz := s.clockMhz + 100 } : State).powerRecord cause))
      ∧ (1300 ≤ s.clockMhz → Claims.Leaves s (.clockStep false cause) (({ s with clockMhz := s.clockMhz - 100 } : State).powerRecord cause)))
    ∧ (s.thermal = false →
      Claims.Leaves s .thermalShutdown (s.wgs.foldl (fun u p => u.preemptWg p.1) { s with thermal := true }))
    -- while it lasts, a workgroup whose last gang has stopped since is saved
    ∧ (s.thermal = true → Claims.Leaves s .thermalShutdown (s.wgs.foldl (fun u p => u.tryFinish p.1) s)
      ∧ ∀ w x u, s.wgs = [(w, x)] → s.stopped w = true → s.saveWg w = .ok u → Claims.Leaves s .thermalShutdown u)
    ∧ (∀ core, core < 384 → 0 < s.spares.getD (core / 96) 0 → s.Runs (.spareCoreReplacement core) (fun t =>
        t = { s with spares := s.spares.set (core / 96) (s.spares.getD (core / 96) 0 - 1), cores := t.cores }
        ∧ t.coreAt core = { s.coreAt core with spare := true }))

/-! ### Encoding, stepping, reset, memory -/

/-- R168, R177: words of the spec's tables of worked encodings decode to the instructions they stand for. -/
def Obligations.DecodeWords : Prop :=
  let reads := fun (n w : Nat) (i : Instr) => decodeTableWord n w = some i
  reads 32 0xF2041801 (.iaAdd 0x03 0x01 0x79) ∧ reads 32 0x060A210F (.cmpFlt 4 0x02 0x03) ∧ reads 16 0x48A2 (.cIadd 5 9)
  ∧ reads 32 0x0010019F (.brXz 0x20) ∧ reads 32 0xFFFE249F (.brZ 9 0x1FFFC) ∧ reads 32 0x00C20A85 (.iaiShli 2 2 3)
  ∧ reads 32 0x0051081B (.saiAddi 2 2 5) ∧ reads 32 0x1014202B (.atAdd 4 10 0 1 0) ∧ reads 32 0x006209B1 (.mxMma 1 2 3 0)
  ∧ reads 32 0x01AC5833 (.cpG2s 11 12 13 0) ∧ reads 32 0x0080183D (.sysSrd 3 0x80) ∧ reads 32 0x0009013D (.sysTrap 0 9)

/-- R166 to R178: decoding the bytes of any well-formed instruction that has an encoding gives it back, with every operand,
and leaves the bytes that follow. -/
def Obligations.EncodeDecodes : Prop :=
  ∀ (i : Instr) (rest : List Byte), i.wf = true → (encode i).isSome = true → decode (encodeBytes i ++ rest) = .ok (i, rest)

/-- R166, R167: the gang's fetch of a halfword at an address reads two bytes of local DRAM. -/
def Claims.Fetches (s : State) (va : Nat) (b0 b1 : Byte) : Prop :=
  ∃ pa n, s.needsRefresh false true va = false ∧ s.gxlate false true va = .ok (.dram pa) n ∧ memRead s.mem pa = b0
    ∧ memRead s.mem (pa + 1) = b1

/-- R90, R166, R167: the word at the position of `u`'s gang, which waits at no barrier: `p` holds of the outcome of exec, at `u`,
of the instruction that its bytes decode to, or of the gang's waiting while that instruction must wait. -/
def Claims.Word (u : State) (p : Host.Outcome State Fault Refusal → Prop) : Prop :=
  ∀ i b0 b1 b2 b3,
    let va := u.wordPc.toNat
    let ran := if u.gang.holdsIssue (u.gang.uses i) then u.stall else exec i u
    (∀ k n, u.gang.wait ≠ .bar k n) → u.gang.recipe = none → u.grid.patches = [] → u.old = [] → Claims.Fetches u va b0 b1 →
    (b0.getLsbD 0 = true → Claims.Fetches u ((va + 2) % 2 ^ 48) b2 b3 → decode [b0, b1, b2, b3] = .ok (i, []) → p ran)
    ∧ (b0.getLsbD 0 = false → decode [b0, b1] = .ok (i, []) → p ran)

/-- R22, R176, R279: the step of `s` runs the word of `u`'s gang, or its barrier when it has arrived at one; it notes what has
issued, but between a prefix and its instruction. -/
def Claims.Issued (s u : State) : Prop :=
  let p := fun (o : Host.Outcome State Fault Refusal) => step s = match o with
    | .next t => if t.gang.ext.isSome then .next t else .next (u.noteIssue t (some u.cur))
    | o => o
  Claims.Word u p ∧ ∀ k n, u.gang.wait = .bar k n → p (exec (.syncBar (BitVec.ofNat 2 k)) u)

/-- R176, R279: the step of `s` goes on with an instruction of gang `k` whose wait has ended: its word, and after a prefix the
next one; no choice of a stream is noted. Writes of g registers of a cycle that is over have
taken effect (R23). -/
def Claims.WentOn (s : State) (k : Nat) : Prop :=
  let u : State := { s.closed with cur := k }
  let over' := fun (o : Host.Outcome State Fault Refusal) => step s = match o with
    | .next t => .next (State.noteIssue s.closed t none)
    | o => o
  Claims.Word u (fun o => match o with
    | .next t => if t.gang.ext.isSome then Claims.Word t over' else over' o
    | _ => over' o)
  ∧ ∀ j n, u.gang.wait = .bar j n → ∀ t, exec (.syncBar (BitVec.ofNat 2 j)) u = .next t → t.gang.ext = none → over' (.next t)

/-- R91, R99, R166, R167, R176, R279: a step runs the word after a prefix that has run; else a pending write of a gang at level
2; else the access of the host port that has waited, the event that has come from outside, or the one that is next in the
device; with none to come, an instruction whose wait has ended; else exec of the instruction that the bytes at the PC of the
gang in turn decode to. Where the spec leaves it open, this is the model's choice of assumptions 1, 35 and 36. -/
def Obligations.StepRunsDecoded : Prop :=
  ∀ (s : State),
    (s.unfinished = true → Claims.Issued s s)
    ∧ (∀ k, s.unfinished = false → s.urgent = some k → step s = exec (.holderSliceWrite k) s)
    ∧ (s.unfinished = false → s.urgent = none →
      (∀ p rest, s.port = p :: rest → s.portHold = .none → step s = exec p.instr { s with port := rest })
      ∧ (s.portNext = none → ∀ e rest, s.agenda = e :: rest →
        (encode e = none → s.port = [] → step s = exec e { s with agenda := rest })
        ∧ (encode e = none → s.behindPort e = true → step s = .next { s with agenda := rest, port := s.port ++ [.event e] })
        ∧ ((encode e).isSome = true → step s = .next { s with agenda := rest }))
      ∧ (s.portNext = none → s.agenda = [] →
        (∀ e, s.nextEvent = some e → step s = exec e s)
        ∧ (s.nextEvent = none →
          (∀ k, s.endedWait = some k → Claims.WentOn s k)
          ∧ (∀ k, s.endedWait = none → s.nextGang = some k → Claims.Issued s (s.begin k))
          ∧ (s.endedWait = none → s.nextGang = none → step s = .next s.idle))))

/-- The memories of the device are canonical: DRAM, the host's and the peers', each scratchpad, each core's slots, tiles,
metadata slots and activation banks, and the frames its flash holds. -/
def Claims.Canonical (s : State) : Prop :=
  s.memWf ∧ (∀ w ∈ s.wgs, Memory.wf w.2.scr = true)
  ∧ (∀ c ∈ s.cores, Memory.wf c.2.slots = true ∧ Memory.wf c.2.tiles = true ∧ Memory.wf c.2.metas = true
    ∧ Memory.wf c.2.bank0 = true ∧ Memory.wf c.2.bank1 = true)
  ∧ ∀ d ∈ s.flash, ∀ f ∈ d.2.frames, Memory.wf f.2 = true ∧ ∀ c ∈ f.2, c.1 < 65536

/-- R39, R109, R300, R301: right after reset the boot chain has not begun, no features are latched, CLK is 0, nothing runs
and no line is poisoned; memory is canonical. Where the spec leaves it open, this is the model's choice of assumption
3. -/
def Obligations.ResetState : Prop :=
  let s := State.reset
  Claims.Canonical s ∧ s.boot = .cold ∧ s.started = false ∧ s.feat = 0 ∧ s.clk = {} ∧ s.gangs = [] ∧ s.grids = [] ∧ s.lines = []
  ∧ s.leaves = [] ∧ s.thermal = false ∧ s.mbGo = false

/-- Every step keeps every memory of the device in its one canonical form. -/
def Obligations.MemoryInvariant : Prop := ∀ (s t : State), Claims.Canonical s → step s = .next t → Claims.Canonical t
end

