-- ==== Sys2Proof/Laws/State.lean ====
section
/-! SUPPORT. One lemma per field per update of the state, and one per part read after a part written. -/

namespace Sys2Proof.Machine

set_option Elab.async false

/-! ### setGangAt -/

@[simp] theorem State.setGangAt_gangs (s : State) (k : Nat) (g : Gang) : (s.setGangAt k g).gangs = tput s.gangs k g := rfl
@[simp] theorem State.setGangAt_cur (s : State) (k : Nat) (g : Gang) : (s.setGangAt k g).cur = s.cur := rfl
@[simp] theorem State.setGangAt_wgs (s : State) (k : Nat) (g : Gang) : (s.setGangAt k g).wgs = s.wgs := rfl
@[simp] theorem State.setGangAt_grids (s : State) (k : Nat) (g : Gang) : (s.setGangAt k g).grids = s.grids := rfl
@[simp] theorem State.setGangAt_leaves (s : State) (k : Nat) (g : Gang) : (s.setGangAt k g).leaves = s.leaves := rfl
@[simp] theorem State.setGangAt_cores (s : State) (k : Nat) (g : Gang) : (s.setGangAt k g).cores = s.cores := rfl
@[simp] theorem State.setGangAt_mem (s : State) (k : Nat) (g : Gang) : (s.setGangAt k g).mem = s.mem := rfl
@[simp] theorem State.setGangAt_hostMem (s : State) (k : Nat) (g : Gang) : (s.setGangAt k g).hostMem = s.hostMem := rfl
@[simp] theorem State.setGangAt_peerMem (s : State) (k : Nat) (g : Gang) : (s.setGangAt k g).peerMem = s.peerMem := rfl
@[simp] theorem State.setGangAt_lines (s : State) (k : Nat) (g : Gang) : (s.setGangAt k g).lines = s.lines := rfl
@[simp] theorem State.setGangAt_old (s : State) (k : Nat) (g : Gang) : (s.setGangAt k g).old = s.old := rfl
@[simp] theorem State.setGangAt_pages (s : State) (k : Nat) (g : Gang) : (s.setGangAt k g).pages = s.pages := rfl
@[simp] theorem State.setGangAt_atc (s : State) (k : Nat) (g : Gang) : (s.setGangAt k g).atc = s.atc := rfl
@[simp] theorem State.setGangAt_seqs (s : State) (k : Nat) (g : Gang) : (s.setGangAt k g).seqs = s.seqs := rfl
@[simp] theorem State.setGangAt_grants (s : State) (k : Nat) (g : Gang) : (s.setGangAt k g).grants = s.grants := rfl
@[simp] theorem State.setGangAt_nodes (s : State) (k : Nat) (g : Gang) : (s.setGangAt k g).nodes = s.nodes := rfl
@[simp] theorem State.setGangAt_flash (s : State) (k : Nat) (g : Gang) : (s.setGangAt k g).flash = s.flash := rfl
@[simp] theorem State.setGangAt_flashRoom (s : State) (k : Nat) (g : Gang) : (s.setGangAt k g).flashRoom = s.flashRoom := rfl
@[simp] theorem State.setGangAt_parts (s : State) (k : Nat) (g : Gang) : (s.setGangAt k g).parts = s.parts := rfl
@[simp] theorem State.setGangAt_devnum (s : State) (k : Nat) (g : Gang) : (s.setGangAt k g).devnum = s.devnum := rfl
@[simp] theorem State.setGangAt_featOff (s : State) (k : Nat) (g : Gang) : (s.setGangAt k g).featOff = s.featOff := rfl
@[simp] theorem State.setGangAt_featAcc (s : State) (k : Nat) (g : Gang) : (s.setGangAt k g).featAcc = s.featAcc := rfl
@[simp] theorem State.setGangAt_feat (s : State) (k : Nat) (g : Gang) : (s.setGangAt k g).feat = s.feat := rfl
@[simp] theorem State.setGangAt_started (s : State) (k : Nat) (g : Gang) : (s.setGangAt k g).started = s.started := rfl
@[simp] theorem State.setGangAt_boot (s : State) (k : Nat) (g : Gang) : (s.setGangAt k g).boot = s.boot := rfl
@[simp] theorem State.setGangAt_rollback (s : State) (k : Nat) (g : Gang) : (s.setGangAt k g).rollback = s.rollback := rfl
@[simp] theorem State.setGangAt_mbCmd (s : State) (k : Nat) (g : Gang) : (s.setGangAt k g).mbCmd = s.mbCmd := rfl
@[simp] theorem State.setGangAt_mbGo (s : State) (k : Nat) (g : Gang) : (s.setGangAt k g).mbGo = s.mbGo := rfl
@[simp] theorem State.setGangAt_mbDone (s : State) (k : Nat) (g : Gang) : (s.setGangAt k g).mbDone = s.mbDone := rfl
@[simp] theorem State.setGangAt_mbStat (s : State) (k : Nat) (g : Gang) : (s.setGangAt k g).mbStat = s.mbStat := rfl
@[simp] theorem State.setGangAt_mbVec (s : State) (k : Nat) (g : Gang) : (s.setGangAt k g).mbVec = s.mbVec := rfl
@[simp] theorem State.setGangAt_mbIn (s : State) (k : Nat) (g : Gang) : (s.setGangAt k g).mbIn = s.mbIn := rfl
@[simp] theorem State.setGangAt_mbOut (s : State) (k : Nat) (g : Gang) : (s.setGangAt k g).mbOut = s.mbOut := rfl
@[simp] theorem State.setGangAt_pwrcap (s : State) (k : Nat) (g : Gang) : (s.setGangAt k g).pwrcap = s.pwrcap := rfl
@[simp] theorem State.setGangAt_pfMsix (s : State) (k : Nat) (g : Gang) : (s.setGangAt k g).pfMsix = s.pfMsix := rfl
@[simp] theorem State.setGangAt_clockMhz (s : State) (k : Nat) (g : Gang) : (s.setGangAt k g).clockMhz = s.clockMhz := rfl
@[simp] theorem State.setGangAt_thermal (s : State) (k : Nat) (g : Gang) : (s.setGangAt k g).thermal = s.thermal := rfl
@[simp] theorem State.setGangAt_links (s : State) (k : Nat) (g : Gang) : (s.setGangAt k g).links = s.links := rfl
@[simp] theorem State.setGangAt_spares (s : State) (k : Nat) (g : Gang) : (s.setGangAt k g).spares = s.spares := rfl
@[simp] theorem State.setGangAt_clk (s : State) (k : Nat) (g : Gang) : (s.setGangAt k g).clk = s.clk := rfl
@[simp] theorem State.setGangAt_out (s : State) (k : Nat) (g : Gang) : (s.setGangAt k g).out = s.out := rfl
@[simp] theorem State.setGangAt_nextKey (s : State) (k : Nat) (g : Gang) : (s.setGangAt k g).nextKey = s.nextKey := rfl
@[simp] theorem State.setGangAt_agenda (s : State) (k : Nat) (g : Gang) : (s.setGangAt k g).agenda = s.agenda := rfl
@[simp] theorem State.setGangAt_port (s : State) (k : Nat) (g : Gang) : (s.setGangAt k g).port = s.port := rfl
@[simp] theorem State.setGangAt_portHold (s : State) (k : Nat) (g : Gang) : (s.setGangAt k g).portHold = s.portHold := rfl
@[simp] theorem State.setGangAt_round (s : State) (k : Nat) (g : Gang) : (s.setGangAt k g).round = s.round := rfl
@[simp] theorem State.setGangAt_holdStores (s : State) (k : Nat) (g : Gang) : (s.setGangAt k g).holdStores = s.holdStores := rfl
@[simp] theorem State.setGangAt_holdLoads (s : State) (k : Nat) (g : Gang) : (s.setGangAt k g).holdLoads = s.holdLoads := rfl
@[simp] theorem State.setGangAt_specWaits (s : State) (k : Nat) (g : Gang) : (s.setGangAt k g).specWaits = s.specWaits := rfl
@[simp] theorem State.setGangAt_free (s : State) (k : Nat) (g : Gang) : (s.setGangAt k g).free = s.free := rfl

/-! ### setWgAt -/

@[simp] theorem State.setWgAt_wgs (s : State) (k : Nat) (w : Wg) : (s.setWgAt k w).wgs = tput s.wgs k w := rfl
@[simp] theorem State.setWgAt_cur (s : State) (k : Nat) (w : Wg) : (s.setWgAt k w).cur = s.cur := rfl
@[simp] theorem State.setWgAt_gangs (s : State) (k : Nat) (w : Wg) : (s.setWgAt k w).gangs = s.gangs := rfl
@[simp] theorem State.setWgAt_grids (s : State) (k : Nat) (w : Wg) : (s.setWgAt k w).grids = s.grids := rfl
@[simp] theorem State.setWgAt_leaves (s : State) (k : Nat) (w : Wg) : (s.setWgAt k w).leaves = s.leaves := rfl
@[simp] theorem State.setWgAt_cores (s : State) (k : Nat) (w : Wg) : (s.setWgAt k w).cores = s.cores := rfl
@[simp] theorem State.setWgAt_mem (s : State) (k : Nat) (w : Wg) : (s.setWgAt k w).mem = s.mem := rfl
@[simp] theorem State.setWgAt_hostMem (s : State) (k : Nat) (w : Wg) : (s.setWgAt k w).hostMem = s.hostMem := rfl
@[simp] theorem State.setWgAt_peerMem (s : State) (k : Nat) (w : Wg) : (s.setWgAt k w).peerMem = s.peerMem := rfl
@[simp] theorem State.setWgAt_lines (s : State) (k : Nat) (w : Wg) : (s.setWgAt k w).lines = s.lines := rfl
@[simp] theorem State.setWgAt_old (s : State) (k : Nat) (w : Wg) : (s.setWgAt k w).old = s.old := rfl
@[simp] theorem State.setWgAt_pages (s : State) (k : Nat) (w : Wg) : (s.setWgAt k w).pages = s.pages := rfl
@[simp] theorem State.setWgAt_atc (s : State) (k : Nat) (w : Wg) : (s.setWgAt k w).atc = s.atc := rfl
@[simp] theorem State.setWgAt_seqs (s : State) (k : Nat) (w : Wg) : (s.setWgAt k w).seqs = s.seqs := rfl
@[simp] theorem State.setWgAt_grants (s : State) (k : Nat) (w : Wg) : (s.setWgAt k w).grants = s.grants := rfl
@[simp] theorem State.setWgAt_nodes (s : State) (k : Nat) (w : Wg) : (s.setWgAt k w).nodes = s.nodes := rfl
@[simp] theorem State.setWgAt_flash (s : State) (k : Nat) (w : Wg) : (s.setWgAt k w).flash = s.flash := rfl
@[simp] theorem State.setWgAt_flashRoom (s : State) (k : Nat) (w : Wg) : (s.setWgAt k w).flashRoom = s.flashRoom := rfl
@[simp] theorem State.setWgAt_parts (s : State) (k : Nat) (w : Wg) : (s.setWgAt k w).parts = s.parts := rfl
@[simp] theorem State.setWgAt_devnum (s : State) (k : Nat) (w : Wg) : (s.setWgAt k w).devnum = s.devnum := rfl
@[simp] theorem State.setWgAt_featOff (s : State) (k : Nat) (w : Wg) : (s.setWgAt k w).featOff = s.featOff := rfl
@[simp] theorem State.setWgAt_featAcc (s : State) (k : Nat) (w : Wg) : (s.setWgAt k w).featAcc = s.featAcc := rfl
@[simp] theorem State.setWgAt_feat (s : State) (k : Nat) (w : Wg) : (s.setWgAt k w).feat = s.feat := rfl
@[simp] theorem State.setWgAt_started (s : State) (k : Nat) (w : Wg) : (s.setWgAt k w).started = s.started := rfl
@[simp] theorem State.setWgAt_boot (s : State) (k : Nat) (w : Wg) : (s.setWgAt k w).boot = s.boot := rfl
@[simp] theorem State.setWgAt_rollback (s : State) (k : Nat) (w : Wg) : (s.setWgAt k w).rollback = s.rollback := rfl
@[simp] theorem State.setWgAt_mbCmd (s : State) (k : Nat) (w : Wg) : (s.setWgAt k w).mbCmd = s.mbCmd := rfl
@[simp] theorem State.setWgAt_mbGo (s : State) (k : Nat) (w : Wg) : (s.setWgAt k w).mbGo = s.mbGo := rfl
@[simp] theorem State.setWgAt_mbDone (s : State) (k : Nat) (w : Wg) : (s.setWgAt k w).mbDone = s.mbDone := rfl
@[simp] theorem State.setWgAt_mbStat (s : State) (k : Nat) (w : Wg) : (s.setWgAt k w).mbStat = s.mbStat := rfl
@[simp] theorem State.setWgAt_mbVec (s : State) (k : Nat) (w : Wg) : (s.setWgAt k w).mbVec = s.mbVec := rfl
@[simp] theorem State.setWgAt_mbIn (s : State) (k : Nat) (w : Wg) : (s.setWgAt k w).mbIn = s.mbIn := rfl
@[simp] theorem State.setWgAt_mbOut (s : State) (k : Nat) (w : Wg) : (s.setWgAt k w).mbOut = s.mbOut := rfl
@[simp] theorem State.setWgAt_pwrcap (s : State) (k : Nat) (w : Wg) : (s.setWgAt k w).pwrcap = s.pwrcap := rfl
@[simp] theorem State.setWgAt_pfMsix (s : State) (k : Nat) (w : Wg) : (s.setWgAt k w).pfMsix = s.pfMsix := rfl
@[simp] theorem State.setWgAt_clockMhz (s : State) (k : Nat) (w : Wg) : (s.setWgAt k w).clockMhz = s.clockMhz := rfl
@[simp] theorem State.setWgAt_thermal (s : State) (k : Nat) (w : Wg) : (s.setWgAt k w).thermal = s.thermal := rfl
@[simp] theorem State.setWgAt_links (s : State) (k : Nat) (w : Wg) : (s.setWgAt k w).links = s.links := rfl
@[simp] theorem State.setWgAt_spares (s : State) (k : Nat) (w : Wg) : (s.setWgAt k w).spares = s.spares := rfl
@[simp] theorem State.setWgAt_clk (s : State) (k : Nat) (w : Wg) : (s.setWgAt k w).clk = s.clk := rfl
@[simp] theorem State.setWgAt_out (s : State) (k : Nat) (w : Wg) : (s.setWgAt k w).out = s.out := rfl
@[simp] theorem State.setWgAt_nextKey (s : State) (k : Nat) (w : Wg) : (s.setWgAt k w).nextKey = s.nextKey := rfl
@[simp] theorem State.setWgAt_agenda (s : State) (k : Nat) (w : Wg) : (s.setWgAt k w).agenda = s.agenda := rfl
@[simp] theorem State.setWgAt_port (s : State) (k : Nat) (w : Wg) : (s.setWgAt k w).port = s.port := rfl
@[simp] theorem State.setWgAt_portHold (s : State) (k : Nat) (w : Wg) : (s.setWgAt k w).portHold = s.portHold := rfl
@[simp] theorem State.setWgAt_round (s : State) (k : Nat) (w : Wg) : (s.setWgAt k w).round = s.round := rfl
@[simp] theorem State.setWgAt_holdStores (s : State) (k : Nat) (w : Wg) : (s.setWgAt k w).holdStores = s.holdStores := rfl
@[simp] theorem State.setWgAt_holdLoads (s : State) (k : Nat) (w : Wg) : (s.setWgAt k w).holdLoads = s.holdLoads := rfl
@[simp] theorem State.setWgAt_specWaits (s : State) (k : Nat) (w : Wg) : (s.setWgAt k w).specWaits = s.specWaits := rfl
@[simp] theorem State.setWgAt_free (s : State) (k : Nat) (w : Wg) : (s.setWgAt k w).free = s.free := rfl

/-! ### setGridAt -/

@[simp] theorem State.setGridAt_grids (s : State) (k : Nat) (g : Grid) : (s.setGridAt k g).grids = tput s.grids k g := rfl
@[simp] theorem State.setGridAt_cur (s : State) (k : Nat) (g : Grid) : (s.setGridAt k g).cur = s.cur := rfl
@[simp] theorem State.setGridAt_gangs (s : State) (k : Nat) (g : Grid) : (s.setGridAt k g).gangs = s.gangs := rfl
@[simp] theorem State.setGridAt_wgs (s : State) (k : Nat) (g : Grid) : (s.setGridAt k g).wgs = s.wgs := rfl
@[simp] theorem State.setGridAt_leaves (s : State) (k : Nat) (g : Grid) : (s.setGridAt k g).leaves = s.leaves := rfl
@[simp] theorem State.setGridAt_cores (s : State) (k : Nat) (g : Grid) : (s.setGridAt k g).cores = s.cores := rfl
@[simp] theorem State.setGridAt_mem (s : State) (k : Nat) (g : Grid) : (s.setGridAt k g).mem = s.mem := rfl
@[simp] theorem State.setGridAt_hostMem (s : State) (k : Nat) (g : Grid) : (s.setGridAt k g).hostMem = s.hostMem := rfl
@[simp] theorem State.setGridAt_peerMem (s : State) (k : Nat) (g : Grid) : (s.setGridAt k g).peerMem = s.peerMem := rfl
@[simp] theorem State.setGridAt_lines (s : State) (k : Nat) (g : Grid) : (s.setGridAt k g).lines = s.lines := rfl
@[simp] theorem State.setGridAt_old (s : State) (k : Nat) (g : Grid) : (s.setGridAt k g).old = s.old := rfl
@[simp] theorem State.setGridAt_pages (s : State) (k : Nat) (g : Grid) : (s.setGridAt k g).pages = s.pages := rfl
@[simp] theorem State.setGridAt_atc (s : State) (k : Nat) (g : Grid) : (s.setGridAt k g).atc = s.atc := rfl
@[simp] theorem State.setGridAt_seqs (s : State) (k : Nat) (g : Grid) : (s.setGridAt k g).seqs = s.seqs := rfl
@[simp] theorem State.setGridAt_grants (s : State) (k : Nat) (g : Grid) : (s.setGridAt k g).grants = s.grants := rfl
@[simp] theorem State.setGridAt_nodes (s : State) (k : Nat) (g : Grid) : (s.setGridAt k g).nodes = s.nodes := rfl
@[simp] theorem State.setGridAt_flash (s : State) (k : Nat) (g : Grid) : (s.setGridAt k g).flash = s.flash := rfl
@[simp] theorem State.setGridAt_flashRoom (s : State) (k : Nat) (g : Grid) : (s.setGridAt k g).flashRoom = s.flashRoom := rfl
@[simp] theorem State.setGridAt_parts (s : State) (k : Nat) (g : Grid) : (s.setGridAt k g).parts = s.parts := rfl
@[simp] theorem State.setGridAt_devnum (s : State) (k : Nat) (g : Grid) : (s.setGridAt k g).devnum = s.devnum := rfl
@[simp] theorem State.setGridAt_featOff (s : State) (k : Nat) (g : Grid) : (s.setGridAt k g).featOff = s.featOff := rfl
@[simp] theorem State.setGridAt_featAcc (s : State) (k : Nat) (g : Grid) : (s.setGridAt k g).featAcc = s.featAcc := rfl
@[simp] theorem State.setGridAt_feat (s : State) (k : Nat) (g : Grid) : (s.setGridAt k g).feat = s.feat := rfl
@[simp] theorem State.setGridAt_started (s : State) (k : Nat) (g : Grid) : (s.setGridAt k g).started = s.started := rfl
@[simp] theorem State.setGridAt_boot (s : State) (k : Nat) (g : Grid) : (s.setGridAt k g).boot = s.boot := rfl
@[simp] theorem State.setGridAt_rollback (s : State) (k : Nat) (g : Grid) : (s.setGridAt k g).rollback = s.rollback := rfl
@[simp] theorem State.setGridAt_mbCmd (s : State) (k : Nat) (g : Grid) : (s.setGridAt k g).mbCmd = s.mbCmd := rfl
@[simp] theorem State.setGridAt_mbGo (s : State) (k : Nat) (g : Grid) : (s.setGridAt k g).mbGo = s.mbGo := rfl
@[simp] theorem State.setGridAt_mbDone (s : State) (k : Nat) (g : Grid) : (s.setGridAt k g).mbDone = s.mbDone := rfl
@[simp] theorem State.setGridAt_mbStat (s : State) (k : Nat) (g : Grid) : (s.setGridAt k g).mbStat = s.mbStat := rfl
@[simp] theorem State.setGridAt_mbVec (s : State) (k : Nat) (g : Grid) : (s.setGridAt k g).mbVec = s.mbVec := rfl
@[simp] theorem State.setGridAt_mbIn (s : State) (k : Nat) (g : Grid) : (s.setGridAt k g).mbIn = s.mbIn := rfl
@[simp] theorem State.setGridAt_mbOut (s : State) (k : Nat) (g : Grid) : (s.setGridAt k g).mbOut = s.mbOut := rfl
@[simp] theorem State.setGridAt_pwrcap (s : State) (k : Nat) (g : Grid) : (s.setGridAt k g).pwrcap = s.pwrcap := rfl
@[simp] theorem State.setGridAt_pfMsix (s : State) (k : Nat) (g : Grid) : (s.setGridAt k g).pfMsix = s.pfMsix := rfl
@[simp] theorem State.setGridAt_clockMhz (s : State) (k : Nat) (g : Grid) : (s.setGridAt k g).clockMhz = s.clockMhz := rfl
@[simp] theorem State.setGridAt_thermal (s : State) (k : Nat) (g : Grid) : (s.setGridAt k g).thermal = s.thermal := rfl
@[simp] theorem State.setGridAt_links (s : State) (k : Nat) (g : Grid) : (s.setGridAt k g).links = s.links := rfl
@[simp] theorem State.setGridAt_spares (s : State) (k : Nat) (g : Grid) : (s.setGridAt k g).spares = s.spares := rfl
@[simp] theorem State.setGridAt_clk (s : State) (k : Nat) (g : Grid) : (s.setGridAt k g).clk = s.clk := rfl
@[simp] theorem State.setGridAt_out (s : State) (k : Nat) (g : Grid) : (s.setGridAt k g).out = s.out := rfl
@[simp] theorem State.setGridAt_nextKey (s : State) (k : Nat) (g : Grid) : (s.setGridAt k g).nextKey = s.nextKey := rfl
@[simp] theorem State.setGridAt_agenda (s : State) (k : Nat) (g : Grid) : (s.setGridAt k g).agenda = s.agenda := rfl
@[simp] theorem State.setGridAt_port (s : State) (k : Nat) (g : Grid) : (s.setGridAt k g).port = s.port := rfl
@[simp] theorem State.setGridAt_portHold (s : State) (k : Nat) (g : Grid) : (s.setGridAt k g).portHold = s.portHold := rfl
@[simp] theorem State.setGridAt_round (s : State) (k : Nat) (g : Grid) : (s.setGridAt k g).round = s.round := rfl
@[simp] theorem State.setGridAt_holdStores (s : State) (k : Nat) (g : Grid) : (s.setGridAt k g).holdStores = s.holdStores := rfl
@[simp] theorem State.setGridAt_holdLoads (s : State) (k : Nat) (g : Grid) : (s.setGridAt k g).holdLoads = s.holdLoads := rfl
@[simp] theorem State.setGridAt_specWaits (s : State) (k : Nat) (g : Grid) : (s.setGridAt k g).specWaits = s.specWaits := rfl
@[simp] theorem State.setGridAt_free (s : State) (k : Nat) (g : Grid) : (s.setGridAt k g).free = s.free := rfl

/-! ### setLeafAt -/

@[simp] theorem State.setLeafAt_leaves (s : State) (k : Nat) (l : Leaf) : (s.setLeafAt k l).leaves = tput s.leaves k l := rfl
@[simp] theorem State.setLeafAt_cur (s : State) (k : Nat) (l : Leaf) : (s.setLeafAt k l).cur = s.cur := rfl
@[simp] theorem State.setLeafAt_gangs (s : State) (k : Nat) (l : Leaf) : (s.setLeafAt k l).gangs = s.gangs := rfl
@[simp] theorem State.setLeafAt_wgs (s : State) (k : Nat) (l : Leaf) : (s.setLeafAt k l).wgs = s.wgs := rfl
@[simp] theorem State.setLeafAt_grids (s : State) (k : Nat) (l : Leaf) : (s.setLeafAt k l).grids = s.grids := rfl
@[simp] theorem State.setLeafAt_cores (s : State) (k : Nat) (l : Leaf) : (s.setLeafAt k l).cores = s.cores := rfl
@[simp] theorem State.setLeafAt_mem (s : State) (k : Nat) (l : Leaf) : (s.setLeafAt k l).mem = s.mem := rfl
@[simp] theorem State.setLeafAt_hostMem (s : State) (k : Nat) (l : Leaf) : (s.setLeafAt k l).hostMem = s.hostMem := rfl
@[simp] theorem State.setLeafAt_peerMem (s : State) (k : Nat) (l : Leaf) : (s.setLeafAt k l).peerMem = s.peerMem := rfl
@[simp] theorem State.setLeafAt_lines (s : State) (k : Nat) (l : Leaf) : (s.setLeafAt k l).lines = s.lines := rfl
@[simp] theorem State.setLeafAt_old (s : State) (k : Nat) (l : Leaf) : (s.setLeafAt k l).old = s.old := rfl
@[simp] theorem State.setLeafAt_pages (s : State) (k : Nat) (l : Leaf) : (s.setLeafAt k l).pages = s.pages := rfl
@[simp] theorem State.setLeafAt_atc (s : State) (k : Nat) (l : Leaf) : (s.setLeafAt k l).atc = s.atc := rfl
@[simp] theorem State.setLeafAt_seqs (s : State) (k : Nat) (l : Leaf) : (s.setLeafAt k l).seqs = s.seqs := rfl
@[simp] theorem State.setLeafAt_grants (s : State) (k : Nat) (l : Leaf) : (s.setLeafAt k l).grants = s.grants := rfl
@[simp] theorem State.setLeafAt_nodes (s : State) (k : Nat) (l : Leaf) : (s.setLeafAt k l).nodes = s.nodes := rfl
@[simp] theorem State.setLeafAt_flash (s : State) (k : Nat) (l : Leaf) : (s.setLeafAt k l).flash = s.flash := rfl
@[simp] theorem State.setLeafAt_flashRoom (s : State) (k : Nat) (l : Leaf) : (s.setLeafAt k l).flashRoom = s.flashRoom := rfl
@[simp] theorem State.setLeafAt_parts (s : State) (k : Nat) (l : Leaf) : (s.setLeafAt k l).parts = s.parts := rfl
@[simp] theorem State.setLeafAt_devnum (s : State) (k : Nat) (l : Leaf) : (s.setLeafAt k l).devnum = s.devnum := rfl
@[simp] theorem State.setLeafAt_featOff (s : State) (k : Nat) (l : Leaf) : (s.setLeafAt k l).featOff = s.featOff := rfl
@[simp] theorem State.setLeafAt_featAcc (s : State) (k : Nat) (l : Leaf) : (s.setLeafAt k l).featAcc = s.featAcc := rfl
@[simp] theorem State.setLeafAt_feat (s : State) (k : Nat) (l : Leaf) : (s.setLeafAt k l).feat = s.feat := rfl
@[simp] theorem State.setLeafAt_started (s : State) (k : Nat) (l : Leaf) : (s.setLeafAt k l).started = s.started := rfl
@[simp] theorem State.setLeafAt_boot (s : State) (k : Nat) (l : Leaf) : (s.setLeafAt k l).boot = s.boot := rfl
@[simp] theorem State.setLeafAt_rollback (s : State) (k : Nat) (l : Leaf) : (s.setLeafAt k l).rollback = s.rollback := rfl
@[simp] theorem State.setLeafAt_mbCmd (s : State) (k : Nat) (l : Leaf) : (s.setLeafAt k l).mbCmd = s.mbCmd := rfl
@[simp] theorem State.setLeafAt_mbGo (s : State) (k : Nat) (l : Leaf) : (s.setLeafAt k l).mbGo = s.mbGo := rfl
@[simp] theorem State.setLeafAt_mbDone (s : State) (k : Nat) (l : Leaf) : (s.setLeafAt k l).mbDone = s.mbDone := rfl
@[simp] theorem State.setLeafAt_mbStat (s : State) (k : Nat) (l : Leaf) : (s.setLeafAt k l).mbStat = s.mbStat := rfl
@[simp] theorem State.setLeafAt_mbVec (s : State) (k : Nat) (l : Leaf) : (s.setLeafAt k l).mbVec = s.mbVec := rfl
@[simp] theorem State.setLeafAt_mbIn (s : State) (k : Nat) (l : Leaf) : (s.setLeafAt k l).mbIn = s.mbIn := rfl
@[simp] theorem State.setLeafAt_mbOut (s : State) (k : Nat) (l : Leaf) : (s.setLeafAt k l).mbOut = s.mbOut := rfl
@[simp] theorem State.setLeafAt_pwrcap (s : State) (k : Nat) (l : Leaf) : (s.setLeafAt k l).pwrcap = s.pwrcap := rfl
@[simp] theorem State.setLeafAt_pfMsix (s : State) (k : Nat) (l : Leaf) : (s.setLeafAt k l).pfMsix = s.pfMsix := rfl
@[simp] theorem State.setLeafAt_clockMhz (s : State) (k : Nat) (l : Leaf) : (s.setLeafAt k l).clockMhz = s.clockMhz := rfl
@[simp] theorem State.setLeafAt_thermal (s : State) (k : Nat) (l : Leaf) : (s.setLeafAt k l).thermal = s.thermal := rfl
@[simp] theorem State.setLeafAt_links (s : State) (k : Nat) (l : Leaf) : (s.setLeafAt k l).links = s.links := rfl
@[simp] theorem State.setLeafAt_spares (s : State) (k : Nat) (l : Leaf) : (s.setLeafAt k l).spares = s.spares := rfl
@[simp] theorem State.setLeafAt_clk (s : State) (k : Nat) (l : Leaf) : (s.setLeafAt k l).clk = s.clk := rfl
@[simp] theorem State.setLeafAt_out (s : State) (k : Nat) (l : Leaf) : (s.setLeafAt k l).out = s.out := rfl
@[simp] theorem State.setLeafAt_nextKey (s : State) (k : Nat) (l : Leaf) : (s.setLeafAt k l).nextKey = s.nextKey := rfl
@[simp] theorem State.setLeafAt_agenda (s : State) (k : Nat) (l : Leaf) : (s.setLeafAt k l).agenda = s.agenda := rfl
@[simp] theorem State.setLeafAt_port (s : State) (k : Nat) (l : Leaf) : (s.setLeafAt k l).port = s.port := rfl
@[simp] theorem State.setLeafAt_portHold (s : State) (k : Nat) (l : Leaf) : (s.setLeafAt k l).portHold = s.portHold := rfl
@[simp] theorem State.setLeafAt_round (s : State) (k : Nat) (l : Leaf) : (s.setLeafAt k l).round = s.round := rfl
@[simp] theorem State.setLeafAt_holdStores (s : State) (k : Nat) (l : Leaf) : (s.setLeafAt k l).holdStores = s.holdStores := rfl
@[simp] theorem State.setLeafAt_holdLoads (s : State) (k : Nat) (l : Leaf) : (s.setLeafAt k l).holdLoads = s.holdLoads := rfl
@[simp] theorem State.setLeafAt_specWaits (s : State) (k : Nat) (l : Leaf) : (s.setLeafAt k l).specWaits = s.specWaits := rfl
@[simp] theorem State.setLeafAt_free (s : State) (k : Nat) (l : Leaf) : (s.setLeafAt k l).free = s.free := rfl

/-! ### setCoreAt -/

@[simp] theorem State.setCoreAt_cores (s : State) (k : Nat) (c : CoreSt) : (s.setCoreAt k c).cores = tput s.cores k c := rfl
@[simp] theorem State.setCoreAt_cur (s : State) (k : Nat) (c : CoreSt) : (s.setCoreAt k c).cur = s.cur := rfl
@[simp] theorem State.setCoreAt_gangs (s : State) (k : Nat) (c : CoreSt) : (s.setCoreAt k c).gangs = s.gangs := rfl
@[simp] theorem State.setCoreAt_wgs (s : State) (k : Nat) (c : CoreSt) : (s.setCoreAt k c).wgs = s.wgs := rfl
@[simp] theorem State.setCoreAt_grids (s : State) (k : Nat) (c : CoreSt) : (s.setCoreAt k c).grids = s.grids := rfl
@[simp] theorem State.setCoreAt_leaves (s : State) (k : Nat) (c : CoreSt) : (s.setCoreAt k c).leaves = s.leaves := rfl
@[simp] theorem State.setCoreAt_mem (s : State) (k : Nat) (c : CoreSt) : (s.setCoreAt k c).mem = s.mem := rfl
@[simp] theorem State.setCoreAt_hostMem (s : State) (k : Nat) (c : CoreSt) : (s.setCoreAt k c).hostMem = s.hostMem := rfl
@[simp] theorem State.setCoreAt_peerMem (s : State) (k : Nat) (c : CoreSt) : (s.setCoreAt k c).peerMem = s.peerMem := rfl
@[simp] theorem State.setCoreAt_lines (s : State) (k : Nat) (c : CoreSt) : (s.setCoreAt k c).lines = s.lines := rfl
@[simp] theorem State.setCoreAt_old (s : State) (k : Nat) (c : CoreSt) : (s.setCoreAt k c).old = s.old := rfl
@[simp] theorem State.setCoreAt_pages (s : State) (k : Nat) (c : CoreSt) : (s.setCoreAt k c).pages = s.pages := rfl
@[simp] theorem State.setCoreAt_atc (s : State) (k : Nat) (c : CoreSt) : (s.setCoreAt k c).atc = s.atc := rfl
@[simp] theorem State.setCoreAt_seqs (s : State) (k : Nat) (c : CoreSt) : (s.setCoreAt k c).seqs = s.seqs := rfl
@[simp] theorem State.setCoreAt_grants (s : State) (k : Nat) (c : CoreSt) : (s.setCoreAt k c).grants = s.grants := rfl
@[simp] theorem State.setCoreAt_nodes (s : State) (k : Nat) (c : CoreSt) : (s.setCoreAt k c).nodes = s.nodes := rfl
@[simp] theorem State.setCoreAt_flash (s : State) (k : Nat) (c : CoreSt) : (s.setCoreAt k c).flash = s.flash := rfl
@[simp] theorem State.setCoreAt_flashRoom (s : State) (k : Nat) (c : CoreSt) : (s.setCoreAt k c).flashRoom = s.flashRoom := rfl
@[simp] theorem State.setCoreAt_parts (s : State) (k : Nat) (c : CoreSt) : (s.setCoreAt k c).parts = s.parts := rfl
@[simp] theorem State.setCoreAt_devnum (s : State) (k : Nat) (c : CoreSt) : (s.setCoreAt k c).devnum = s.devnum := rfl
@[simp] theorem State.setCoreAt_featOff (s : State) (k : Nat) (c : CoreSt) : (s.setCoreAt k c).featOff = s.featOff := rfl
@[simp] theorem State.setCoreAt_featAcc (s : State) (k : Nat) (c : CoreSt) : (s.setCoreAt k c).featAcc = s.featAcc := rfl
@[simp] theorem State.setCoreAt_feat (s : State) (k : Nat) (c : CoreSt) : (s.setCoreAt k c).feat = s.feat := rfl
@[simp] theorem State.setCoreAt_started (s : State) (k : Nat) (c : CoreSt) : (s.setCoreAt k c).started = s.started := rfl
@[simp] theorem State.setCoreAt_boot (s : State) (k : Nat) (c : CoreSt) : (s.setCoreAt k c).boot = s.boot := rfl
@[simp] theorem State.setCoreAt_rollback (s : State) (k : Nat) (c : CoreSt) : (s.setCoreAt k c).rollback = s.rollback := rfl
@[simp] theorem State.setCoreAt_mbCmd (s : State) (k : Nat) (c : CoreSt) : (s.setCoreAt k c).mbCmd = s.mbCmd := rfl
@[simp] theorem State.setCoreAt_mbGo (s : State) (k : Nat) (c : CoreSt) : (s.setCoreAt k c).mbGo = s.mbGo := rfl
@[simp] theorem State.setCoreAt_mbDone (s : State) (k : Nat) (c : CoreSt) : (s.setCoreAt k c).mbDone = s.mbDone := rfl
@[simp] theorem State.setCoreAt_mbStat (s : State) (k : Nat) (c : CoreSt) : (s.setCoreAt k c).mbStat = s.mbStat := rfl
@[simp] theorem State.setCoreAt_mbVec (s : State) (k : Nat) (c : CoreSt) : (s.setCoreAt k c).mbVec = s.mbVec := rfl
@[simp] theorem State.setCoreAt_mbIn (s : State) (k : Nat) (c : CoreSt) : (s.setCoreAt k c).mbIn = s.mbIn := rfl
@[simp] theorem State.setCoreAt_mbOut (s : State) (k : Nat) (c : CoreSt) : (s.setCoreAt k c).mbOut = s.mbOut := rfl
@[simp] theorem State.setCoreAt_pwrcap (s : State) (k : Nat) (c : CoreSt) : (s.setCoreAt k c).pwrcap = s.pwrcap := rfl
@[simp] theorem State.setCoreAt_pfMsix (s : State) (k : Nat) (c : CoreSt) : (s.setCoreAt k c).pfMsix = s.pfMsix := rfl
@[simp] theorem State.setCoreAt_clockMhz (s : State) (k : Nat) (c : CoreSt) : (s.setCoreAt k c).clockMhz = s.clockMhz := rfl
@[simp] theorem State.setCoreAt_thermal (s : State) (k : Nat) (c : CoreSt) : (s.setCoreAt k c).thermal = s.thermal := rfl
@[simp] theorem State.setCoreAt_links (s : State) (k : Nat) (c : CoreSt) : (s.setCoreAt k c).links = s.links := rfl
@[simp] theorem State.setCoreAt_spares (s : State) (k : Nat) (c : CoreSt) : (s.setCoreAt k c).spares = s.spares := rfl
@[simp] theorem State.setCoreAt_clk (s : State) (k : Nat) (c : CoreSt) : (s.setCoreAt k c).clk = s.clk := rfl
@[simp] theorem State.setCoreAt_out (s : State) (k : Nat) (c : CoreSt) : (s.setCoreAt k c).out = s.out := rfl
@[simp] theorem State.setCoreAt_nextKey (s : State) (k : Nat) (c : CoreSt) : (s.setCoreAt k c).nextKey = s.nextKey := rfl
@[simp] theorem State.setCoreAt_agenda (s : State) (k : Nat) (c : CoreSt) : (s.setCoreAt k c).agenda = s.agenda := rfl
@[simp] theorem State.setCoreAt_port (s : State) (k : Nat) (c : CoreSt) : (s.setCoreAt k c).port = s.port := rfl
@[simp] theorem State.setCoreAt_portHold (s : State) (k : Nat) (c : CoreSt) : (s.setCoreAt k c).portHold = s.portHold := rfl
@[simp] theorem State.setCoreAt_round (s : State) (k : Nat) (c : CoreSt) : (s.setCoreAt k c).round = s.round := rfl
@[simp] theorem State.setCoreAt_holdStores (s : State) (k : Nat) (c : CoreSt) : (s.setCoreAt k c).holdStores = s.holdStores := rfl
@[simp] theorem State.setCoreAt_holdLoads (s : State) (k : Nat) (c : CoreSt) : (s.setCoreAt k c).holdLoads = s.holdLoads := rfl
@[simp] theorem State.setCoreAt_specWaits (s : State) (k : Nat) (c : CoreSt) : (s.setCoreAt k c).specWaits = s.specWaits := rfl
@[simp] theorem State.setCoreAt_free (s : State) (k : Nat) (c : CoreSt) : (s.setCoreAt k c).free = s.free := rfl

/-! ### setGang -/

@[simp] theorem State.setGang_cur (s : State) (g : Gang) : (s.setGang g).cur = s.cur := rfl
@[simp] theorem State.setGang_wgs (s : State) (g : Gang) : (s.setGang g).wgs = s.wgs := rfl
@[simp] theorem State.setGang_grids (s : State) (g : Gang) : (s.setGang g).grids = s.grids := rfl
@[simp] theorem State.setGang_leaves (s : State) (g : Gang) : (s.setGang g).leaves = s.leaves := rfl
@[simp] theorem State.setGang_cores (s : State) (g : Gang) : (s.setGang g).cores = s.cores := rfl
@[simp] theorem State.setGang_mem (s : State) (g : Gang) : (s.setGang g).mem = s.mem := rfl
@[simp] theorem State.setGang_hostMem (s : State) (g : Gang) : (s.setGang g).hostMem = s.hostMem := rfl
@[simp] theorem State.setGang_peerMem (s : State) (g : Gang) : (s.setGang g).peerMem = s.peerMem := rfl
@[simp] theorem State.setGang_lines (s : State) (g : Gang) : (s.setGang g).lines = s.lines := rfl
@[simp] theorem State.setGang_old (s : State) (g : Gang) : (s.setGang g).old = s.old := rfl
@[simp] theorem State.setGang_pages (s : State) (g : Gang) : (s.setGang g).pages = s.pages := rfl
@[simp] theorem State.setGang_atc (s : State) (g : Gang) : (s.setGang g).atc = s.atc := rfl
@[simp] theorem State.setGang_seqs (s : State) (g : Gang) : (s.setGang g).seqs = s.seqs := rfl
@[simp] theorem State.setGang_grants (s : State) (g : Gang) : (s.setGang g).grants = s.grants := rfl
@[simp] theorem State.setGang_nodes (s : State) (g : Gang) : (s.setGang g).nodes = s.nodes := rfl
@[simp] theorem State.setGang_flash (s : State) (g : Gang) : (s.setGang g).flash = s.flash := rfl
@[simp] theorem State.setGang_flashRoom (s : State) (g : Gang) : (s.setGang g).flashRoom = s.flashRoom := rfl
@[simp] theorem State.setGang_parts (s : State) (g : Gang) : (s.setGang g).parts = s.parts := rfl
@[simp] theorem State.setGang_devnum (s : State) (g : Gang) : (s.setGang g).devnum = s.devnum := rfl
@[simp] theorem State.setGang_featOff (s : State) (g : Gang) : (s.setGang g).featOff = s.featOff := rfl
@[simp] theorem State.setGang_featAcc (s : State) (g : Gang) : (s.setGang g).featAcc = s.featAcc := rfl
@[simp] theorem State.setGang_feat (s : State) (g : Gang) : (s.setGang g).feat = s.feat := rfl
@[simp] theorem State.setGang_started (s : State) (g : Gang) : (s.setGang g).started = s.started := rfl
@[simp] theorem State.setGang_boot (s : State) (g : Gang) : (s.setGang g).boot = s.boot := rfl
@[simp] theorem State.setGang_rollback (s : State) (g : Gang) : (s.setGang g).rollback = s.rollback := rfl
@[simp] theorem State.setGang_mbCmd (s : State) (g : Gang) : (s.setGang g).mbCmd = s.mbCmd := rfl
@[simp] theorem State.setGang_mbGo (s : State) (g : Gang) : (s.setGang g).mbGo = s.mbGo := rfl
@[simp] theorem State.setGang_mbDone (s : State) (g : Gang) : (s.setGang g).mbDone = s.mbDone := rfl
@[simp] theorem State.setGang_mbStat (s : State) (g : Gang) : (s.setGang g).mbStat = s.mbStat := rfl
@[simp] theorem State.setGang_mbVec (s : State) (g : Gang) : (s.setGang g).mbVec = s.mbVec := rfl
@[simp] theorem State.setGang_mbIn (s : State) (g : Gang) : (s.setGang g).mbIn = s.mbIn := rfl
@[simp] theorem State.setGang_mbOut (s : State) (g : Gang) : (s.setGang g).mbOut = s.mbOut := rfl
@[simp] theorem State.setGang_pwrcap (s : State) (g : Gang) : (s.setGang g).pwrcap = s.pwrcap := rfl
@[simp] theorem State.setGang_pfMsix (s : State) (g : Gang) : (s.setGang g).pfMsix = s.pfMsix := rfl
@[simp] theorem State.setGang_clockMhz (s : State) (g : Gang) : (s.setGang g).clockMhz = s.clockMhz := rfl
@[simp] theorem State.setGang_thermal (s : State) (g : Gang) : (s.setGang g).thermal = s.thermal := rfl
@[simp] theorem State.setGang_links (s : State) (g : Gang) : (s.setGang g).links = s.links := rfl
@[simp] theorem State.setGang_spares (s : State) (g : Gang) : (s.setGang g).spares = s.spares := rfl
@[simp] theorem State.setGang_clk (s : State) (g : Gang) : (s.setGang g).clk = s.clk := rfl
@[simp] theorem State.setGang_out (s : State) (g : Gang) : (s.setGang g).out = s.out := rfl
@[simp] theorem State.setGang_nextKey (s : State) (g : Gang) : (s.setGang g).nextKey = s.nextKey := rfl
@[simp] theorem State.setGang_agenda (s : State) (g : Gang) : (s.setGang g).agenda = s.agenda := rfl
@[simp] theorem State.setGang_port (s : State) (g : Gang) : (s.setGang g).port = s.port := rfl
@[simp] theorem State.setGang_portHold (s : State) (g : Gang) : (s.setGang g).portHold = s.portHold := rfl
@[simp] theorem State.setGang_round (s : State) (g : Gang) : (s.setGang g).round = s.round := rfl
@[simp] theorem State.setGang_holdStores (s : State) (g : Gang) : (s.setGang g).holdStores = s.holdStores := rfl
@[simp] theorem State.setGang_holdLoads (s : State) (g : Gang) : (s.setGang g).holdLoads = s.holdLoads := rfl
@[simp] theorem State.setGang_specWaits (s : State) (g : Gang) : (s.setGang g).specWaits = s.specWaits := rfl
@[simp] theorem State.setGang_free (s : State) (g : Gang) : (s.setGang g).free = s.free := rfl

/-! ### setR -/

@[simp] theorem State.setR_cur (s : State) (r : Regs) : (s.setR r).cur = s.cur := rfl
@[simp] theorem State.setR_wgs (s : State) (r : Regs) : (s.setR r).wgs = s.wgs := rfl
@[simp] theorem State.setR_grids (s : State) (r : Regs) : (s.setR r).grids = s.grids := rfl
@[simp] theorem State.setR_leaves (s : State) (r : Regs) : (s.setR r).leaves = s.leaves := rfl
@[simp] theorem State.setR_cores (s : State) (r : Regs) : (s.setR r).cores = s.cores := rfl
@[simp] theorem State.setR_mem (s : State) (r : Regs) : (s.setR r).mem = s.mem := rfl
@[simp] theorem State.setR_hostMem (s : State) (r : Regs) : (s.setR r).hostMem = s.hostMem := rfl
@[simp] theorem State.setR_peerMem (s : State) (r : Regs) : (s.setR r).peerMem = s.peerMem := rfl
@[simp] theorem State.setR_lines (s : State) (r : Regs) : (s.setR r).lines = s.lines := rfl
@[simp] theorem State.setR_old (s : State) (r : Regs) : (s.setR r).old = s.old := rfl
@[simp] theorem State.setR_pages (s : State) (r : Regs) : (s.setR r).pages = s.pages := rfl
@[simp] theorem State.setR_atc (s : State) (r : Regs) : (s.setR r).atc = s.atc := rfl
@[simp] theorem State.setR_seqs (s : State) (r : Regs) : (s.setR r).seqs = s.seqs := rfl
@[simp] theorem State.setR_grants (s : State) (r : Regs) : (s.setR r).grants = s.grants := rfl
@[simp] theorem State.setR_nodes (s : State) (r : Regs) : (s.setR r).nodes = s.nodes := rfl
@[simp] theorem State.setR_flash (s : State) (r : Regs) : (s.setR r).flash = s.flash := rfl
@[simp] theorem State.setR_flashRoom (s : State) (r : Regs) : (s.setR r).flashRoom = s.flashRoom := rfl
@[simp] theorem State.setR_parts (s : State) (r : Regs) : (s.setR r).parts = s.parts := rfl
@[simp] theorem State.setR_devnum (s : State) (r : Regs) : (s.setR r).devnum = s.devnum := rfl
@[simp] theorem State.setR_featOff (s : State) (r : Regs) : (s.setR r).featOff = s.featOff := rfl
@[simp] theorem State.setR_featAcc (s : State) (r : Regs) : (s.setR r).featAcc = s.featAcc := rfl
@[simp] theorem State.setR_feat (s : State) (r : Regs) : (s.setR r).feat = s.feat := rfl
@[simp] theorem State.setR_started (s : State) (r : Regs) : (s.setR r).started = s.started := rfl
@[simp] theorem State.setR_boot (s : State) (r : Regs) : (s.setR r).boot = s.boot := rfl
@[simp] theorem State.setR_rollback (s : State) (r : Regs) : (s.setR r).rollback = s.rollback := rfl
@[simp] theorem State.setR_mbCmd (s : State) (r : Regs) : (s.setR r).mbCmd = s.mbCmd := rfl
@[simp] theorem State.setR_mbGo (s : State) (r : Regs) : (s.setR r).mbGo = s.mbGo := rfl
@[simp] theorem State.setR_mbDone (s : State) (r : Regs) : (s.setR r).mbDone = s.mbDone := rfl
@[simp] theorem State.setR_mbStat (s : State) (r : Regs) : (s.setR r).mbStat = s.mbStat := rfl
@[simp] theorem State.setR_mbVec (s : State) (r : Regs) : (s.setR r).mbVec = s.mbVec := rfl
@[simp] theorem State.setR_mbIn (s : State) (r : Regs) : (s.setR r).mbIn = s.mbIn := rfl
@[simp] theorem State.setR_mbOut (s : State) (r : Regs) : (s.setR r).mbOut = s.mbOut := rfl
@[simp] theorem State.setR_pwrcap (s : State) (r : Regs) : (s.setR r).pwrcap = s.pwrcap := rfl
@[simp] theorem State.setR_pfMsix (s : State) (r : Regs) : (s.setR r).pfMsix = s.pfMsix := rfl
@[simp] theorem State.setR_clockMhz (s : State) (r : Regs) : (s.setR r).clockMhz = s.clockMhz := rfl
@[simp] theorem State.setR_thermal (s : State) (r : Regs) : (s.setR r).thermal = s.thermal := rfl
@[simp] theorem State.setR_links (s : State) (r : Regs) : (s.setR r).links = s.links := rfl
@[simp] theorem State.setR_spares (s : State) (r : Regs) : (s.setR r).spares = s.spares := rfl
@[simp] theorem State.setR_clk (s : State) (r : Regs) : (s.setR r).clk = s.clk := rfl
@[simp] theorem State.setR_out (s : State) (r : Regs) : (s.setR r).out = s.out := rfl
@[simp] theorem State.setR_nextKey (s : State) (r : Regs) : (s.setR r).nextKey = s.nextKey := rfl
@[simp] theorem State.setR_agenda (s : State) (r : Regs) : (s.setR r).agenda = s.agenda := rfl
@[simp] theorem State.setR_port (s : State) (r : Regs) : (s.setR r).port = s.port := rfl
@[simp] theorem State.setR_portHold (s : State) (r : Regs) : (s.setR r).portHold = s.portHold := rfl
@[simp] theorem State.setR_round (s : State) (r : Regs) : (s.setR r).round = s.round := rfl
@[simp] theorem State.setR_holdStores (s : State) (r : Regs) : (s.setR r).holdStores = s.holdStores := rfl
@[simp] theorem State.setR_holdLoads (s : State) (r : Regs) : (s.setR r).holdLoads = s.holdLoads := rfl
@[simp] theorem State.setR_specWaits (s : State) (r : Regs) : (s.setR r).specWaits = s.specWaits := rfl
@[simp] theorem State.setR_free (s : State) (r : Regs) : (s.setR r).free = s.free := rfl

/-! ### setWg -/

@[simp] theorem State.setWg_cur (s : State) (w : Wg) : (s.setWg w).cur = s.cur := rfl
@[simp] theorem State.setWg_gangs (s : State) (w : Wg) : (s.setWg w).gangs = s.gangs := rfl
@[simp] theorem State.setWg_grids (s : State) (w : Wg) : (s.setWg w).grids = s.grids := rfl
@[simp] theorem State.setWg_leaves (s : State) (w : Wg) : (s.setWg w).leaves = s.leaves := rfl
@[simp] theorem State.setWg_cores (s : State) (w : Wg) : (s.setWg w).cores = s.cores := rfl
@[simp] theorem State.setWg_mem (s : State) (w : Wg) : (s.setWg w).mem = s.mem := rfl
@[simp] theorem State.setWg_hostMem (s : State) (w : Wg) : (s.setWg w).hostMem = s.hostMem := rfl
@[simp] theorem State.setWg_peerMem (s : State) (w : Wg) : (s.setWg w).peerMem = s.peerMem := rfl
@[simp] theorem State.setWg_lines (s : State) (w : Wg) : (s.setWg w).lines = s.lines := rfl
@[simp] theorem State.setWg_old (s : State) (w : Wg) : (s.setWg w).old = s.old := rfl
@[simp] theorem State.setWg_pages (s : State) (w : Wg) : (s.setWg w).pages = s.pages := rfl
@[simp] theorem State.setWg_atc (s : State) (w : Wg) : (s.setWg w).atc = s.atc := rfl
@[simp] theorem State.setWg_seqs (s : State) (w : Wg) : (s.setWg w).seqs = s.seqs := rfl
@[simp] theorem State.setWg_grants (s : State) (w : Wg) : (s.setWg w).grants = s.grants := rfl
@[simp] theorem State.setWg_nodes (s : State) (w : Wg) : (s.setWg w).nodes = s.nodes := rfl
@[simp] theorem State.setWg_flash (s : State) (w : Wg) : (s.setWg w).flash = s.flash := rfl
@[simp] theorem State.setWg_flashRoom (s : State) (w : Wg) : (s.setWg w).flashRoom = s.flashRoom := rfl
@[simp] theorem State.setWg_parts (s : State) (w : Wg) : (s.setWg w).parts = s.parts := rfl
@[simp] theorem State.setWg_devnum (s : State) (w : Wg) : (s.setWg w).devnum = s.devnum := rfl
@[simp] theorem State.setWg_featOff (s : State) (w : Wg) : (s.setWg w).featOff = s.featOff := rfl
@[simp] theorem State.setWg_featAcc (s : State) (w : Wg) : (s.setWg w).featAcc = s.featAcc := rfl
@[simp] theorem State.setWg_feat (s : State) (w : Wg) : (s.setWg w).feat = s.feat := rfl
@[simp] theorem State.setWg_started (s : State) (w : Wg) : (s.setWg w).started = s.started := rfl
@[simp] theorem State.setWg_boot (s : State) (w : Wg) : (s.setWg w).boot = s.boot := rfl
@[simp] theorem State.setWg_rollback (s : State) (w : Wg) : (s.setWg w).rollback = s.rollback := rfl
@[simp] theorem State.setWg_mbCmd (s : State) (w : Wg) : (s.setWg w).mbCmd = s.mbCmd := rfl
@[simp] theorem State.setWg_mbGo (s : State) (w : Wg) : (s.setWg w).mbGo = s.mbGo := rfl
@[simp] theorem State.setWg_mbDone (s : State) (w : Wg) : (s.setWg w).mbDone = s.mbDone := rfl
@[simp] theorem State.setWg_mbStat (s : State) (w : Wg) : (s.setWg w).mbStat = s.mbStat := rfl
@[simp] theorem State.setWg_mbVec (s : State) (w : Wg) : (s.setWg w).mbVec = s.mbVec := rfl
@[simp] theorem State.setWg_mbIn (s : State) (w : Wg) : (s.setWg w).mbIn = s.mbIn := rfl
@[simp] theorem State.setWg_mbOut (s : State) (w : Wg) : (s.setWg w).mbOut = s.mbOut := rfl
@[simp] theorem State.setWg_pwrcap (s : State) (w : Wg) : (s.setWg w).pwrcap = s.pwrcap := rfl
@[simp] theorem State.setWg_pfMsix (s : State) (w : Wg) : (s.setWg w).pfMsix = s.pfMsix := rfl
@[simp] theorem State.setWg_clockMhz (s : State) (w : Wg) : (s.setWg w).clockMhz = s.clockMhz := rfl
@[simp] theorem State.setWg_thermal (s : State) (w : Wg) : (s.setWg w).thermal = s.thermal := rfl
@[simp] theorem State.setWg_links (s : State) (w : Wg) : (s.setWg w).links = s.links := rfl
@[simp] theorem State.setWg_spares (s : State) (w : Wg) : (s.setWg w).spares = s.spares := rfl
@[simp] theorem State.setWg_clk (s : State) (w : Wg) : (s.setWg w).clk = s.clk := rfl
@[simp] theorem State.setWg_out (s : State) (w : Wg) : (s.setWg w).out = s.out := rfl
@[simp] theorem State.setWg_nextKey (s : State) (w : Wg) : (s.setWg w).nextKey = s.nextKey := rfl
@[simp] theorem State.setWg_agenda (s : State) (w : Wg) : (s.setWg w).agenda = s.agenda := rfl
@[simp] theorem State.setWg_port (s : State) (w : Wg) : (s.setWg w).port = s.port := rfl
@[simp] theorem State.setWg_portHold (s : State) (w : Wg) : (s.setWg w).portHold = s.portHold := rfl
@[simp] theorem State.setWg_round (s : State) (w : Wg) : (s.setWg w).round = s.round := rfl
@[simp] theorem State.setWg_holdStores (s : State) (w : Wg) : (s.setWg w).holdStores = s.holdStores := rfl
@[simp] theorem State.setWg_holdLoads (s : State) (w : Wg) : (s.setWg w).holdLoads = s.holdLoads := rfl
@[simp] theorem State.setWg_specWaits (s : State) (w : Wg) : (s.setWg w).specWaits = s.specWaits := rfl
@[simp] theorem State.setWg_free (s : State) (w : Wg) : (s.setWg w).free = s.free := rfl

/-! ### setLeaf -/

@[simp] theorem State.setLeaf_cur (s : State) (l : Leaf) : (s.setLeaf l).cur = s.cur := rfl
@[simp] theorem State.setLeaf_gangs (s : State) (l : Leaf) : (s.setLeaf l).gangs = s.gangs := rfl
@[simp] theorem State.setLeaf_wgs (s : State) (l : Leaf) : (s.setLeaf l).wgs = s.wgs := rfl
@[simp] theorem State.setLeaf_grids (s : State) (l : Leaf) : (s.setLeaf l).grids = s.grids := rfl
@[simp] theorem State.setLeaf_cores (s : State) (l : Leaf) : (s.setLeaf l).cores = s.cores := rfl
@[simp] theorem State.setLeaf_mem (s : State) (l : Leaf) : (s.setLeaf l).mem = s.mem := rfl
@[simp] theorem State.setLeaf_hostMem (s : State) (l : Leaf) : (s.setLeaf l).hostMem = s.hostMem := rfl
@[simp] theorem State.setLeaf_peerMem (s : State) (l : Leaf) : (s.setLeaf l).peerMem = s.peerMem := rfl
@[simp] theorem State.setLeaf_lines (s : State) (l : Leaf) : (s.setLeaf l).lines = s.lines := rfl
@[simp] theorem State.setLeaf_old (s : State) (l : Leaf) : (s.setLeaf l).old = s.old := rfl
@[simp] theorem State.setLeaf_pages (s : State) (l : Leaf) : (s.setLeaf l).pages = s.pages := rfl
@[simp] theorem State.setLeaf_atc (s : State) (l : Leaf) : (s.setLeaf l).atc = s.atc := rfl
@[simp] theorem State.setLeaf_seqs (s : State) (l : Leaf) : (s.setLeaf l).seqs = s.seqs := rfl
@[simp] theorem State.setLeaf_grants (s : State) (l : Leaf) : (s.setLeaf l).grants = s.grants := rfl
@[simp] theorem State.setLeaf_nodes (s : State) (l : Leaf) : (s.setLeaf l).nodes = s.nodes := rfl
@[simp] theorem State.setLeaf_flash (s : State) (l : Leaf) : (s.setLeaf l).flash = s.flash := rfl
@[simp] theorem State.setLeaf_flashRoom (s : State) (l : Leaf) : (s.setLeaf l).flashRoom = s.flashRoom := rfl
@[simp] theorem State.setLeaf_parts (s : State) (l : Leaf) : (s.setLeaf l).parts = s.parts := rfl
@[simp] theorem State.setLeaf_devnum (s : State) (l : Leaf) : (s.setLeaf l).devnum = s.devnum := rfl
@[simp] theorem State.setLeaf_featOff (s : State) (l : Leaf) : (s.setLeaf l).featOff = s.featOff := rfl
@[simp] theorem State.setLeaf_featAcc (s : State) (l : Leaf) : (s.setLeaf l).featAcc = s.featAcc := rfl
@[simp] theorem State.setLeaf_feat (s : State) (l : Leaf) : (s.setLeaf l).feat = s.feat := rfl
@[simp] theorem State.setLeaf_started (s : State) (l : Leaf) : (s.setLeaf l).started = s.started := rfl
@[simp] theorem State.setLeaf_boot (s : State) (l : Leaf) : (s.setLeaf l).boot = s.boot := rfl
@[simp] theorem State.setLeaf_rollback (s : State) (l : Leaf) : (s.setLeaf l).rollback = s.rollback := rfl
@[simp] theorem State.setLeaf_mbCmd (s : State) (l : Leaf) : (s.setLeaf l).mbCmd = s.mbCmd := rfl
@[simp] theorem State.setLeaf_mbGo (s : State) (l : Leaf) : (s.setLeaf l).mbGo = s.mbGo := rfl
@[simp] theorem State.setLeaf_mbDone (s : State) (l : Leaf) : (s.setLeaf l).mbDone = s.mbDone := rfl
@[simp] theorem State.setLeaf_mbStat (s : State) (l : Leaf) : (s.setLeaf l).mbStat = s.mbStat := rfl
@[simp] theorem State.setLeaf_mbVec (s : State) (l : Leaf) : (s.setLeaf l).mbVec = s.mbVec := rfl
@[simp] theorem State.setLeaf_mbIn (s : State) (l : Leaf) : (s.setLeaf l).mbIn = s.mbIn := rfl
@[simp] theorem State.setLeaf_mbOut (s : State) (l : Leaf) : (s.setLeaf l).mbOut = s.mbOut := rfl
@[simp] theorem State.setLeaf_pwrcap (s : State) (l : Leaf) : (s.setLeaf l).pwrcap = s.pwrcap := rfl
@[simp] theorem State.setLeaf_pfMsix (s : State) (l : Leaf) : (s.setLeaf l).pfMsix = s.pfMsix := rfl
@[simp] theorem State.setLeaf_clockMhz (s : State) (l : Leaf) : (s.setLeaf l).clockMhz = s.clockMhz := rfl
@[simp] theorem State.setLeaf_thermal (s : State) (l : Leaf) : (s.setLeaf l).thermal = s.thermal := rfl
@[simp] theorem State.setLeaf_links (s : State) (l : Leaf) : (s.setLeaf l).links = s.links := rfl
@[simp] theorem State.setLeaf_spares (s : State) (l : Leaf) : (s.setLeaf l).spares = s.spares := rfl
@[simp] theorem State.setLeaf_clk (s : State) (l : Leaf) : (s.setLeaf l).clk = s.clk := rfl
@[simp] theorem State.setLeaf_out (s : State) (l : Leaf) : (s.setLeaf l).out = s.out := rfl
@[simp] theorem State.setLeaf_nextKey (s : State) (l : Leaf) : (s.setLeaf l).nextKey = s.nextKey := rfl
@[simp] theorem State.setLeaf_agenda (s : State) (l : Leaf) : (s.setLeaf l).agenda = s.agenda := rfl
@[simp] theorem State.setLeaf_port (s : State) (l : Leaf) : (s.setLeaf l).port = s.port := rfl
@[simp] theorem State.setLeaf_portHold (s : State) (l : Leaf) : (s.setLeaf l).portHold = s.portHold := rfl
@[simp] theorem State.setLeaf_round (s : State) (l : Leaf) : (s.setLeaf l).round = s.round := rfl
@[simp] theorem State.setLeaf_holdStores (s : State) (l : Leaf) : (s.setLeaf l).holdStores = s.holdStores := rfl
@[simp] theorem State.setLeaf_holdLoads (s : State) (l : Leaf) : (s.setLeaf l).holdLoads = s.holdLoads := rfl
@[simp] theorem State.setLeaf_specWaits (s : State) (l : Leaf) : (s.setLeaf l).specWaits = s.specWaits := rfl
@[simp] theorem State.setLeaf_free (s : State) (l : Leaf) : (s.setLeaf l).free = s.free := rfl

/-! ### setCore -/

@[simp] theorem State.setCore_cur (s : State) (c : CoreSt) : (s.setCore c).cur = s.cur := rfl
@[simp] theorem State.setCore_gangs (s : State) (c : CoreSt) : (s.setCore c).gangs = s.gangs := rfl
@[simp] theorem State.setCore_wgs (s : State) (c : CoreSt) : (s.setCore c).wgs = s.wgs := rfl
@[simp] theorem State.setCore_grids (s : State) (c : CoreSt) : (s.setCore c).grids = s.grids := rfl
@[simp] theorem State.setCore_leaves (s : State) (c : CoreSt) : (s.setCore c).leaves = s.leaves := rfl
@[simp] theorem State.setCore_mem (s : State) (c : CoreSt) : (s.setCore c).mem = s.mem := rfl
@[simp] theorem State.setCore_hostMem (s : State) (c : CoreSt) : (s.setCore c).hostMem = s.hostMem := rfl
@[simp] theorem State.setCore_peerMem (s : State) (c : CoreSt) : (s.setCore c).peerMem = s.peerMem := rfl
@[simp] theorem State.setCore_lines (s : State) (c : CoreSt) : (s.setCore c).lines = s.lines := rfl
@[simp] theorem State.setCore_old (s : State) (c : CoreSt) : (s.setCore c).old = s.old := rfl
@[simp] theorem State.setCore_pages (s : State) (c : CoreSt) : (s.setCore c).pages = s.pages := rfl
@[simp] theorem State.setCore_atc (s : State) (c : CoreSt) : (s.setCore c).atc = s.atc := rfl
@[simp] theorem State.setCore_seqs (s : State) (c : CoreSt) : (s.setCore c).seqs = s.seqs := rfl
@[simp] theorem State.setCore_grants (s : State) (c : CoreSt) : (s.setCore c).grants = s.grants := rfl
@[simp] theorem State.setCore_nodes (s : State) (c : CoreSt) : (s.setCore c).nodes = s.nodes := rfl
@[simp] theorem State.setCore_flash (s : State) (c : CoreSt) : (s.setCore c).flash = s.flash := rfl
@[simp] theorem State.setCore_flashRoom (s : State) (c : CoreSt) : (s.setCore c).flashRoom = s.flashRoom := rfl
@[simp] theorem State.setCore_parts (s : State) (c : CoreSt) : (s.setCore c).parts = s.parts := rfl
@[simp] theorem State.setCore_devnum (s : State) (c : CoreSt) : (s.setCore c).devnum = s.devnum := rfl
@[simp] theorem State.setCore_featOff (s : State) (c : CoreSt) : (s.setCore c).featOff = s.featOff := rfl
@[simp] theorem State.setCore_featAcc (s : State) (c : CoreSt) : (s.setCore c).featAcc = s.featAcc := rfl
@[simp] theorem State.setCore_feat (s : State) (c : CoreSt) : (s.setCore c).feat = s.feat := rfl
@[simp] theorem State.setCore_started (s : State) (c : CoreSt) : (s.setCore c).started = s.started := rfl
@[simp] theorem State.setCore_boot (s : State) (c : CoreSt) : (s.setCore c).boot = s.boot := rfl
@[simp] theorem State.setCore_rollback (s : State) (c : CoreSt) : (s.setCore c).rollback = s.rollback := rfl
@[simp] theorem State.setCore_mbCmd (s : State) (c : CoreSt) : (s.setCore c).mbCmd = s.mbCmd := rfl
@[simp] theorem State.setCore_mbGo (s : State) (c : CoreSt) : (s.setCore c).mbGo = s.mbGo := rfl
@[simp] theorem State.setCore_mbDone (s : State) (c : CoreSt) : (s.setCore c).mbDone = s.mbDone := rfl
@[simp] theorem State.setCore_mbStat (s : State) (c : CoreSt) : (s.setCore c).mbStat = s.mbStat := rfl
@[simp] theorem State.setCore_mbVec (s : State) (c : CoreSt) : (s.setCore c).mbVec = s.mbVec := rfl
@[simp] theorem State.setCore_mbIn (s : State) (c : CoreSt) : (s.setCore c).mbIn = s.mbIn := rfl
@[simp] theorem State.setCore_mbOut (s : State) (c : CoreSt) : (s.setCore c).mbOut = s.mbOut := rfl
@[simp] theorem State.setCore_pwrcap (s : State) (c : CoreSt) : (s.setCore c).pwrcap = s.pwrcap := rfl
@[simp] theorem State.setCore_pfMsix (s : State) (c : CoreSt) : (s.setCore c).pfMsix = s.pfMsix := rfl
@[simp] theorem State.setCore_clockMhz (s : State) (c : CoreSt) : (s.setCore c).clockMhz = s.clockMhz := rfl
@[simp] theorem State.setCore_thermal (s : State) (c : CoreSt) : (s.setCore c).thermal = s.thermal := rfl
@[simp] theorem State.setCore_links (s : State) (c : CoreSt) : (s.setCore c).links = s.links := rfl
@[simp] theorem State.setCore_spares (s : State) (c : CoreSt) : (s.setCore c).spares = s.spares := rfl
@[simp] theorem State.setCore_clk (s : State) (c : CoreSt) : (s.setCore c).clk = s.clk := rfl
@[simp] theorem State.setCore_out (s : State) (c : CoreSt) : (s.setCore c).out = s.out := rfl
@[simp] theorem State.setCore_nextKey (s : State) (c : CoreSt) : (s.setCore c).nextKey = s.nextKey := rfl
@[simp] theorem State.setCore_agenda (s : State) (c : CoreSt) : (s.setCore c).agenda = s.agenda := rfl
@[simp] theorem State.setCore_port (s : State) (c : CoreSt) : (s.setCore c).port = s.port := rfl
@[simp] theorem State.setCore_portHold (s : State) (c : CoreSt) : (s.setCore c).portHold = s.portHold := rfl
@[simp] theorem State.setCore_round (s : State) (c : CoreSt) : (s.setCore c).round = s.round := rfl
@[simp] theorem State.setCore_holdStores (s : State) (c : CoreSt) : (s.setCore c).holdStores = s.holdStores := rfl
@[simp] theorem State.setCore_holdLoads (s : State) (c : CoreSt) : (s.setCore c).holdLoads = s.holdLoads := rfl
@[simp] theorem State.setCore_specWaits (s : State) (c : CoreSt) : (s.setCore c).specWaits = s.specWaits := rfl
@[simp] theorem State.setCore_free (s : State) (c : CoreSt) : (s.setCore c).free = s.free := rfl

/-! ### tick -/

@[simp] theorem State.tick_clk (s : State) (n : Nat) : (s.tick n).clk = s.clk.tick s.clockMhz n := rfl
@[simp] theorem State.tick_cur (s : State) (n : Nat) : (s.tick n).cur = s.cur := rfl
@[simp] theorem State.tick_gangs (s : State) (n : Nat) : (s.tick n).gangs = s.gangs := rfl
@[simp] theorem State.tick_wgs (s : State) (n : Nat) : (s.tick n).wgs = s.wgs := rfl
@[simp] theorem State.tick_grids (s : State) (n : Nat) : (s.tick n).grids = s.grids := rfl
@[simp] theorem State.tick_leaves (s : State) (n : Nat) : (s.tick n).leaves = s.leaves := rfl
@[simp] theorem State.tick_cores (s : State) (n : Nat) : (s.tick n).cores = s.cores := rfl
@[simp] theorem State.tick_mem (s : State) (n : Nat) : (s.tick n).mem = s.mem := rfl
@[simp] theorem State.tick_hostMem (s : State) (n : Nat) : (s.tick n).hostMem = s.hostMem := rfl
@[simp] theorem State.tick_peerMem (s : State) (n : Nat) : (s.tick n).peerMem = s.peerMem := rfl
@[simp] theorem State.tick_lines (s : State) (n : Nat) : (s.tick n).lines = s.lines := rfl
@[simp] theorem State.tick_old (s : State) (n : Nat) : (s.tick n).old = s.old := rfl
@[simp] theorem State.tick_pages (s : State) (n : Nat) : (s.tick n).pages = s.pages := rfl
@[simp] theorem State.tick_atc (s : State) (n : Nat) : (s.tick n).atc = s.atc := rfl
@[simp] theorem State.tick_seqs (s : State) (n : Nat) : (s.tick n).seqs = s.seqs := rfl
@[simp] theorem State.tick_grants (s : State) (n : Nat) : (s.tick n).grants = s.grants := rfl
@[simp] theorem State.tick_nodes (s : State) (n : Nat) : (s.tick n).nodes = s.nodes := rfl
@[simp] theorem State.tick_flash (s : State) (n : Nat) : (s.tick n).flash = s.flash := rfl
@[simp] theorem State.tick_flashRoom (s : State) (n : Nat) : (s.tick n).flashRoom = s.flashRoom := rfl
@[simp] theorem State.tick_parts (s : State) (n : Nat) : (s.tick n).parts = s.parts := rfl
@[simp] theorem State.tick_devnum (s : State) (n : Nat) : (s.tick n).devnum = s.devnum := rfl
@[simp] theorem State.tick_featOff (s : State) (n : Nat) : (s.tick n).featOff = s.featOff := rfl
@[simp] theorem State.tick_featAcc (s : State) (n : Nat) : (s.tick n).featAcc = s.featAcc := rfl
@[simp] theorem State.tick_feat (s : State) (n : Nat) : (s.tick n).feat = s.feat := rfl
@[simp] theorem State.tick_started (s : State) (n : Nat) : (s.tick n).started = s.started := rfl
@[simp] theorem State.tick_boot (s : State) (n : Nat) : (s.tick n).boot = s.boot := rfl
@[simp] theorem State.tick_rollback (s : State) (n : Nat) : (s.tick n).rollback = s.rollback := rfl
@[simp] theorem State.tick_mbCmd (s : State) (n : Nat) : (s.tick n).mbCmd = s.mbCmd := rfl
@[simp] theorem State.tick_mbGo (s : State) (n : Nat) : (s.tick n).mbGo = s.mbGo := rfl
@[simp] theorem State.tick_mbDone (s : State) (n : Nat) : (s.tick n).mbDone = s.mbDone := rfl
@[simp] theorem State.tick_mbStat (s : State) (n : Nat) : (s.tick n).mbStat = s.mbStat := rfl
@[simp] theorem State.tick_mbVec (s : State) (n : Nat) : (s.tick n).mbVec = s.mbVec := rfl
@[simp] theorem State.tick_mbIn (s : State) (n : Nat) : (s.tick n).mbIn = s.mbIn := rfl
@[simp] theorem State.tick_mbOut (s : State) (n : Nat) : (s.tick n).mbOut = s.mbOut := rfl
@[simp] theorem State.tick_pwrcap (s : State) (n : Nat) : (s.tick n).pwrcap = s.pwrcap := rfl
@[simp] theorem State.tick_pfMsix (s : State) (n : Nat) : (s.tick n).pfMsix = s.pfMsix := rfl
@[simp] theorem State.tick_clockMhz (s : State) (n : Nat) : (s.tick n).clockMhz = s.clockMhz := rfl
@[simp] theorem State.tick_thermal (s : State) (n : Nat) : (s.tick n).thermal = s.thermal := rfl
@[simp] theorem State.tick_links (s : State) (n : Nat) : (s.tick n).links = s.links := rfl
@[simp] theorem State.tick_spares (s : State) (n : Nat) : (s.tick n).spares = s.spares := rfl
@[simp] theorem State.tick_out (s : State) (n : Nat) : (s.tick n).out = s.out := rfl
@[simp] theorem State.tick_nextKey (s : State) (n : Nat) : (s.tick n).nextKey = s.nextKey := rfl
@[simp] theorem State.tick_agenda (s : State) (n : Nat) : (s.tick n).agenda = s.agenda := rfl
@[simp] theorem State.tick_port (s : State) (n : Nat) : (s.tick n).port = s.port := rfl
@[simp] theorem State.tick_portHold (s : State) (n : Nat) : (s.tick n).portHold = s.portHold := rfl
@[simp] theorem State.tick_round (s : State) (n : Nat) : (s.tick n).round = s.round := rfl
@[simp] theorem State.tick_holdStores (s : State) (n : Nat) : (s.tick n).holdStores = s.holdStores := rfl
@[simp] theorem State.tick_holdLoads (s : State) (n : Nat) : (s.tick n).holdLoads = s.holdLoads := rfl
@[simp] theorem State.tick_specWaits (s : State) (n : Nat) : (s.tick n).specWaits = s.specWaits := rfl
@[simp] theorem State.tick_free (s : State) (n : Nat) : (s.tick n).free = s.free := rfl

/-! ### setQueue -/

@[simp] theorem State.setQueue_cur (s : State) (l q : Nat) (x : Queue) : (s.setQueue l q x).cur = s.cur := rfl
@[simp] theorem State.setQueue_gangs (s : State) (l q : Nat) (x : Queue) : (s.setQueue l q x).gangs = s.gangs := rfl
@[simp] theorem State.setQueue_wgs (s : State) (l q : Nat) (x : Queue) : (s.setQueue l q x).wgs = s.wgs := rfl
@[simp] theorem State.setQueue_grids (s : State) (l q : Nat) (x : Queue) : (s.setQueue l q x).grids = s.grids := rfl
@[simp] theorem State.setQueue_cores (s : State) (l q : Nat) (x : Queue) : (s.setQueue l q x).cores = s.cores := rfl
@[simp] theorem State.setQueue_mem (s : State) (l q : Nat) (x : Queue) : (s.setQueue l q x).mem = s.mem := rfl
@[simp] theorem State.setQueue_hostMem (s : State) (l q : Nat) (x : Queue) : (s.setQueue l q x).hostMem = s.hostMem := rfl
@[simp] theorem State.setQueue_peerMem (s : State) (l q : Nat) (x : Queue) : (s.setQueue l q x).peerMem = s.peerMem := rfl
@[simp] theorem State.setQueue_lines (s : State) (l q : Nat) (x : Queue) : (s.setQueue l q x).lines = s.lines := rfl
@[simp] theorem State.setQueue_old (s : State) (l q : Nat) (x : Queue) : (s.setQueue l q x).old = s.old := rfl
@[simp] theorem State.setQueue_pages (s : State) (l q : Nat) (x : Queue) : (s.setQueue l q x).pages = s.pages := rfl
@[simp] theorem State.setQueue_atc (s : State) (l q : Nat) (x : Queue) : (s.setQueue l q x).atc = s.atc := rfl
@[simp] theorem State.setQueue_seqs (s : State) (l q : Nat) (x : Queue) : (s.setQueue l q x).seqs = s.seqs := rfl
@[simp] theorem State.setQueue_grants (s : State) (l q : Nat) (x : Queue) : (s.setQueue l q x).grants = s.grants := rfl
@[simp] theorem State.setQueue_nodes (s : State) (l q : Nat) (x : Queue) : (s.setQueue l q x).nodes = s.nodes := rfl
@[simp] theorem State.setQueue_flash (s : State) (l q : Nat) (x : Queue) : (s.setQueue l q x).flash = s.flash := rfl
@[simp] theorem State.setQueue_flashRoom (s : State) (l q : Nat) (x : Queue) : (s.setQueue l q x).flashRoom = s.flashRoom := rfl
@[simp] theorem State.setQueue_parts (s : State) (l q : Nat) (x : Queue) : (s.setQueue l q x).parts = s.parts := rfl
@[simp] theorem State.setQueue_devnum (s : State) (l q : Nat) (x : Queue) : (s.setQueue l q x).devnum = s.devnum := rfl
@[simp] theorem State.setQueue_featOff (s : State) (l q : Nat) (x : Queue) : (s.setQueue l q x).featOff = s.featOff := rfl
@[simp] theorem State.setQueue_featAcc (s : State) (l q : Nat) (x : Queue) : (s.setQueue l q x).featAcc = s.featAcc := rfl
@[simp] theorem State.setQueue_feat (s : State) (l q : Nat) (x : Queue) : (s.setQueue l q x).feat = s.feat := rfl
@[simp] theorem State.setQueue_started (s : State) (l q : Nat) (x : Queue) : (s.setQueue l q x).started = s.started := rfl
@[simp] theorem State.setQueue_boot (s : State) (l q : Nat) (x : Queue) : (s.setQueue l q x).boot = s.boot := rfl
@[simp] theorem State.setQueue_rollback (s : State) (l q : Nat) (x : Queue) : (s.setQueue l q x).rollback = s.rollback := rfl
@[simp] theorem State.setQueue_mbCmd (s : State) (l q : Nat) (x : Queue) : (s.setQueue l q x).mbCmd = s.mbCmd := rfl
@[simp] theorem State.setQueue_mbGo (s : State) (l q : Nat) (x : Queue) : (s.setQueue l q x).mbGo = s.mbGo := rfl
@[simp] theorem State.setQueue_mbDone (s : State) (l q : Nat) (x : Queue) : (s.setQueue l q x).mbDone = s.mbDone := rfl
@[simp] theorem State.setQueue_mbStat (s : State) (l q : Nat) (x : Queue) : (s.setQueue l q x).mbStat = s.mbStat := rfl
@[simp] theorem State.setQueue_mbVec (s : State) (l q : Nat) (x : Queue) : (s.setQueue l q x).mbVec = s.mbVec := rfl
@[simp] theorem State.setQueue_mbIn (s : State) (l q : Nat) (x : Queue) : (s.setQueue l q x).mbIn = s.mbIn := rfl
@[simp] theorem State.setQueue_mbOut (s : State) (l q : Nat) (x : Queue) : (s.setQueue l q x).mbOut = s.mbOut := rfl
@[simp] theorem State.setQueue_pwrcap (s : State) (l q : Nat) (x : Queue) : (s.setQueue l q x).pwrcap = s.pwrcap := rfl
@[simp] theorem State.setQueue_pfMsix (s : State) (l q : Nat) (x : Queue) : (s.setQueue l q x).pfMsix = s.pfMsix := rfl
@[simp] theorem State.setQueue_clockMhz (s : State) (l q : Nat) (x : Queue) : (s.setQueue l q x).clockMhz = s.clockMhz := rfl
@[simp] theorem State.setQueue_thermal (s : State) (l q : Nat) (x : Queue) : (s.setQueue l q x).thermal = s.thermal := rfl
@[simp] theorem State.setQueue_links (s : State) (l q : Nat) (x : Queue) : (s.setQueue l q x).links = s.links := rfl
@[simp] theorem State.setQueue_spares (s : State) (l q : Nat) (x : Queue) : (s.setQueue l q x).spares = s.spares := rfl
@[simp] theorem State.setQueue_clk (s : State) (l q : Nat) (x : Queue) : (s.setQueue l q x).clk = s.clk := rfl
@[simp] theorem State.setQueue_out (s : State) (l q : Nat) (x : Queue) : (s.setQueue l q x).out = s.out := rfl
@[simp] theorem State.setQueue_nextKey (s : State) (l q : Nat) (x : Queue) : (s.setQueue l q x).nextKey = s.nextKey := rfl
@[simp] theorem State.setQueue_agenda (s : State) (l q : Nat) (x : Queue) : (s.setQueue l q x).agenda = s.agenda := rfl
@[simp] theorem State.setQueue_port (s : State) (l q : Nat) (x : Queue) : (s.setQueue l q x).port = s.port := rfl
@[simp] theorem State.setQueue_portHold (s : State) (l q : Nat) (x : Queue) : (s.setQueue l q x).portHold = s.portHold := rfl
@[simp] theorem State.setQueue_round (s : State) (l q : Nat) (x : Queue) : (s.setQueue l q x).round = s.round := rfl
@[simp] theorem State.setQueue_holdStores (s : State) (l q : Nat) (x : Queue) : (s.setQueue l q x).holdStores = s.holdStores := rfl
@[simp] theorem State.setQueue_holdLoads (s : State) (l q : Nat) (x : Queue) : (s.setQueue l q x).holdLoads = s.holdLoads := rfl
@[simp] theorem State.setQueue_specWaits (s : State) (l q : Nat) (x : Queue) : (s.setQueue l q x).specWaits = s.specWaits := rfl
@[simp] theorem State.setQueue_free (s : State) (l q : Nat) (x : Queue) : (s.setQueue l q x).free = s.free := rfl

/-! ### setSeq -/

@[simp] theorem State.setSeq_seqs (s : State) (k : Nat) (r : SeqRec) : (s.setSeq k r).seqs = tput s.seqs k r := rfl
@[simp] theorem State.setSeq_cur (s : State) (k : Nat) (r : SeqRec) : (s.setSeq k r).cur = s.cur := rfl
@[simp] theorem State.setSeq_gangs (s : State) (k : Nat) (r : SeqRec) : (s.setSeq k r).gangs = s.gangs := rfl
@[simp] theorem State.setSeq_wgs (s : State) (k : Nat) (r : SeqRec) : (s.setSeq k r).wgs = s.wgs := rfl
@[simp] theorem State.setSeq_grids (s : State) (k : Nat) (r : SeqRec) : (s.setSeq k r).grids = s.grids := rfl
@[simp] theorem State.setSeq_leaves (s : State) (k : Nat) (r : SeqRec) : (s.setSeq k r).leaves = s.leaves := rfl
@[simp] theorem State.setSeq_cores (s : State) (k : Nat) (r : SeqRec) : (s.setSeq k r).cores = s.cores := rfl
@[simp] theorem State.setSeq_mem (s : State) (k : Nat) (r : SeqRec) : (s.setSeq k r).mem = s.mem := rfl
@[simp] theorem State.setSeq_hostMem (s : State) (k : Nat) (r : SeqRec) : (s.setSeq k r).hostMem = s.hostMem := rfl
@[simp] theorem State.setSeq_peerMem (s : State) (k : Nat) (r : SeqRec) : (s.setSeq k r).peerMem = s.peerMem := rfl
@[simp] theorem State.setSeq_lines (s : State) (k : Nat) (r : SeqRec) : (s.setSeq k r).lines = s.lines := rfl
@[simp] theorem State.setSeq_old (s : State) (k : Nat) (r : SeqRec) : (s.setSeq k r).old = s.old := rfl
@[simp] theorem State.setSeq_pages (s : State) (k : Nat) (r : SeqRec) : (s.setSeq k r).pages = s.pages := rfl
@[simp] theorem State.setSeq_atc (s : State) (k : Nat) (r : SeqRec) : (s.setSeq k r).atc = s.atc := rfl
@[simp] theorem State.setSeq_grants (s : State) (k : Nat) (r : SeqRec) : (s.setSeq k r).grants = s.grants := rfl
@[simp] theorem State.setSeq_nodes (s : State) (k : Nat) (r : SeqRec) : (s.setSeq k r).nodes = s.nodes := rfl
@[simp] theorem State.setSeq_flash (s : State) (k : Nat) (r : SeqRec) : (s.setSeq k r).flash = s.flash := rfl
@[simp] theorem State.setSeq_flashRoom (s : State) (k : Nat) (r : SeqRec) : (s.setSeq k r).flashRoom = s.flashRoom := rfl
@[simp] theorem State.setSeq_parts (s : State) (k : Nat) (r : SeqRec) : (s.setSeq k r).parts = s.parts := rfl
@[simp] theorem State.setSeq_devnum (s : State) (k : Nat) (r : SeqRec) : (s.setSeq k r).devnum = s.devnum := rfl
@[simp] theorem State.setSeq_featOff (s : State) (k : Nat) (r : SeqRec) : (s.setSeq k r).featOff = s.featOff := rfl
@[simp] theorem State.setSeq_featAcc (s : State) (k : Nat) (r : SeqRec) : (s.setSeq k r).featAcc = s.featAcc := rfl
@[simp] theorem State.setSeq_feat (s : State) (k : Nat) (r : SeqRec) : (s.setSeq k r).feat = s.feat := rfl
@[simp] theorem State.setSeq_started (s : State) (k : Nat) (r : SeqRec) : (s.setSeq k r).started = s.started := rfl
@[simp] theorem State.setSeq_boot (s : State) (k : Nat) (r : SeqRec) : (s.setSeq k r).boot = s.boot := rfl
@[simp] theorem State.setSeq_rollback (s : State) (k : Nat) (r : SeqRec) : (s.setSeq k r).rollback = s.rollback := rfl
@[simp] theorem State.setSeq_mbCmd (s : State) (k : Nat) (r : SeqRec) : (s.setSeq k r).mbCmd = s.mbCmd := rfl
@[simp] theorem State.setSeq_mbGo (s : State) (k : Nat) (r : SeqRec) : (s.setSeq k r).mbGo = s.mbGo := rfl
@[simp] theorem State.setSeq_mbDone (s : State) (k : Nat) (r : SeqRec) : (s.setSeq k r).mbDone = s.mbDone := rfl
@[simp] theorem State.setSeq_mbStat (s : State) (k : Nat) (r : SeqRec) : (s.setSeq k r).mbStat = s.mbStat := rfl
@[simp] theorem State.setSeq_mbVec (s : State) (k : Nat) (r : SeqRec) : (s.setSeq k r).mbVec = s.mbVec := rfl
@[simp] theorem State.setSeq_mbIn (s : State) (k : Nat) (r : SeqRec) : (s.setSeq k r).mbIn = s.mbIn := rfl
@[simp] theorem State.setSeq_mbOut (s : State) (k : Nat) (r : SeqRec) : (s.setSeq k r).mbOut = s.mbOut := rfl
@[simp] theorem State.setSeq_pwrcap (s : State) (k : Nat) (r : SeqRec) : (s.setSeq k r).pwrcap = s.pwrcap := rfl
@[simp] theorem State.setSeq_pfMsix (s : State) (k : Nat) (r : SeqRec) : (s.setSeq k r).pfMsix = s.pfMsix := rfl
@[simp] theorem State.setSeq_clockMhz (s : State) (k : Nat) (r : SeqRec) : (s.setSeq k r).clockMhz = s.clockMhz := rfl
@[simp] theorem State.setSeq_thermal (s : State) (k : Nat) (r : SeqRec) : (s.setSeq k r).thermal = s.thermal := rfl
@[simp] theorem State.setSeq_links (s : State) (k : Nat) (r : SeqRec) : (s.setSeq k r).links = s.links := rfl
@[simp] theorem State.setSeq_spares (s : State) (k : Nat) (r : SeqRec) : (s.setSeq k r).spares = s.spares := rfl
@[simp] theorem State.setSeq_clk (s : State) (k : Nat) (r : SeqRec) : (s.setSeq k r).clk = s.clk := rfl
@[simp] theorem State.setSeq_out (s : State) (k : Nat) (r : SeqRec) : (s.setSeq k r).out = s.out := rfl
@[simp] theorem State.setSeq_nextKey (s : State) (k : Nat) (r : SeqRec) : (s.setSeq k r).nextKey = s.nextKey := rfl
@[simp] theorem State.setSeq_agenda (s : State) (k : Nat) (r : SeqRec) : (s.setSeq k r).agenda = s.agenda := rfl
@[simp] theorem State.setSeq_port (s : State) (k : Nat) (r : SeqRec) : (s.setSeq k r).port = s.port := rfl
@[simp] theorem State.setSeq_portHold (s : State) (k : Nat) (r : SeqRec) : (s.setSeq k r).portHold = s.portHold := rfl
@[simp] theorem State.setSeq_round (s : State) (k : Nat) (r : SeqRec) : (s.setSeq k r).round = s.round := rfl
@[simp] theorem State.setSeq_holdStores (s : State) (k : Nat) (r : SeqRec) : (s.setSeq k r).holdStores = s.holdStores := rfl
@[simp] theorem State.setSeq_holdLoads (s : State) (k : Nat) (r : SeqRec) : (s.setSeq k r).holdLoads = s.holdLoads := rfl
@[simp] theorem State.setSeq_specWaits (s : State) (k : Nat) (r : SeqRec) : (s.setSeq k r).specWaits = s.specWaits := rfl
@[simp] theorem State.setSeq_free (s : State) (k : Nat) (r : SeqRec) : (s.setSeq k r).free = s.free := rfl

/-! ### setGrant -/

@[simp] theorem State.setGrant_grants (s : State) (q : Nat) (g : Grant) : (s.setGrant q g).grants = tput s.grants q g := rfl
@[simp] theorem State.setGrant_cur (s : State) (q : Nat) (g : Grant) : (s.setGrant q g).cur = s.cur := rfl
@[simp] theorem State.setGrant_gangs (s : State) (q : Nat) (g : Grant) : (s.setGrant q g).gangs = s.gangs := rfl
@[simp] theorem State.setGrant_wgs (s : State) (q : Nat) (g : Grant) : (s.setGrant q g).wgs = s.wgs := rfl
@[simp] theorem State.setGrant_grids (s : State) (q : Nat) (g : Grant) : (s.setGrant q g).grids = s.grids := rfl
@[simp] theorem State.setGrant_leaves (s : State) (q : Nat) (g : Grant) : (s.setGrant q g).leaves = s.leaves := rfl
@[simp] theorem State.setGrant_cores (s : State) (q : Nat) (g : Grant) : (s.setGrant q g).cores = s.cores := rfl
@[simp] theorem State.setGrant_mem (s : State) (q : Nat) (g : Grant) : (s.setGrant q g).mem = s.mem := rfl
@[simp] theorem State.setGrant_hostMem (s : State) (q : Nat) (g : Grant) : (s.setGrant q g).hostMem = s.hostMem := rfl
@[simp] theorem State.setGrant_peerMem (s : State) (q : Nat) (g : Grant) : (s.setGrant q g).peerMem = s.peerMem := rfl
@[simp] theorem State.setGrant_lines (s : State) (q : Nat) (g : Grant) : (s.setGrant q g).lines = s.lines := rfl
@[simp] theorem State.setGrant_old (s : State) (q : Nat) (g : Grant) : (s.setGrant q g).old = s.old := rfl
@[simp] theorem State.setGrant_pages (s : State) (q : Nat) (g : Grant) : (s.setGrant q g).pages = s.pages := rfl
@[simp] theorem State.setGrant_atc (s : State) (q : Nat) (g : Grant) : (s.setGrant q g).atc = s.atc := rfl
@[simp] theorem State.setGrant_seqs (s : State) (q : Nat) (g : Grant) : (s.setGrant q g).seqs = s.seqs := rfl
@[simp] theorem State.setGrant_nodes (s : State) (q : Nat) (g : Grant) : (s.setGrant q g).nodes = s.nodes := rfl
@[simp] theorem State.setGrant_flash (s : State) (q : Nat) (g : Grant) : (s.setGrant q g).flash = s.flash := rfl
@[simp] theorem State.setGrant_flashRoom (s : State) (q : Nat) (g : Grant) : (s.setGrant q g).flashRoom = s.flashRoom := rfl
@[simp] theorem State.setGrant_parts (s : State) (q : Nat) (g : Grant) : (s.setGrant q g).parts = s.parts := rfl
@[simp] theorem State.setGrant_devnum (s : State) (q : Nat) (g : Grant) : (s.setGrant q g).devnum = s.devnum := rfl
@[simp] theorem State.setGrant_featOff (s : State) (q : Nat) (g : Grant) : (s.setGrant q g).featOff = s.featOff := rfl
@[simp] theorem State.setGrant_featAcc (s : State) (q : Nat) (g : Grant) : (s.setGrant q g).featAcc = s.featAcc := rfl
@[simp] theorem State.setGrant_feat (s : State) (q : Nat) (g : Grant) : (s.setGrant q g).feat = s.feat := rfl
@[simp] theorem State.setGrant_started (s : State) (q : Nat) (g : Grant) : (s.setGrant q g).started = s.started := rfl
@[simp] theorem State.setGrant_boot (s : State) (q : Nat) (g : Grant) : (s.setGrant q g).boot = s.boot := rfl
@[simp] theorem State.setGrant_rollback (s : State) (q : Nat) (g : Grant) : (s.setGrant q g).rollback = s.rollback := rfl
@[simp] theorem State.setGrant_mbCmd (s : State) (q : Nat) (g : Grant) : (s.setGrant q g).mbCmd = s.mbCmd := rfl
@[simp] theorem State.setGrant_mbGo (s : State) (q : Nat) (g : Grant) : (s.setGrant q g).mbGo = s.mbGo := rfl
@[simp] theorem State.setGrant_mbDone (s : State) (q : Nat) (g : Grant) : (s.setGrant q g).mbDone = s.mbDone := rfl
@[simp] theorem State.setGrant_mbStat (s : State) (q : Nat) (g : Grant) : (s.setGrant q g).mbStat = s.mbStat := rfl
@[simp] theorem State.setGrant_mbVec (s : State) (q : Nat) (g : Grant) : (s.setGrant q g).mbVec = s.mbVec := rfl
@[simp] theorem State.setGrant_mbIn (s : State) (q : Nat) (g : Grant) : (s.setGrant q g).mbIn = s.mbIn := rfl
@[simp] theorem State.setGrant_mbOut (s : State) (q : Nat) (g : Grant) : (s.setGrant q g).mbOut = s.mbOut := rfl
@[simp] theorem State.setGrant_pwrcap (s : State) (q : Nat) (g : Grant) : (s.setGrant q g).pwrcap = s.pwrcap := rfl
@[simp] theorem State.setGrant_pfMsix (s : State) (q : Nat) (g : Grant) : (s.setGrant q g).pfMsix = s.pfMsix := rfl
@[simp] theorem State.setGrant_clockMhz (s : State) (q : Nat) (g : Grant) : (s.setGrant q g).clockMhz = s.clockMhz := rfl
@[simp] theorem State.setGrant_thermal (s : State) (q : Nat) (g : Grant) : (s.setGrant q g).thermal = s.thermal := rfl
@[simp] theorem State.setGrant_links (s : State) (q : Nat) (g : Grant) : (s.setGrant q g).links = s.links := rfl
@[simp] theorem State.setGrant_spares (s : State) (q : Nat) (g : Grant) : (s.setGrant q g).spares = s.spares := rfl
@[simp] theorem State.setGrant_clk (s : State) (q : Nat) (g : Grant) : (s.setGrant q g).clk = s.clk := rfl
@[simp] theorem State.setGrant_out (s : State) (q : Nat) (g : Grant) : (s.setGrant q g).out = s.out := rfl
@[simp] theorem State.setGrant_nextKey (s : State) (q : Nat) (g : Grant) : (s.setGrant q g).nextKey = s.nextKey := rfl
@[simp] theorem State.setGrant_agenda (s : State) (q : Nat) (g : Grant) : (s.setGrant q g).agenda = s.agenda := rfl
@[simp] theorem State.setGrant_port (s : State) (q : Nat) (g : Grant) : (s.setGrant q g).port = s.port := rfl
@[simp] theorem State.setGrant_portHold (s : State) (q : Nat) (g : Grant) : (s.setGrant q g).portHold = s.portHold := rfl
@[simp] theorem State.setGrant_round (s : State) (q : Nat) (g : Grant) : (s.setGrant q g).round = s.round := rfl
@[simp] theorem State.setGrant_holdStores (s : State) (q : Nat) (g : Grant) : (s.setGrant q g).holdStores = s.holdStores := rfl
@[simp] theorem State.setGrant_holdLoads (s : State) (q : Nat) (g : Grant) : (s.setGrant q g).holdLoads = s.holdLoads := rfl
@[simp] theorem State.setGrant_specWaits (s : State) (q : Nat) (g : Grant) : (s.setGrant q g).specWaits = s.specWaits := rfl
@[simp] theorem State.setGrant_free (s : State) (q : Nat) (g : Grant) : (s.setGrant q g).free = s.free := rfl

/-! ### setNode -/

@[simp] theorem State.setNode_nodes (s : State) (i : Nat) (n : Node) : (s.setNode i n).nodes = tput s.nodes i n := rfl
@[simp] theorem State.setNode_cur (s : State) (i : Nat) (n : Node) : (s.setNode i n).cur = s.cur := rfl
@[simp] theorem State.setNode_gangs (s : State) (i : Nat) (n : Node) : (s.setNode i n).gangs = s.gangs := rfl
@[simp] theorem State.setNode_wgs (s : State) (i : Nat) (n : Node) : (s.setNode i n).wgs = s.wgs := rfl
@[simp] theorem State.setNode_grids (s : State) (i : Nat) (n : Node) : (s.setNode i n).grids = s.grids := rfl
@[simp] theorem State.setNode_leaves (s : State) (i : Nat) (n : Node) : (s.setNode i n).leaves = s.leaves := rfl
@[simp] theorem State.setNode_cores (s : State) (i : Nat) (n : Node) : (s.setNode i n).cores = s.cores := rfl
@[simp] theorem State.setNode_mem (s : State) (i : Nat) (n : Node) : (s.setNode i n).mem = s.mem := rfl
@[simp] theorem State.setNode_hostMem (s : State) (i : Nat) (n : Node) : (s.setNode i n).hostMem = s.hostMem := rfl
@[simp] theorem State.setNode_peerMem (s : State) (i : Nat) (n : Node) : (s.setNode i n).peerMem = s.peerMem := rfl
@[simp] theorem State.setNode_lines (s : State) (i : Nat) (n : Node) : (s.setNode i n).lines = s.lines := rfl
@[simp] theorem State.setNode_old (s : State) (i : Nat) (n : Node) : (s.setNode i n).old = s.old := rfl
@[simp] theorem State.setNode_pages (s : State) (i : Nat) (n : Node) : (s.setNode i n).pages = s.pages := rfl
@[simp] theorem State.setNode_atc (s : State) (i : Nat) (n : Node) : (s.setNode i n).atc = s.atc := rfl
@[simp] theorem State.setNode_seqs (s : State) (i : Nat) (n : Node) : (s.setNode i n).seqs = s.seqs := rfl
@[simp] theorem State.setNode_grants (s : State) (i : Nat) (n : Node) : (s.setNode i n).grants = s.grants := rfl
@[simp] theorem State.setNode_flash (s : State) (i : Nat) (n : Node) : (s.setNode i n).flash = s.flash := rfl
@[simp] theorem State.setNode_flashRoom (s : State) (i : Nat) (n : Node) : (s.setNode i n).flashRoom = s.flashRoom := rfl
@[simp] theorem State.setNode_parts (s : State) (i : Nat) (n : Node) : (s.setNode i n).parts = s.parts := rfl
@[simp] theorem State.setNode_devnum (s : State) (i : Nat) (n : Node) : (s.setNode i n).devnum = s.devnum := rfl
@[simp] theorem State.setNode_featOff (s : State) (i : Nat) (n : Node) : (s.setNode i n).featOff = s.featOff := rfl
@[simp] theorem State.setNode_featAcc (s : State) (i : Nat) (n : Node) : (s.setNode i n).featAcc = s.featAcc := rfl
@[simp] theorem State.setNode_feat (s : State) (i : Nat) (n : Node) : (s.setNode i n).feat = s.feat := rfl
@[simp] theorem State.setNode_started (s : State) (i : Nat) (n : Node) : (s.setNode i n).started = s.started := rfl
@[simp] theorem State.setNode_boot (s : State) (i : Nat) (n : Node) : (s.setNode i n).boot = s.boot := rfl
@[simp] theorem State.setNode_rollback (s : State) (i : Nat) (n : Node) : (s.setNode i n).rollback = s.rollback := rfl
@[simp] theorem State.setNode_mbCmd (s : State) (i : Nat) (n : Node) : (s.setNode i n).mbCmd = s.mbCmd := rfl
@[simp] theorem State.setNode_mbGo (s : State) (i : Nat) (n : Node) : (s.setNode i n).mbGo = s.mbGo := rfl
@[simp] theorem State.setNode_mbDone (s : State) (i : Nat) (n : Node) : (s.setNode i n).mbDone = s.mbDone := rfl
@[simp] theorem State.setNode_mbStat (s : State) (i : Nat) (n : Node) : (s.setNode i n).mbStat = s.mbStat := rfl
@[simp] theorem State.setNode_mbVec (s : State) (i : Nat) (n : Node) : (s.setNode i n).mbVec = s.mbVec := rfl
@[simp] theorem State.setNode_mbIn (s : State) (i : Nat) (n : Node) : (s.setNode i n).mbIn = s.mbIn := rfl
@[simp] theorem State.setNode_mbOut (s : State) (i : Nat) (n : Node) : (s.setNode i n).mbOut = s.mbOut := rfl
@[simp] theorem State.setNode_pwrcap (s : State) (i : Nat) (n : Node) : (s.setNode i n).pwrcap = s.pwrcap := rfl
@[simp] theorem State.setNode_pfMsix (s : State) (i : Nat) (n : Node) : (s.setNode i n).pfMsix = s.pfMsix := rfl
@[simp] theorem State.setNode_clockMhz (s : State) (i : Nat) (n : Node) : (s.setNode i n).clockMhz = s.clockMhz := rfl
@[simp] theorem State.setNode_thermal (s : State) (i : Nat) (n : Node) : (s.setNode i n).thermal = s.thermal := rfl
@[simp] theorem State.setNode_links (s : State) (i : Nat) (n : Node) : (s.setNode i n).links = s.links := rfl
@[simp] theorem State.setNode_spares (s : State) (i : Nat) (n : Node) : (s.setNode i n).spares = s.spares := rfl
@[simp] theorem State.setNode_clk (s : State) (i : Nat) (n : Node) : (s.setNode i n).clk = s.clk := rfl
@[simp] theorem State.setNode_out (s : State) (i : Nat) (n : Node) : (s.setNode i n).out = s.out := rfl
@[simp] theorem State.setNode_nextKey (s : State) (i : Nat) (n : Node) : (s.setNode i n).nextKey = s.nextKey := rfl
@[simp] theorem State.setNode_agenda (s : State) (i : Nat) (n : Node) : (s.setNode i n).agenda = s.agenda := rfl
@[simp] theorem State.setNode_port (s : State) (i : Nat) (n : Node) : (s.setNode i n).port = s.port := rfl
@[simp] theorem State.setNode_portHold (s : State) (i : Nat) (n : Node) : (s.setNode i n).portHold = s.portHold := rfl
@[simp] theorem State.setNode_round (s : State) (i : Nat) (n : Node) : (s.setNode i n).round = s.round := rfl
@[simp] theorem State.setNode_holdStores (s : State) (i : Nat) (n : Node) : (s.setNode i n).holdStores = s.holdStores := rfl
@[simp] theorem State.setNode_holdLoads (s : State) (i : Nat) (n : Node) : (s.setNode i n).holdLoads = s.holdLoads := rfl
@[simp] theorem State.setNode_specWaits (s : State) (i : Nat) (n : Node) : (s.setNode i n).specWaits = s.specWaits := rfl
@[simp] theorem State.setNode_free (s : State) (i : Nat) (n : Node) : (s.setNode i n).free = s.free := rfl

/-! ### setPage -/

@[simp] theorem State.setPage_pages (s : State) (k : Nat) (p : Page) : (s.setPage k p).pages = tput s.pages k p := rfl
@[simp] theorem State.setPage_cur (s : State) (k : Nat) (p : Page) : (s.setPage k p).cur = s.cur := rfl
@[simp] theorem State.setPage_gangs (s : State) (k : Nat) (p : Page) : (s.setPage k p).gangs = s.gangs := rfl
@[simp] theorem State.setPage_wgs (s : State) (k : Nat) (p : Page) : (s.setPage k p).wgs = s.wgs := rfl
@[simp] theorem State.setPage_grids (s : State) (k : Nat) (p : Page) : (s.setPage k p).grids = s.grids := rfl
@[simp] theorem State.setPage_leaves (s : State) (k : Nat) (p : Page) : (s.setPage k p).leaves = s.leaves := rfl
@[simp] theorem State.setPage_cores (s : State) (k : Nat) (p : Page) : (s.setPage k p).cores = s.cores := rfl
@[simp] theorem State.setPage_mem (s : State) (k : Nat) (p : Page) : (s.setPage k p).mem = s.mem := rfl
@[simp] theorem State.setPage_hostMem (s : State) (k : Nat) (p : Page) : (s.setPage k p).hostMem = s.hostMem := rfl
@[simp] theorem State.setPage_peerMem (s : State) (k : Nat) (p : Page) : (s.setPage k p).peerMem = s.peerMem := rfl
@[simp] theorem State.setPage_lines (s : State) (k : Nat) (p : Page) : (s.setPage k p).lines = s.lines := rfl
@[simp] theorem State.setPage_old (s : State) (k : Nat) (p : Page) : (s.setPage k p).old = s.old := rfl
@[simp] theorem State.setPage_atc (s : State) (k : Nat) (p : Page) : (s.setPage k p).atc = s.atc := rfl
@[simp] theorem State.setPage_seqs (s : State) (k : Nat) (p : Page) : (s.setPage k p).seqs = s.seqs := rfl
@[simp] theorem State.setPage_grants (s : State) (k : Nat) (p : Page) : (s.setPage k p).grants = s.grants := rfl
@[simp] theorem State.setPage_nodes (s : State) (k : Nat) (p : Page) : (s.setPage k p).nodes = s.nodes := rfl
@[simp] theorem State.setPage_flash (s : State) (k : Nat) (p : Page) : (s.setPage k p).flash = s.flash := rfl
@[simp] theorem State.setPage_flashRoom (s : State) (k : Nat) (p : Page) : (s.setPage k p).flashRoom = s.flashRoom := rfl
@[simp] theorem State.setPage_parts (s : State) (k : Nat) (p : Page) : (s.setPage k p).parts = s.parts := rfl
@[simp] theorem State.setPage_devnum (s : State) (k : Nat) (p : Page) : (s.setPage k p).devnum = s.devnum := rfl
@[simp] theorem State.setPage_featOff (s : State) (k : Nat) (p : Page) : (s.setPage k p).featOff = s.featOff := rfl
@[simp] theorem State.setPage_featAcc (s : State) (k : Nat) (p : Page) : (s.setPage k p).featAcc = s.featAcc := rfl
@[simp] theorem State.setPage_feat (s : State) (k : Nat) (p : Page) : (s.setPage k p).feat = s.feat := rfl
@[simp] theorem State.setPage_started (s : State) (k : Nat) (p : Page) : (s.setPage k p).started = s.started := rfl
@[simp] theorem State.setPage_boot (s : State) (k : Nat) (p : Page) : (s.setPage k p).boot = s.boot := rfl
@[simp] theorem State.setPage_rollback (s : State) (k : Nat) (p : Page) : (s.setPage k p).rollback = s.rollback := rfl
@[simp] theorem State.setPage_mbCmd (s : State) (k : Nat) (p : Page) : (s.setPage k p).mbCmd = s.mbCmd := rfl
@[simp] theorem State.setPage_mbGo (s : State) (k : Nat) (p : Page) : (s.setPage k p).mbGo = s.mbGo := rfl
@[simp] theorem State.setPage_mbDone (s : State) (k : Nat) (p : Page) : (s.setPage k p).mbDone = s.mbDone := rfl
@[simp] theorem State.setPage_mbStat (s : State) (k : Nat) (p : Page) : (s.setPage k p).mbStat = s.mbStat := rfl
@[simp] theorem State.setPage_mbVec (s : State) (k : Nat) (p : Page) : (s.setPage k p).mbVec = s.mbVec := rfl
@[simp] theorem State.setPage_mbIn (s : State) (k : Nat) (p : Page) : (s.setPage k p).mbIn = s.mbIn := rfl
@[simp] theorem State.setPage_mbOut (s : State) (k : Nat) (p : Page) : (s.setPage k p).mbOut = s.mbOut := rfl
@[simp] theorem State.setPage_pwrcap (s : State) (k : Nat) (p : Page) : (s.setPage k p).pwrcap = s.pwrcap := rfl
@[simp] theorem State.setPage_pfMsix (s : State) (k : Nat) (p : Page) : (s.setPage k p).pfMsix = s.pfMsix := rfl
@[simp] theorem State.setPage_clockMhz (s : State) (k : Nat) (p : Page) : (s.setPage k p).clockMhz = s.clockMhz := rfl
@[simp] theorem State.setPage_thermal (s : State) (k : Nat) (p : Page) : (s.setPage k p).thermal = s.thermal := rfl
@[simp] theorem State.setPage_links (s : State) (k : Nat) (p : Page) : (s.setPage k p).links = s.links := rfl
@[simp] theorem State.setPage_spares (s : State) (k : Nat) (p : Page) : (s.setPage k p).spares = s.spares := rfl
@[simp] theorem State.setPage_clk (s : State) (k : Nat) (p : Page) : (s.setPage k p).clk = s.clk := rfl
@[simp] theorem State.setPage_out (s : State) (k : Nat) (p : Page) : (s.setPage k p).out = s.out := rfl
@[simp] theorem State.setPage_nextKey (s : State) (k : Nat) (p : Page) : (s.setPage k p).nextKey = s.nextKey := rfl
@[simp] theorem State.setPage_agenda (s : State) (k : Nat) (p : Page) : (s.setPage k p).agenda = s.agenda := rfl
@[simp] theorem State.setPage_port (s : State) (k : Nat) (p : Page) : (s.setPage k p).port = s.port := rfl
@[simp] theorem State.setPage_portHold (s : State) (k : Nat) (p : Page) : (s.setPage k p).portHold = s.portHold := rfl
@[simp] theorem State.setPage_round (s : State) (k : Nat) (p : Page) : (s.setPage k p).round = s.round := rfl
@[simp] theorem State.setPage_holdStores (s : State) (k : Nat) (p : Page) : (s.setPage k p).holdStores = s.holdStores := rfl
@[simp] theorem State.setPage_holdLoads (s : State) (k : Nat) (p : Page) : (s.setPage k p).holdLoads = s.holdLoads := rfl
@[simp] theorem State.setPage_specWaits (s : State) (k : Nat) (p : Page) : (s.setPage k p).specWaits = s.specWaits := rfl
@[simp] theorem State.setPage_free (s : State) (k : Nat) (p : Page) : (s.setPage k p).free = s.free := rfl

/-! ### turnTo -/

@[simp] theorem State.turnTo_cur (s : State) (k : Nat) : (s.turnTo k).cur = k := rfl
@[simp] theorem State.turnTo_gangs (s : State) (k : Nat) : (s.turnTo k).gangs = s.gangs := rfl
@[simp] theorem State.turnTo_wgs (s : State) (k : Nat) : (s.turnTo k).wgs = s.wgs := rfl
@[simp] theorem State.turnTo_grids (s : State) (k : Nat) : (s.turnTo k).grids = s.grids := rfl
@[simp] theorem State.turnTo_leaves (s : State) (k : Nat) : (s.turnTo k).leaves = s.leaves := rfl
@[simp] theorem State.turnTo_cores (s : State) (k : Nat) : (s.turnTo k).cores = s.cores := rfl
@[simp] theorem State.turnTo_mem (s : State) (k : Nat) : (s.turnTo k).mem = s.mem := rfl
@[simp] theorem State.turnTo_hostMem (s : State) (k : Nat) : (s.turnTo k).hostMem = s.hostMem := rfl
@[simp] theorem State.turnTo_peerMem (s : State) (k : Nat) : (s.turnTo k).peerMem = s.peerMem := rfl
@[simp] theorem State.turnTo_lines (s : State) (k : Nat) : (s.turnTo k).lines = s.lines := rfl
@[simp] theorem State.turnTo_old (s : State) (k : Nat) : (s.turnTo k).old = s.old := rfl
@[simp] theorem State.turnTo_pages (s : State) (k : Nat) : (s.turnTo k).pages = s.pages := rfl
@[simp] theorem State.turnTo_atc (s : State) (k : Nat) : (s.turnTo k).atc = s.atc := rfl
@[simp] theorem State.turnTo_seqs (s : State) (k : Nat) : (s.turnTo k).seqs = s.seqs := rfl
@[simp] theorem State.turnTo_grants (s : State) (k : Nat) : (s.turnTo k).grants = s.grants := rfl
@[simp] theorem State.turnTo_nodes (s : State) (k : Nat) : (s.turnTo k).nodes = s.nodes := rfl
@[simp] theorem State.turnTo_flash (s : State) (k : Nat) : (s.turnTo k).flash = s.flash := rfl
@[simp] theorem State.turnTo_flashRoom (s : State) (k : Nat) : (s.turnTo k).flashRoom = s.flashRoom := rfl
@[simp] theorem State.turnTo_parts (s : State) (k : Nat) : (s.turnTo k).parts = s.parts := rfl
@[simp] theorem State.turnTo_devnum (s : State) (k : Nat) : (s.turnTo k).devnum = s.devnum := rfl
@[simp] theorem State.turnTo_featOff (s : State) (k : Nat) : (s.turnTo k).featOff = s.featOff := rfl
@[simp] theorem State.turnTo_featAcc (s : State) (k : Nat) : (s.turnTo k).featAcc = s.featAcc := rfl
@[simp] theorem State.turnTo_feat (s : State) (k : Nat) : (s.turnTo k).feat = s.feat := rfl
@[simp] theorem State.turnTo_started (s : State) (k : Nat) : (s.turnTo k).started = s.started := rfl
@[simp] theorem State.turnTo_boot (s : State) (k : Nat) : (s.turnTo k).boot = s.boot := rfl
@[simp] theorem State.turnTo_rollback (s : State) (k : Nat) : (s.turnTo k).rollback = s.rollback := rfl
@[simp] theorem State.turnTo_mbCmd (s : State) (k : Nat) : (s.turnTo k).mbCmd = s.mbCmd := rfl
@[simp] theorem State.turnTo_mbGo (s : State) (k : Nat) : (s.turnTo k).mbGo = s.mbGo := rfl
@[simp] theorem State.turnTo_mbDone (s : State) (k : Nat) : (s.turnTo k).mbDone = s.mbDone := rfl
@[simp] theorem State.turnTo_mbStat (s : State) (k : Nat) : (s.turnTo k).mbStat = s.mbStat := rfl
@[simp] theorem State.turnTo_mbVec (s : State) (k : Nat) : (s.turnTo k).mbVec = s.mbVec := rfl
@[simp] theorem State.turnTo_mbIn (s : State) (k : Nat) : (s.turnTo k).mbIn = s.mbIn := rfl
@[simp] theorem State.turnTo_mbOut (s : State) (k : Nat) : (s.turnTo k).mbOut = s.mbOut := rfl
@[simp] theorem State.turnTo_pwrcap (s : State) (k : Nat) : (s.turnTo k).pwrcap = s.pwrcap := rfl
@[simp] theorem State.turnTo_pfMsix (s : State) (k : Nat) : (s.turnTo k).pfMsix = s.pfMsix := rfl
@[simp] theorem State.turnTo_clockMhz (s : State) (k : Nat) : (s.turnTo k).clockMhz = s.clockMhz := rfl
@[simp] theorem State.turnTo_thermal (s : State) (k : Nat) : (s.turnTo k).thermal = s.thermal := rfl
@[simp] theorem State.turnTo_links (s : State) (k : Nat) : (s.turnTo k).links = s.links := rfl
@[simp] theorem State.turnTo_spares (s : State) (k : Nat) : (s.turnTo k).spares = s.spares := rfl
@[simp] theorem State.turnTo_clk (s : State) (k : Nat) : (s.turnTo k).clk = s.clk := rfl
@[simp] theorem State.turnTo_out (s : State) (k : Nat) : (s.turnTo k).out = s.out := rfl
@[simp] theorem State.turnTo_nextKey (s : State) (k : Nat) : (s.turnTo k).nextKey = s.nextKey := rfl
@[simp] theorem State.turnTo_agenda (s : State) (k : Nat) : (s.turnTo k).agenda = s.agenda := rfl
@[simp] theorem State.turnTo_port (s : State) (k : Nat) : (s.turnTo k).port = s.port := rfl
@[simp] theorem State.turnTo_portHold (s : State) (k : Nat) : (s.turnTo k).portHold = s.portHold := rfl
@[simp] theorem State.turnTo_round (s : State) (k : Nat) : (s.turnTo k).round = s.round := rfl
@[simp] theorem State.turnTo_holdStores (s : State) (k : Nat) : (s.turnTo k).holdStores = s.holdStores := rfl
@[simp] theorem State.turnTo_holdLoads (s : State) (k : Nat) : (s.turnTo k).holdLoads = s.holdLoads := rfl
@[simp] theorem State.turnTo_specWaits (s : State) (k : Nat) : (s.turnTo k).specWaits = s.specWaits := rfl
@[simp] theorem State.turnTo_free (s : State) (k : Nat) : (s.turnTo k).free = s.free := rfl

/-! ### Tables -/

theorem tget_tput {α : Type} (d : α) (t : Tab α) (k j : Nat) (x : α) :
    tget d (tput t k x) j = if j = k then x else tget d t j := by
  induction t with
  | nil => simp only [tput, tget, eq_comm]
  | cons p r ih =>
    obtain ⟨i, y⟩ := p
    rw [tput]
    by_cases h1 : i = k
    · rw [if_pos h1, tget, tget, h1]
      by_cases h2 : k = j
      · rw [if_pos h2, if_pos h2.symm]
      · rw [if_neg h2, if_neg (Ne.symm h2), if_neg h2]
    · rw [if_neg h1]
      by_cases h2 : k < i
      · rw [if_pos h2, tget]
        by_cases h3 : k = j
        · rw [if_pos h3, if_pos h3.symm]
        · rw [if_neg h3, if_neg (Ne.symm h3)]
      · rw [if_neg h2, tget, tget, ih]
        by_cases h3 : i = j
        · rw [if_pos h3, if_pos h3, if_neg (fun e => h1 (h3.trans e))]
        · rw [if_neg h3, if_neg h3]

theorem insertBy_perm {α : Type} (le : α → α → Bool) (x : α) (l : List α) : (insertBy le x l).Perm (x :: l) := by
  induction l with
  | nil => exact .refl _
  | cons y r ih =>
    rw [insertBy]
    split
    · exact .refl _
    · exact (ih.cons y).trans (.swap x y r)

/-- Sorting only moves elements. -/
theorem sortBy_perm {α : Type} (le : α → α → Bool) (l : List α) : (sortBy le l).Perm l := by
  induction l with
  | nil => exact .refl _
  | cons x r ih => exact (insertBy_perm le x _).trans (ih.cons x)

@[simp] theorem mem_sortBy {α : Type} (le : α → α → Bool) (l : List α) (x : α) : x ∈ sortBy le l ↔ x ∈ l :=
  (sortBy_perm le l).mem_iff

@[simp] theorem tget_tput_self {α : Type} (d : α) (t : Tab α) (k : Nat) (x : α) : tget d (tput t k x) k = x := by
  simp [tget_tput]

theorem tget_tput_ne {α : Type} (d : α) (t : Tab α) {k j : Nat} (x : α) (h : j ≠ k) :
    tget d (tput t k x) j = tget d t j := by simp [tget_tput, h]

/-! ### Parts read after parts written -/

theorem State.gangAt_setGangAt (s : State) (k j : Nat) (x : Gang) : (s.setGangAt k x).gangAt j = if j = k then x else s.gangAt j := tget_tput _ _ _ _ _
@[simp] theorem State.gangAt_setGangAt_self (s : State) (k : Nat) (x : Gang) : (s.setGangAt k x).gangAt k = x := tget_tput_self _ _ _ _
@[simp] theorem State.gangAt_setWgAt (s : State) (k j : Nat) (x : Wg) : (s.setWgAt k x).gangAt j = s.gangAt j := rfl
@[simp] theorem State.gangAt_setGridAt (s : State) (k j : Nat) (x : Grid) : (s.setGridAt k x).gangAt j = s.gangAt j := rfl
@[simp] theorem State.gangAt_setLeafAt (s : State) (k j : Nat) (x : Leaf) : (s.setLeafAt k x).gangAt j = s.gangAt j := rfl
@[simp] theorem State.gangAt_setCoreAt (s : State) (k j : Nat) (x : CoreSt) : (s.setCoreAt k x).gangAt j = s.gangAt j := rfl
@[simp] theorem State.gangAt_tick (s : State) (n j : Nat) : (s.tick n).gangAt j = s.gangAt j := rfl
theorem State.wgAt_setWgAt (s : State) (k j : Nat) (x : Wg) : (s.setWgAt k x).wgAt j = if j = k then x else s.wgAt j := tget_tput _ _ _ _ _
@[simp] theorem State.wgAt_setWgAt_self (s : State) (k : Nat) (x : Wg) : (s.setWgAt k x).wgAt k = x := tget_tput_self _ _ _ _
@[simp] theorem State.wgAt_setGangAt (s : State) (k j : Nat) (x : Gang) : (s.setGangAt k x).wgAt j = s.wgAt j := rfl
@[simp] theorem State.wgAt_setGridAt (s : State) (k j : Nat) (x : Grid) : (s.setGridAt k x).wgAt j = s.wgAt j := rfl
@[simp] theorem State.wgAt_setLeafAt (s : State) (k j : Nat) (x : Leaf) : (s.setLeafAt k x).wgAt j = s.wgAt j := rfl
@[simp] theorem State.wgAt_setCoreAt (s : State) (k j : Nat) (x : CoreSt) : (s.setCoreAt k x).wgAt j = s.wgAt j := rfl
@[simp] theorem State.wgAt_tick (s : State) (n j : Nat) : (s.tick n).wgAt j = s.wgAt j := rfl
@[simp] theorem State.wgAt_setGang (s : State) (g : Gang) (j : Nat) : (s.setGang g).wgAt j = s.wgAt j := rfl
@[simp] theorem State.wgAt_setR (s : State) (r : Regs) (j : Nat) : (s.setR r).wgAt j = s.wgAt j := rfl
theorem State.gridAt_setGridAt (s : State) (k j : Nat) (x : Grid) : (s.setGridAt k x).gridAt j = if j = k then x else s.gridAt j := tget_tput _ _ _ _ _
@[simp] theorem State.gridAt_setGridAt_self (s : State) (k : Nat) (x : Grid) : (s.setGridAt k x).gridAt k = x := tget_tput_self _ _ _ _
@[simp] theorem State.gridAt_setGangAt (s : State) (k j : Nat) (x : Gang) : (s.setGangAt k x).gridAt j = s.gridAt j := rfl
@[simp] theorem State.gridAt_setWgAt (s : State) (k j : Nat) (x : Wg) : (s.setWgAt k x).gridAt j = s.gridAt j := rfl
@[simp] theorem State.gridAt_setLeafAt (s : State) (k j : Nat) (x : Leaf) : (s.setLeafAt k x).gridAt j = s.gridAt j := rfl
@[simp] theorem State.gridAt_setCoreAt (s : State) (k j : Nat) (x : CoreSt) : (s.setCoreAt k x).gridAt j = s.gridAt j := rfl
@[simp] theorem State.gridAt_tick (s : State) (n j : Nat) : (s.tick n).gridAt j = s.gridAt j := rfl
@[simp] theorem State.gridAt_setGang (s : State) (g : Gang) (j : Nat) : (s.setGang g).gridAt j = s.gridAt j := rfl
@[simp] theorem State.gridAt_setR (s : State) (r : Regs) (j : Nat) : (s.setR r).gridAt j = s.gridAt j := rfl
theorem State.leafAt_setLeafAt (s : State) (k j : Nat) (x : Leaf) : (s.setLeafAt k x).leafAt j = if j = k then x else s.leafAt j := tget_tput _ _ _ _ _
@[simp] theorem State.leafAt_setLeafAt_self (s : State) (k : Nat) (x : Leaf) : (s.setLeafAt k x).leafAt k = x := tget_tput_self _ _ _ _
@[simp] theorem State.leafAt_setGangAt (s : State) (k j : Nat) (x : Gang) : (s.setGangAt k x).leafAt j = s.leafAt j := rfl
@[simp] theorem State.leafAt_setWgAt (s : State) (k j : Nat) (x : Wg) : (s.setWgAt k x).leafAt j = s.leafAt j := rfl
@[simp] theorem State.leafAt_setGridAt (s : State) (k j : Nat) (x : Grid) : (s.setGridAt k x).leafAt j = s.leafAt j := rfl
@[simp] theorem State.leafAt_setCoreAt (s : State) (k j : Nat) (x : CoreSt) : (s.setCoreAt k x).leafAt j = s.leafAt j := rfl
@[simp] theorem State.leafAt_tick (s : State) (n j : Nat) : (s.tick n).leafAt j = s.leafAt j := rfl
@[simp] theorem State.leafAt_setGang (s : State) (g : Gang) (j : Nat) : (s.setGang g).leafAt j = s.leafAt j := rfl
@[simp] theorem State.leafAt_setR (s : State) (r : Regs) (j : Nat) : (s.setR r).leafAt j = s.leafAt j := rfl
theorem State.coreAt_setCoreAt (s : State) (k j : Nat) (x : CoreSt) : (s.setCoreAt k x).coreAt j = if j = k then x else s.coreAt j := tget_tput _ _ _ _ _
@[simp] theorem State.coreAt_setCoreAt_self (s : State) (k : Nat) (x : CoreSt) : (s.setCoreAt k x).coreAt k = x := tget_tput_self _ _ _ _
@[simp] theorem State.coreAt_setGangAt (s : State) (k j : Nat) (x : Gang) : (s.setGangAt k x).coreAt j = s.coreAt j := rfl
@[simp] theorem State.coreAt_setWgAt (s : State) (k j : Nat) (x : Wg) : (s.setWgAt k x).coreAt j = s.coreAt j := rfl
@[simp] theorem State.coreAt_setGridAt (s : State) (k j : Nat) (x : Grid) : (s.setGridAt k x).coreAt j = s.coreAt j := rfl
@[simp] theorem State.coreAt_setLeafAt (s : State) (k j : Nat) (x : Leaf) : (s.setLeafAt k x).coreAt j = s.coreAt j := rfl
@[simp] theorem State.coreAt_tick (s : State) (n j : Nat) : (s.tick n).coreAt j = s.coreAt j := rfl
@[simp] theorem State.coreAt_setGang (s : State) (g : Gang) (j : Nat) : (s.setGang g).coreAt j = s.coreAt j := rfl
@[simp] theorem State.coreAt_setR (s : State) (r : Regs) (j : Nat) : (s.setR r).coreAt j = s.coreAt j := rfl

@[simp] theorem State.gang_setGang (s : State) (g : Gang) : (s.setGang g).gang = g := tget_tput_self _ _ _ _
@[simp] theorem State.r_setGang (s : State) (g : Gang) : (s.setGang g).r = g.r := by rw [State.r, State.gang_setGang]
@[simp] theorem State.r_setR (s : State) (r : Regs) : (s.setR r).r = r := by rw [State.setR, State.r_setGang]
@[simp] theorem State.gang_setR (s : State) (r : Regs) : (s.setR r).gang = { s.gang with r := r } := by rw [State.setR, State.gang_setGang]
@[simp] theorem State.gang_tick (s : State) (n : Nat) : (s.tick n).gang = s.gang := rfl
@[simp] theorem State.r_tick (s : State) (n : Nat) : (s.tick n).r = s.r := rfl
theorem State.gangAt_setGang_ne (s : State) (g : Gang) {j : Nat} (h : j ≠ s.cur) : (s.setGang g).gangAt j = s.gangAt j :=
  tget_tput_ne _ _ _ h
theorem State.gangAt_setR_ne (s : State) (r : Regs) {j : Nat} (h : j ≠ s.cur) : (s.setR r).gangAt j = s.gangAt j :=
  tget_tput_ne _ _ _ h

/-! ### Vectors -/

@[simp] theorem tab_get {α : Type} {n : Nat} (f : Fin n → α) (i : Nat) (h : i < n) : (tab f)[i] = f ⟨i, h⟩ := by
  simp [tab, Vector.getElem_mk]

end Sys2Proof.Machine
end

