-- ==== Sys2Proof/Laws/Ops.lean ====
section
/-! SUPPORT. What the shared operations do, once each: masks and merging, retiring, delivering a lane result, taking
an exception. -/

namespace Sys2Proof.Machine

set_option Elab.async false

/-! ### Masks -/

theorem sumBits_lt (q : Nat → Bool) (n : Nat) : ((List.range n).map (fun i => if q i then 2 ^ i else 0)).sum < 2 ^ n := by
  induction n with
  | zero => simp
  | succ n ih =>
    rw [List.range_succ, List.map_append, List.sum_append, Nat.pow_succ]
    simp only [List.map_cons, List.map_nil, List.sum_cons, List.sum_nil]
    split <;> omega

theorem sumBits_bit (q : Nat → Bool) (n k : Nat) (h : k < n) :
    ((List.range n).map (fun i => if q i then 2 ^ i else 0)).sum / 2 ^ k % 2 = if q k then 1 else 0 := by
  induction n with
  | zero => omega
  | succ n ih =>
    rw [List.range_succ, List.map_append, List.sum_append]
    simp only [List.map_cons, List.map_nil, List.sum_cons, List.sum_nil, Nat.add_zero]
    have hlt := sumBits_lt q n
    by_cases hk : k = n
    · subst hk
      split
      · rw [Nat.add_div_right _ (Nat.two_pow_pos k), Nat.div_eq_of_lt hlt]
      · rw [Nat.add_zero, Nat.div_eq_of_lt hlt]
    · rw [← ih (by omega)]
      split
      · rw [show 2 ^ n = 2 ^ k * (2 * 2 ^ (n - k - 1)) by
          rw [← Nat.pow_succ', ← Nat.pow_add]; congr 1; omega]
        rw [Nat.add_mul_div_left _ _ (Nat.two_pow_pos k), Nat.add_mul_mod_self_left]
      · rfl

theorem maskOf_eq (p : Fin 32 → Bool) : maskOf p = BitVec.ofNat 32 ((List.range 32).map (fun i =>
    if (if h : i < 32 then p ⟨i, h⟩ else false) then 2 ^ i else 0)).sum := rfl

/-- A mask made lane by lane reads back lane by lane. -/
@[simp] theorem lane_maskOf (p : Fin 32 → Bool) (l : Fin 32) : lane (maskOf p) l = p l := by
  rw [maskOf_eq, lane, BitVec.toNat_ofNat, Nat.mod_eq_of_lt (sumBits_lt _ 32), sumBits_bit _ 32 l.val l.isLt]
  simp only [l.isLt, dite_true]
  cases p l <;> rfl

theorem lane_ext {a b : Word} (h : ∀ l, lane a l = lane b l) : a = b := by
  apply BitVec.eq_of_getLsbD_eq
  intro i hi
  have := h ⟨i, hi⟩
  simp only [lane] at this
  rw [BitVec.getLsbD, BitVec.getLsbD, Nat.testBit_eq_decide_div_mod_eq, Nat.testBit_eq_decide_div_mod_eq]
  rw [Bool.eq_iff_iff] at this ⊢
  simpa using this

theorem lane_zero (l : Fin 32) : lane 0 l = false := by revert l; decide

theorem mem_lanes32 (l : Fin 32) : l ∈ lanes32 := by revert l; decide

theorem mem_lanesOf {m : Word} {l : Fin 32} : l ∈ lanesOf m ↔ lane m l = true := by
  simp [lanesOf, mem_lanes32]

theorem lane_of_lowest {m : Word} {l : Fin 32} (h : lowest m = some l) : lane m l = true :=
  mem_lanesOf.mp (List.mem_of_head? h)

theorem lowest_none {m : Word} (h : lowest m = none) (l : Fin 32) : lane m l = false := by
  have hn : lanesOf m = [] := List.head?_eq_none_iff.mp h
  cases hl : lane m l with
  | false => rfl
  | true =>
    have := mem_lanesOf.mpr hl
    rw [hn] at this
    cases this

/-! ### Merging (R31) -/

theorem VReg.at_gen (f : Fin 32 → Word) (l : Fin 32) : (VReg.gen f).at l = f l := by
  simp [VReg.gen, VReg.at]

theorem VReg.at_like (srcs : List VReg) (f : Fin 32 → Word) (l : Fin 32)
    (h : srcs.all VReg.isU = true → f 0 = f l) : (VReg.like srcs f).at l = f l := by
  rw [VReg.like]
  split
  · exact h (by assumption)
  · exact VReg.at_gen f l

/-- An active lane takes the new value. -/
theorem VReg.merge_active (old new : VReg) (m launched : Word) (l : Fin 32) (h : lane m l = true) :
    (old.merge new m launched).at l = new.at l := by
  unfold VReg.merge
  rw [if_neg (by rintro rfl; rw [lane_zero] at h; cases h)]
  split
  · rfl
  · split
    · split
      · rename_i x y hx; simp only [Bool.and_eq_true, decide_eq_true_eq] at hx; rw [hx.1]
      · rw [VReg.at_gen, if_pos h]
    · split
      · rename_i x t y w hx; simp only [Bool.and_eq_true, decide_eq_true_eq] at hx; rw [hx.1.1, hx.1.2]
      · rw [VReg.at_gen, if_pos h]
    · rw [VReg.at_gen, if_pos h]

/-- An inactive lane of the launched ones keeps the old value. -/
theorem VReg.merge_inactive (old new : VReg) (m launched : Word) (l : Fin 32) (h : lane m l = false)
    (hl : lane launched l = true) : (old.merge new m launched).at l = old.at l := by
  unfold VReg.merge
  split
  · rfl
  · rw [if_neg (by
      intro hx
      simp only [Bool.and_eq_true, decide_eq_true_eq] at hx
      rw [hx.1, hl] at h; cases h)]
    split
    · split
      · rfl
      · rw [VReg.at_gen, if_neg (by rw [h]; simp)]
    · split
      · rfl
      · rw [VReg.at_gen, if_neg (by rw [h]; simp)]
    · rw [VReg.at_gen, if_neg (by rw [h]; simp)]

/-! ### Registers -/

theorem Regs.vreg_setV (r : Regs) (i j : BitVec 6) (v : VReg) : (r.setV i v).vreg j = if j = i then v else r.vreg j := by
  rw [Regs.vreg, Regs.setV, Regs.vreg]
  show (r.win.set i.toNat v i.isLt)[j.toNat]'(j.isLt) = _
  rw [Vector.getElem_set]
  by_cases h : j = i
  · rw [if_pos h, h, if_pos rfl]
  · rw [if_neg h, if_neg (fun e => h (BitVec.eq_of_toNat_eq e.symm))]

theorem Regs.sreg_setS (r : Regs) (i j : BitVec 5) (v : Word) : (r.setS i v).sreg j = if j = i then v else r.sreg j := by
  rw [Regs.sreg, Regs.setS, Regs.sreg]
  show (r.s.set i.toNat v i.isLt)[j.toNat]'(j.isLt) = _
  rw [Vector.getElem_set]
  by_cases h : j = i
  · rw [if_pos h, h, if_pos rfl]
  · rw [if_neg h, if_neg (fun e => h (BitVec.eq_of_toNat_eq e.symm))]

@[simp] theorem Regs.vreg_setS (r : Regs) (i : BitVec 5) (j : BitVec 6) (v : Word) : (r.setS i v).vreg j = r.vreg j := rfl
@[simp] theorem Regs.sreg_setV (r : Regs) (i : BitVec 6) (j : BitVec 5) (v : VReg) : (r.setV i v).sreg j = r.sreg j := rfl

/-! ### Retiring -/

/-- The watchdog touches its own count and window alone. -/
theorem Regs.watch_only (r : Regs) (pc word : Va) (jump : Option Va) :
    r.watch pc word jump = { r with
      wdCount := (r.watch pc word jump).wdCount, wdWin := (r.watch pc word jump).wdWin
      wdDue := (r.watch pc word jump).wdDue } := by
  have key : ∀ (b : Bool) (w : Option (Va × Va)), (if b then
      { r with wdWin := w, wdCount := r.wdCount + 1, wdDue := armedAt r.wdog == some (r.wdCount + 1) }
      else { r with wdWin := none, wdCount := 0, wdDue := false }) =
      { r with
        wdCount := (if b then { r with wdWin := w, wdCount := r.wdCount + 1, wdDue := armedAt r.wdog == some (r.wdCount + 1) }
          else { r with wdWin := none, wdCount := 0, wdDue := false }).wdCount
        wdWin := (if b then { r with wdWin := w, wdCount := r.wdCount + 1, wdDue := armedAt r.wdog == some (r.wdCount + 1) }
          else { r with wdWin := none, wdCount := 0, wdDue := false }).wdWin
        wdDue := (if b then { r with wdWin := w, wdCount := r.wdCount + 1, wdDue := armedAt r.wdog == some (r.wdCount + 1) }
          else { r with wdWin := none, wdCount := 0, wdDue := false }).wdDue } := by
    intro b w; cases b <;> rfl
  exact key _ _

/-- The watchdog's next count and window rest on its own registers alone. -/
theorem Regs.watch_congr (r q : Regs) (h1 : r.wdWin = q.wdWin) (h2 : r.wdCount = q.wdCount) (h3 : r.wdog = q.wdog)
    (pc word : Va) (jump : Option Va) :
    (r.watch pc word jump).wdWin = (q.watch pc word jump).wdWin ∧ (r.watch pc word jump).wdCount = (q.watch pc word jump).wdCount
    ∧ (r.watch pc word jump).wdDue = (q.watch pc word jump).wdDue := by
  simp only [Regs.watch, h1, h2, h3, apply_ite Regs.wdWin, apply_ite Regs.wdCount, apply_ite Regs.wdDue, and_self]

theorem Gang.moved_advance (g : Gang) (len : Nat) (jump : Option Va) :
    g.Moved (g.advance len jump) (jump.getD ((if g.ext.isSome then g.r.pc + 4 else g.r.pc) + BitVec.ofNat 48 len)) g.r := by
  rw [Gang.Moved, Gang.advance]
  refine ⟨rfl, ?_⟩
  dsimp only
  cases g.trap
  · simp only [Bool.false_eq_true, if_false]
    rw [Regs.watch_only]
  · rfl

/-- Two writes of one key leave the second. -/
theorem tput_tput {α : Type} (t : Tab α) (k : Nat) (x y : α) : tput (tput t k x) k y = tput t k y := by
  induction t with
  | nil => simp [tput]
  | cons p r ih =>
    obtain ⟨j, z⟩ := p
    by_cases h1 : j = k
    · simp [tput, h1]
    · by_cases h2 : k < j
      · simp [tput, h1, h2]
      · simp [tput, h1, h2, ih]

theorem State.setGang_setGang (s : State) (g h : Gang) : (s.setGang g).setGang h = s.setGang h := by
  simp only [State.setGang, State.setGangAt, tput_tput]

theorem State.onlyGang_setGang_tick (s : State) (g : Gang) (n : Nat) : s.OnlyGang ((s.setGang g).tick n) :=
  ⟨rfl, fun _ h => State.gangAt_setGang_ne s g h⟩

/-- What retiring does: the gang moves on, and only the gang and the clock change. -/
theorem State.retires_advance (s : State) (g : Gang) (cost len : Nat) (jump : Option Va) :
    s.Retires ((s.setGang g).advance cost len jump)
      (jump.getD ((if g.ext.isSome then g.r.pc + 4 else g.r.pc) + BitVec.ofNat 48 len)) g g.r := by
  have e : (s.setGang g).advance cost len jump = (s.setGang (g.advance len jump)).tick cost := by
    rw [State.advance, State.gang_setGang, State.setGang_setGang]
  rw [e]
  refine ⟨State.onlyGang_setGang_tick s _ _, ?_⟩
  rw [State.gang_tick, State.gang_setGang]
  exact g.moved_advance len jump

theorem State.OnlyGang.sameMem {s t : State} (h : s.OnlyGang t) : s.SameMem t := by
  rw [h.1]; exact ⟨rfl, rfl, rfl⟩

/-- Retiring with registers written: they alone change. -/
theorem State.retires_setR (s : State) (r : Regs) (cost len : Nat) (jump : Option Va) (h : r.pc = s.r.pc) :
    s.Retires ((s.setR r).advance cost len jump) (jump.getD (s.nextPc len)) s.gang r := by
  have := s.retires_advance { s.gang with r := r } cost len jump
  dsimp only at this
  rw [h] at this
  exact this

/-- An instruction that only writes registers. -/
theorem State.setRegs_retires (s : State) (r : Regs) (h : r.pc = s.r.pc) :
    ∃ t, s.setRegs r = .next t ∧ s.Retires t (s.nextPc 4) s.gang r :=
  ⟨_, rfl, s.retires_setR r 1 4 none h⟩

/-- Without a prefix, one that accepts none goes on. -/
theorem State.noExt_none (s : State) (k : Out) (h : s.gang.ext = none) : s.noExt k = k := by
  rw [State.noExt, h]; rfl

/-- The selectors fit: the checks of the encoding that depend on the state hold. -/
theorem State.Fits.vrOk {s : State} {d : BitVec 7} {srcs : List (BitVec 7)} (h : s.Fits d srcs) : s.vrOk d srcs = true := by
  obtain ⟨h1, h2, h3⟩ := h
  rw [State.vrOk, Bool.and_eq_true, Bool.and_eq_true]
  refine ⟨⟨by rw [dstSel]; exact decide_eq_true h1, List.all_eq_true.mpr (fun o ho => by rw [srcSel]; exact decide_eq_true (h2 o ho))⟩, ?_⟩
  rw [State.extFits, beq_iff_eq, Bool.eq_iff_iff, h3, List.any_eq_true]
  exact ⟨fun h => ⟨_, h, by simp⟩, fun ⟨o, ho, e⟩ => by rwa [beq_iff_eq.mp e] at ho⟩

theorem State.Immediate.imm {s : State} {n : Nat} {i : BitVec n} {v : Word} (h : s.Immediate i v) : s.imm i = some v := by
  rw [State.imm]
  rcases h with ⟨h1, h2⟩ | ⟨p, h1, h2, h3⟩
  · rw [h1, h2]
  · rw [h1]; dsimp only; rw [if_pos h2, h3]

end Sys2Proof.Machine
end

