-- ==== Sys2Proof/Laws/Lane.lean ====
section
/-! SUPPORT. Rollback, speculative reads, writes of g registers, and what delivering a lane result does. -/

namespace Sys2Proof.Machine

set_option Elab.async false

/-! ### Rollback touches other gangs alone -/

theorem rollGang_only (hit : ReadItem → Bool) (s : State) (k : Nat) :
    rollGang hit s k = { s with gangs := (rollGang hit s k).gangs } := by
  rw [rollGang]; split <;> rfl

theorem rollGang_ne (hit : ReadItem → Bool) (s : State) {k j : Nat} (h : j ≠ k) :
    (rollGang hit s k).gangAt j = s.gangAt j := by
  rw [rollGang]; split
  · rfl
  · exact tget_tput_ne _ _ _ h

theorem rollFold_only (me : Option Nat) (hit : ReadItem → Bool) (ks : List Nat) (s : State) :
    (ks.foldl (fun s k => if some k = me then s else rollGang hit s k) s) =
      { s with gangs := (ks.foldl (fun s k => if some k = me then s else rollGang hit s k) s).gangs } := by
  induction ks generalizing s with
  | nil => rfl
  | cons k ks ih =>
    rw [List.foldl_cons]
    have := ih (if some k = me then s else rollGang hit s k)
    rw [this]
    split
    · rfl
    · rw [rollGang_only hit s k]

/-- Rolling back the others changes gangs alone. -/
theorem rollOthers_only (me : Option Nat) (hit : ReadItem → Bool) (s : State) :
    rollOthers me hit s = { s with gangs := (rollOthers me hit s).gangs } := rollFold_only me hit _ s

/-- Rolling back the others leaves the writing gang alone. -/
theorem rollOthers_me (k : Nat) (hit : ReadItem → Bool) (s : State) :
    (rollOthers (some k) hit s).gangAt k = s.gangAt k := by
  rw [rollOthers]
  generalize s.gangKeys = ks
  induction ks generalizing s with
  | nil => rfl
  | cons j ks ih =>
    rw [List.foldl_cons, ih]
    split
    · rfl
    · rename_i h; exact rollGang_ne hit s (fun e => h (by rw [e]))

/-! ### Speculative reads (R85) -/

/-- A speculative read changes the gang's checkpoints alone. -/
theorem noteRead_eq (s : State) (held : Bool) (items : List ReadItem) :
    ∃ cs, (s.gang.stores = [] → held = false → cs = s.gang.ckpts) ∧
      ((noteRead s held items) = s ∧ cs = s.gang.ckpts ∨ noteRead s held items = s.setGang { s.gang with ckpts := cs }) := by
  rw [noteRead]
  dsimp only
  split
  · exact ⟨_, fun _ _ => rfl, .inl ⟨rfl, rfl⟩⟩
  · rename_i h
    exact ⟨_, fun e e' => absurd (by rw [e, e']; simp) h, .inr rfl⟩

/-! ### Events (R37, R38) -/

theorem bit_or_low (x m i : Nat) (hm : m < 2 ^ 8) (hi : 8 ≤ i) : Nat.testBit (x ||| m) i = Nat.testBit x i := by
  rw [Nat.testBit_or, Nat.testBit_lt_two_pow (Nat.lt_of_lt_of_le hm (Nat.pow_le_pow_right (by omega) hi)), Bool.or_false]

theorem fld_or_low (x m : Nat) (hm : m < 2 ^ 8) : fld (x ||| m) 8 6 = fld x 8 6 := by
  apply Nat.eq_of_testBit_eq
  intro i
  rw [fld, fld, Nat.testBit_mod_two_pow, Nat.testBit_mod_two_pow, Nat.testBit_div_two_pow, Nat.testBit_div_two_pow,
    bit_or_low _ _ _ hm (by omega)]

/-- Merging events leaves the enables. -/
theorem Regs.enables_mergeEvents (r : Regs) (evs : List Nat) : (r.mergeEvents evs).enables = r.enables := by
  unfold Regs.mergeEvents
  split
  · rfl
  · unfold Regs.enables Regs.mergeCounts
    dsimp only
    have hs : ((List.range 6).map (fun i => if evCount i evs = 0 then 0 else 2 ^ i)).sum < 64 := by
      simp only [List.range_succ, List.range_zero, List.map_append, List.map_cons, List.map_nil, List.sum_append,
        List.sum_cons, List.sum_nil, List.nil_append]
      repeat' split
      all_goals omega
    have hb : (r.fflags.toNat ||| ((List.range 6).map (fun i => if evCount i evs = 0 then 0 else 2 ^ i)).sum) < 2 ^ 32 :=
      Nat.or_lt_two_pow r.fflags.isLt (by omega)
    rw [BitVec.toNat_ofNat]
    show fld ((r.fflags.toNat ||| _) % 2 ^ 32) 8 6 = _
    rw [Nat.mod_eq_of_lt hb, fld_or_low _ _ (by omega)]

theorem Regs.fpx_mergeEvents (r : Regs) (evs : List Nat) : (r.mergeEvents evs).fpx evs = r.fpx evs := by
  rw [Regs.fpx, Regs.enables_mergeEvents]; rfl

theorem Regs.mergeEvents_nil (r : Regs) : r.mergeEvents [] = r := rfl

theorem Regs.fpx_nil (r : Regs) : r.fpx [] = 0 := by
  show Nat.land 0 _ = 0
  exact Nat.zero_and _

/-- Merging events writes the flags and the counts. -/
theorem Regs.mergeEvents_only (r : Regs) (evs : List Nat) :
    r.mergeEvents evs = { r with
      fflags := (r.mergeEvents evs).fflags, fcount0 := (r.mergeEvents evs).fcount0
      fcount1 := (r.mergeEvents evs).fcount1, fcount2 := (r.mergeEvents evs).fcount2 } := by
  rw [Regs.mergeEvents]; split <;> rfl

/-- An instruction whose events are not enabled retires. -/
theorem State.retireEv_next (s0 s : State) (cost len : Nat) (evs : List Nat) (h : s.r.fpx evs = 0) :
    State.retireEv s0 s cost len evs = .next ((s.setR (s.r.mergeEvents evs)).advance cost len) := by
  rw [State.retireEv]
  rw [State.r_setR, Regs.fpx_mergeEvents, h]
  rfl

/-! ### Destinations -/

theorem Regs.writeSel_only (r : Regs) (launched : Word) (o : BitVec 7) (v : VReg) (m : Word) :
    r.writeSel launched o v m = { r with win := (r.writeSel launched o v m).win, s := (r.writeSel launched o v m).s } := by
  unfold Regs.writeSel
  dsimp only
  split
  · rfl
  · split
    · split <;> rfl
    · rfl

theorem setWidth_toNat_lt (w : Nat) (o : BitVec 7) (h : o.toNat < 2 ^ w) : (o.setWidth w).toNat = o.toNat := by
  rw [BitVec.toNat_setWidth, Nat.mod_eq_of_lt h]

theorem Regs.writeSel_vreg_ne (r : Regs) (launched : Word) (o : BitVec 7) (v : VReg) (m : Word) (j : BitVec 6)
    (h : j.toNat ≠ o.toNat) : (r.writeSel launched o v m).vreg j = r.vreg j := by
  unfold Regs.writeSel
  dsimp only
  split
  · rename_i hn
    rw [Regs.vreg_setV, if_neg (fun e => h (by rw [e, setWidth_toNat_lt 6 o (by omega)]))]
  · split
    · split <;> rfl
    · rfl

theorem Regs.writeSel_vreg (r : Regs) (launched : Word) (o : BitVec 7) (v : VReg) (m : Word) (j : BitVec 6)
    (h : j.toNat = o.toNat) : (r.writeSel launched o v m).vreg j = (r.vreg j).merge v m launched := by
  have hn : o.toNat < 0x40 := by rw [← h]; exact j.isLt
  have hj : o.setWidth 6 = j := BitVec.eq_of_toNat_eq (by rw [setWidth_toNat_lt 6 o (by omega), h])
  unfold Regs.writeSel
  dsimp only
  rw [if_pos hn, hj, Regs.vreg_setV, if_pos rfl]

theorem setWidth5_sel (o : BitVec 7) (h0 : ¬ o.toNat < 0x40) (h1 : o.toNat < 0x60) :
    0x40 + (o.setWidth 5).toNat = o.toNat := by
  rw [BitVec.toNat_setWidth]; omega

theorem Regs.writeSel_sreg_ne (r : Regs) (launched : Word) (o : BitVec 7) (v : VReg) (m : Word) (j : BitVec 5)
    (h : 0x40 + j.toNat ≠ o.toNat) : (r.writeSel launched o v m).sreg j = r.sreg j := by
  unfold Regs.writeSel
  dsimp only
  split
  · rfl
  · rename_i h0
    split
    · rename_i h1
      split
      · rw [Regs.sreg_setS, if_neg (fun e => h (by rw [e, setWidth5_sel o h0 h1]))]
      · rfl
    · rfl

theorem Regs.writeSel_sreg (r : Regs) (launched : Word) (o : BitVec 7) (v : VReg) (m : Word) (j : BitVec 5)
    (h : 0x40 + j.toNat = o.toNat) :
    (r.writeSel launched o v m).sreg j = match lowest m with
      | some l => v.at l
      | none => r.sreg j := by
  have h0 : ¬ o.toNat < 0x40 := by omega
  have h1 : o.toNat < 0x60 := by have := j.isLt; omega
  have hj : o.setWidth 5 = j := BitVec.eq_of_toNat_eq (by have := setWidth5_sel o h0 h1; omega)
  unfold Regs.writeSel
  dsimp only
  rw [if_neg h0, if_pos h1, hj]
  cases lowest m
  · rfl
  · exact (Regs.sreg_setS _ _ _ _).trans (if_pos rfl)

/-! ### g registers (R33, R84) -/

theorem leNat_leBytes (n x : Nat) : leNat (leBytes n x) = x % 2 ^ (8 * n) := by
  induction n generalizing x with
  | zero => rw [Nat.mul_zero, Nat.pow_zero, Nat.mod_one]; rfl
  | succ n ih =>
    rw [leBytes, leNat, ih, BitVec.toNat_ofNat, show 8 * (n + 1) = 8 + 8 * n by omega, Nat.pow_add, Nat.mod_mul]

/-- A word's bytes make the word. -/
theorem word_leBytes (v : Word) : BitVec.ofNat 32 (leNat (leBytes 4 v.toNat)) = v := by
  rw [leNat_leBytes, Nat.mod_eq_of_lt v.isLt]
  exact BitVec.eq_of_toNat_eq (by rw [BitVec.toNat_ofNat, Nat.mod_eq_of_lt v.isLt])

theorem State.gReg_of (s t : State) (h1 : t.gang.stores = s.gang.stores) (h2 : t.gang.wg = s.gang.wg)
    (h3 : t.wg = s.wg) (h4 : t.cur = s.cur) (i : Nat) : t.gReg i = s.gReg i := by
  rw [State.gReg, State.gReg, h1, h2, h3, h4]

/-- A g register as a gang with no unperformed write reads it (R23). -/
def Wg.reads (x : Wg) (me i : Nat) : Word :=
  match (x.gNext.filter (fun p => p.1 == me && p.2.1 == i)).getLast? with
  | some p => p.2.2
  | none => x.g.toList.getD i 0

theorem State.gReg_quiet (s : State) (h : s.gang.stores = []) (i : Nat) : s.gReg i = s.wg.reads s.cur i := by
  rw [State.gReg, h]; rfl

/-- A workgroup after a write of a g register: the value is there, or is held until the cycle ends (R23). -/
def Wg.written (x : Wg) (me i : Nat) (v : Word) (last : Bool) : Wg :=
  if last && x.gNext.isEmpty then { x with g := x.g.setIfInBounds i v } else { x with gNext := x.gNext ++ [(me, i, v)] }

/-- The gang reads its own write at once, and no other register has changed for it. -/
theorem Wg.reads_written (x : Wg) (me i : Nat) (v : Word) (last : Bool) (hi : i < 16) :
    (x.written me i v last).reads me i = v ∧ ∀ j, i ≠ j → (x.written me i v last).reads me j = x.reads me j := by
  unfold Wg.written
  split
  · rename_i h
    have he : x.gNext = [] := List.isEmpty_iff.mp (Bool.and_eq_true _ _ ▸ h).2
    constructor
    · simp [Wg.reads, he, hi]
    · intro j hj
      simp [Wg.reads, he, hj]
  · constructor
    · simp [Wg.reads, List.filter_append]
    · intro j hj
      simp [Wg.reads, List.filter_append, hj]

/-- A write of a g register changes its workgroup's registers and rolls other gangs back, no more. -/
theorem State.writeG_spec (s : State) (w i : Nat) (v : Word) :
    (s.writeG s.cur w i v).gang = s.gang
    ∧ s.writeG s.cur w i v = { s with gangs := (s.writeG s.cur w i v).gangs, wgs := (s.writeG s.cur w i v).wgs }
    ∧ ∀ k, (s.writeG s.cur w i v).wgAt k = if k = w then (s.wgAt w).written s.cur i v s.round.isEmpty else s.wgAt k := by
  unfold State.writeG Wg.written
  dsimp only
  split
  · unfold State.putG
    dsimp only
    refine ⟨?_, ?_, fun k => ?_⟩
    · rw [State.gang, rollOthers_only]
      exact rollOthers_me s.cur _ _
    · rw [rollOthers_only]; rfl
    · rw [rollOthers_only]
      exact tget_tput _ _ _ _ _
  · exact ⟨rfl, rfl, fun k => tget_tput _ _ _ _ _⟩

/-- Ordering a write of one g register: the gang reads the value from now on, every other g register and the
gang's own registers stand. -/
theorem State.order_greg (s0 s : State) (now : Bool) (i : Nat) (hi : i < 16) (v : Word) (hs : s0.gang.stores = s.gang.stores) :
    let t := State.order s0 s now (.greg s.gang.wg) [(i, leBytes 4 v.toNat)]
    t.gang = { s.gang with stores := t.gang.stores, flash := t.gang.flash } ∧ s.SameMem t ∧
    t.gReg i = v ∧ ∀ j, i ≠ j → t.gReg j = s.gReg j := by
  unfold State.order
  rw [if_neg (by simp)]
  dsimp only
  split
  · rename_i hc
    have hst : s.gang.stores = [] := by
      rw [← hs]
      exact List.isEmpty_iff.mp (Bool.and_eq_true _ _ ▸ hc).2
    rw [State.performWrite]
    dsimp only [List.foldl, Option.getD_some]
    rw [word_leBytes]
    obtain ⟨hg, ho, hw⟩ := State.writeG_spec s s.gang.wg i v
    generalize s.writeG s.cur s.gang.wg i v = u at hg ho hw ⊢
    have hu : (u.setGang u.gang.wrote).gang = s.gang.wrote := by rw [State.gang_setGang, hg]
    have hc : (u.setGang u.gang.wrote).cur = s.cur := by rw [ho]; rfl
    have hx : ∀ j, (u.setGang u.gang.wrote).gReg j = (s.wg.written s.cur i v s.round.isEmpty).reads s.cur j := by
      intro j
      rw [State.gReg_quiet _ (by rw [hu]; exact hst), State.wg, hu, hc, State.wgAt_setGang,
        show s.gang.wrote.wg = s.gang.wg from rfl, hw, if_pos rfl]
      rfl
    have hr := s.wg.reads_written s.cur i v s.round.isEmpty hi
    refine ⟨by rw [hu]; rfl, ?_, ?_, ?_⟩
    · rw [State.SameMem]
      show u.mem = s.mem ∧ u.hostMem = s.hostMem ∧ u.peerMem = s.peerMem
      rw [ho]; exact ⟨rfl, rfl, rfl⟩
    · rw [hx, hr.1]
    · intro j hj
      rw [hx, hr.2 j hj, State.gReg_quiet s hst]
  · refine ⟨by rw [State.gang_setGang], ⟨rfl, rfl, rfl⟩, ?_, ?_⟩
    · rw [State.gReg, State.gang_setGang]
      simp [List.filter_append, word_leBytes]
    · intro j hj
      have hw : (State.setGang s { s.gang with stores := s.gang.stores ++ [
          { seq := s0.gang.seq, space := .greg s.gang.wg, writes := [(i, leBytes 4 v.toNat)], before := s0.r, after := s.r }] }).wg = s.wg := by
        rw [State.wg, State.gang_setGang, State.wgAt_setGang]; rfl
      rw [State.gReg, hw, State.gang_setGang, State.gReg]
      simp [List.filter_append, hj]

/-! ### Delivering a lane result (R18, R31, R33, R37, R84, R170) -/

/-- The gang after retiring with registers `r`. -/
theorem Gang.advance_gang (g : Gang) (len : Nat) :
    g.advance len none = { g with r := (g.advance len none).r, ext := none, wait := .none, promoted := false, seq := g.seq + 1 } :=
  rfl

theorem Gang.advance_regs (g : Gang) (len : Nat) :
    (g.advance len none).r = { g.r with
      pc := (if g.ext.isSome then g.r.pc + 4 else g.r.pc) + BitVec.ofNat 48 len
      wdCount := (g.advance len none).r.wdCount, wdWin := (g.advance len none).r.wdWin, wdDue := (g.advance len none).r.wdDue } :=
  (g.moved_advance len none).2

/-- A delivered result's write of a g register: none but for a g register, with an active lane. -/
theorem gWrite_eq (d : BitVec 7) (v : VReg) (m : Word) : gWrite d v m =
    if 0x60 ≤ d.toNat ∧ d.toNat < 0x70 then (match lowest m with
      | some l => [(d.toNat - 0x60, leBytes 4 (v.at l).toNat)]
      | none => []) else [] := by
  unfold gWrite
  cases lowest m <;> simp

/-- What delivering a lane result does. -/
theorem State.delivered_delivers (s : State) (len : Nat) (d : BitVec 7) (srcs : List (BitVec 7)) (cheap : Bool) (v : VReg)
    (evs : List Nat) (now : Bool) : s.Delivers (s.delivered len d srcs cheap v evs now) len d v.at evs := by
  obtain ⟨cs, hcs, hn⟩ := noteRead_eq s (!(gWrite d v s.r.exec).isEmpty && s.holdStores && !now) (gSel s.gang.wg srcs)
  have hcs : s.gang.stores = [] → (s.holdStores = false ∨ d.toNat < 0x60 ∨ 0x70 ≤ d.toNat) → cs = s.gang.ckpts := by
    intro e h
    refine hcs e ?_
    rcases h with h | h
    · rw [h]; simp
    · rw [gWrite_eq, if_neg (by omega)]; rfl
  unfold State.delivered
  dsimp only
  generalize hu : noteRead s (!(gWrite d v s.r.exec).isEmpty && s.holdStores && !now) (gSel s.gang.wg srcs) = u at hn ⊢
  have n1 : u.gang = { s.gang with ckpts := cs } := by
    rcases hn with ⟨e, e2⟩ | e
    · rw [e, e2]
    · rw [e, State.gang_setGang]
  have n2 : s.OnlyGang u := by
    rcases hn with ⟨e, -⟩ | e
    · rw [e]; exact ⟨rfl, fun _ _ => rfl⟩
    · rw [e]; exact ⟨rfl, fun _ hk => State.gangAt_setGang_ne s _ hk⟩
  have ur : u.r = s.r := by rw [State.r, n1]; rfl
  have ust : u.gang.stores = s.gang.stores := by rw [n1]
  have ula : u.gang.launched = s.gang.launched := by rw [n1]
  have ucur : u.cur = s.cur := by rw [n2.1]
  rw [ula, ur]
  let r := s.r.writeSel s.gang.launched d v s.r.exec
  have hr : r = { s.r with win := r.win, s := r.s } := Regs.writeSel_only _ _ _ _ _
  let g1 : Gang := { s.gang with ckpts := cs, r := r.mergeEvents evs }
  let w := (u.setR (r.mergeEvents evs)).advance (vecCost cheap s.r.exec) len
  show s.Delivers (u.order w now (.greg u.gang.wg) (gWrite d v s.r.exec)) len d v.at evs
  have wg : w.gang = g1.advance len none := by
    show (State.tick (State.setGang _ _) _).gang = _
    rw [State.gang_tick, State.gang_setGang, State.gang_setR, n1]
  have wonly : s.OnlyGang w := by
    refine ⟨?_, ?_⟩
    · show ({ u with gangs := w.gangs, clk := w.clk } : State) = _
      rw [n2.1]
    · intro k hk
      have hku : k ≠ u.cur := by rw [ucur]; exact hk
      show State.gangAt (State.setGang (State.setR u (r.mergeEvents evs)) _) k = _
      exact (State.gangAt_setGang_ne (State.setR u _) _ hku).trans ((State.gangAt_setR_ne u _ hku).trans (n2.2 k hk))
  have hm := Regs.mergeEvents_only r evs
  have hm2 : r.mergeEvents evs = { s.r.mergeEvents evs with win := r.win, s := r.s } := by
    rw [Regs.mergeEvents, Regs.mergeEvents]
    split
    · exact hr
    · rw [hr]; rfl
  have wr : w.r = { s.r.mergeEvents evs with
      pc := s.nextPc len, win := r.win, s := r.s, wdCount := w.r.wdCount, wdWin := w.r.wdWin, wdDue := w.r.wdDue } := by
    rw [State.r, wg, Gang.advance_regs]
    have hpc : (r.mergeEvents evs).pc = s.r.pc := by rw [hm, hr]
    show ({ r.mergeEvents evs with
      pc := (if s.gang.ext.isSome then (r.mergeEvents evs).pc + 4 else (r.mergeEvents evs).pc) + BitVec.ofNat 48 len
      wdCount := _, wdWin := _, wdDue := _ } : Regs) = _
    rw [hpc]
    rw [hm2]
    rfl
  have wd : w.r.wdWin = s.watched.wdWin ∧ w.r.wdCount = s.watched.wdCount ∧ w.r.wdDue = s.watched.wdDue := by
    have hw : w.r = { (if s.gang.trap then r.mergeEvents evs
        else (r.mergeEvents evs).watch (r.mergeEvents evs).pc (if s.gang.ext.isSome then (r.mergeEvents evs).pc + 4
          else (r.mergeEvents evs).pc) none) with pc := w.r.pc } := by rw [State.r, wg]; rfl
    have hp : (r.mergeEvents evs).pc = s.r.pc := by rw [hm, hr]
    have hq : (if s.gang.ext.isSome then s.r.pc + 4 else s.r.pc) = s.wordPc := rfl
    rw [hp, hq] at hw
    have a1 : (r.mergeEvents evs).wdWin = s.r.wdWin := by rw [hm, hr]
    have a2 : (r.mergeEvents evs).wdCount = s.r.wdCount := by rw [hm, hr]
    have a3 : (r.mergeEvents evs).wdog = s.r.wdog := by rw [hm, hr]
    have a4 : (r.mergeEvents evs).wdDue = s.r.wdDue := by rw [hm, hr]
    rw [State.watched]
    cases ht : s.gang.trap
    · rw [ht] at hw
      obtain ⟨c1, c2, c3⟩ := Regs.watch_congr (r.mergeEvents evs) s.r a1 a2 a3 s.r.pc s.wordPc none
      exact ⟨(congrArg Regs.wdWin hw).trans c1, (congrArg Regs.wdCount hw).trans c2, (congrArg Regs.wdDue hw).trans c3⟩
    · rw [ht] at hw
      exact ⟨(congrArg Regs.wdWin hw).trans a1, (congrArg Regs.wdCount hw).trans a2, (congrArg Regs.wdDue hw).trans a4⟩
  have wr' : w.r = { s.r.mergeEvents evs with
      pc := s.nextPc len, win := w.r.win, s := w.r.s
      wdCount := s.watched.wdCount, wdWin := s.watched.wdWin, wdDue := s.watched.wdDue } := by
    have e1 : w.r.win = r.win := by rw [wr]
    have e2 : w.r.s = r.s := by rw [wr]
    rw [← wd.1, ← wd.2.1, ← wd.2.2, e1, e2]; exact wr
  have wgang : w.gang = { s.gang with
      r := w.r, ext := none, wait := .none, promoted := false, seq := s.gang.seq + 1, ckpts := cs } := by
    rw [show w.r = w.gang.r from rfl, wg]; rfl
  have wwin : ∀ j : BitVec 6, w.r.vreg j = r.vreg j := fun j => by rw [Regs.vreg, wr]; rfl
  have wss : ∀ j : BitVec 5, w.r.sreg j = r.sreg j := fun j => by rw [Regs.sreg, wr]; rfl
  have wst : w.gang.stores = s.gang.stores := by rw [wgang]
  have wgr : ∀ i, w.gReg i = s.gReg i := fun i => State.gReg_of s w wst (by rw [wgang]) (by
    rw [State.wg, State.wg, wgang, wonly.1]; rfl) (by rw [wonly.1]) i
  -- the part common to every destination
  have base : ∀ t : State, t.gang = { w.gang with stores := t.gang.stores, flash := t.gang.flash } →
      t.gang = { s.gang with
        r := t.r, ext := none, wait := .none, promoted := false, seq := s.gang.seq + 1, ckpts := t.gang.ckpts
        stores := t.gang.stores, flash := t.gang.flash } ∧
      t.r = w.r ∧ (s.gang.stores = [] → (s.holdStores = false ∨ d.toNat < 0x60 ∨ 0x70 ≤ d.toNat) → t.gang.ckpts = s.gang.ckpts) := by
    intro t ht
    have h1 : t.r = w.r := by rw [State.r, ht]; rfl
    have h2 : t.gang.ckpts = cs := by rw [ht]; exact congrArg Gang.ckpts wgang
    refine ⟨?_, h1, fun e e' => by rw [h2]; exact hcs e e'⟩
    rw [h1, h2]
    conv => lhs; rw [ht]
    rw [wgang]
  have vr : ∀ j : BitVec 6, j.toNat ≠ d.toNat → w.r.vreg j = s.r.vreg j := fun j hj => by
    rw [wwin]; exact Regs.writeSel_vreg_ne _ _ _ _ _ _ hj
  have sr : ∀ j : BitVec 5, 0x40 + j.toNat ≠ d.toNat → w.r.sreg j = s.r.sreg j := fun j hj => by
    rw [wss]; exact Regs.writeSel_sreg_ne _ _ _ _ _ _ hj
  have vl : ∀ j : BitVec 6, j.toNat = d.toNat → ∀ l, lane s.gang.launched l = true →
      (w.r.vreg j).at l = if lane s.r.exec l then v.at l else (s.r.vreg j).at l := fun j hj l hl => by
    rw [wwin, Regs.writeSel_vreg _ _ _ _ _ _ hj]
    cases hx : lane s.r.exec l
    · exact VReg.merge_inactive _ _ _ _ _ hx hl
    · exact VReg.merge_active _ _ _ _ _ hx
  have sl : ∀ j : BitVec 5, 0x40 + j.toNat = d.toNat → w.r.sreg j = match lowest s.r.exec with
      | some l => v.at l
      | none => s.r.sreg j := fun j hj => by
    rw [wss]; exact Regs.writeSel_sreg _ _ _ _ _ _ hj
  rw [gWrite_eq]
  by_cases hd : 0x60 ≤ d.toNat ∧ d.toNat < 0x70
  · rw [if_pos hd]
    cases hl : lowest s.r.exec with
    | none =>
      obtain ⟨b1, b2, b3⟩ := base w rfl
      show s.Delivers w len d v.at evs
      refine ⟨b1, wr', vr, sr, fun i _ _ => wgr i, vl, fun c hc => by omega, ?_, wonly.sameMem, fun hx => by omega, b3⟩
      intro i _ _
      rw [wgr, hl]
    | some l =>
      have hwg : u.gang.wg = w.gang.wg := by rw [n1, wgang]
      obtain ⟨o1, o2, o3, o4⟩ := State.order_greg u w now (d.toNat - 0x60) (by omega) (v.at l) (by rw [ust, wst])
      dsimp only
      rw [hwg]
      generalize State.order u w now (.greg w.gang.wg) [(d.toNat - 0x60, leBytes 4 (v.at l).toNat)] = t at o1 o2 o3 o4 ⊢
      obtain ⟨b1, b2, b3⟩ := base t o1
      refine ⟨b1, by rw [b2]; exact wr', fun j hj => by rw [b2]; exact vr j hj, fun j hj => by rw [b2]; exact sr j hj,
        ?_, fun j hj => by omega, fun c hc => by have := c.isLt; omega, ?_, ?_, fun hx => by omega, b3⟩
      · intro i hi hne
        rw [o4 i (by omega), wgr]
      · intro i hi he
        rw [hl, show i = d.toNat - 0x60 by omega, o3]
      · obtain ⟨m1, m2, m3⟩ := o2
        obtain ⟨k1, k2, k3⟩ := wonly.sameMem
        exact ⟨m1.trans k1, m2.trans k2, m3.trans k3⟩
  · rw [if_neg hd]
    show s.Delivers w len d v.at evs
    obtain ⟨b1, b2, b3⟩ := base w rfl
    exact ⟨b1, wr', vr, sr, fun i _ _ => wgr i, vl, sl, fun i hi he => by omega, wonly.sameMem,
      fun _ => ⟨wonly, wst, by rw [wgang]⟩, b3⟩

/-- A lane result whose events are not enabled retires. -/
theorem State.deliver_delivers (s : State) (len : Nat) (d : BitVec 7) (srcs : List (BitVec 7)) (cheap : Bool) (v : VReg)
    (evs : List Nat) (h : s.r.fpx evs = 0) :
    ∃ t, s.deliver len d srcs cheap v evs = .next t ∧ s.Delivers t len d v.at evs :=
  ⟨_, by rw [State.deliver]; exact if_pos h, s.delivered_delivers len d srcs cheap v evs false⟩

/-- A lane result with an enabled event traps on the boundary after it (R37). -/
theorem State.deliver_traps (s : State) (len : Nat) (d : BitVec 7) (srcs : List (BitVec 7)) (cheap : Bool) (v : VReg)
    (evs : List Nat) (h : s.r.fpx evs ≠ 0) (hq : s.quiet = true) :
    ∃ u, s.deliver len d srcs cheap v evs = .next (u.boundary tcFPX (s.r.fpx evs)) ∧ s.Delivers u len d v.at evs :=
  ⟨_, by rw [State.deliver]; exact (if_neg h).trans (if_pos hq), s.delivered_delivers len d srcs cheap v evs true⟩

end Sys2Proof.Machine
end

