-- ==== Sys2Proof/Laws/Mem.lean ====
section
/-! SUPPORT. What the byte memory does: a write is read back and leaves every other byte alone, and every operation
keeps the canonical form. -/

namespace Sys2Proof.Machine

set_option Elab.async false

theorem memWfFrom_mono {lo lo' : Nat} {m : List Host.Cell} (h : memWfFrom lo m = true) (hl : lo' ≤ lo) :
    memWfFrom lo' m = true := by
  cases m with
  | nil => rfl
  | cons c t =>
    obtain ⟨k, b⟩ := c
    simp only [memWfFrom, Bool.and_eq_true, decide_eq_true_eq] at h ⊢
    exact ⟨⟨by omega, h.1.2⟩, h.2⟩

/-- Below its first address a canonical memory reads as the default. -/
theorem memRead_below {lo a : Nat} {m : List Host.Cell} (h : memWfFrom lo m = true) (ha : a < lo) : memRead m a = memDefault := by
  cases m with
  | nil => rfl
  | cons c t =>
    obtain ⟨k, b⟩ := c
    simp only [memWfFrom, Bool.and_eq_true, decide_eq_true_eq] at h
    rw [memRead, if_neg (by omega), if_pos (by omega)]

theorem memWfFrom_memWrite {lo : Nat} {m : List Host.Cell} (h : memWfFrom lo m = true) {a : Nat} (ha : lo ≤ a) (b : Byte) :
    memWfFrom lo (memWrite m a b) = true := by
  induction m generalizing lo with
  | nil =>
    rw [memWrite]
    split
    · rfl
    · simp [memWfFrom, *]
  | cons c t ih =>
    obtain ⟨k, c⟩ := c
    simp only [memWfFrom, Bool.and_eq_true, decide_eq_true_eq] at h
    rw [memWrite]
    by_cases h1 : a < k
    · rw [if_pos h1]
      split
      · simp [memWfFrom, h]
      · simp only [memWfFrom, Bool.and_eq_true, decide_eq_true_eq, bne_iff_ne]
        exact ⟨⟨ha, by assumption⟩, ⟨by omega, by simpa using h.1.2⟩, h.2⟩
    · rw [if_neg h1]
      by_cases h2 : k = a
      · subst h2
        rw [if_pos rfl]
        split
        · exact memWfFrom_mono h.2 (by omega)
        · simp only [memWfFrom, Bool.and_eq_true, decide_eq_true_eq, bne_iff_ne]
          exact ⟨⟨ha, by assumption⟩, h.2⟩
      · rw [if_neg h2]
        simp only [memWfFrom, Bool.and_eq_true, decide_eq_true_eq]
        exact ⟨h.1, ih h.2 (by omega)⟩

theorem memRead_memWrite {lo : Nat} {m : List Host.Cell} (h : memWfFrom lo m = true) (a : Nat) (b : Byte) (c : Nat) :
    memRead (memWrite m a b) c = if c = a then b else memRead m c := by
  induction m generalizing lo with
  | nil =>
    by_cases hb : b = memDefault <;> simp only [memWrite, hb, if_true, if_false, memRead]
    · simp
    · by_cases hc : c = a
      · simp [hc]
      · rw [if_neg (Ne.symm hc), if_neg hc]; split <;> rfl
  | cons p t ih =>
    obtain ⟨k, x⟩ := p
    simp only [memWfFrom, Bool.and_eq_true, decide_eq_true_eq] at h
    rw [memWrite]
    by_cases h1 : a < k
    · rw [if_pos h1]
      by_cases hb : b = memDefault
      · rw [if_pos hb]
        by_cases hc : c = a
        · subst hc
          rw [if_pos rfl, memRead, if_neg (by omega), if_pos h1, hb]
        · rw [if_neg hc]
      · rw [if_neg hb, memRead]
        by_cases hc : c = a
        · rw [if_pos hc.symm, if_pos hc]
        · rw [if_neg (Ne.symm hc), if_neg hc]
          by_cases h3 : c < a
          · rw [if_pos h3, memRead, if_neg (by omega), if_pos (by omega)]
          · rw [if_neg h3]
    · rw [if_neg h1]
      by_cases h2 : k = a
      · subst h2
        rw [if_pos rfl]
        by_cases hb : b = memDefault
        · rw [if_pos hb]
          by_cases hc : c = k
          · subst hc
            rw [if_pos rfl, memRead_below h.2 (by omega), hb]
          · rw [if_neg hc, memRead, if_neg (Ne.symm hc)]
            by_cases h3 : c < k
            · rw [if_pos h3, memRead_below h.2 (by omega)]
            · rw [if_neg h3]
        · rw [if_neg hb, memRead, memRead]
          by_cases hc : c = k
          · rw [if_pos hc.symm, if_pos hc]
          · rw [if_neg (Ne.symm hc), if_neg (Ne.symm hc), if_neg hc]
      · rw [if_neg h2, memRead, memRead]
        by_cases hk : k = c
        · rw [if_pos hk, if_pos hk, if_neg (by omega)]
        · rw [if_neg hk, if_neg hk]
          by_cases h3 : c < k
          · rw [if_pos h3, if_pos h3, if_neg (by omega)]
          · rw [if_neg h3, if_neg h3, ih h.2]

/-- A byte written reads back. -/
theorem memRead_memWrite_self {m : List Host.Cell} (h : Memory.wf m = true) (a : Nat) (b : Byte) :
    memRead (memWrite m a b) a = b := by rw [memRead_memWrite h, if_pos rfl]

/-- Every other byte reads as before. -/
theorem memRead_memWrite_ne {m : List Host.Cell} (h : Memory.wf m = true) {a c : Nat} (b : Byte) (hc : c ≠ a) :
    memRead (memWrite m a b) c = memRead m c := by rw [memRead_memWrite h, if_neg hc]

theorem wf_memWrite {m : List Host.Cell} (h : Memory.wf m = true) (a : Nat) (b : Byte) : Memory.wf (memWrite m a b) = true :=
  memWfFrom_memWrite h (Nat.zero_le _) b

theorem memWfFrom_memPut {lo : Nat} {m : List Host.Cell} (h : memWfFrom lo m = true) {a : Nat} (ha : lo ≤ a) (bs : List Byte) :
    memWfFrom lo (memPut m a bs) = true := by
  induction bs generalizing m a with
  | nil => exact h
  | cons b t ih => exact ih (memWfFrom_memWrite h ha b) (by omega)

theorem wf_memPut {m : List Host.Cell} (h : Memory.wf m = true) (a : Nat) (bs : List Byte) : Memory.wf (memPut m a bs) = true :=
  memWfFrom_memPut h (Nat.zero_le _) bs

/-- Bytes written are read back; bytes outside the run read as before. -/
theorem memRead_memPut {m : List Host.Cell} (h : Memory.wf m = true) (a : Nat) (bs : List Byte) (c : Nat) :
    memRead (memPut m a bs) c = if a ≤ c ∧ c < a + bs.length then bs.getD (c - a) 0 else memRead m c := by
  induction bs generalizing m a with
  | nil => rw [memPut, if_neg (by simp)]
  | cons b t ih =>
    rw [memPut, ih (wf_memWrite h a b), memRead_memWrite h]
    simp only [List.length_cons]
    by_cases h1 : a + 1 ≤ c ∧ c < a + 1 + t.length
    · rw [if_pos h1, if_pos (by omega), show c - a = (c - (a + 1)) + 1 by omega, List.getD_cons_succ]
    · rw [if_neg h1]
      by_cases h2 : c = a
      · rw [if_pos h2, if_pos (by omega), h2, Nat.sub_self, List.getD_cons_zero]
      · rw [if_neg h2, if_neg (by omega)]

theorem memRead_memPut_out {m : List Host.Cell} (h : Memory.wf m = true) {a : Nat} {bs : List Byte} {c : Nat}
    (hc : c < a ∨ a + bs.length ≤ c) : memRead (memPut m a bs) c = memRead m c := by
  rw [memRead_memPut h, if_neg (by omega)]

@[simp] theorem memBytes_length (m : List Host.Cell) (a n : Nat) : (memBytes m a n).length = n := by
  induction n generalizing a with
  | zero => rfl
  | succ n ih => simp [memBytes, ih]

/-! ### Runs replaced -/

/-- The cells of a canonical memory within a run, at offsets from it, are canonical and lie within it. -/
def cellsOk (n : Nat) (cells : List Host.Cell) : Prop := memWfFrom 0 cells = true ∧ ∀ c ∈ cells, c.1 < n

theorem memWfFrom_iff {lo : Nat} {m : List Host.Cell} :
    memWfFrom lo m = true ↔ m.Pairwise (fun a b => a.1 < b.1) ∧ ∀ c ∈ m, lo ≤ c.1 ∧ c.2 ≠ memDefault := by
  induction m generalizing lo with
  | nil => simp [memWfFrom]
  | cons c t ih =>
    obtain ⟨k, b⟩ := c
    simp only [memWfFrom, Bool.and_eq_true, decide_eq_true_eq, bne_iff_ne, List.pairwise_cons, List.mem_cons, ih]
    constructor
    · rintro ⟨⟨h1, h2⟩, h3, h4⟩
      refine ⟨⟨fun a ha => by have := (h4 a ha).1; omega, h3⟩, ?_⟩
      rintro c (rfl | hc)
      · exact ⟨h1, h2⟩
      · exact ⟨by have := (h4 c hc).1; omega, (h4 c hc).2⟩
    · rintro ⟨⟨h1, h2⟩, h3⟩
      refine ⟨h3 _ (.inl rfl), h2, fun c hc => ⟨?_, (h3 c (.inr hc)).2⟩⟩
      have := h1 c hc
      omega

theorem cellsOk_memCells {m : List Host.Cell} (h : Memory.wf m = true) (a n : Nat) : cellsOk n (memCells m a n) := by
  rw [Memory.wf, memWfFrom_iff] at h
  refine ⟨memWfFrom_iff.mpr ⟨?_, ?_⟩, ?_⟩
  · rw [memCells, List.pairwise_map]
    refine (List.Pairwise.filter _ h.1).imp_of_mem ?_
    intro x y hx hy hxy
    simp only [List.mem_filter, Bool.and_eq_true, decide_eq_true_eq] at hx hy
    show x.1 - a < y.1 - a
    omega
  · intro c hc
    simp only [memCells, List.mem_map, List.mem_filter] at hc
    obtain ⟨d, ⟨hd, -⟩, rfl⟩ := hc
    exact ⟨Nat.zero_le _, (h.2 d hd).2⟩
  · intro c hc
    simp only [memCells, List.mem_map, List.mem_filter, Bool.and_eq_true, decide_eq_true_eq] at hc
    obtain ⟨d, ⟨_, hd⟩, rfl⟩ := hc
    show d.1 - a < n
    omega

theorem cellsOk_nil (n : Nat) : cellsOk n [] := ⟨rfl, by simp⟩

theorem wf_memReplace {m cells : List Host.Cell} {n : Nat} (h : Memory.wf m = true) (hc : cellsOk n cells) (a : Nat) :
    Memory.wf (memReplace m a n cells) = true := by
  rw [Memory.wf, memWfFrom_iff] at h ⊢
  obtain ⟨h1, h2⟩ := h
  have hc1 := memWfFrom_iff.mp hc.1
  constructor
  · rw [memReplace, List.pairwise_append, List.pairwise_append]
    refine ⟨⟨h1.filter _, ?_, ?_⟩, h1.filter _, ?_⟩
    · rw [List.pairwise_map]
      exact hc1.1.imp (fun hxy => by show _ + a < _ + a; omega)
    · intro x hx y hy
      simp only [List.mem_filter, decide_eq_true_eq] at hx
      simp only [List.mem_map] at hy
      obtain ⟨d, _, rfl⟩ := hy
      show x.1 < d.1 + a
      omega
    · intro x hx y hy
      simp only [List.mem_filter, decide_eq_true_eq] at hy
      simp only [List.mem_append, List.mem_filter, decide_eq_true_eq, List.mem_map] at hx
      rcases hx with hx | ⟨d, hd, rfl⟩
      · omega
      · have := hc.2 d hd
        show d.1 + a < y.1
        omega
  · intro c hc'
    simp only [memReplace, List.mem_append, List.mem_filter, List.mem_map] at hc'
    rcases hc' with (hx | ⟨d, hd, rfl⟩) | hx
    · exact h2 c hx.1
    · exact ⟨Nat.zero_le _, (hc1.2 d hd).2⟩
    · exact h2 c hx.1

theorem wf_memClear {m : List Host.Cell} (h : Memory.wf m = true) (a n : Nat) : Memory.wf (memClear m a n) = true :=
  wf_memReplace h (cellsOk_nil n) a

end Sys2Proof.Machine
end

