-- ==== Sys2Proof/Laws/PerInstr.lean ====
section
/-! SUPPORT. For every instruction: a well-formed one that has an encoding is what the decoder reads from its
bytes, and the bytes after it are left (R166 to R178). -/

namespace Sys2Proof.Laws.Coding

set_option Elab.async false

theorem bits_eq {n : Nat} {w lo : Nat} {d : BitVec n} (h : w / 2 ^ lo % 2 ^ n = d.toNat) : bits w lo n = d := by
  apply BitVec.eq_of_toNat_eq; simpa [bits] using h

/-- A word with its length bit set is decoded as 32 bits (R166). -/
theorem decode_word4 (w : Nat) (rest : List Byte) (h : w < 2 ^ 32) (hb : w % 2 = 1) :
    decode (wordBytes 4 w ++ rest) = (decode32 w).map (fun i => (i, rest)) := by
  simp only [wordBytes, List.cons_append, List.nil_append, decode, BitVec.toNat_ofNat]
  rw [if_neg (by omega)]
  congr 2
  omega

/-- A halfword with its length bit clear is decoded as 16 bits (R166). -/
theorem decode_word2 (w : Nat) (rest : List Byte) (h : w < 2 ^ 16) (hb : w % 2 = 0) :
    decode (wordBytes 2 w ++ rest) = (decCf w).map (fun i => (i, rest)) := by
  simp only [wordBytes, List.cons_append, List.nil_append, decode, BitVec.toNat_ofNat]
  rw [if_pos (by omega)]
  congr 2
  omega

/-- Decoding the bytes of a well-formed instruction gives it back, and leaves the bytes that follow. -/
def Statement (i : Instr) : Prop :=
  i.wf = true → (encode i).isSome = true → ∀ rest : List Byte, decode (encodeBytes i ++ rest) = .ok (i, rest)

theorem of32 {i : Instr} {w : Nat} (he : encode i = some (4, w)) (hw : w < 2 ^ 32) (hb : w % 2 = 1)
    (hd : decode32 w = .ok i) : Statement i := by
  intro _ _ rest
  rw [encodeBytes, he]
  show decode (wordBytes 4 w ++ rest) = _
  rw [decode_word4 w rest hw hb, hd]
  rfl

theorem of16 {i : Instr} {w : Nat} (he : encode i = some (2, w)) (hw : w < 2 ^ 16) (hb : w % 2 = 0)
    (hd : i.wf = true → decCf w = .ok i) : Statement i := by
  intro hwf _ rest
  rw [encodeBytes, he]
  show decode (wordBytes 2 w ++ rest) = _
  rw [decode_word2 w rest hw hb, hd hwf]
  rfl

/-- An event has no encoding. -/
theorem ofNone {i : Instr} (he : encode i = none) : Statement i := by
  intro _ h
  rw [he] at h
  cases h

theorem shape1 (m M F : Nat) (hm : m < 2 ^ 11) (hb : m % 2 = 1) (hM : m / 2 ^ 1 % 64 = M) (hF : m / 2 ^ 7 = F) (x0 : BitVec 7) (x1 : BitVec 7) (x2 : BitVec 7) {i : Instr}
    (he : encode i = some (4, (m + 0x0) + x0.toNat * 2 ^ 11 + x1.toNat * 2 ^ 18 + x2.toNat * 2 ^ 25))
    (hd : ∀ w, w / 2 ^ 1 % 64 = M → w / 2 ^ 7 % 16 = F → bits w 11 7 = x0 → bits w 18 7 = x1 → bits w 25 7 = x2 → decode32 w = .ok i) : Statement i := by
  have hx0 := x0.isLt
  have hx1 := x1.isLt
  have hx2 := x2.isLt
  exact of32 he (by omega) (by omega) (hd _ (by omega) (by omega) (bits_eq (by omega)) (bits_eq (by omega)) (bits_eq (by omega)))

theorem shape2 (m M F : Nat) (hm : m < 2 ^ 11) (hb : m % 2 = 1) (hM : m / 2 ^ 1 % 64 = M) (hF : m / 2 ^ 7 = F) (x0 : BitVec 7) (x1 : BitVec 7) {i : Instr}
    (he : encode i = some (4, (m + 0xE0000000) + x0.toNat * 2 ^ 11 + x1.toNat * 2 ^ 18))
    (hd : ∀ w, w / 2 ^ 1 % 64 = M → w / 2 ^ 7 % 16 = F → w / 2 ^ 25 % 128 = 112 → bits w 11 7 = x0 → bits w 18 7 = x1 → decode32 w = .ok i) : Statement i := by
  have hx0 := x0.isLt
  have hx1 := x1.isLt
  exact of32 he (by omega) (by omega) (hd _ (by omega) (by omega) (by omega) (bits_eq (by omega)) (bits_eq (by omega)))

theorem shape3 (m M F : Nat) (hm : m < 2 ^ 10) (hb : m % 2 = 1) (hM : m / 2 ^ 1 % 64 = M) (hF : m / 2 ^ 7 = F) (x0 : BitVec 6) (x1 : BitVec 6) (x2 : BitVec 10) {i : Instr}
    (he : encode i = some (4, (m + 0x0) + x0.toNat * 2 ^ 10 + x1.toNat * 2 ^ 16 + x2.toNat * 2 ^ 22))
    (hd : ∀ w, w / 2 ^ 1 % 64 = M → w / 2 ^ 7 % 8 = F → bits w 10 6 = x0 → bits w 16 6 = x1 → bits w 22 10 = x2 → decode32 w = .ok i) : Statement i := by
  have hx0 := x0.isLt
  have hx1 := x1.isLt
  have hx2 := x2.isLt
  exact of32 he (by omega) (by omega) (hd _ (by omega) (by omega) (bits_eq (by omega)) (bits_eq (by omega)) (bits_eq (by omega)))

theorem shape4 (m M F : Nat) (hm : m < 2 ^ 11) (hb : m % 2 = 1) (hM : m / 2 ^ 1 % 64 = M) (hF : m / 2 ^ 7 = F) (x0 : BitVec 5) (x1 : BitVec 7) (x2 : BitVec 7) {i : Instr}
    (he : encode i = some (4, (m + 0x20000) + x0.toNat * 2 ^ 11 + x1.toNat * 2 ^ 18 + x2.toNat * 2 ^ 25))
    (hd : ∀ w, w / 2 ^ 1 % 64 = M → w / 2 ^ 7 % 16 = F → w / 2 ^ 16 % 4 = 2 → bits w 11 5 = x0 → bits w 18 7 = x1 → bits w 25 7 = x2 → decode32 w = .ok i) : Statement i := by
  have hx0 := x0.isLt
  have hx1 := x1.isLt
  have hx2 := x2.isLt
  exact of32 he (by omega) (by omega) (hd _ (by omega) (by omega) (by omega) (bits_eq (by omega)) (bits_eq (by omega)) (bits_eq (by omega)))

theorem shape5 (m M : Nat) (hm : m < 2 ^ 7) (hb : m % 2 = 1) (hM : m / 2 ^ 1 % 64 = M) (x0 : BitVec 7) (x1 : BitVec 7) (x2 : BitVec 7) (x3 : BitVec 4) {i : Instr}
    (he : encode i = some (4, (m + 0x0) + x0.toNat * 2 ^ 11 + x1.toNat * 2 ^ 18 + x2.toNat * 2 ^ 25 + x3.toNat * 2 ^ 7))
    (hd : ∀ w, w / 2 ^ 1 % 64 = M → bits w 11 7 = x0 → bits w 18 7 = x1 → bits w 25 7 = x2 → bits w 7 4 = x3 → decode32 w = .ok i) : Statement i := by
  have hx0 := x0.isLt
  have hx1 := x1.isLt
  have hx2 := x2.isLt
  have hx3 := x3.isLt
  exact of32 he (by omega) (by omega) (hd _ (by omega) (bits_eq (by omega)) (bits_eq (by omega)) (bits_eq (by omega)) (bits_eq (by omega)))

theorem shape6 (m M F : Nat) (hm : m < 2 ^ 11) (hb : m % 2 = 1) (hM : m / 2 ^ 1 % 64 = M) (hF : m / 2 ^ 7 = F) (x0 : BitVec 6) (x1 : BitVec 7) (x2 : BitVec 7) {i : Instr}
    (he : encode i = some (4, (m + 0x0) + x0.toNat * 2 ^ 11 + x1.toNat * 2 ^ 18 + x2.toNat * 2 ^ 25))
    (hd : ∀ w, w / 2 ^ 1 % 64 = M → w / 2 ^ 7 % 16 = F → w / 2 ^ 17 % 2 = 0 → bits w 11 6 = x0 → bits w 18 7 = x1 → bits w 25 7 = x2 → decode32 w = .ok i) : Statement i := by
  have hx0 := x0.isLt
  have hx1 := x1.isLt
  have hx2 := x2.isLt
  exact of32 he (by omega) (by omega) (hd _ (by omega) (by omega) (by omega) (bits_eq (by omega)) (bits_eq (by omega)) (bits_eq (by omega)))

theorem shape7 (m M F : Nat) (hm : m < 2 ^ 11) (hb : m % 2 = 1) (hM : m / 2 ^ 1 % 64 = M) (hF : m / 2 ^ 7 = F) (x0 : BitVec 5) (x1 : BitVec 7) {i : Instr}
    (he : encode i = some (4, (m + 0xE0020000) + x0.toNat * 2 ^ 11 + x1.toNat * 2 ^ 18))
    (hd : ∀ w, w / 2 ^ 1 % 64 = M → w / 2 ^ 7 % 16 = F → w / 2 ^ 16 % 4 = 2 → w / 2 ^ 25 % 128 = 112 → bits w 11 5 = x0 → bits w 18 7 = x1 → decode32 w = .ok i) : Statement i := by
  have hx0 := x0.isLt
  have hx1 := x1.isLt
  exact of32 he (by omega) (by omega) (hd _ (by omega) (by omega) (by omega) (by omega) (bits_eq (by omega)) (bits_eq (by omega)))

theorem shape8 (m M F : Nat) (hm : m < 2 ^ 11) (hb : m % 2 = 1) (hM : m / 2 ^ 1 % 64 = M) (hF : m / 2 ^ 7 = F) (x0 : BitVec 5) {i : Instr}
    (he : encode i = some (4, (m + 0xE1C20000) + x0.toNat * 2 ^ 11))
    (hd : ∀ w, w / 2 ^ 1 % 64 = M → w / 2 ^ 7 % 16 = F → w / 2 ^ 16 % 65536 = 57794 → bits w 11 5 = x0 → decode32 w = .ok i) : Statement i := by
  have hx0 := x0.isLt
  exact of32 he (by omega) (by omega) (hd _ (by omega) (by omega) (by omega) (bits_eq (by omega)))

theorem shape9 (m M F : Nat) (hm : m < 2 ^ 11) (hb : m % 2 = 1) (hM : m / 2 ^ 1 % 64 = M) (hF : m / 2 ^ 7 = F) (x0 : BitVec 6) (x1 : BitVec 7) {i : Instr}
    (he : encode i = some (4, (m + 0xE0000000) + x0.toNat * 2 ^ 11 + x1.toNat * 2 ^ 18))
    (hd : ∀ w, w / 2 ^ 1 % 64 = M → w / 2 ^ 7 % 16 = F → w / 2 ^ 17 % 2 = 0 → w / 2 ^ 25 % 128 = 112 → bits w 11 6 = x0 → bits w 18 7 = x1 → decode32 w = .ok i) : Statement i := by
  have hx0 := x0.isLt
  have hx1 := x1.isLt
  exact of32 he (by omega) (by omega) (hd _ (by omega) (by omega) (by omega) (by omega) (bits_eq (by omega)) (bits_eq (by omega)))

theorem shape10 (m M F : Nat) (hm : m < 2 ^ 11) (hb : m % 2 = 1) (hM : m / 2 ^ 1 % 64 = M) (hF : m / 2 ^ 7 = F) (x0 : BitVec 5) (x1 : BitVec 5) (x2 : BitVec 5) {i : Instr}
    (he : encode i = some (4, (m + 0x0) + x0.toNat * 2 ^ 11 + x1.toNat * 2 ^ 16 + x2.toNat * 2 ^ 21))
    (hd : ∀ w, w / 2 ^ 1 % 64 = M → w / 2 ^ 7 % 16 = F → w / 2 ^ 26 % 64 = 0 → bits w 11 5 = x0 → bits w 16 5 = x1 → bits w 21 5 = x2 → decode32 w = .ok i) : Statement i := by
  have hx0 := x0.isLt
  have hx1 := x1.isLt
  have hx2 := x2.isLt
  exact of32 he (by omega) (by omega) (hd _ (by omega) (by omega) (by omega) (bits_eq (by omega)) (bits_eq (by omega)) (bits_eq (by omega)))

theorem shape11 (m M F : Nat) (hm : m < 2 ^ 11) (hb : m % 2 = 1) (hM : m / 2 ^ 1 % 64 = M) (hF : m / 2 ^ 7 = F) (x0 : BitVec 5) (x1 : BitVec 5) {i : Instr}
    (he : encode i = some (4, (m + 0x0) + x0.toNat * 2 ^ 11 + x1.toNat * 2 ^ 16))
    (hd : ∀ w, w / 2 ^ 1 % 64 = M → w / 2 ^ 7 % 16 = F → w / 2 ^ 21 % 2048 = 0 → bits w 11 5 = x0 → bits w 16 5 = x1 → decode32 w = .ok i) : Statement i := by
  have hx0 := x0.isLt
  have hx1 := x1.isLt
  exact of32 he (by omega) (by omega) (hd _ (by omega) (by omega) (by omega) (bits_eq (by omega)) (bits_eq (by omega)))

theorem shape12 (m M F : Nat) (hm : m < 2 ^ 10) (hb : m % 2 = 1) (hM : m / 2 ^ 1 % 64 = M) (hF : m / 2 ^ 7 = F) (x0 : BitVec 5) (x1 : BitVec 5) (x2 : BitVec 12) {i : Instr}
    (he : encode i = some (4, (m + 0x0) + x0.toNat * 2 ^ 10 + x1.toNat * 2 ^ 15 + x2.toNat * 2 ^ 20))
    (hd : ∀ w, w / 2 ^ 1 % 64 = M → w / 2 ^ 7 % 8 = F → bits w 10 5 = x0 → bits w 15 5 = x1 → bits w 20 12 = x2 → decode32 w = .ok i) : Statement i := by
  have hx0 := x0.isLt
  have hx1 := x1.isLt
  have hx2 := x2.isLt
  exact of32 he (by omega) (by omega) (hd _ (by omega) (by omega) (bits_eq (by omega)) (bits_eq (by omega)) (bits_eq (by omega)))

theorem shape13 (m M F : Nat) (hm : m < 2 ^ 10) (hb : m % 2 = 1) (hM : m / 2 ^ 1 % 64 = M) (hF : m / 2 ^ 7 = F) (x0 : BitVec 5) (x1 : BitVec 12) {i : Instr}
    (he : encode i = some (4, (m + 0x0) + x0.toNat * 2 ^ 10 + x1.toNat * 2 ^ 20))
    (hd : ∀ w, w / 2 ^ 1 % 64 = M → w / 2 ^ 7 % 8 = F → w / 2 ^ 15 % 32 = 0 → bits w 10 5 = x0 → bits w 20 12 = x1 → decode32 w = .ok i) : Statement i := by
  have hx0 := x0.isLt
  have hx1 := x1.isLt
  exact of32 he (by omega) (by omega) (hd _ (by omega) (by omega) (by omega) (bits_eq (by omega)) (bits_eq (by omega)))

theorem shape14 (m M F : Nat) (hm : m < 2 ^ 11) (hb : m % 2 = 1) (hM : m / 2 ^ 1 % 64 = M) (hF : m / 2 ^ 7 = F) (x0 : BitVec 5) {i : Instr}
    (he : encode i = some (4, (m + 0x0) + x0.toNat * 2 ^ 11))
    (hd : ∀ w, w / 2 ^ 1 % 64 = M → w / 2 ^ 7 % 16 = F → w / 2 ^ 16 % 65536 = 0 → bits w 11 5 = x0 → decode32 w = .ok i) : Statement i := by
  have hx0 := x0.isLt
  exact of32 he (by omega) (by omega) (hd _ (by omega) (by omega) (by omega) (bits_eq (by omega)))

theorem shape15 (m M F : Nat) (hm : m < 2 ^ 11) (hb : m % 2 = 1) (hM : m / 2 ^ 1 % 64 = M) (hF : m / 2 ^ 7 = F) (x0 : BitVec 5) {i : Instr}
    (he : encode i = some (4, (m + 0x0) + x0.toNat * 2 ^ 16))
    (hd : ∀ w, w / 2 ^ 1 % 64 = M → w / 2 ^ 7 % 16 = F → w / 2 ^ 11 % 32 = 0 → w / 2 ^ 21 % 2048 = 0 → bits w 16 5 = x0 → decode32 w = .ok i) : Statement i := by
  have hx0 := x0.isLt
  exact of32 he (by omega) (by omega) (hd _ (by omega) (by omega) (by omega) (by omega) (bits_eq (by omega)))

theorem shape16 (m M F : Nat) (hm : m < 2 ^ 11) (hb : m % 2 = 1) (hM : m / 2 ^ 1 % 64 = M) (hF : m / 2 ^ 7 = F) (x0 : BitVec 5) (x1 : BitVec 1) {i : Instr}
    (he : encode i = some (4, (m + 0x0) + x0.toNat * 2 ^ 16 + x1.toNat * 2 ^ 26))
    (hd : ∀ w, w / 2 ^ 1 % 64 = M → w / 2 ^ 7 % 16 = F → w / 2 ^ 11 % 32 = 0 → w / 2 ^ 21 % 32 = 0 → w / 2 ^ 27 % 32 = 0 → bits w 16 5 = x0 → bits w 26 1 = x1 → decode32 w = .ok i) : Statement i := by
  have hx0 := x0.isLt
  have hx1 := x1.isLt
  exact of32 he (by omega) (by omega) (hd _ (by omega) (by omega) (by omega) (by omega) (by omega) (bits_eq (by omega)) (bits_eq (by omega)))

theorem shape17 (m M F : Nat) (hm : m < 2 ^ 11) (hb : m % 2 = 1) (hM : m / 2 ^ 1 % 64 = M) (hF : m / 2 ^ 7 = F)  {i : Instr}
    (he : encode i = some (4, (m + 0x0)))
    (hd : ∀ w, w / 2 ^ 1 % 64 = M → w / 2 ^ 7 % 16 = F → w / 2 ^ 11 % 2097152 = 0 → decode32 w = .ok i) : Statement i := by
  exact of32 he (by omega) (by omega) (hd _ (by omega) (by omega) (by omega))

theorem shape18 (m M F : Nat) (hm : m < 2 ^ 10) (hb : m % 2 = 1) (hM : m / 2 ^ 1 % 64 = M) (hF : m / 2 ^ 7 = F) (x0 : BitVec 17) {i : Instr}
    (he : encode i = some (4, (m + 0x0) + x0.toNat * 2 ^ 15))
    (hd : ∀ w, w / 2 ^ 1 % 64 = M → w / 2 ^ 7 % 8 = F → w / 2 ^ 10 % 32 = 0 → bits w 15 17 = x0 → decode32 w = .ok i) : Statement i := by
  have hx0 := x0.isLt
  exact of32 he (by omega) (by omega) (hd _ (by omega) (by omega) (by omega) (bits_eq (by omega)))

theorem shape19 (m M F : Nat) (hm : m < 2 ^ 10) (hb : m % 2 = 1) (hM : m / 2 ^ 1 % 64 = M) (hF : m / 2 ^ 7 = F) (x0 : BitVec 5) (x1 : BitVec 17) {i : Instr}
    (he : encode i = some (4, (m + 0x0) + x0.toNat * 2 ^ 10 + x1.toNat * 2 ^ 15))
    (hd : ∀ w, w / 2 ^ 1 % 64 = M → w / 2 ^ 7 % 8 = F → bits w 10 5 = x0 → bits w 15 17 = x1 → decode32 w = .ok i) : Statement i := by
  have hx0 := x0.isLt
  have hx1 := x1.isLt
  exact of32 he (by omega) (by omega) (hd _ (by omega) (by omega) (bits_eq (by omega)) (bits_eq (by omega)))

theorem shape20 (m M F : Nat) (hm : m < 2 ^ 10) (hb : m % 2 = 1) (hM : m / 2 ^ 1 % 64 = M) (hF : m / 2 ^ 7 = F) (x0 : BitVec 3) (x1 : BitVec 19) {i : Instr}
    (he : encode i = some (4, (m + 0x0) + x0.toNat * 2 ^ 10 + x1.toNat * 2 ^ 13))
    (hd : ∀ w, w / 2 ^ 1 % 64 = M → w / 2 ^ 7 % 8 = F → bits w 10 3 = x0 → bits w 13 19 = x1 → decode32 w = .ok i) : Statement i := by
  have hx0 := x0.isLt
  have hx1 := x1.isLt
  exact of32 he (by omega) (by omega) (hd _ (by omega) (by omega) (bits_eq (by omega)) (bits_eq (by omega)))

theorem shape21 (m M F : Nat) (hm : m < 2 ^ 10) (hb : m % 2 = 1) (hM : m / 2 ^ 1 % 64 = M) (hF : m / 2 ^ 7 = F) (x0 : BitVec 3) (x1 : BitVec 5) {i : Instr}
    (he : encode i = some (4, (m + 0x0) + x0.toNat * 2 ^ 10 + x1.toNat * 2 ^ 13))
    (hd : ∀ w, w / 2 ^ 1 % 64 = M → w / 2 ^ 7 % 8 = F → w / 2 ^ 18 % 16384 = 0 → bits w 10 3 = x0 → bits w 13 5 = x1 → decode32 w = .ok i) : Statement i := by
  have hx0 := x0.isLt
  have hx1 := x1.isLt
  exact of32 he (by omega) (by omega) (hd _ (by omega) (by omega) (by omega) (bits_eq (by omega)) (bits_eq (by omega)))

theorem shape22 (m M F : Nat) (hm : m < 2 ^ 10) (hb : m % 2 = 1) (hM : m / 2 ^ 1 % 64 = M) (hF : m / 2 ^ 7 = F)  {i : Instr}
    (he : encode i = some (4, (m + 0x0)))
    (hd : ∀ w, w / 2 ^ 1 % 64 = M → w / 2 ^ 7 % 8 = F → w / 2 ^ 10 % 4194304 = 0 → decode32 w = .ok i) : Statement i := by
  exact of32 he (by omega) (by omega) (hd _ (by omega) (by omega) (by omega))

theorem shape23 (m M F : Nat) (hm : m < 2 ^ 10) (hb : m % 2 = 1) (hM : m / 2 ^ 1 % 64 = M) (hF : m / 2 ^ 7 = F) (x0 : BitVec 5) {i : Instr}
    (he : encode i = some (4, (m + 0x0) + x0.toNat * 2 ^ 13))
    (hd : ∀ w, w / 2 ^ 1 % 64 = M → w / 2 ^ 7 % 8 = F → w / 2 ^ 10 % 8 = 0 → w / 2 ^ 18 % 16384 = 0 → bits w 13 5 = x0 → decode32 w = .ok i) : Statement i := by
  have hx0 := x0.isLt
  exact of32 he (by omega) (by omega) (hd _ (by omega) (by omega) (by omega) (by omega) (bits_eq (by omega)))

theorem shape24 (m M F : Nat) (hm : m < 2 ^ 10) (hb : m % 2 = 1) (hM : m / 2 ^ 1 % 64 = M) (hF : m / 2 ^ 7 = F) (x0 : BitVec 5) (x1 : BitVec 5) (x2 : BitVec 9) {i : Instr}
    (he : encode i = some (4, (m + 0x0) + x0.toNat * 2 ^ 13 + x1.toNat * 2 ^ 18 + x2.toNat * 2 ^ 23))
    (hd : ∀ w, w / 2 ^ 1 % 64 = M → w / 2 ^ 7 % 8 = F → w / 2 ^ 10 % 8 = 0 → bits w 13 5 = x0 → bits w 18 5 = x1 → bits w 23 9 = x2 → decode32 w = .ok i) : Statement i := by
  have hx0 := x0.isLt
  have hx1 := x1.isLt
  have hx2 := x2.isLt
  exact of32 he (by omega) (by omega) (hd _ (by omega) (by omega) (by omega) (bits_eq (by omega)) (bits_eq (by omega)) (bits_eq (by omega)))

theorem shape25 (m M F : Nat) (hm : m < 2 ^ 11) (hb : m % 2 = 1) (hM : m / 2 ^ 1 % 64 = M) (hF : m / 2 ^ 7 = F) (x0 : BitVec 5) (x1 : BitVec 16) {i : Instr}
    (he : encode i = some (4, (m + 0x0) + x0.toNat * 2 ^ 11 + x1.toNat * 2 ^ 16))
    (hd : ∀ w, w / 2 ^ 1 % 64 = M → w / 2 ^ 7 % 16 = F → bits w 11 5 = x0 → bits w 16 16 = x1 → decode32 w = .ok i) : Statement i := by
  have hx0 := x0.isLt
  have hx1 := x1.isLt
  exact of32 he (by omega) (by omega) (hd _ (by omega) (by omega) (bits_eq (by omega)) (bits_eq (by omega)))

theorem shape26 (m M F : Nat) (hm : m < 2 ^ 11) (hb : m % 2 = 1) (hM : m / 2 ^ 1 % 64 = M) (hF : m / 2 ^ 7 = F) (x0 : BitVec 16) {i : Instr}
    (he : encode i = some (4, (m + 0x0) + x0.toNat * 2 ^ 16))
    (hd : ∀ w, w / 2 ^ 1 % 64 = M → w / 2 ^ 7 % 16 = F → w / 2 ^ 11 % 32 = 0 → bits w 16 16 = x0 → decode32 w = .ok i) : Statement i := by
  have hx0 := x0.isLt
  exact of32 he (by omega) (by omega) (hd _ (by omega) (by omega) (by omega) (bits_eq (by omega)))

theorem shape27 (m M F : Nat) (hm : m < 2 ^ 11) (hb : m % 2 = 1) (hM : m / 2 ^ 1 % 64 = M) (hF : m / 2 ^ 7 = F) (x0 : BitVec 6) (x1 : BitVec 5) (x2 : BitVec 6) (x3 : BitVec 1) (x4 : BitVec 3) {i : Instr}
    (he : encode i = some (4, (m + 0x0) + x0.toNat * 2 ^ 11 + x1.toNat * 2 ^ 17 + x2.toNat * 2 ^ 22 + x3.toNat * 2 ^ 28 + x4.toNat * 2 ^ 29))
    (hd : ∀ w, w / 2 ^ 1 % 64 = M → w / 2 ^ 7 % 16 = F → bits w 11 6 = x0 → bits w 17 5 = x1 → bits w 22 6 = x2 → bits w 28 1 = x3 → bits w 29 3 = x4 → decode32 w = .ok i) : Statement i := by
  have hx0 := x0.isLt
  have hx1 := x1.isLt
  have hx2 := x2.isLt
  have hx3 := x3.isLt
  have hx4 := x4.isLt
  exact of32 he (by omega) (by omega) (hd _ (by omega) (by omega) (bits_eq (by omega)) (bits_eq (by omega)) (bits_eq (by omega)) (bits_eq (by omega)) (bits_eq (by omega)))

theorem shape28 (m M F : Nat) (hm : m < 2 ^ 11) (hb : m % 2 = 1) (hM : m / 2 ^ 1 % 64 = M) (hF : m / 2 ^ 7 = F) (x0 : BitVec 2) {i : Instr}
    (he : encode i = some (4, (m + 0x0) + x0.toNat * 2 ^ 26))
    (hd : ∀ w, w / 2 ^ 1 % 64 = M → w / 2 ^ 7 % 16 = F → w / 2 ^ 11 % 32768 = 0 → w / 2 ^ 28 % 16 = 0 → bits w 26 2 = x0 → decode32 w = .ok i) : Statement i := by
  have hx0 := x0.isLt
  exact of32 he (by omega) (by omega) (hd _ (by omega) (by omega) (by omega) (by omega) (bits_eq (by omega)))

theorem shape29 (m M F : Nat) (hm : m < 2 ^ 11) (hb : m % 2 = 1) (hM : m / 2 ^ 1 % 64 = M) (hF : m / 2 ^ 7 = F) (x0 : BitVec 5) (x1 : BitVec 2) {i : Instr}
    (he : encode i = some (4, (m + 0x0) + x0.toNat * 2 ^ 11 + x1.toNat * 2 ^ 26))
    (hd : ∀ w, w / 2 ^ 1 % 64 = M → w / 2 ^ 7 % 16 = F → w / 2 ^ 16 % 1024 = 0 → w / 2 ^ 28 % 16 = 0 → bits w 11 5 = x0 → bits w 26 2 = x1 → decode32 w = .ok i) : Statement i := by
  have hx0 := x0.isLt
  have hx1 := x1.isLt
  exact of32 he (by omega) (by omega) (hd _ (by omega) (by omega) (by omega) (by omega) (bits_eq (by omega)) (bits_eq (by omega)))

theorem shape30 (m M F : Nat) (hm : m < 2 ^ 11) (hb : m % 2 = 1) (hM : m / 2 ^ 1 % 64 = M) (hF : m / 2 ^ 7 = F) (x0 : BitVec 5) (x1 : BitVec 1) {i : Instr}
    (he : encode i = some (4, (m + 0x0) + x0.toNat * 2 ^ 11 + x1.toNat * 2 ^ 31))
    (hd : ∀ w, w / 2 ^ 1 % 64 = M → w / 2 ^ 7 % 16 = F → w / 2 ^ 16 % 32768 = 0 → bits w 11 5 = x0 → bits w 31 1 = x1 → decode32 w = .ok i) : Statement i := by
  have hx0 := x0.isLt
  have hx1 := x1.isLt
  exact of32 he (by omega) (by omega) (hd _ (by omega) (by omega) (by omega) (bits_eq (by omega)) (bits_eq (by omega)))

theorem shape31 (m M F : Nat) (hm : m < 2 ^ 11) (hb : m % 2 = 1) (hM : m / 2 ^ 1 % 64 = M) (hF : m / 2 ^ 7 = F) (x0 : BitVec 5) (x1 : BitVec 5) (x2 : BitVec 5) (x3 : BitVec 1) {i : Instr}
    (he : encode i = some (4, (m + 0x0) + x0.toNat * 2 ^ 11 + x1.toNat * 2 ^ 16 + x2.toNat * 2 ^ 21 + x3.toNat * 2 ^ 31))
    (hd : ∀ w, w / 2 ^ 1 % 64 = M → w / 2 ^ 7 % 16 = F → w / 2 ^ 26 % 32 = 0 → bits w 11 5 = x0 → bits w 16 5 = x1 → bits w 21 5 = x2 → bits w 31 1 = x3 → decode32 w = .ok i) : Statement i := by
  have hx0 := x0.isLt
  have hx1 := x1.isLt
  have hx2 := x2.isLt
  have hx3 := x3.isLt
  exact of32 he (by omega) (by omega) (hd _ (by omega) (by omega) (by omega) (bits_eq (by omega)) (bits_eq (by omega)) (bits_eq (by omega)) (bits_eq (by omega)))

theorem shape32 (m M F : Nat) (hm : m < 2 ^ 11) (hb : m % 2 = 1) (hM : m / 2 ^ 1 % 64 = M) (hF : m / 2 ^ 7 = F) (x0 : BitVec 5) (x1 : BitVec 5) (x2 : BitVec 5) (x3 : BitVec 1) (x4 : BitVec 1) {i : Instr}
    (he : encode i = some (4, (m + 0x0) + x0.toNat * 2 ^ 11 + x1.toNat * 2 ^ 16 + x2.toNat * 2 ^ 21 + x3.toNat * 2 ^ 26 + x4.toNat * 2 ^ 31))
    (hd : ∀ w, w / 2 ^ 1 % 64 = M → w / 2 ^ 7 % 16 = F → w / 2 ^ 27 % 16 = 0 → bits w 11 5 = x0 → bits w 16 5 = x1 → bits w 21 5 = x2 → bits w 26 1 = x3 → bits w 31 1 = x4 → decode32 w = .ok i) : Statement i := by
  have hx0 := x0.isLt
  have hx1 := x1.isLt
  have hx2 := x2.isLt
  have hx3 := x3.isLt
  have hx4 := x4.isLt
  exact of32 he (by omega) (by omega) (hd _ (by omega) (by omega) (by omega) (bits_eq (by omega)) (bits_eq (by omega)) (bits_eq (by omega)) (bits_eq (by omega)) (bits_eq (by omega)))

theorem shape33 (m M F : Nat) (hm : m < 2 ^ 11) (hb : m % 2 = 1) (hM : m / 2 ^ 1 % 64 = M) (hF : m / 2 ^ 7 = F) (x0 : BitVec 5) (x1 : BitVec 5) (x2 : BitVec 5) (x3 : BitVec 1) (x4 : BitVec 1) (x5 : BitVec 1) {i : Instr}
    (he : encode i = some (4, (m + 0x0) + x0.toNat * 2 ^ 11 + x1.toNat * 2 ^ 16 + x2.toNat * 2 ^ 21 + x3.toNat * 2 ^ 27 + x4.toNat * 2 ^ 26 + x5.toNat * 2 ^ 31))
    (hd : ∀ w, w / 2 ^ 1 % 64 = M → w / 2 ^ 7 % 16 = F → w / 2 ^ 28 % 8 = 0 → bits w 11 5 = x0 → bits w 16 5 = x1 → bits w 21 5 = x2 → bits w 27 1 = x3 → bits w 26 1 = x4 → bits w 31 1 = x5 → decode32 w = .ok i) : Statement i := by
  have hx0 := x0.isLt
  have hx1 := x1.isLt
  have hx2 := x2.isLt
  have hx3 := x3.isLt
  have hx4 := x4.isLt
  have hx5 := x5.isLt
  exact of32 he (by omega) (by omega) (hd _ (by omega) (by omega) (by omega) (bits_eq (by omega)) (bits_eq (by omega)) (bits_eq (by omega)) (bits_eq (by omega)) (bits_eq (by omega)) (bits_eq (by omega)))

theorem shape34 (m M F : Nat) (hm : m < 2 ^ 11) (hb : m % 2 = 1) (hM : m / 2 ^ 1 % 64 = M) (hF : m / 2 ^ 7 = F) (x0 : BitVec 5) (x1 : BitVec 5) (x2 : BitVec 5) (x3 : BitVec 2) (x4 : BitVec 1) {i : Instr}
    (he : encode i = some (4, (m + 0x0) + x0.toNat * 2 ^ 11 + x1.toNat * 2 ^ 16 + x2.toNat * 2 ^ 21 + x3.toNat * 2 ^ 26 + x4.toNat * 2 ^ 31))
    (hd : ∀ w, w / 2 ^ 1 % 64 = M → w / 2 ^ 7 % 16 = F → w / 2 ^ 28 % 8 = 0 → bits w 11 5 = x0 → bits w 16 5 = x1 → bits w 21 5 = x2 → bits w 26 2 = x3 → bits w 31 1 = x4 → decode32 w = .ok i) : Statement i := by
  have hx0 := x0.isLt
  have hx1 := x1.isLt
  have hx2 := x2.isLt
  have hx3 := x3.isLt
  have hx4 := x4.isLt
  exact of32 he (by omega) (by omega) (hd _ (by omega) (by omega) (by omega) (bits_eq (by omega)) (bits_eq (by omega)) (bits_eq (by omega)) (bits_eq (by omega)) (bits_eq (by omega)))

theorem shape35 (m M F : Nat) (hm : m < 2 ^ 11) (hb : m % 2 = 1) (hM : m / 2 ^ 1 % 64 = M) (hF : m / 2 ^ 7 = F) (x0 : BitVec 5) (x1 : BitVec 5) (x2 : BitVec 1) (x3 : BitVec 1) {i : Instr}
    (he : encode i = some (4, (m + 0x0) + x0.toNat * 2 ^ 11 + x1.toNat * 2 ^ 16 + x2.toNat * 2 ^ 26 + x3.toNat * 2 ^ 31))
    (hd : ∀ w, w / 2 ^ 1 % 64 = M → w / 2 ^ 7 % 16 = F → w / 2 ^ 21 % 32 = 0 → w / 2 ^ 27 % 16 = 0 → bits w 11 5 = x0 → bits w 16 5 = x1 → bits w 26 1 = x2 → bits w 31 1 = x3 → decode32 w = .ok i) : Statement i := by
  have hx0 := x0.isLt
  have hx1 := x1.isLt
  have hx2 := x2.isLt
  have hx3 := x3.isLt
  exact of32 he (by omega) (by omega) (hd _ (by omega) (by omega) (by omega) (by omega) (bits_eq (by omega)) (bits_eq (by omega)) (bits_eq (by omega)) (bits_eq (by omega)))

theorem shape36 (m M F : Nat) (hm : m < 2 ^ 11) (hb : m % 2 = 1) (hM : m / 2 ^ 1 % 64 = M) (hF : m / 2 ^ 7 = F) (x0 : BitVec 5) (x1 : BitVec 5) (x2 : BitVec 5) {i : Instr}
    (he : encode i = some (4, (m + 0x0) + x0.toNat * 2 ^ 11 + x1.toNat * 2 ^ 16 + x2.toNat * 2 ^ 21))
    (hd : ∀ w, w / 2 ^ 1 % 64 = M → w / 2 ^ 7 % 16 = F → w / 2 ^ 21 % 2048 ≠ 32 → w / 2 ^ 26 % 64 = 0 → bits w 11 5 = x0 → bits w 16 5 = x1 → bits w 21 5 = x2 → decode32 w = .ok i) : Statement i := by
  have hx0 := x0.isLt
  have hx1 := x1.isLt
  have hx2 := x2.isLt
  exact of32 he (by omega) (by omega) (hd _ (by omega) (by omega) (by omega) (by omega) (bits_eq (by omega)) (bits_eq (by omega)) (bits_eq (by omega)))

theorem shape37 (m M F : Nat) (hm : m < 2 ^ 11) (hb : m % 2 = 1) (hM : m / 2 ^ 1 % 64 = M) (hF : m / 2 ^ 7 = F) (x0 : BitVec 5) {i : Instr}
    (he : encode i = some (4, (m + 0x4000000) + x0.toNat * 2 ^ 16))
    (hd : ∀ w, w / 2 ^ 1 % 64 = M → w / 2 ^ 7 % 16 = F → w / 2 ^ 11 % 32 = 0 → w / 2 ^ 21 % 2048 = 32 → bits w 16 5 = x0 → decode32 w = .ok i) : Statement i := by
  have hx0 := x0.isLt
  exact of32 he (by omega) (by omega) (hd _ (by omega) (by omega) (by omega) (by omega) (bits_eq (by omega)))

theorem shape38 (m M F : Nat) (hm : m < 2 ^ 11) (hb : m % 2 = 1) (hM : m / 2 ^ 1 % 64 = M) (hF : m / 2 ^ 7 = F) (x0 : BitVec 7) (x1 : BitVec 7) {i : Instr}
    (he : encode i = some (4, (m + 0x38000) + x0.toNat * 2 ^ 18 + x1.toNat * 2 ^ 25))
    (hd : ∀ w, w / 2 ^ 1 % 64 = M → w / 2 ^ 7 % 16 = F → w / 2 ^ 11 % 128 = 112 → bits w 18 7 = x0 → bits w 25 7 = x1 → decode32 w = .ok i) : Statement i := by
  have hx0 := x0.isLt
  have hx1 := x1.isLt
  exact of32 he (by omega) (by omega) (hd _ (by omega) (by omega) (by omega) (bits_eq (by omega)) (bits_eq (by omega)))

theorem shape39 (m M F : Nat) (hm : m < 2 ^ 11) (hb : m % 2 = 1) (hM : m / 2 ^ 1 % 64 = M) (hF : m / 2 ^ 7 = F) (x0 : BitVec 5) (x1 : BitVec 5) (x2 : BitVec 5) (x3 : BitVec 1) {i : Instr}
    (he : encode i = some (4, (m + 0x0) + x0.toNat * 2 ^ 11 + x1.toNat * 2 ^ 16 + x2.toNat * 2 ^ 21 + x3.toNat * 2 ^ 26))
    (hd : ∀ w, w / 2 ^ 1 % 64 = M → w / 2 ^ 7 % 16 = F → w / 2 ^ 27 % 32 = 0 → bits w 11 5 = x0 → bits w 16 5 = x1 → bits w 21 5 = x2 → bits w 26 1 = x3 → decode32 w = .ok i) : Statement i := by
  have hx0 := x0.isLt
  have hx1 := x1.isLt
  have hx2 := x2.isLt
  have hx3 := x3.isLt
  exact of32 he (by omega) (by omega) (hd _ (by omega) (by omega) (by omega) (bits_eq (by omega)) (bits_eq (by omega)) (bits_eq (by omega)) (bits_eq (by omega)))

theorem shape40 (m M F : Nat) (hm : m < 2 ^ 11) (hb : m % 2 = 1) (hM : m / 2 ^ 1 % 64 = M) (hF : m / 2 ^ 7 = F) (x0 : BitVec 5) (x1 : BitVec 5) (x2 : BitVec 1) {i : Instr}
    (he : encode i = some (4, (m + 0x0) + x0.toNat * 2 ^ 11 + x1.toNat * 2 ^ 16 + x2.toNat * 2 ^ 26))
    (hd : ∀ w, w / 2 ^ 1 % 64 = M → w / 2 ^ 7 % 16 = F → w / 2 ^ 21 % 32 = 0 → w / 2 ^ 27 % 32 = 0 → bits w 11 5 = x0 → bits w 16 5 = x1 → bits w 26 1 = x2 → decode32 w = .ok i) : Statement i := by
  have hx0 := x0.isLt
  have hx1 := x1.isLt
  have hx2 := x2.isLt
  exact of32 he (by omega) (by omega) (hd _ (by omega) (by omega) (by omega) (by omega) (bits_eq (by omega)) (bits_eq (by omega)) (bits_eq (by omega)))

theorem shape41 (m M F : Nat) (hm : m < 2 ^ 11) (hb : m % 2 = 1) (hM : m / 2 ^ 1 % 64 = M) (hF : m / 2 ^ 7 = F) (x0 : BitVec 5) (x1 : BitVec 5) (x2 : BitVec 5) (x3 : BitVec 3) {i : Instr}
    (he : encode i = some (4, (m + 0x0) + x0.toNat * 2 ^ 11 + x1.toNat * 2 ^ 16 + x2.toNat * 2 ^ 21 + x3.toNat * 2 ^ 26))
    (hd : ∀ w, w / 2 ^ 1 % 64 = M → w / 2 ^ 7 % 16 = F → w / 2 ^ 29 % 8 = 0 → bits w 11 5 = x0 → bits w 16 5 = x1 → bits w 21 5 = x2 → bits w 26 3 = x3 → decode32 w = .ok i) : Statement i := by
  have hx0 := x0.isLt
  have hx1 := x1.isLt
  have hx2 := x2.isLt
  have hx3 := x3.isLt
  exact of32 he (by omega) (by omega) (hd _ (by omega) (by omega) (by omega) (bits_eq (by omega)) (bits_eq (by omega)) (bits_eq (by omega)) (bits_eq (by omega)))

theorem shape42 (m M F : Nat) (hm : m < 2 ^ 11) (hb : m % 2 = 1) (hM : m / 2 ^ 1 % 64 = M) (hF : m / 2 ^ 7 = F) (x0 : BitVec 5) (x1 : BitVec 5) (x2 : BitVec 5) (x3 : BitVec 6) {i : Instr}
    (he : encode i = some (4, (m + 0x0) + x0.toNat * 2 ^ 11 + x1.toNat * 2 ^ 16 + x2.toNat * 2 ^ 21 + x3.toNat * 2 ^ 26))
    (hd : ∀ w, w / 2 ^ 1 % 64 = M → w / 2 ^ 7 % 16 = F → bits w 11 5 = x0 → bits w 16 5 = x1 → bits w 21 5 = x2 → bits w 26 6 = x3 → decode32 w = .ok i) : Statement i := by
  have hx0 := x0.isLt
  have hx1 := x1.isLt
  have hx2 := x2.isLt
  have hx3 := x3.isLt
  exact of32 he (by omega) (by omega) (hd _ (by omega) (by omega) (bits_eq (by omega)) (bits_eq (by omega)) (bits_eq (by omega)) (bits_eq (by omega)))

theorem shape43 (m M : Nat) (hm : m < 2 ^ 7) (hb : m % 2 = 1) (hM : m / 2 ^ 1 % 64 = M) (x0 : BitVec 25) {i : Instr}
    (he : encode i = some (4, (m + 0x0) + x0.toNat * 2 ^ 7))
    (hd : ∀ w, w / 2 ^ 1 % 64 = M → bits w 7 25 = x0 → decode32 w = .ok i) : Statement i := by
  have hx0 := x0.isLt
  exact of32 he (by omega) (by omega) (hd _ (by omega) (bits_eq (by omega)))

theorem major_decIa {w : Nat} (h : w / 2 ^ 1 % 64 = 0) : decode32 w = decIa w := by simp only [decode32, h]
theorem major_decIl {w : Nat} (h : w / 2 ^ 1 % 64 = 1) : decode32 w = decIl w := by simp only [decode32, h]
theorem major_decIai {w : Nat} (h : w / 2 ^ 1 % 64 = 2) : decode32 w = decIai w := by simp only [decode32, h]
theorem major_decFa {w : Nat} (h : w / 2 ^ 1 % 64 = 3) : decode32 w = decFa w := by simp only [decode32, h]
theorem major_decFh {w : Nat} (h : w / 2 ^ 1 % 64 = 4) : decode32 w = decFh w := by simp only [decode32, h]
theorem major_decFx {w : Nat} (h : w / 2 ^ 1 % 64 = 5) : decode32 w = decFx w := by simp only [decode32, h]
theorem major_decCv {w : Nat} (h : w / 2 ^ 1 % 64 = 6) : decode32 w = decCv w := by simp only [decode32, h]
theorem major_decCmp {w : Nat} (h : w / 2 ^ 1 % 64 = 7) : decode32 w = decCmp w := by simp only [decode32, h]
theorem major_decSel {w : Nat} (h : w / 2 ^ 1 % 64 = 8) : decode32 w = decSel w := by simp only [decode32, h]
theorem major_decXl {w : Nat} (h : w / 2 ^ 1 % 64 = 9) : decode32 w = decXl w := by simp only [decode32, h]
theorem major_decDp {w : Nat} (h : w / 2 ^ 1 % 64 = 10) : decode32 w = decDp w := by simp only [decode32, h]
theorem major_decShp {w : Nat} (h : w / 2 ^ 1 % 64 = 11) : decode32 w = decShp w := by simp only [decode32, h]
theorem major_decSa {w : Nat} (h : w / 2 ^ 1 % 64 = 12) : decode32 w = decSa w := by simp only [decode32, h]
theorem major_decSai {w : Nat} (h : w / 2 ^ 1 % 64 = 13) : decode32 w = decSai w := by simp only [decode32, h]
theorem major_decMask {w : Nat} (h : w / 2 ^ 1 % 64 = 14) : decode32 w = decMask w := by simp only [decode32, h]
theorem major_decBr {w : Nat} (h : w / 2 ^ 1 % 64 = 15) : decode32 w = decBr w := by simp only [decode32, h]
theorem major_decJmp {w : Nat} (h : w / 2 ^ 1 % 64 = 16) : decode32 w = decJmp w := by simp only [decode32, h]
theorem major_decCtl {w : Nat} (h : w / 2 ^ 1 % 64 = 17) : decode32 w = decCtl w := by simp only [decode32, h]
theorem major_decLd {w : Nat} (h : w / 2 ^ 1 % 64 = 18) : decode32 w = decLd w := by simp only [decode32, h]
theorem major_decSt {w : Nat} (h : w / 2 ^ 1 % 64 = 19) : decode32 w = decSt w := by simp only [decode32, h]
theorem major_decSm {w : Nat} (h : w / 2 ^ 1 % 64 = 20) : decode32 w = decSm w := by simp only [decode32, h]
theorem major_decAt {w : Nat} (h : w / 2 ^ 1 % 64 = 21) : decode32 w = decAt w := by simp only [decode32, h]
theorem major_decSpm {w : Nat} (h : w / 2 ^ 1 % 64 = 22) : decode32 w = decSpm w := by simp only [decode32, h]
theorem major_decSync {w : Nat} (h : w / 2 ^ 1 % 64 = 23) : decode32 w = decSync w := by simp only [decode32, h]
theorem major_decMx {w : Nat} (h : w / 2 ^ 1 % 64 = 24) : decode32 w = decMx w := by simp only [decode32, h]
theorem major_decCp {w : Nat} (h : w / 2 ^ 1 % 64 = 25) : decode32 w = decCp w := by simp only [decode32, h]
theorem major_decSq {w : Nat} (h : w / 2 ^ 1 % 64 = 26) : decode32 w = decSq w := by simp only [decode32, h]
theorem major_decGx {w : Nat} (h : w / 2 ^ 1 % 64 = 27) : decode32 w = decGx w := by simp only [decode32, h]
theorem major_decMap {w : Nat} (h : w / 2 ^ 1 % 64 = 28) : decode32 w = decMap w := by simp only [decode32, h]
theorem major_decLnch {w : Nat} (h : w / 2 ^ 1 % 64 = 29) : decode32 w = decLnch w := by simp only [decode32, h]
theorem major_decSys {w : Nat} (h : w / 2 ^ 1 % 64 = 30) : decode32 w = decSys w := by simp only [decode32, h]
theorem major_decExt {w : Nat} (h : w / 2 ^ 1 % 64 = 63) : decode32 w = decExt w := by simp only [decode32, h]

/-- The 16-bit forms (R173). -/
theorem cf (k : Nat) (x0 : BitVec 6) (x1 : BitVec 5) {i : Instr} (hk : k < 16)
    (he : encode i = some (2, 2 * k + x0.toNat * 2 ^ 5 + x1.toNat * 2 ^ 11))
    (hd : ∀ w, i.wf = true → w / 2 ^ 1 % 16 = k → bits w 5 6 = x0 → bits w 11 5 = x1 →
      (x0 ≠ 0 ∨ x1 ≠ 0 → w % 2 ^ 16 ≠ 0) → decCf w = .ok i) : Statement i := by
  have h0 := x0.isLt
  have h1 := x1.isLt
  refine of16 he (by omega) (by omega) (fun hwf => hd _ hwf (by omega) (bits_eq (by omega)) (bits_eq (by omega)) ?_)
  rintro (h | h) hz
  · exact h (BitVec.eq_of_toNat_eq (show x0.toNat = 0 by omega))
  · exact h (BitVec.eq_of_toNat_eq (show x1.toNat = 0 by omega))

theorem iaAdd (x0 : BitVec 7) (x1 : BitVec 7) (x2 : BitVec 7) : Statement (.iaAdd x0 x1 x2) := shape1 0x1 0 0 (by decide) rfl rfl rfl x0 x1 x2 rfl (fun w hM hF h0 h1 h2 => (major_decIa hM).trans (by
  simp only [decIa, hF, h0, h1, h2]))
theorem iaSub (x0 : BitVec 7) (x1 : BitVec 7) (x2 : BitVec 7) : Statement (.iaSub x0 x1 x2) := shape1 0x81 0 1 (by decide) rfl rfl rfl x0 x1 x2 rfl (fun w hM hF h0 h1 h2 => (major_decIa hM).trans (by
  simp only [decIa, hF, h0, h1, h2]))
theorem iaMullo (x0 : BitVec 7) (x1 : BitVec 7) (x2 : BitVec 7) : Statement (.iaMullo x0 x1 x2) := shape1 0x101 0 2 (by decide) rfl rfl rfl x0 x1 x2 rfl (fun w hM hF h0 h1 h2 => (major_decIa hM).trans (by
  simp only [decIa, hF, h0, h1, h2]))
theorem iaMulhi (x0 : BitVec 7) (x1 : BitVec 7) (x2 : BitVec 7) : Statement (.iaMulhi x0 x1 x2) := shape1 0x181 0 3 (by decide) rfl rfl rfl x0 x1 x2 rfl (fun w hM hF h0 h1 h2 => (major_decIa hM).trans (by
  simp only [decIa, hF, h0, h1, h2]))
theorem iaMulhin (x0 : BitVec 7) (x1 : BitVec 7) (x2 : BitVec 7) : Statement (.iaMulhin x0 x1 x2) := shape1 0x201 0 4 (by decide) rfl rfl rfl x0 x1 x2 rfl (fun w hM hF h0 h1 h2 => (major_decIa hM).trans (by
  simp only [decIa, hF, h0, h1, h2]))
theorem iaMin (x0 : BitVec 7) (x1 : BitVec 7) (x2 : BitVec 7) : Statement (.iaMin x0 x1 x2) := shape1 0x281 0 5 (by decide) rfl rfl rfl x0 x1 x2 rfl (fun w hM hF h0 h1 h2 => (major_decIa hM).trans (by
  simp only [decIa, hF, h0, h1, h2]))
theorem iaMax (x0 : BitVec 7) (x1 : BitVec 7) (x2 : BitVec 7) : Statement (.iaMax x0 x1 x2) := shape1 0x301 0 6 (by decide) rfl rfl rfl x0 x1 x2 rfl (fun w hM hF h0 h1 h2 => (major_decIa hM).trans (by
  simp only [decIa, hF, h0, h1, h2]))
theorem iaMinn (x0 : BitVec 7) (x1 : BitVec 7) (x2 : BitVec 7) : Statement (.iaMinn x0 x1 x2) := shape1 0x381 0 7 (by decide) rfl rfl rfl x0 x1 x2 rfl (fun w hM hF h0 h1 h2 => (major_decIa hM).trans (by
  simp only [decIa, hF, h0, h1, h2]))
theorem iaMaxn (x0 : BitVec 7) (x1 : BitVec 7) (x2 : BitVec 7) : Statement (.iaMaxn x0 x1 x2) := shape1 0x401 0 8 (by decide) rfl rfl rfl x0 x1 x2 rfl (fun w hM hF h0 h1 h2 => (major_decIa hM).trans (by
  simp only [decIa, hF, h0, h1, h2]))
theorem iaAdds (x0 : BitVec 7) (x1 : BitVec 7) (x2 : BitVec 7) : Statement (.iaAdds x0 x1 x2) := shape1 0x481 0 9 (by decide) rfl rfl rfl x0 x1 x2 rfl (fun w hM hF h0 h1 h2 => (major_decIa hM).trans (by
  simp only [decIa, hF, h0, h1, h2]))
theorem iaAddsn (x0 : BitVec 7) (x1 : BitVec 7) (x2 : BitVec 7) : Statement (.iaAddsn x0 x1 x2) := shape1 0x501 0 10 (by decide) rfl rfl rfl x0 x1 x2 rfl (fun w hM hF h0 h1 h2 => (major_decIa hM).trans (by
  simp only [decIa, hF, h0, h1, h2]))
theorem iaSubs (x0 : BitVec 7) (x1 : BitVec 7) (x2 : BitVec 7) : Statement (.iaSubs x0 x1 x2) := shape1 0x581 0 11 (by decide) rfl rfl rfl x0 x1 x2 rfl (fun w hM hF h0 h1 h2 => (major_decIa hM).trans (by
  simp only [decIa, hF, h0, h1, h2]))
theorem iaSubsn (x0 : BitVec 7) (x1 : BitVec 7) (x2 : BitVec 7) : Statement (.iaSubsn x0 x1 x2) := shape1 0x601 0 12 (by decide) rfl rfl rfl x0 x1 x2 rfl (fun w hM hF h0 h1 h2 => (major_decIa hM).trans (by
  simp only [decIa, hF, h0, h1, h2]))
theorem iaAbsdiff (x0 : BitVec 7) (x1 : BitVec 7) (x2 : BitVec 7) : Statement (.iaAbsdiff x0 x1 x2) := shape1 0x681 0 13 (by decide) rfl rfl rfl x0 x1 x2 rfl (fun w hM hF h0 h1 h2 => (major_decIa hM).trans (by
  simp only [decIa, hF, h0, h1, h2]))
theorem ilAnd (x0 : BitVec 7) (x1 : BitVec 7) (x2 : BitVec 7) : Statement (.ilAnd x0 x1 x2) := shape1 0x3 1 0 (by decide) rfl rfl rfl x0 x1 x2 rfl (fun w hM hF h0 h1 h2 => (major_decIl hM).trans (by
  simp only [decIl, hF, h0, h1, h2]))
theorem ilOr (x0 : BitVec 7) (x1 : BitVec 7) (x2 : BitVec 7) : Statement (.ilOr x0 x1 x2) := shape1 0x83 1 1 (by decide) rfl rfl rfl x0 x1 x2 rfl (fun w hM hF h0 h1 h2 => (major_decIl hM).trans (by
  simp only [decIl, hF, h0, h1, h2]))
theorem ilXor (x0 : BitVec 7) (x1 : BitVec 7) (x2 : BitVec 7) : Statement (.ilXor x0 x1 x2) := shape1 0x103 1 2 (by decide) rfl rfl rfl x0 x1 x2 rfl (fun w hM hF h0 h1 h2 => (major_decIl hM).trans (by
  simp only [decIl, hF, h0, h1, h2]))
theorem ilAndn (x0 : BitVec 7) (x1 : BitVec 7) (x2 : BitVec 7) : Statement (.ilAndn x0 x1 x2) := shape1 0x183 1 3 (by decide) rfl rfl rfl x0 x1 x2 rfl (fun w hM hF h0 h1 h2 => (major_decIl hM).trans (by
  simp only [decIl, hF, h0, h1, h2]))
theorem ilOrn (x0 : BitVec 7) (x1 : BitVec 7) (x2 : BitVec 7) : Statement (.ilOrn x0 x1 x2) := shape1 0x203 1 4 (by decide) rfl rfl rfl x0 x1 x2 rfl (fun w hM hF h0 h1 h2 => (major_decIl hM).trans (by
  simp only [decIl, hF, h0, h1, h2]))
theorem ilShl (x0 : BitVec 7) (x1 : BitVec 7) (x2 : BitVec 7) : Statement (.ilShl x0 x1 x2) := shape1 0x283 1 5 (by decide) rfl rfl rfl x0 x1 x2 rfl (fun w hM hF h0 h1 h2 => (major_decIl hM).trans (by
  simp only [decIl, hF, h0, h1, h2]))
theorem ilShr (x0 : BitVec 7) (x1 : BitVec 7) (x2 : BitVec 7) : Statement (.ilShr x0 x1 x2) := shape1 0x303 1 6 (by decide) rfl rfl rfl x0 x1 x2 rfl (fun w hM hF h0 h1 h2 => (major_decIl hM).trans (by
  simp only [decIl, hF, h0, h1, h2]))
theorem ilSra (x0 : BitVec 7) (x1 : BitVec 7) (x2 : BitVec 7) : Statement (.ilSra x0 x1 x2) := shape1 0x383 1 7 (by decide) rfl rfl rfl x0 x1 x2 rfl (fun w hM hF h0 h1 h2 => (major_decIl hM).trans (by
  simp only [decIl, hF, h0, h1, h2]))
theorem ilRotl (x0 : BitVec 7) (x1 : BitVec 7) (x2 : BitVec 7) : Statement (.ilRotl x0 x1 x2) := shape1 0x403 1 8 (by decide) rfl rfl rfl x0 x1 x2 rfl (fun w hM hF h0 h1 h2 => (major_decIl hM).trans (by
  simp only [decIl, hF, h0, h1, h2]))
theorem ilBfe (x0 : BitVec 7) (x1 : BitVec 7) (x2 : BitVec 7) : Statement (.ilBfe x0 x1 x2) := shape1 0x483 1 9 (by decide) rfl rfl rfl x0 x1 x2 rfl (fun w hM hF h0 h1 h2 => (major_decIl hM).trans (by
  simp only [decIl, hF, h0, h1, h2]))
theorem ilPopc (x0 : BitVec 7) (x1 : BitVec 7) : Statement (.ilPopc x0 x1) := shape2 0x503 1 10 (by decide) rfl rfl rfl x0 x1 rfl (fun w hM hF c0 h0 h1 => (major_decIl hM).trans (by
  simp only [decIl, hF, c0, h0, h1, need, beq_self_eq_true, if_true]))
theorem ilClz (x0 : BitVec 7) (x1 : BitVec 7) : Statement (.ilClz x0 x1) := shape2 0x583 1 11 (by decide) rfl rfl rfl x0 x1 rfl (fun w hM hF c0 h0 h1 => (major_decIl hM).trans (by
  simp only [decIl, hF, c0, h0, h1, need, beq_self_eq_true, if_true]))
theorem ilCtz (x0 : BitVec 7) (x1 : BitVec 7) : Statement (.ilCtz x0 x1) := shape2 0x603 1 12 (by decide) rfl rfl rfl x0 x1 rfl (fun w hM hF c0 h0 h1 => (major_decIl hM).trans (by
  simp only [decIl, hF, c0, h0, h1, need, beq_self_eq_true, if_true]))
theorem ilBrev (x0 : BitVec 7) (x1 : BitVec 7) : Statement (.ilBrev x0 x1) := shape2 0x683 1 13 (by decide) rfl rfl rfl x0 x1 rfl (fun w hM hF c0 h0 h1 => (major_decIl hM).trans (by
  simp only [decIl, hF, c0, h0, h1, need, beq_self_eq_true, if_true]))
theorem iaiAddi (x0 : BitVec 6) (x1 : BitVec 6) (x2 : BitVec 10) : Statement (.iaiAddi x0 x1 x2) := shape3 0x5 2 0 (by decide) rfl rfl rfl x0 x1 x2 rfl (fun w hM hF h0 h1 h2 => (major_decIai hM).trans (by
  simp only [decIai, hF, h0, h1, h2]))
theorem iaiMuli (x0 : BitVec 6) (x1 : BitVec 6) (x2 : BitVec 10) : Statement (.iaiMuli x0 x1 x2) := shape3 0x85 2 1 (by decide) rfl rfl rfl x0 x1 x2 rfl (fun w hM hF h0 h1 h2 => (major_decIai hM).trans (by
  simp only [decIai, hF, h0, h1, h2]))
theorem iaiAndi (x0 : BitVec 6) (x1 : BitVec 6) (x2 : BitVec 10) : Statement (.iaiAndi x0 x1 x2) := shape3 0x105 2 2 (by decide) rfl rfl rfl x0 x1 x2 rfl (fun w hM hF h0 h1 h2 => (major_decIai hM).trans (by
  simp only [decIai, hF, h0, h1, h2]))
theorem iaiOri (x0 : BitVec 6) (x1 : BitVec 6) (x2 : BitVec 10) : Statement (.iaiOri x0 x1 x2) := shape3 0x185 2 3 (by decide) rfl rfl rfl x0 x1 x2 rfl (fun w hM hF h0 h1 h2 => (major_decIai hM).trans (by
  simp only [decIai, hF, h0, h1, h2]))
theorem iaiXori (x0 : BitVec 6) (x1 : BitVec 6) (x2 : BitVec 10) : Statement (.iaiXori x0 x1 x2) := shape3 0x205 2 4 (by decide) rfl rfl rfl x0 x1 x2 rfl (fun w hM hF h0 h1 h2 => (major_decIai hM).trans (by
  simp only [decIai, hF, h0, h1, h2]))
theorem iaiShli (x0 : BitVec 6) (x1 : BitVec 6) (x2 : BitVec 10) : Statement (.iaiShli x0 x1 x2) := shape3 0x285 2 5 (by decide) rfl rfl rfl x0 x1 x2 rfl (fun w hM hF h0 h1 h2 => (major_decIai hM).trans (by
  simp only [decIai, hF, h0, h1, h2]))
theorem iaiShri (x0 : BitVec 6) (x1 : BitVec 6) (x2 : BitVec 10) : Statement (.iaiShri x0 x1 x2) := shape3 0x305 2 6 (by decide) rfl rfl rfl x0 x1 x2 rfl (fun w hM hF h0 h1 h2 => (major_decIai hM).trans (by
  simp only [decIai, hF, h0, h1, h2]))
theorem iaiSrai (x0 : BitVec 6) (x1 : BitVec 6) (x2 : BitVec 10) : Statement (.iaiSrai x0 x1 x2) := shape3 0x385 2 7 (by decide) rfl rfl rfl x0 x1 x2 rfl (fun w hM hF h0 h1 h2 => (major_decIai hM).trans (by
  simp only [decIai, hF, h0, h1, h2]))
theorem faAdd (x0 : BitVec 7) (x1 : BitVec 7) (x2 : BitVec 7) : Statement (.faAdd x0 x1 x2) := shape1 0x7 3 0 (by decide) rfl rfl rfl x0 x1 x2 rfl (fun w hM hF h0 h1 h2 => (major_decFa hM).trans (by
  simp only [decFa, hF, h0, h1, h2]))
theorem faSub (x0 : BitVec 7) (x1 : BitVec 7) (x2 : BitVec 7) : Statement (.faSub x0 x1 x2) := shape1 0x87 3 1 (by decide) rfl rfl rfl x0 x1 x2 rfl (fun w hM hF h0 h1 h2 => (major_decFa hM).trans (by
  simp only [decFa, hF, h0, h1, h2]))
theorem faMul (x0 : BitVec 7) (x1 : BitVec 7) (x2 : BitVec 7) : Statement (.faMul x0 x1 x2) := shape1 0x107 3 2 (by decide) rfl rfl rfl x0 x1 x2 rfl (fun w hM hF h0 h1 h2 => (major_decFa hM).trans (by
  simp only [decFa, hF, h0, h1, h2]))
theorem faFmac (x0 : BitVec 7) (x1 : BitVec 7) (x2 : BitVec 7) : Statement (.faFmac x0 x1 x2) := shape1 0x187 3 3 (by decide) rfl rfl rfl x0 x1 x2 rfl (fun w hM hF h0 h1 h2 => (major_decFa hM).trans (by
  simp only [decFa, hF, h0, h1, h2]))
theorem faFnmac (x0 : BitVec 7) (x1 : BitVec 7) (x2 : BitVec 7) : Statement (.faFnmac x0 x1 x2) := shape1 0x207 3 4 (by decide) rfl rfl rfl x0 x1 x2 rfl (fun w hM hF h0 h1 h2 => (major_decFa hM).trans (by
  simp only [decFa, hF, h0, h1, h2]))
theorem faMin (x0 : BitVec 7) (x1 : BitVec 7) (x2 : BitVec 7) : Statement (.faMin x0 x1 x2) := shape1 0x287 3 5 (by decide) rfl rfl rfl x0 x1 x2 rfl (fun w hM hF h0 h1 h2 => (major_decFa hM).trans (by
  simp only [decFa, hF, h0, h1, h2]))
theorem faMax (x0 : BitVec 7) (x1 : BitVec 7) (x2 : BitVec 7) : Statement (.faMax x0 x1 x2) := shape1 0x307 3 6 (by decide) rfl rfl rfl x0 x1 x2 rfl (fun w hM hF h0 h1 h2 => (major_decFa hM).trans (by
  simp only [decFa, hF, h0, h1, h2]))
theorem faAbs (x0 : BitVec 7) (x1 : BitVec 7) : Statement (.faAbs x0 x1) := shape2 0x387 3 7 (by decide) rfl rfl rfl x0 x1 rfl (fun w hM hF c0 h0 h1 => (major_decFa hM).trans (by
  simp only [decFa, hF, c0, h0, h1, need, beq_self_eq_true, if_true]))
theorem faNeg (x0 : BitVec 7) (x1 : BitVec 7) : Statement (.faNeg x0 x1) := shape2 0x407 3 8 (by decide) rfl rfl rfl x0 x1 rfl (fun w hM hF c0 h0 h1 => (major_decFa hM).trans (by
  simp only [decFa, hF, c0, h0, h1, need, beq_self_eq_true, if_true]))
theorem faCopysign (x0 : BitVec 7) (x1 : BitVec 7) (x2 : BitVec 7) : Statement (.faCopysign x0 x1 x2) := shape1 0x487 3 9 (by decide) rfl rfl rfl x0 x1 x2 rfl (fun w hM hF h0 h1 h2 => (major_decFa hM).trans (by
  simp only [decFa, hF, h0, h1, h2]))
theorem fhAdd (x0 : BitVec 7) (x1 : BitVec 7) (x2 : BitVec 7) : Statement (.fhAdd x0 x1 x2) := shape1 0x9 4 0 (by decide) rfl rfl rfl x0 x1 x2 rfl (fun w hM hF h0 h1 h2 => (major_decFh hM).trans (by
  simp only [decFh, hF, h0, h1, h2]))
theorem fhSub (x0 : BitVec 7) (x1 : BitVec 7) (x2 : BitVec 7) : Statement (.fhSub x0 x1 x2) := shape1 0x89 4 1 (by decide) rfl rfl rfl x0 x1 x2 rfl (fun w hM hF h0 h1 h2 => (major_decFh hM).trans (by
  simp only [decFh, hF, h0, h1, h2]))
theorem fhMul (x0 : BitVec 7) (x1 : BitVec 7) (x2 : BitVec 7) : Statement (.fhMul x0 x1 x2) := shape1 0x109 4 2 (by decide) rfl rfl rfl x0 x1 x2 rfl (fun w hM hF h0 h1 h2 => (major_decFh hM).trans (by
  simp only [decFh, hF, h0, h1, h2]))
theorem fhFmac (x0 : BitVec 7) (x1 : BitVec 7) (x2 : BitVec 7) : Statement (.fhFmac x0 x1 x2) := shape1 0x189 4 3 (by decide) rfl rfl rfl x0 x1 x2 rfl (fun w hM hF h0 h1 h2 => (major_decFh hM).trans (by
  simp only [decFh, hF, h0, h1, h2]))
theorem fhMin (x0 : BitVec 7) (x1 : BitVec 7) (x2 : BitVec 7) : Statement (.fhMin x0 x1 x2) := shape1 0x209 4 4 (by decide) rfl rfl rfl x0 x1 x2 rfl (fun w hM hF h0 h1 h2 => (major_decFh hM).trans (by
  simp only [decFh, hF, h0, h1, h2]))
theorem fhMax (x0 : BitVec 7) (x1 : BitVec 7) (x2 : BitVec 7) : Statement (.fhMax x0 x1 x2) := shape1 0x289 4 5 (by decide) rfl rfl rfl x0 x1 x2 rfl (fun w hM hF h0 h1 h2 => (major_decFh hM).trans (by
  simp only [decFh, hF, h0, h1, h2]))
theorem fhPk (x0 : BitVec 7) (x1 : BitVec 7) (x2 : BitVec 7) : Statement (.fhPk x0 x1 x2) := shape1 0x309 4 6 (by decide) rfl rfl rfl x0 x1 x2 rfl (fun w hM hF h0 h1 h2 => (major_decFh hM).trans (by
  simp only [decFh, hF, h0, h1, h2]))
theorem fxRcp (x0 : BitVec 7) (x1 : BitVec 7) : Statement (.fxRcp x0 x1) := shape2 0xB 5 0 (by decide) rfl rfl rfl x0 x1 rfl (fun w hM hF c0 h0 h1 => (major_decFx hM).trans (by
  simp only [decFx, hF, c0, h0, h1, need, beq_self_eq_true, if_true]))
theorem fxRsqrt (x0 : BitVec 7) (x1 : BitVec 7) : Statement (.fxRsqrt x0 x1) := shape2 0x8B 5 1 (by decide) rfl rfl rfl x0 x1 rfl (fun w hM hF c0 h0 h1 => (major_decFx hM).trans (by
  simp only [decFx, hF, c0, h0, h1, need, beq_self_eq_true, if_true]))
theorem fxSqrt (x0 : BitVec 7) (x1 : BitVec 7) : Statement (.fxSqrt x0 x1) := shape2 0x10B 5 2 (by decide) rfl rfl rfl x0 x1 rfl (fun w hM hF c0 h0 h1 => (major_decFx hM).trans (by
  simp only [decFx, hF, c0, h0, h1, need, beq_self_eq_true, if_true]))
theorem fxExp2 (x0 : BitVec 7) (x1 : BitVec 7) : Statement (.fxExp2 x0 x1) := shape2 0x18B 5 3 (by decide) rfl rfl rfl x0 x1 rfl (fun w hM hF c0 h0 h1 => (major_decFx hM).trans (by
  simp only [decFx, hF, c0, h0, h1, need, beq_self_eq_true, if_true]))
theorem fxLog2 (x0 : BitVec 7) (x1 : BitVec 7) : Statement (.fxLog2 x0 x1) := shape2 0x20B 5 4 (by decide) rfl rfl rfl x0 x1 rfl (fun w hM hF c0 h0 h1 => (major_decFx hM).trans (by
  simp only [decFx, hF, c0, h0, h1, need, beq_self_eq_true, if_true]))
theorem fxSin (x0 : BitVec 7) (x1 : BitVec 7) : Statement (.fxSin x0 x1) := shape2 0x28B 5 5 (by decide) rfl rfl rfl x0 x1 rfl (fun w hM hF c0 h0 h1 => (major_decFx hM).trans (by
  simp only [decFx, hF, c0, h0, h1, need, beq_self_eq_true, if_true]))
theorem fxCos (x0 : BitVec 7) (x1 : BitVec 7) : Statement (.fxCos x0 x1) := shape2 0x30B 5 6 (by decide) rfl rfl rfl x0 x1 rfl (fun w hM hF c0 h0 h1 => (major_decFx hM).trans (by
  simp only [decFx, hF, c0, h0, h1, need, beq_self_eq_true, if_true]))
theorem fxTanh (x0 : BitVec 7) (x1 : BitVec 7) : Statement (.fxTanh x0 x1) := shape2 0x38B 5 7 (by decide) rfl rfl rfl x0 x1 rfl (fun w hM hF c0 h0 h1 => (major_decFx hM).trans (by
  simp only [decFx, hF, c0, h0, h1, need, beq_self_eq_true, if_true]))
theorem fxAct (x0 : BitVec 7) (x1 : BitVec 7) : Statement (.fxAct x0 x1) := shape2 0x40B 5 8 (by decide) rfl rfl rfl x0 x1 rfl (fun w hM hF c0 h0 h1 => (major_decFx hM).trans (by
  simp only [decFx, hF, c0, h0, h1, need, beq_self_eq_true, if_true]))
theorem fxFloor (x0 : BitVec 7) (x1 : BitVec 7) : Statement (.fxFloor x0 x1) := shape2 0x48B 5 9 (by decide) rfl rfl rfl x0 x1 rfl (fun w hM hF c0 h0 h1 => (major_decFx hM).trans (by
  simp only [decFx, hF, c0, h0, h1, need, beq_self_eq_true, if_true]))
theorem fxCeil (x0 : BitVec 7) (x1 : BitVec 7) : Statement (.fxCeil x0 x1) := shape2 0x50B 5 10 (by decide) rfl rfl rfl x0 x1 rfl (fun w hM hF c0 h0 h1 => (major_decFx hM).trans (by
  simp only [decFx, hF, c0, h0, h1, need, beq_self_eq_true, if_true]))
theorem fxRint (x0 : BitVec 7) (x1 : BitVec 7) : Statement (.fxRint x0 x1) := shape2 0x58B 5 11 (by decide) rfl rfl rfl x0 x1 rfl (fun w hM hF c0 h0 h1 => (major_decFx hM).trans (by
  simp only [decFx, hF, c0, h0, h1, need, beq_self_eq_true, if_true]))
theorem fxTrunc (x0 : BitVec 7) (x1 : BitVec 7) : Statement (.fxTrunc x0 x1) := shape2 0x60B 5 12 (by decide) rfl rfl rfl x0 x1 rfl (fun w hM hF c0 h0 h1 => (major_decFx hM).trans (by
  simp only [decFx, hF, c0, h0, h1, need, beq_self_eq_true, if_true]))
theorem fxFract (x0 : BitVec 7) (x1 : BitVec 7) : Statement (.fxFract x0 x1) := shape2 0x68B 5 13 (by decide) rfl rfl rfl x0 x1 rfl (fun w hM hF c0 h0 h1 => (major_decFx hM).trans (by
  simp only [decFx, hF, c0, h0, h1, need, beq_self_eq_true, if_true]))
theorem fxClass (x0 : BitVec 7) (x1 : BitVec 7) : Statement (.fxClass x0 x1) := shape2 0x70B 5 14 (by decide) rfl rfl rfl x0 x1 rfl (fun w hM hF c0 h0 h1 => (major_decFx hM).trans (by
  simp only [decFx, hF, c0, h0, h1, need, beq_self_eq_true, if_true]))
theorem cvI2f (x0 : BitVec 7) (x1 : BitVec 7) : Statement (.cvI2f x0 x1) := shape2 0xD 6 0 (by decide) rfl rfl rfl x0 x1 rfl (fun w hM hF c0 h0 h1 => (major_decCv hM).trans (by
  simp only [decCv, hF, c0, h0, h1, need, beq_self_eq_true, if_true]))
theorem cvN2f (x0 : BitVec 7) (x1 : BitVec 7) : Statement (.cvN2f x0 x1) := shape2 0x8D 6 1 (by decide) rfl rfl rfl x0 x1 rfl (fun w hM hF c0 h0 h1 => (major_decCv hM).trans (by
  simp only [decCv, hF, c0, h0, h1, need, beq_self_eq_true, if_true]))
theorem cvF2i (x0 : BitVec 7) (x1 : BitVec 7) : Statement (.cvF2i x0 x1) := shape2 0x10D 6 2 (by decide) rfl rfl rfl x0 x1 rfl (fun w hM hF c0 h0 h1 => (major_decCv hM).trans (by
  simp only [decCv, hF, c0, h0, h1, need, beq_self_eq_true, if_true]))
theorem cvF2n (x0 : BitVec 7) (x1 : BitVec 7) : Statement (.cvF2n x0 x1) := shape2 0x18D 6 3 (by decide) rfl rfl rfl x0 x1 rfl (fun w hM hF c0 h0 h1 => (major_decCv hM).trans (by
  simp only [decCv, hF, c0, h0, h1, need, beq_self_eq_true, if_true]))
theorem cvF2h (x0 : BitVec 7) (x1 : BitVec 7) : Statement (.cvF2h x0 x1) := shape2 0x20D 6 4 (by decide) rfl rfl rfl x0 x1 rfl (fun w hM hF c0 h0 h1 => (major_decCv hM).trans (by
  simp only [decCv, hF, c0, h0, h1, need, beq_self_eq_true, if_true]))
theorem cvF2b (x0 : BitVec 7) (x1 : BitVec 7) : Statement (.cvF2b x0 x1) := shape2 0x28D 6 5 (by decide) rfl rfl rfl x0 x1 rfl (fun w hM hF c0 h0 h1 => (major_decCv hM).trans (by
  simp only [decCv, hF, c0, h0, h1, need, beq_self_eq_true, if_true]))
theorem cvH2f (x0 : BitVec 7) (x1 : BitVec 7) (x2 : BitVec 7) : Statement (.cvH2f x0 x1 x2) := shape1 0x30D 6 6 (by decide) rfl rfl rfl x0 x1 x2 rfl (fun w hM hF h0 h1 h2 => (major_decCv hM).trans (by
  simp only [decCv, hF, h0, h1, h2]))
theorem cvB2f (x0 : BitVec 7) (x1 : BitVec 7) (x2 : BitVec 7) : Statement (.cvB2f x0 x1 x2) := shape1 0x38D 6 7 (by decide) rfl rfl rfl x0 x1 x2 rfl (fun w hM hF h0 h1 h2 => (major_decCv hM).trans (by
  simp only [decCv, hF, h0, h1, h2]))
theorem cvPk8 (x0 : BitVec 7) (x1 : BitVec 7) (x2 : BitVec 7) : Statement (.cvPk8 x0 x1 x2) := shape1 0x40D 6 8 (by decide) rfl rfl rfl x0 x1 x2 rfl (fun w hM hF h0 h1 h2 => (major_decCv hM).trans (by
  simp only [decCv, hF, h0, h1, h2]))
theorem cvPk4 (x0 : BitVec 7) (x1 : BitVec 7) (x2 : BitVec 7) : Statement (.cvPk4 x0 x1 x2) := shape1 0x48D 6 9 (by decide) rfl rfl rfl x0 x1 x2 rfl (fun w hM hF h0 h1 h2 => (major_decCv hM).trans (by
  simp only [decCv, hF, h0, h1, h2]))
theorem cvUp8 (x0 : BitVec 7) (x1 : BitVec 7) (x2 : BitVec 7) : Statement (.cvUp8 x0 x1 x2) := shape1 0x50D 6 10 (by decide) rfl rfl rfl x0 x1 x2 rfl (fun w hM hF h0 h1 h2 => (major_decCv hM).trans (by
  simp only [decCv, hF, h0, h1, h2]))
theorem cvUp4 (x0 : BitVec 7) (x1 : BitVec 7) (x2 : BitVec 7) : Statement (.cvUp4 x0 x1 x2) := shape1 0x58D 6 11 (by decide) rfl rfl rfl x0 x1 x2 rfl (fun w hM hF h0 h1 h2 => (major_decCv hM).trans (by
  simp only [decCv, hF, h0, h1, h2]))
theorem cmpFeq (x0 : BitVec 5) (x1 : BitVec 7) (x2 : BitVec 7) : Statement (.cmpFeq x0 x1 x2) := shape4 0xF 7 0 (by decide) rfl rfl rfl x0 x1 x2 rfl (fun w hM hF c0 h0 h1 h2 => (major_decCmp hM).trans (by
  simp only [decCmp, hF, c0, h0, h1, h2, need, beq_self_eq_true, if_true]))
theorem cmpFne (x0 : BitVec 5) (x1 : BitVec 7) (x2 : BitVec 7) : Statement (.cmpFne x0 x1 x2) := shape4 0x8F 7 1 (by decide) rfl rfl rfl x0 x1 x2 rfl (fun w hM hF c0 h0 h1 h2 => (major_decCmp hM).trans (by
  simp only [decCmp, hF, c0, h0, h1, h2, need, beq_self_eq_true, if_true]))
theorem cmpFlt (x0 : BitVec 5) (x1 : BitVec 7) (x2 : BitVec 7) : Statement (.cmpFlt x0 x1 x2) := shape4 0x10F 7 2 (by decide) rfl rfl rfl x0 x1 x2 rfl (fun w hM hF c0 h0 h1 h2 => (major_decCmp hM).trans (by
  simp only [decCmp, hF, c0, h0, h1, h2, need, beq_self_eq_true, if_true]))
theorem cmpFle (x0 : BitVec 5) (x1 : BitVec 7) (x2 : BitVec 7) : Statement (.cmpFle x0 x1 x2) := shape4 0x18F 7 3 (by decide) rfl rfl rfl x0 x1 x2 rfl (fun w hM hF c0 h0 h1 h2 => (major_decCmp hM).trans (by
  simp only [decCmp, hF, c0, h0, h1, h2, need, beq_self_eq_true, if_true]))
theorem cmpFgt (x0 : BitVec 5) (x1 : BitVec 7) (x2 : BitVec 7) : Statement (.cmpFgt x0 x1 x2) := shape4 0x20F 7 4 (by decide) rfl rfl rfl x0 x1 x2 rfl (fun w hM hF c0 h0 h1 h2 => (major_decCmp hM).trans (by
  simp only [decCmp, hF, c0, h0, h1, h2, need, beq_self_eq_true, if_true]))
theorem cmpFge (x0 : BitVec 5) (x1 : BitVec 7) (x2 : BitVec 7) : Statement (.cmpFge x0 x1 x2) := shape4 0x28F 7 5 (by decide) rfl rfl rfl x0 x1 x2 rfl (fun w hM hF c0 h0 h1 h2 => (major_decCmp hM).trans (by
  simp only [decCmp, hF, c0, h0, h1, h2, need, beq_self_eq_true, if_true]))
theorem cmpFun (x0 : BitVec 5) (x1 : BitVec 7) (x2 : BitVec 7) : Statement (.cmpFun x0 x1 x2) := shape4 0x30F 7 6 (by decide) rfl rfl rfl x0 x1 x2 rfl (fun w hM hF c0 h0 h1 h2 => (major_decCmp hM).trans (by
  simp only [decCmp, hF, c0, h0, h1, h2, need, beq_self_eq_true, if_true]))
theorem cmpFord (x0 : BitVec 5) (x1 : BitVec 7) (x2 : BitVec 7) : Statement (.cmpFord x0 x1 x2) := shape4 0x38F 7 7 (by decide) rfl rfl rfl x0 x1 x2 rfl (fun w hM hF c0 h0 h1 h2 => (major_decCmp hM).trans (by
  simp only [decCmp, hF, c0, h0, h1, h2, need, beq_self_eq_true, if_true]))
theorem cmpIeq (x0 : BitVec 5) (x1 : BitVec 7) (x2 : BitVec 7) : Statement (.cmpIeq x0 x1 x2) := shape4 0x40F 7 8 (by decide) rfl rfl rfl x0 x1 x2 rfl (fun w hM hF c0 h0 h1 h2 => (major_decCmp hM).trans (by
  simp only [decCmp, hF, c0, h0, h1, h2, need, beq_self_eq_true, if_true]))
theorem cmpIne (x0 : BitVec 5) (x1 : BitVec 7) (x2 : BitVec 7) : Statement (.cmpIne x0 x1 x2) := shape4 0x48F 7 9 (by decide) rfl rfl rfl x0 x1 x2 rfl (fun w hM hF c0 h0 h1 h2 => (major_decCmp hM).trans (by
  simp only [decCmp, hF, c0, h0, h1, h2, need, beq_self_eq_true, if_true]))
theorem cmpIlt (x0 : BitVec 5) (x1 : BitVec 7) (x2 : BitVec 7) : Statement (.cmpIlt x0 x1 x2) := shape4 0x50F 7 10 (by decide) rfl rfl rfl x0 x1 x2 rfl (fun w hM hF c0 h0 h1 h2 => (major_decCmp hM).trans (by
  simp only [decCmp, hF, c0, h0, h1, h2, need, beq_self_eq_true, if_true]))
theorem cmpIle (x0 : BitVec 5) (x1 : BitVec 7) (x2 : BitVec 7) : Statement (.cmpIle x0 x1 x2) := shape4 0x58F 7 11 (by decide) rfl rfl rfl x0 x1 x2 rfl (fun w hM hF c0 h0 h1 h2 => (major_decCmp hM).trans (by
  simp only [decCmp, hF, c0, h0, h1, h2, need, beq_self_eq_true, if_true]))
theorem cmpNlt (x0 : BitVec 5) (x1 : BitVec 7) (x2 : BitVec 7) : Statement (.cmpNlt x0 x1 x2) := shape4 0x60F 7 12 (by decide) rfl rfl rfl x0 x1 x2 rfl (fun w hM hF c0 h0 h1 h2 => (major_decCmp hM).trans (by
  simp only [decCmp, hF, c0, h0, h1, h2, need, beq_self_eq_true, if_true]))
theorem cmpNle (x0 : BitVec 5) (x1 : BitVec 7) (x2 : BitVec 7) : Statement (.cmpNle x0 x1 x2) := shape4 0x68F 7 13 (by decide) rfl rfl rfl x0 x1 x2 rfl (fun w hM hF c0 h0 h1 h2 => (major_decCmp hM).trans (by
  simp only [decCmp, hF, c0, h0, h1, h2, need, beq_self_eq_true, if_true]))
theorem cmpTst (x0 : BitVec 5) (x1 : BitVec 7) (x2 : BitVec 7) : Statement (.cmpTst x0 x1 x2) := shape4 0x70F 7 14 (by decide) rfl rfl rfl x0 x1 x2 rfl (fun w hM hF c0 h0 h1 h2 => (major_decCmp hM).trans (by
  simp only [decCmp, hF, c0, h0, h1, h2, need, beq_self_eq_true, if_true]))
theorem sel (x0 : BitVec 7) (x1 : BitVec 7) (x2 : BitVec 7) (x3 : BitVec 4) : Statement (.sel x0 x1 x2 x3) := shape5 0x11 8 (by decide) rfl rfl x0 x1 x2 x3 rfl (fun w hM h0 h1 h2 h3 => (major_decSel hM).trans (by
  simp only [decSel, h0, h1, h2, h3]))
theorem xlShuf (x0 : BitVec 7) (x1 : BitVec 7) (x2 : BitVec 7) : Statement (.xlShuf x0 x1 x2) := shape1 0x13 9 0 (by decide) rfl rfl rfl x0 x1 x2 rfl (fun w hM hF h0 h1 h2 => (major_decXl hM).trans (by
  simp only [decXl, hF, h0, h1, h2]))
theorem xlShx (x0 : BitVec 7) (x1 : BitVec 7) (x2 : BitVec 7) : Statement (.xlShx x0 x1 x2) := shape1 0x93 9 1 (by decide) rfl rfl rfl x0 x1 x2 rfl (fun w hM hF h0 h1 h2 => (major_decXl hM).trans (by
  simp only [decXl, hF, h0, h1, h2]))
theorem xlBcast (x0 : BitVec 7) (x1 : BitVec 7) (x2 : BitVec 7) : Statement (.xlBcast x0 x1 x2) := shape1 0x113 9 2 (by decide) rfl rfl rfl x0 x1 x2 rfl (fun w hM hF h0 h1 h2 => (major_decXl hM).trans (by
  simp only [decXl, hF, h0, h1, h2]))
theorem xlRdf (x0 : BitVec 7) (x1 : BitVec 7) : Statement (.xlRdf x0 x1) := shape2 0x193 9 3 (by decide) rfl rfl rfl x0 x1 rfl (fun w hM hF c0 h0 h1 => (major_decXl hM).trans (by
  simp only [decXl, hF, c0, h0, h1, need, beq_self_eq_true, if_true]))
theorem xlRdl (x0 : BitVec 7) (x1 : BitVec 7) : Statement (.xlRdl x0 x1) := shape2 0x213 9 4 (by decide) rfl rfl rfl x0 x1 rfl (fun w hM hF c0 h0 h1 => (major_decXl hM).trans (by
  simp only [decXl, hF, c0, h0, h1, need, beq_self_eq_true, if_true]))
theorem xlWrl (x0 : BitVec 6) (x1 : BitVec 7) (x2 : BitVec 7) : Statement (.xlWrl x0 x1 x2) := shape6 0x293 9 5 (by decide) rfl rfl rfl x0 x1 x2 rfl (fun w hM hF c0 h0 h1 h2 => (major_decXl hM).trans (by
  simp only [decXl, hF, c0, h0, h1, h2, need, beq_self_eq_true, if_true]))
theorem xlRadd (x0 : BitVec 7) (x1 : BitVec 7) : Statement (.xlRadd x0 x1) := shape2 0x313 9 6 (by decide) rfl rfl rfl x0 x1 rfl (fun w hM hF c0 h0 h1 => (major_decXl hM).trans (by
  simp only [decXl, hF, c0, h0, h1, need, beq_self_eq_true, if_true]))
theorem xlRmin (x0 : BitVec 7) (x1 : BitVec 7) : Statement (.xlRmin x0 x1) := shape2 0x393 9 7 (by decide) rfl rfl rfl x0 x1 rfl (fun w hM hF c0 h0 h1 => (major_decXl hM).trans (by
  simp only [decXl, hF, c0, h0, h1, need, beq_self_eq_true, if_true]))
theorem xlRmax (x0 : BitVec 7) (x1 : BitVec 7) : Statement (.xlRmax x0 x1) := shape2 0x413 9 8 (by decide) rfl rfl rfl x0 x1 rfl (fun w hM hF c0 h0 h1 => (major_decXl hM).trans (by
  simp only [decXl, hF, c0, h0, h1, need, beq_self_eq_true, if_true]))
theorem xlFradd (x0 : BitVec 7) (x1 : BitVec 7) : Statement (.xlFradd x0 x1) := shape2 0x493 9 9 (by decide) rfl rfl rfl x0 x1 rfl (fun w hM hF c0 h0 h1 => (major_decXl hM).trans (by
  simp only [decXl, hF, c0, h0, h1, need, beq_self_eq_true, if_true]))
theorem xlScan (x0 : BitVec 7) (x1 : BitVec 7) : Statement (.xlScan x0 x1) := shape2 0x513 9 10 (by decide) rfl rfl rfl x0 x1 rfl (fun w hM hF c0 h0 h1 => (major_decXl hM).trans (by
  simp only [decXl, hF, c0, h0, h1, need, beq_self_eq_true, if_true]))
theorem xlBallot (x0 : BitVec 5) (x1 : BitVec 7) : Statement (.xlBallot x0 x1) := shape7 0x593 9 11 (by decide) rfl rfl rfl x0 x1 rfl (fun w hM hF c0 c1 h0 h1 => (major_decXl hM).trans (by
  simp only [decXl, hF, c0, c1, h0, h1, need, beq_self_eq_true, Bool.and_self, if_true]))
theorem xlVgrp (x0 : BitVec 5) (x1 : BitVec 7) : Statement (.xlVgrp x0 x1) := shape7 0x613 9 12 (by decide) rfl rfl rfl x0 x1 rfl (fun w hM hF c0 c1 h0 h1 => (major_decXl hM).trans (by
  simp only [decXl, hF, c0, c1, h0, h1, need, beq_self_eq_true, Bool.and_self, if_true]))
theorem xlElect (x0 : BitVec 5) : Statement (.xlElect x0) := shape8 0x693 9 13 (by decide) rfl rfl rfl x0 rfl (fun w hM hF c0 h0 => (major_decXl hM).trans (by
  simp only [decXl, hF, c0, h0, need, beq_self_eq_true, if_true]))
theorem dpDot8f (x0 : BitVec 7) (x1 : BitVec 7) (x2 : BitVec 7) : Statement (.dpDot8f x0 x1 x2) := shape1 0x15 10 0 (by decide) rfl rfl rfl x0 x1 x2 rfl (fun w hM hF h0 h1 h2 => (major_decDp hM).trans (by
  simp only [decDp, hF, h0, h1, h2]))
theorem dpDot8i (x0 : BitVec 7) (x1 : BitVec 7) (x2 : BitVec 7) : Statement (.dpDot8i x0 x1 x2) := shape1 0x95 10 1 (by decide) rfl rfl rfl x0 x1 x2 rfl (fun w hM hF h0 h1 h2 => (major_decDp hM).trans (by
  simp only [decDp, hF, h0, h1, h2]))
theorem dpDot4f (x0 : BitVec 7) (x1 : BitVec 7) (x2 : BitVec 7) : Statement (.dpDot4f x0 x1 x2) := shape1 0x115 10 2 (by decide) rfl rfl rfl x0 x1 x2 rfl (fun w hM hF h0 h1 h2 => (major_decDp hM).trans (by
  simp only [decDp, hF, h0, h1, h2]))
theorem dpDot4i (x0 : BitVec 7) (x1 : BitVec 7) (x2 : BitVec 7) : Statement (.dpDot4i x0 x1 x2) := shape1 0x195 10 3 (by decide) rfl rfl rfl x0 x1 x2 rfl (fun w hM hF h0 h1 h2 => (major_decDp hM).trans (by
  simp only [decDp, hF, h0, h1, h2]))
theorem dpDot2 (x0 : BitVec 7) (x1 : BitVec 7) (x2 : BitVec 7) : Statement (.dpDot2 x0 x1 x2) := shape1 0x215 10 4 (by decide) rfl rfl rfl x0 x1 x2 rfl (fun w hM hF h0 h1 h2 => (major_decDp hM).trans (by
  simp only [decDp, hF, h0, h1, h2]))
theorem shpTag (x0 : BitVec 7) (x1 : BitVec 7) : Statement (.shpTag x0 x1) := shape2 0x17 11 0 (by decide) rfl rfl rfl x0 x1 rfl (fun w hM hF c0 h0 h1 => (major_decShp hM).trans (by
  simp only [decShp, hF, c0, h0, h1, need, beq_self_eq_true, if_true]))
theorem shpExpand (x0 : BitVec 7) (x1 : BitVec 7) : Statement (.shpExpand x0 x1) := shape2 0x97 11 1 (by decide) rfl rfl rfl x0 x1 rfl (fun w hM hF c0 h0 h1 => (major_decShp hM).trans (by
  simp only [decShp, hF, c0, h0, h1, need, beq_self_eq_true, if_true]))
theorem shpAff (x0 : BitVec 7) (x1 : BitVec 7) : Statement (.shpAff x0 x1) := shape2 0x117 11 2 (by decide) rfl rfl rfl x0 x1 rfl (fun w hM hF c0 h0 h1 => (major_decShp hM).trans (by
  simp only [decShp, hF, c0, h0, h1, need, beq_self_eq_true, if_true]))
theorem shpUni (x0 : BitVec 7) (x1 : BitVec 7) : Statement (.shpUni x0 x1) := shape2 0x197 11 3 (by decide) rfl rfl rfl x0 x1 rfl (fun w hM hF c0 h0 h1 => (major_decShp hM).trans (by
  simp only [decShp, hF, c0, h0, h1, need, beq_self_eq_true, if_true]))
theorem shpCmpr (x0 : BitVec 6) (x1 : BitVec 7) : Statement (.shpCmpr x0 x1) := shape9 0x217 11 4 (by decide) rfl rfl rfl x0 x1 rfl (fun w hM hF c0 c1 h0 h1 => (major_decShp hM).trans (by
  simp only [decShp, hF, c0, c1, h0, h1, need, beq_self_eq_true, Bool.and_self, if_true]))
theorem saAdd (x0 : BitVec 5) (x1 : BitVec 5) (x2 : BitVec 5) : Statement (.saAdd x0 x1 x2) := shape10 0x19 12 0 (by decide) rfl rfl rfl x0 x1 x2 rfl (fun w hM hF c0 h0 h1 h2 => (major_decSa hM).trans (by
  simp only [decSa, hF, c0, h0, h1, h2, need, beq_self_eq_true, if_true]))
theorem saSub (x0 : BitVec 5) (x1 : BitVec 5) (x2 : BitVec 5) : Statement (.saSub x0 x1 x2) := shape10 0x99 12 1 (by decide) rfl rfl rfl x0 x1 x2 rfl (fun w hM hF c0 h0 h1 h2 => (major_decSa hM).trans (by
  simp only [decSa, hF, c0, h0, h1, h2, need, beq_self_eq_true, if_true]))
theorem saMul (x0 : BitVec 5) (x1 : BitVec 5) (x2 : BitVec 5) : Statement (.saMul x0 x1 x2) := shape10 0x119 12 2 (by decide) rfl rfl rfl x0 x1 x2 rfl (fun w hM hF c0 h0 h1 h2 => (major_decSa hM).trans (by
  simp only [decSa, hF, c0, h0, h1, h2, need, beq_self_eq_true, if_true]))
theorem saMin (x0 : BitVec 5) (x1 : BitVec 5) (x2 : BitVec 5) : Statement (.saMin x0 x1 x2) := shape10 0x199 12 3 (by decide) rfl rfl rfl x0 x1 x2 rfl (fun w hM hF c0 h0 h1 h2 => (major_decSa hM).trans (by
  simp only [decSa, hF, c0, h0, h1, h2, need, beq_self_eq_true, if_true]))
theorem saMax (x0 : BitVec 5) (x1 : BitVec 5) (x2 : BitVec 5) : Statement (.saMax x0 x1 x2) := shape10 0x219 12 4 (by decide) rfl rfl rfl x0 x1 x2 rfl (fun w hM hF c0 h0 h1 h2 => (major_decSa hM).trans (by
  simp only [decSa, hF, c0, h0, h1, h2, need, beq_self_eq_true, if_true]))
theorem saMinn (x0 : BitVec 5) (x1 : BitVec 5) (x2 : BitVec 5) : Statement (.saMinn x0 x1 x2) := shape10 0x299 12 5 (by decide) rfl rfl rfl x0 x1 x2 rfl (fun w hM hF c0 h0 h1 h2 => (major_decSa hM).trans (by
  simp only [decSa, hF, c0, h0, h1, h2, need, beq_self_eq_true, if_true]))
theorem saMaxn (x0 : BitVec 5) (x1 : BitVec 5) (x2 : BitVec 5) : Statement (.saMaxn x0 x1 x2) := shape10 0x319 12 6 (by decide) rfl rfl rfl x0 x1 x2 rfl (fun w hM hF c0 h0 h1 h2 => (major_decSa hM).trans (by
  simp only [decSa, hF, c0, h0, h1, h2, need, beq_self_eq_true, if_true]))
theorem saAnd (x0 : BitVec 5) (x1 : BitVec 5) (x2 : BitVec 5) : Statement (.saAnd x0 x1 x2) := shape10 0x399 12 7 (by decide) rfl rfl rfl x0 x1 x2 rfl (fun w hM hF c0 h0 h1 h2 => (major_decSa hM).trans (by
  simp only [decSa, hF, c0, h0, h1, h2, need, beq_self_eq_true, if_true]))
theorem saOr (x0 : BitVec 5) (x1 : BitVec 5) (x2 : BitVec 5) : Statement (.saOr x0 x1 x2) := shape10 0x419 12 8 (by decide) rfl rfl rfl x0 x1 x2 rfl (fun w hM hF c0 h0 h1 h2 => (major_decSa hM).trans (by
  simp only [decSa, hF, c0, h0, h1, h2, need, beq_self_eq_true, if_true]))
theorem saXor (x0 : BitVec 5) (x1 : BitVec 5) (x2 : BitVec 5) : Statement (.saXor x0 x1 x2) := shape10 0x499 12 9 (by decide) rfl rfl rfl x0 x1 x2 rfl (fun w hM hF c0 h0 h1 h2 => (major_decSa hM).trans (by
  simp only [decSa, hF, c0, h0, h1, h2, need, beq_self_eq_true, if_true]))
theorem saAndn (x0 : BitVec 5) (x1 : BitVec 5) (x2 : BitVec 5) : Statement (.saAndn x0 x1 x2) := shape10 0x519 12 10 (by decide) rfl rfl rfl x0 x1 x2 rfl (fun w hM hF c0 h0 h1 h2 => (major_decSa hM).trans (by
  simp only [decSa, hF, c0, h0, h1, h2, need, beq_self_eq_true, if_true]))
theorem saShl (x0 : BitVec 5) (x1 : BitVec 5) (x2 : BitVec 5) : Statement (.saShl x0 x1 x2) := shape10 0x599 12 11 (by decide) rfl rfl rfl x0 x1 x2 rfl (fun w hM hF c0 h0 h1 h2 => (major_decSa hM).trans (by
  simp only [decSa, hF, c0, h0, h1, h2, need, beq_self_eq_true, if_true]))
theorem saShr (x0 : BitVec 5) (x1 : BitVec 5) (x2 : BitVec 5) : Statement (.saShr x0 x1 x2) := shape10 0x619 12 12 (by decide) rfl rfl rfl x0 x1 x2 rfl (fun w hM hF c0 h0 h1 h2 => (major_decSa hM).trans (by
  simp only [decSa, hF, c0, h0, h1, h2, need, beq_self_eq_true, if_true]))
theorem saSra (x0 : BitVec 5) (x1 : BitVec 5) (x2 : BitVec 5) : Statement (.saSra x0 x1 x2) := shape10 0x699 12 13 (by decide) rfl rfl rfl x0 x1 x2 rfl (fun w hM hF c0 h0 h1 h2 => (major_decSa hM).trans (by
  simp only [decSa, hF, c0, h0, h1, h2, need, beq_self_eq_true, if_true]))
theorem saPopc (x0 : BitVec 5) (x1 : BitVec 5) : Statement (.saPopc x0 x1) := shape11 0x719 12 14 (by decide) rfl rfl rfl x0 x1 rfl (fun w hM hF c0 h0 h1 => (major_decSa hM).trans (by
  simp only [decSa, hF, c0, h0, h1, need, beq_self_eq_true, if_true]))
theorem saFfs (x0 : BitVec 5) (x1 : BitVec 5) : Statement (.saFfs x0 x1) := shape11 0x799 12 15 (by decide) rfl rfl rfl x0 x1 rfl (fun w hM hF c0 h0 h1 => (major_decSa hM).trans (by
  simp only [decSa, hF, c0, h0, h1, need, beq_self_eq_true, if_true]))
theorem saiAddi (x0 : BitVec 5) (x1 : BitVec 5) (x2 : BitVec 12) : Statement (.saiAddi x0 x1 x2) := shape12 0x1B 13 0 (by decide) rfl rfl rfl x0 x1 x2 rfl (fun w hM hF h0 h1 h2 => (major_decSai hM).trans (by
  simp only [decSai, hF, h0, h1, h2]))
theorem saiAndi (x0 : BitVec 5) (x1 : BitVec 5) (x2 : BitVec 12) : Statement (.saiAndi x0 x1 x2) := shape12 0x9B 13 1 (by decide) rfl rfl rfl x0 x1 x2 rfl (fun w hM hF h0 h1 h2 => (major_decSai hM).trans (by
  simp only [decSai, hF, h0, h1, h2]))
theorem saiOri (x0 : BitVec 5) (x1 : BitVec 5) (x2 : BitVec 12) : Statement (.saiOri x0 x1 x2) := shape12 0x11B 13 2 (by decide) rfl rfl rfl x0 x1 x2 rfl (fun w hM hF h0 h1 h2 => (major_decSai hM).trans (by
  simp only [decSai, hF, h0, h1, h2]))
theorem saiXori (x0 : BitVec 5) (x1 : BitVec 5) (x2 : BitVec 12) : Statement (.saiXori x0 x1 x2) := shape12 0x19B 13 3 (by decide) rfl rfl rfl x0 x1 x2 rfl (fun w hM hF h0 h1 h2 => (major_decSai hM).trans (by
  simp only [decSai, hF, h0, h1, h2]))
theorem saiShli (x0 : BitVec 5) (x1 : BitVec 5) (x2 : BitVec 12) : Statement (.saiShli x0 x1 x2) := shape12 0x21B 13 4 (by decide) rfl rfl rfl x0 x1 x2 rfl (fun w hM hF h0 h1 h2 => (major_decSai hM).trans (by
  simp only [decSai, hF, h0, h1, h2]))
theorem saiShri (x0 : BitVec 5) (x1 : BitVec 5) (x2 : BitVec 12) : Statement (.saiShri x0 x1 x2) := shape12 0x29B 13 5 (by decide) rfl rfl rfl x0 x1 x2 rfl (fun w hM hF h0 h1 h2 => (major_decSai hM).trans (by
  simp only [decSai, hF, h0, h1, h2]))
theorem saiSrai (x0 : BitVec 5) (x1 : BitVec 5) (x2 : BitVec 12) : Statement (.saiSrai x0 x1 x2) := shape12 0x31B 13 6 (by decide) rfl rfl rfl x0 x1 x2 rfl (fun w hM hF h0 h1 h2 => (major_decSai hM).trans (by
  simp only [decSai, hF, h0, h1, h2]))
theorem saiLui (x0 : BitVec 5) (x1 : BitVec 12) : Statement (.saiLui x0 x1) := shape13 0x39B 13 7 (by decide) rfl rfl rfl x0 x1 rfl (fun w hM hF c0 h0 h1 => (major_decSai hM).trans (by
  simp only [decSai, hF, c0, h0, h1, need, beq_self_eq_true, if_true]))
theorem maskSave (x0 : BitVec 5) : Statement (.maskSave x0) := shape14 0x1D 14 0 (by decide) rfl rfl rfl x0 rfl (fun w hM hF c0 h0 => (major_decMask hM).trans (by
  simp only [decMask, hF, c0, h0, need, beq_self_eq_true, if_true]))
theorem maskRest (x0 : BitVec 5) : Statement (.maskRest x0) := shape15 0x9D 14 1 (by decide) rfl rfl rfl x0 rfl (fun w hM hF c0 c1 h0 => (major_decMask hM).trans (by
  simp only [decMask, hF, c0, c1, h0, need, beq_self_eq_true, Bool.and_self, if_true]))
theorem maskSet (x0 : BitVec 5) (x1 : BitVec 1) : Statement (.maskSet x0 x1) := shape16 0x11D 14 2 (by decide) rfl rfl rfl x0 x1 rfl (fun w hM hF c0 c1 c2 h0 h1 => (major_decMask hM).trans (by
  simp only [decMask, hF, c0, c1, c2, h0, h1, need, beq_self_eq_true, Bool.and_self, if_true]))
theorem maskAnd (x0 : BitVec 5) : Statement (.maskAnd x0) := shape15 0x19D 14 3 (by decide) rfl rfl rfl x0 rfl (fun w hM hF c0 c1 h0 => (major_decMask hM).trans (by
  simp only [decMask, hF, c0, c1, h0, need, beq_self_eq_true, Bool.and_self, if_true]))
theorem maskAndn (x0 : BitVec 5) : Statement (.maskAndn x0) := shape15 0x21D 14 4 (by decide) rfl rfl rfl x0 rfl (fun w hM hF c0 c1 h0 => (major_decMask hM).trans (by
  simp only [decMask, hF, c0, c1, h0, need, beq_self_eq_true, Bool.and_self, if_true]))
theorem maskOr (x0 : BitVec 5) : Statement (.maskOr x0) := shape15 0x29D 14 5 (by decide) rfl rfl rfl x0 rfl (fun w hM hF c0 c1 h0 => (major_decMask hM).trans (by
  simp only [decMask, hF, c0, c1, h0, need, beq_self_eq_true, Bool.and_self, if_true]))
theorem maskFull : Statement .maskFull := shape17 0x31D 14 6 (by decide) rfl rfl rfl rfl (fun w hM hF c0 => (major_decMask hM).trans (by
  simp only [decMask, hF, c0, need, beq_self_eq_true, if_true]))
theorem brAl (x0 : BitVec 17) : Statement (.brAl x0) := shape18 0x1F 15 0 (by decide) rfl rfl rfl x0 rfl (fun w hM hF c0 h0 => (major_decBr hM).trans (by
  simp only [decBr, hF, c0, h0, need, beq_self_eq_true, if_true]))
theorem brZ (x0 : BitVec 5) (x1 : BitVec 17) : Statement (.brZ x0 x1) := shape19 0x9F 15 1 (by decide) rfl rfl rfl x0 x1 rfl (fun w hM hF h0 h1 => (major_decBr hM).trans (by
  simp only [decBr, hF, h0, h1]))
theorem brNz (x0 : BitVec 5) (x1 : BitVec 17) : Statement (.brNz x0 x1) := shape19 0x11F 15 2 (by decide) rfl rfl rfl x0 x1 rfl (fun w hM hF h0 h1 => (major_decBr hM).trans (by
  simp only [decBr, hF, h0, h1]))
theorem brXz (x0 : BitVec 17) : Statement (.brXz x0) := shape18 0x19F 15 3 (by decide) rfl rfl rfl x0 rfl (fun w hM hF c0 h0 => (major_decBr hM).trans (by
  simp only [decBr, hF, c0, h0, need, beq_self_eq_true, if_true]))
theorem brXnz (x0 : BitVec 17) : Statement (.brXnz x0) := shape18 0x21F 15 4 (by decide) rfl rfl rfl x0 rfl (fun w hM hF c0 h0 => (major_decBr hM).trans (by
  simp only [decBr, hF, c0, h0, need, beq_self_eq_true, if_true]))
theorem brVz (x0 : BitVec 5) (x1 : BitVec 17) : Statement (.brVz x0 x1) := shape19 0x29F 15 5 (by decide) rfl rfl rfl x0 x1 rfl (fun w hM hF h0 h1 => (major_decBr hM).trans (by
  simp only [decBr, hF, h0, h1]))
theorem brVnz (x0 : BitVec 5) (x1 : BitVec 17) : Statement (.brVnz x0 x1) := shape19 0x31F 15 6 (by decide) rfl rfl rfl x0 x1 rfl (fun w hM hF h0 h1 => (major_decBr hM).trans (by
  simp only [decBr, hF, h0, h1]))
theorem jmpCall (x0 : BitVec 3) (x1 : BitVec 19) : Statement (.jmpCall x0 x1) := shape20 0x21 16 0 (by decide) rfl rfl rfl x0 x1 rfl (fun w hM hF h0 h1 => (major_decJmp hM).trans (by
  simp only [decJmp, hF, h0, h1]))
theorem jmpCallx (x0 : BitVec 3) (x1 : BitVec 5) : Statement (.jmpCallx x0 x1) := shape21 0xA1 16 1 (by decide) rfl rfl rfl x0 x1 rfl (fun w hM hF c0 h0 h1 => (major_decJmp hM).trans (by
  simp only [decJmp, hF, c0, h0, h1, need, beq_self_eq_true, if_true]))
theorem jmpRet : Statement .jmpRet := shape22 0x121 16 2 (by decide) rfl rfl rfl rfl (fun w hM hF c0 => (major_decJmp hM).trans (by
  simp only [decJmp, hF, c0, need, beq_self_eq_true, if_true]))
theorem jmpJx (x0 : BitVec 5) : Statement (.jmpJx x0) := shape23 0x1A1 16 3 (by decide) rfl rfl rfl x0 rfl (fun w hM hF c0 c1 h0 => (major_decJmp hM).trans (by
  simp only [decJmp, hF, c0, c1, h0, need, beq_self_eq_true, Bool.and_self, if_true]))
theorem jmpJtab (x0 : BitVec 5) (x1 : BitVec 5) (x2 : BitVec 9) : Statement (.jmpJtab x0 x1 x2) := shape24 0x221 16 4 (by decide) rfl rfl rfl x0 x1 x2 rfl (fun w hM hF c0 h0 h1 h2 => (major_decJmp hM).trans (by
  simp only [decJmp, hF, c0, h0, h1, h2, need, beq_self_eq_true, if_true]))
theorem jmpJv (x0 : BitVec 5) : Statement (.jmpJv x0) := shape23 0x2A1 16 5 (by decide) rfl rfl rfl x0 rfl (fun w hM hF c0 c1 h0 => (major_decJmp hM).trans (by
  simp only [decJmp, hF, c0, c1, h0, need, beq_self_eq_true, Bool.and_self, if_true]))
theorem ctlNop : Statement .ctlNop := shape17 0x23 17 0 (by decide) rfl rfl rfl rfl (fun w hM hF c0 => (major_decCtl hM).trans (by
  simp only [decCtl, hF, c0, need, beq_self_eq_true, if_true]))
theorem ctlHalt : Statement .ctlHalt := shape17 0xA3 17 1 (by decide) rfl rfl rfl rfl (fun w hM hF c0 => (major_decCtl hM).trans (by
  simp only [decCtl, hF, c0, need, beq_self_eq_true, if_true]))
theorem ctlYield : Statement .ctlYield := shape17 0x123 17 2 (by decide) rfl rfl rfl rfl (fun w hM hF c0 => (major_decCtl hM).trans (by
  simp only [decCtl, hF, c0, need, beq_self_eq_true, if_true]))
theorem ctlWait (x0 : BitVec 5) (x1 : BitVec 16) : Statement (.ctlWait x0 x1) := shape25 0x1A3 17 3 (by decide) rfl rfl rfl x0 x1 rfl (fun w hM hF h0 h1 => (major_decCtl hM).trans (by
  simp only [decCtl, hF, h0, h1]))
theorem ctlRefresh : Statement .ctlRefresh := shape17 0x223 17 4 (by decide) rfl rfl rfl rfl (fun w hM hF c0 => (major_decCtl hM).trans (by
  simp only [decCtl, hF, c0, need, beq_self_eq_true, if_true]))
theorem ctlIvl (x0 : BitVec 16) : Statement (.ctlIvl x0) := shape26 0x2A3 17 5 (by decide) rfl rfl rfl x0 rfl (fun w hM hF c0 h0 => (major_decCtl hM).trans (by
  simp only [decCtl, hF, c0, h0, need, beq_self_eq_true, if_true]))
theorem ctlBrk (x0 : BitVec 16) : Statement (.ctlBrk x0) := shape26 0x323 17 6 (by decide) rfl rfl rfl x0 rfl (fun w hM hF c0 h0 => (major_decCtl hM).trans (by
  simp only [decCtl, hF, c0, h0, need, beq_self_eq_true, if_true]))
theorem ctlWdog (x0 : BitVec 16) : Statement (.ctlWdog x0) := shape26 0x3A3 17 7 (by decide) rfl rfl rfl x0 rfl (fun w hM hF c0 h0 => (major_decCtl hM).trans (by
  simp only [decCtl, hF, c0, h0, need, beq_self_eq_true, if_true]))
theorem ldB (x0 : BitVec 6) (x1 : BitVec 5) (x2 : BitVec 6) (x3 : BitVec 1) (x4 : BitVec 3) : Statement (.ldB x0 x1 x2 x3 x4) := shape27 0x25 18 0 (by decide) rfl rfl rfl x0 x1 x2 x3 x4 rfl (fun w hM hF h0 h1 h2 h3 h4 => (major_decLd hM).trans (by
  simp only [decLd, hF, h0, h1, h2, h3, h4]))
theorem ldBn (x0 : BitVec 6) (x1 : BitVec 5) (x2 : BitVec 6) (x3 : BitVec 1) (x4 : BitVec 3) : Statement (.ldBn x0 x1 x2 x3 x4) := shape27 0xA5 18 1 (by decide) rfl rfl rfl x0 x1 x2 x3 x4 rfl (fun w hM hF h0 h1 h2 h3 h4 => (major_decLd hM).trans (by
  simp only [decLd, hF, h0, h1, h2, h3, h4]))
theorem ldH (x0 : BitVec 6) (x1 : BitVec 5) (x2 : BitVec 6) (x3 : BitVec 1) (x4 : BitVec 3) : Statement (.ldH x0 x1 x2 x3 x4) := shape27 0x125 18 2 (by decide) rfl rfl rfl x0 x1 x2 x3 x4 rfl (fun w hM hF h0 h1 h2 h3 h4 => (major_decLd hM).trans (by
  simp only [decLd, hF, h0, h1, h2, h3, h4]))
theorem ldHn (x0 : BitVec 6) (x1 : BitVec 5) (x2 : BitVec 6) (x3 : BitVec 1) (x4 : BitVec 3) : Statement (.ldHn x0 x1 x2 x3 x4) := shape27 0x1A5 18 3 (by decide) rfl rfl rfl x0 x1 x2 x3 x4 rfl (fun w hM hF h0 h1 h2 h3 h4 => (major_decLd hM).trans (by
  simp only [decLd, hF, h0, h1, h2, h3, h4]))
theorem ldW (x0 : BitVec 6) (x1 : BitVec 5) (x2 : BitVec 6) (x3 : BitVec 1) (x4 : BitVec 3) : Statement (.ldW x0 x1 x2 x3 x4) := shape27 0x225 18 4 (by decide) rfl rfl rfl x0 x1 x2 x3 x4 rfl (fun w hM hF h0 h1 h2 h3 h4 => (major_decLd hM).trans (by
  simp only [decLd, hF, h0, h1, h2, h3, h4]))
theorem ldD (x0 : BitVec 6) (x1 : BitVec 5) (x2 : BitVec 6) (x3 : BitVec 1) (x4 : BitVec 3) : Statement (.ldD x0 x1 x2 x3 x4) := shape27 0x2A5 18 5 (by decide) rfl rfl rfl x0 x1 x2 x3 x4 rfl (fun w hM hF h0 h1 h2 h3 h4 => (major_decLd hM).trans (by
  simp only [decLd, hF, h0, h1, h2, h3, h4]))
theorem ldQ (x0 : BitVec 6) (x1 : BitVec 5) (x2 : BitVec 6) (x3 : BitVec 1) (x4 : BitVec 3) : Statement (.ldQ x0 x1 x2 x3 x4) := shape27 0x325 18 6 (by decide) rfl rfl rfl x0 x1 x2 x3 x4 rfl (fun w hM hF h0 h1 h2 h3 h4 => (major_decLd hM).trans (by
  simp only [decLd, hF, h0, h1, h2, h3, h4]))
theorem stB (x0 : BitVec 6) (x1 : BitVec 5) (x2 : BitVec 6) (x3 : BitVec 1) (x4 : BitVec 3) : Statement (.stB x0 x1 x2 x3 x4) := shape27 0x27 19 0 (by decide) rfl rfl rfl x0 x1 x2 x3 x4 rfl (fun w hM hF h0 h1 h2 h3 h4 => (major_decSt hM).trans (by
  simp only [decSt, hF, h0, h1, h2, h3, h4]))
theorem stH (x0 : BitVec 6) (x1 : BitVec 5) (x2 : BitVec 6) (x3 : BitVec 1) (x4 : BitVec 3) : Statement (.stH x0 x1 x2 x3 x4) := shape27 0xA7 19 1 (by decide) rfl rfl rfl x0 x1 x2 x3 x4 rfl (fun w hM hF h0 h1 h2 h3 h4 => (major_decSt hM).trans (by
  simp only [decSt, hF, h0, h1, h2, h3, h4]))
theorem stW (x0 : BitVec 6) (x1 : BitVec 5) (x2 : BitVec 6) (x3 : BitVec 1) (x4 : BitVec 3) : Statement (.stW x0 x1 x2 x3 x4) := shape27 0x127 19 2 (by decide) rfl rfl rfl x0 x1 x2 x3 x4 rfl (fun w hM hF h0 h1 h2 h3 h4 => (major_decSt hM).trans (by
  simp only [decSt, hF, h0, h1, h2, h3, h4]))
theorem stD (x0 : BitVec 6) (x1 : BitVec 5) (x2 : BitVec 6) (x3 : BitVec 1) (x4 : BitVec 3) : Statement (.stD x0 x1 x2 x3 x4) := shape27 0x1A7 19 3 (by decide) rfl rfl rfl x0 x1 x2 x3 x4 rfl (fun w hM hF h0 h1 h2 h3 h4 => (major_decSt hM).trans (by
  simp only [decSt, hF, h0, h1, h2, h3, h4]))
theorem stQ (x0 : BitVec 6) (x1 : BitVec 5) (x2 : BitVec 6) (x3 : BitVec 1) (x4 : BitVec 3) : Statement (.stQ x0 x1 x2 x3 x4) := shape27 0x227 19 4 (by decide) rfl rfl rfl x0 x1 x2 x3 x4 rfl (fun w hM hF h0 h1 h2 h3 h4 => (major_decSt hM).trans (by
  simp only [decSt, hF, h0, h1, h2, h3, h4]))
theorem smLdw (x0 : BitVec 5) (x1 : BitVec 5) (x2 : BitVec 12) : Statement (.smLdw x0 x1 x2) := shape12 0x29 20 0 (by decide) rfl rfl rfl x0 x1 x2 rfl (fun w hM hF h0 h1 h2 => (major_decSm hM).trans (by
  simp only [decSm, hF, h0, h1, h2]))
theorem smLdd (x0 : BitVec 5) (x1 : BitVec 5) (x2 : BitVec 12) : Statement (.smLdd x0 x1 x2) := shape12 0xA9 20 1 (by decide) rfl rfl rfl x0 x1 x2 rfl (fun w hM hF h0 h1 h2 => (major_decSm hM).trans (by
  simp only [decSm, hF, h0, h1, h2]))
theorem smStw (x0 : BitVec 5) (x1 : BitVec 5) (x2 : BitVec 12) : Statement (.smStw x0 x1 x2) := shape12 0x129 20 2 (by decide) rfl rfl rfl x0 x1 x2 rfl (fun w hM hF h0 h1 h2 => (major_decSm hM).trans (by
  simp only [decSm, hF, h0, h1, h2]))
theorem smStd (x0 : BitVec 5) (x1 : BitVec 5) (x2 : BitVec 12) : Statement (.smStd x0 x1 x2) := shape12 0x1A9 20 3 (by decide) rfl rfl rfl x0 x1 x2 rfl (fun w hM hF h0 h1 h2 => (major_decSm hM).trans (by
  simp only [decSm, hF, h0, h1, h2]))
theorem atAdd (x0 : BitVec 6) (x1 : BitVec 5) (x2 : BitVec 6) (x3 : BitVec 1) (x4 : BitVec 3) : Statement (.atAdd x0 x1 x2 x3 x4) := shape27 0x2B 21 0 (by decide) rfl rfl rfl x0 x1 x2 x3 x4 rfl (fun w hM hF h0 h1 h2 h3 h4 => (major_decAt hM).trans (by
  simp only [decAt, hF, h0, h1, h2, h3, h4]))
theorem atMin (x0 : BitVec 6) (x1 : BitVec 5) (x2 : BitVec 6) (x3 : BitVec 1) (x4 : BitVec 3) : Statement (.atMin x0 x1 x2 x3 x4) := shape27 0xAB 21 1 (by decide) rfl rfl rfl x0 x1 x2 x3 x4 rfl (fun w hM hF h0 h1 h2 h3 h4 => (major_decAt hM).trans (by
  simp only [decAt, hF, h0, h1, h2, h3, h4]))
theorem atMax (x0 : BitVec 6) (x1 : BitVec 5) (x2 : BitVec 6) (x3 : BitVec 1) (x4 : BitVec 3) : Statement (.atMax x0 x1 x2 x3 x4) := shape27 0x12B 21 2 (by decide) rfl rfl rfl x0 x1 x2 x3 x4 rfl (fun w hM hF h0 h1 h2 h3 h4 => (major_decAt hM).trans (by
  simp only [decAt, hF, h0, h1, h2, h3, h4]))
theorem atMinn (x0 : BitVec 6) (x1 : BitVec 5) (x2 : BitVec 6) (x3 : BitVec 1) (x4 : BitVec 3) : Statement (.atMinn x0 x1 x2 x3 x4) := shape27 0x1AB 21 3 (by decide) rfl rfl rfl x0 x1 x2 x3 x4 rfl (fun w hM hF h0 h1 h2 h3 h4 => (major_decAt hM).trans (by
  simp only [decAt, hF, h0, h1, h2, h3, h4]))
theorem atMaxn (x0 : BitVec 6) (x1 : BitVec 5) (x2 : BitVec 6) (x3 : BitVec 1) (x4 : BitVec 3) : Statement (.atMaxn x0 x1 x2 x3 x4) := shape27 0x22B 21 4 (by decide) rfl rfl rfl x0 x1 x2 x3 x4 rfl (fun w hM hF h0 h1 h2 h3 h4 => (major_decAt hM).trans (by
  simp only [decAt, hF, h0, h1, h2, h3, h4]))
theorem atAnd (x0 : BitVec 6) (x1 : BitVec 5) (x2 : BitVec 6) (x3 : BitVec 1) (x4 : BitVec 3) : Statement (.atAnd x0 x1 x2 x3 x4) := shape27 0x2AB 21 5 (by decide) rfl rfl rfl x0 x1 x2 x3 x4 rfl (fun w hM hF h0 h1 h2 h3 h4 => (major_decAt hM).trans (by
  simp only [decAt, hF, h0, h1, h2, h3, h4]))
theorem atOr (x0 : BitVec 6) (x1 : BitVec 5) (x2 : BitVec 6) (x3 : BitVec 1) (x4 : BitVec 3) : Statement (.atOr x0 x1 x2 x3 x4) := shape27 0x32B 21 6 (by decide) rfl rfl rfl x0 x1 x2 x3 x4 rfl (fun w hM hF h0 h1 h2 h3 h4 => (major_decAt hM).trans (by
  simp only [decAt, hF, h0, h1, h2, h3, h4]))
theorem atXor (x0 : BitVec 6) (x1 : BitVec 5) (x2 : BitVec 6) (x3 : BitVec 1) (x4 : BitVec 3) : Statement (.atXor x0 x1 x2 x3 x4) := shape27 0x3AB 21 7 (by decide) rfl rfl rfl x0 x1 x2 x3 x4 rfl (fun w hM hF h0 h1 h2 h3 h4 => (major_decAt hM).trans (by
  simp only [decAt, hF, h0, h1, h2, h3, h4]))
theorem atXchg (x0 : BitVec 6) (x1 : BitVec 5) (x2 : BitVec 6) (x3 : BitVec 1) (x4 : BitVec 3) : Statement (.atXchg x0 x1 x2 x3 x4) := shape27 0x42B 21 8 (by decide) rfl rfl rfl x0 x1 x2 x3 x4 rfl (fun w hM hF h0 h1 h2 h3 h4 => (major_decAt hM).trans (by
  simp only [decAt, hF, h0, h1, h2, h3, h4]))
theorem atCas (x0 : BitVec 6) (x1 : BitVec 5) (x2 : BitVec 6) (x3 : BitVec 1) (x4 : BitVec 3) : Statement (.atCas x0 x1 x2 x3 x4) := shape27 0x4AB 21 9 (by decide) rfl rfl rfl x0 x1 x2 x3 x4 rfl (fun w hM hF h0 h1 h2 h3 h4 => (major_decAt hM).trans (by
  simp only [decAt, hF, h0, h1, h2, h3, h4]))
theorem atInc (x0 : BitVec 6) (x1 : BitVec 5) (x2 : BitVec 6) (x3 : BitVec 1) (x4 : BitVec 3) : Statement (.atInc x0 x1 x2 x3 x4) := shape27 0x52B 21 10 (by decide) rfl rfl rfl x0 x1 x2 x3 x4 rfl (fun w hM hF h0 h1 h2 h3 h4 => (major_decAt hM).trans (by
  simp only [decAt, hF, h0, h1, h2, h3, h4]))
theorem atFadd (x0 : BitVec 6) (x1 : BitVec 5) (x2 : BitVec 6) (x3 : BitVec 1) (x4 : BitVec 3) : Statement (.atFadd x0 x1 x2 x3 x4) := shape27 0x5AB 21 11 (by decide) rfl rfl rfl x0 x1 x2 x3 x4 rfl (fun w hM hF h0 h1 h2 h3 h4 => (major_decAt hM).trans (by
  simp only [decAt, hF, h0, h1, h2, h3, h4]))
theorem atXadd (x0 : BitVec 6) (x1 : BitVec 5) (x2 : BitVec 6) (x3 : BitVec 1) (x4 : BitVec 3) : Statement (.atXadd x0 x1 x2 x3 x4) := shape27 0x62B 21 12 (by decide) rfl rfl rfl x0 x1 x2 x3 x4 rfl (fun w hM hF h0 h1 h2 h3 h4 => (major_decAt hM).trans (by
  simp only [decAt, hF, h0, h1, h2, h3, h4]))
theorem atXrd (x0 : BitVec 6) (x1 : BitVec 5) (x2 : BitVec 6) (x3 : BitVec 1) (x4 : BitVec 3) : Statement (.atXrd x0 x1 x2 x3 x4) := shape27 0x6AB 21 13 (by decide) rfl rfl rfl x0 x1 x2 x3 x4 rfl (fun w hM hF h0 h1 h2 h3 h4 => (major_decAt hM).trans (by
  simp only [decAt, hF, h0, h1, h2, h3, h4]))
theorem atXclr (x0 : BitVec 6) (x1 : BitVec 5) (x2 : BitVec 6) (x3 : BitVec 1) (x4 : BitVec 3) : Statement (.atXclr x0 x1 x2 x3 x4) := shape27 0x72B 21 14 (by decide) rfl rfl rfl x0 x1 x2 x3 x4 rfl (fun w hM hF h0 h1 h2 h3 h4 => (major_decAt hM).trans (by
  simp only [decAt, hF, h0, h1, h2, h3, h4]))
theorem spmLdw (x0 : BitVec 6) (x1 : BitVec 5) (x2 : BitVec 6) (x3 : BitVec 1) (x4 : BitVec 3) : Statement (.spmLdw x0 x1 x2 x3 x4) := shape27 0x2D 22 0 (by decide) rfl rfl rfl x0 x1 x2 x3 x4 rfl (fun w hM hF h0 h1 h2 h3 h4 => (major_decSpm hM).trans (by
  simp only [decSpm, hF, h0, h1, h2, h3, h4]))
theorem spmLdd (x0 : BitVec 6) (x1 : BitVec 5) (x2 : BitVec 6) (x3 : BitVec 1) (x4 : BitVec 3) : Statement (.spmLdd x0 x1 x2 x3 x4) := shape27 0xAD 22 1 (by decide) rfl rfl rfl x0 x1 x2 x3 x4 rfl (fun w hM hF h0 h1 h2 h3 h4 => (major_decSpm hM).trans (by
  simp only [decSpm, hF, h0, h1, h2, h3, h4]))
theorem spmLdq (x0 : BitVec 6) (x1 : BitVec 5) (x2 : BitVec 6) (x3 : BitVec 1) (x4 : BitVec 3) : Statement (.spmLdq x0 x1 x2 x3 x4) := shape27 0x12D 22 2 (by decide) rfl rfl rfl x0 x1 x2 x3 x4 rfl (fun w hM hF h0 h1 h2 h3 h4 => (major_decSpm hM).trans (by
  simp only [decSpm, hF, h0, h1, h2, h3, h4]))
theorem spmStw (x0 : BitVec 6) (x1 : BitVec 5) (x2 : BitVec 6) (x3 : BitVec 1) (x4 : BitVec 3) : Statement (.spmStw x0 x1 x2 x3 x4) := shape27 0x1AD 22 3 (by decide) rfl rfl rfl x0 x1 x2 x3 x4 rfl (fun w hM hF h0 h1 h2 h3 h4 => (major_decSpm hM).trans (by
  simp only [decSpm, hF, h0, h1, h2, h3, h4]))
theorem spmStd (x0 : BitVec 6) (x1 : BitVec 5) (x2 : BitVec 6) (x3 : BitVec 1) (x4 : BitVec 3) : Statement (.spmStd x0 x1 x2 x3 x4) := shape27 0x22D 22 4 (by decide) rfl rfl rfl x0 x1 x2 x3 x4 rfl (fun w hM hF h0 h1 h2 h3 h4 => (major_decSpm hM).trans (by
  simp only [decSpm, hF, h0, h1, h2, h3, h4]))
theorem spmStq (x0 : BitVec 6) (x1 : BitVec 5) (x2 : BitVec 6) (x3 : BitVec 1) (x4 : BitVec 3) : Statement (.spmStq x0 x1 x2 x3 x4) := shape27 0x2AD 22 5 (by decide) rfl rfl rfl x0 x1 x2 x3 x4 rfl (fun w hM hF h0 h1 h2 h3 h4 => (major_decSpm hM).trans (by
  simp only [decSpm, hF, h0, h1, h2, h3, h4]))
theorem spmAdd (x0 : BitVec 6) (x1 : BitVec 5) (x2 : BitVec 6) (x3 : BitVec 1) (x4 : BitVec 3) : Statement (.spmAdd x0 x1 x2 x3 x4) := shape27 0x32D 22 6 (by decide) rfl rfl rfl x0 x1 x2 x3 x4 rfl (fun w hM hF h0 h1 h2 h3 h4 => (major_decSpm hM).trans (by
  simp only [decSpm, hF, h0, h1, h2, h3, h4]))
theorem spmMin (x0 : BitVec 6) (x1 : BitVec 5) (x2 : BitVec 6) (x3 : BitVec 1) (x4 : BitVec 3) : Statement (.spmMin x0 x1 x2 x3 x4) := shape27 0x3AD 22 7 (by decide) rfl rfl rfl x0 x1 x2 x3 x4 rfl (fun w hM hF h0 h1 h2 h3 h4 => (major_decSpm hM).trans (by
  simp only [decSpm, hF, h0, h1, h2, h3, h4]))
theorem spmMax (x0 : BitVec 6) (x1 : BitVec 5) (x2 : BitVec 6) (x3 : BitVec 1) (x4 : BitVec 3) : Statement (.spmMax x0 x1 x2 x3 x4) := shape27 0x42D 22 8 (by decide) rfl rfl rfl x0 x1 x2 x3 x4 rfl (fun w hM hF h0 h1 h2 h3 h4 => (major_decSpm hM).trans (by
  simp only [decSpm, hF, h0, h1, h2, h3, h4]))
theorem spmOr (x0 : BitVec 6) (x1 : BitVec 5) (x2 : BitVec 6) (x3 : BitVec 1) (x4 : BitVec 3) : Statement (.spmOr x0 x1 x2 x3 x4) := shape27 0x4AD 22 9 (by decide) rfl rfl rfl x0 x1 x2 x3 x4 rfl (fun w hM hF h0 h1 h2 h3 h4 => (major_decSpm hM).trans (by
  simp only [decSpm, hF, h0, h1, h2, h3, h4]))
theorem spmXchg (x0 : BitVec 6) (x1 : BitVec 5) (x2 : BitVec 6) (x3 : BitVec 1) (x4 : BitVec 3) : Statement (.spmXchg x0 x1 x2 x3 x4) := shape27 0x52D 22 10 (by decide) rfl rfl rfl x0 x1 x2 x3 x4 rfl (fun w hM hF h0 h1 h2 h3 h4 => (major_decSpm hM).trans (by
  simp only [decSpm, hF, h0, h1, h2, h3, h4]))
theorem spmCas (x0 : BitVec 6) (x1 : BitVec 5) (x2 : BitVec 6) (x3 : BitVec 1) (x4 : BitVec 3) : Statement (.spmCas x0 x1 x2 x3 x4) := shape27 0x5AD 22 11 (by decide) rfl rfl rfl x0 x1 x2 x3 x4 rfl (fun w hM hF h0 h1 h2 h3 h4 => (major_decSpm hM).trans (by
  simp only [decSpm, hF, h0, h1, h2, h3, h4]))
theorem spmInc (x0 : BitVec 6) (x1 : BitVec 5) (x2 : BitVec 6) (x3 : BitVec 1) (x4 : BitVec 3) : Statement (.spmInc x0 x1 x2 x3 x4) := shape27 0x62D 22 12 (by decide) rfl rfl rfl x0 x1 x2 x3 x4 rfl (fun w hM hF h0 h1 h2 h3 h4 => (major_decSpm hM).trans (by
  simp only [decSpm, hF, h0, h1, h2, h3, h4]))
theorem syncBar (x0 : BitVec 2) : Statement (.syncBar x0) := shape28 0x2F 23 0 (by decide) rfl rfl rfl x0 rfl (fun w hM hF c0 c1 h0 => (major_decSync hM).trans (by
  simp only [decSync, hF, c0, c1, h0, need, beq_self_eq_true, Bool.and_self, if_true]))
theorem syncCmtmx (x0 : BitVec 5) : Statement (.syncCmtmx x0) := shape14 0xAF 23 1 (by decide) rfl rfl rfl x0 rfl (fun w hM hF c0 h0 => (major_decSync hM).trans (by
  simp only [decSync, hF, c0, h0, need, beq_self_eq_true, if_true]))
theorem syncCmtcp (x0 : BitVec 5) : Statement (.syncCmtcp x0) := shape14 0x12F 23 2 (by decide) rfl rfl rfl x0 rfl (fun w hM hF c0 h0 => (major_decSync hM).trans (by
  simp only [decSync, hF, c0, h0, need, beq_self_eq_true, if_true]))
theorem syncTlrd (x0 : BitVec 5) (x1 : BitVec 5) : Statement (.syncTlrd x0 x1) := shape11 0x1AF 23 3 (by decide) rfl rfl rfl x0 x1 rfl (fun w hM hF c0 h0 h1 => (major_decSync hM).trans (by
  simp only [decSync, hF, c0, h0, h1, need, beq_self_eq_true, if_true]))
theorem syncIrrev : Statement .syncIrrev := shape17 0x22F 23 4 (by decide) rfl rfl rfl rfl (fun w hM hF c0 => (major_decSync hM).trans (by
  simp only [decSync, hF, c0, need, beq_self_eq_true, if_true]))
theorem mxClaim (x0 : BitVec 5) (x1 : BitVec 2) : Statement (.mxClaim x0 x1) := shape29 0x31 24 0 (by decide) rfl rfl rfl x0 x1 rfl (fun w hM hF c0 c1 h0 h1 => (major_decMx hM).trans (by
  simp only [decMx, hF, c0, c1, h0, h1, need, beq_self_eq_true, Bool.and_self, if_true]))
theorem mxRel (x0 : BitVec 5) (x1 : BitVec 2) : Statement (.mxRel x0 x1) := shape29 0xB1 24 1 (by decide) rfl rfl rfl x0 x1 rfl (fun w hM hF c0 c1 h0 h1 => (major_decMx hM).trans (by
  simp only [decMx, hF, c0, c1, h0, h1, need, beq_self_eq_true, Bool.and_self, if_true]))
theorem mxZero (x0 : BitVec 5) (x1 : BitVec 1) : Statement (.mxZero x0 x1) := shape30 0x131 24 2 (by decide) rfl rfl rfl x0 x1 rfl (fun w hM hF c0 h0 h1 => (major_decMx hM).trans (by
  simp only [decMx, hF, c0, h0, h1, need, beq_self_eq_true, if_true]))
theorem mxMma (x0 : BitVec 5) (x1 : BitVec 5) (x2 : BitVec 5) (x3 : BitVec 1) : Statement (.mxMma x0 x1 x2 x3) := shape31 0x1B1 24 3 (by decide) rfl rfl rfl x0 x1 x2 x3 rfl (fun w hM hF c0 h0 h1 h2 h3 => (major_decMx hM).trans (by
  simp only [decMx, hF, c0, h0, h1, h2, h3, need, beq_self_eq_true, if_true]))
theorem mxMms (x0 : BitVec 5) (x1 : BitVec 5) (x2 : BitVec 5) (x3 : BitVec 1) : Statement (.mxMms x0 x1 x2 x3) := shape31 0x231 24 4 (by decide) rfl rfl rfl x0 x1 x2 x3 rfl (fun w hM hF c0 h0 h1 h2 h3 => (major_decMx hM).trans (by
  simp only [decMx, hF, c0, h0, h1, h2, h3, need, beq_self_eq_true, if_true]))
theorem mxMmx (x0 : BitVec 5) (x1 : BitVec 5) (x2 : BitVec 5) (x3 : BitVec 1) : Statement (.mxMmx x0 x1 x2 x3) := shape31 0x2B1 24 5 (by decide) rfl rfl rfl x0 x1 x2 x3 rfl (fun w hM hF c0 h0 h1 h2 h3 => (major_decMx hM).trans (by
  simp only [decMx, hF, c0, h0, h1, h2, h3, need, beq_self_eq_true, if_true]))
theorem mxMmg (x0 : BitVec 5) (x1 : BitVec 5) (x2 : BitVec 5) (x3 : BitVec 1) (x4 : BitVec 1) : Statement (.mxMmg x0 x1 x2 x3 x4) := shape32 0x331 24 6 (by decide) rfl rfl rfl x0 x1 x2 x3 x4 rfl (fun w hM hF c0 h0 h1 h2 h3 h4 => (major_decMx hM).trans (by
  simp only [decMx, hF, c0, h0, h1, h2, h3, h4, need, beq_self_eq_true, if_true]))
theorem mxSt (x0 : BitVec 5) (x1 : BitVec 5) (x2 : BitVec 5) (x3 : BitVec 1) (x4 : BitVec 1) (x5 : BitVec 1) : Statement (.mxSt x0 x1 x2 x3 x4 x5) := shape33 0x3B1 24 7 (by decide) rfl rfl rfl x0 x1 x2 x3 x4 x5 rfl (fun w hM hF c0 h0 h1 h2 h3 h4 h5 => (major_decMx hM).trans (by
  simp only [decMx, hF, c0, h0, h1, h2, h3, h4, h5, need, beq_self_eq_true, if_true]))
theorem cpG2s (x0 : BitVec 5) (x1 : BitVec 5) (x2 : BitVec 5) (x3 : BitVec 1) : Statement (.cpG2s x0 x1 x2 x3) := shape31 0x33 25 0 (by decide) rfl rfl rfl x0 x1 x2 x3 rfl (fun w hM hF c0 h0 h1 h2 h3 => (major_decCp hM).trans (by
  simp only [decCp, hF, c0, h0, h1, h2, h3, need, beq_self_eq_true, if_true]))
theorem cpS2g (x0 : BitVec 5) (x1 : BitVec 5) (x2 : BitVec 5) (x3 : BitVec 1) : Statement (.cpS2g x0 x1 x2 x3) := shape31 0xB3 25 1 (by decide) rfl rfl rfl x0 x1 x2 x3 rfl (fun w hM hF c0 h0 h1 h2 h3 => (major_decCp hM).trans (by
  simp only [decCp, hF, c0, h0, h1, h2, h3, need, beq_self_eq_true, if_true]))
theorem cpG2g (x0 : BitVec 5) (x1 : BitVec 5) (x2 : BitVec 5) (x3 : BitVec 1) : Statement (.cpG2g x0 x1 x2 x3) := shape31 0x133 25 2 (by decide) rfl rfl rfl x0 x1 x2 x3 rfl (fun w hM hF c0 h0 h1 h2 h3 => (major_decCp hM).trans (by
  simp only [decCp, hF, c0, h0, h1, h2, h3, need, beq_self_eq_true, if_true]))
theorem cpG2o (x0 : BitVec 5) (x1 : BitVec 5) (x2 : BitVec 5) (x3 : BitVec 2) (x4 : BitVec 1) : Statement (.cpG2o x0 x1 x2 x3 x4) := shape34 0x1B3 25 3 (by decide) rfl rfl rfl x0 x1 x2 x3 x4 rfl (fun w hM hF c0 h0 h1 h2 h3 h4 => (major_decCp hM).trans (by
  simp only [decCp, hF, c0, h0, h1, h2, h3, h4, need, beq_self_eq_true, if_true]))
theorem cpS2o (x0 : BitVec 5) (x1 : BitVec 5) (x2 : BitVec 5) (x3 : BitVec 2) (x4 : BitVec 1) : Statement (.cpS2o x0 x1 x2 x3 x4) := shape34 0x233 25 4 (by decide) rfl rfl rfl x0 x1 x2 x3 x4 rfl (fun w hM hF c0 h0 h1 h2 h3 h4 => (major_decCp hM).trans (by
  simp only [decCp, hF, c0, h0, h1, h2, h3, h4, need, beq_self_eq_true, if_true]))
theorem cpGat (x0 : BitVec 5) (x1 : BitVec 5) (x2 : BitVec 5) (x3 : BitVec 2) (x4 : BitVec 1) : Statement (.cpGat x0 x1 x2 x3 x4) := shape34 0x2B3 25 5 (by decide) rfl rfl rfl x0 x1 x2 x3 x4 rfl (fun w hM hF c0 h0 h1 h2 h3 h4 => (major_decCp hM).trans (by
  simp only [decCp, hF, c0, h0, h1, h2, h3, h4, need, beq_self_eq_true, if_true]))
theorem cpMeta (x0 : BitVec 5) (x1 : BitVec 5) (x2 : BitVec 1) (x3 : BitVec 1) : Statement (.cpMeta x0 x1 x2 x3) := shape35 0x333 25 6 (by decide) rfl rfl rfl x0 x1 x2 x3 rfl (fun w hM hF c0 c1 h0 h1 h2 h3 => (major_decCp hM).trans (by
  simp only [decCp, hF, c0, c1, h0, h1, h2, h3, need, beq_self_eq_true, Bool.and_self, if_true]))
theorem cpAct (x0 : BitVec 5) (x1 : BitVec 1) : Statement (.cpAct x0 x1) := shape30 0x3B3 25 7 (by decide) rfl rfl rfl x0 x1 rfl (fun w hM hF c0 h0 h1 => (major_decCp hM).trans (by
  simp only [decCp, hF, c0, h0, h1, need, beq_self_eq_true, if_true]))
theorem sqBind (x0 : BitVec 5) (x1 : BitVec 5) (x2 : BitVec 5) : Statement (.sqBind x0 x1 x2) := shape36 0x35 26 0 (by decide) rfl rfl rfl x0 x1 x2 rfl (fun w hM hF c0 c1 h0 h1 h2 => (major_decSq hM).trans (by
  simp only [decSq, hF, c1, h0, h1, h2, need, beq_self_eq_true, if_true, beq_eq_false_iff_ne.mpr c0, Bool.and_false, Bool.false_eq_true, if_false]))
theorem sqBindFree (x0 : BitVec 5) : Statement (.sqBindFree x0) := shape37 0x35 26 0 (by decide) rfl rfl rfl x0 rfl (fun w hM hF c0 c1 h0 => (major_decSq hM).trans (by
  simp only [decSq, hF, c0, c1, h0, need, beq_self_eq_true, Bool.and_self, if_true]))
theorem sqFork (x0 : BitVec 5) (x1 : BitVec 5) (x2 : BitVec 5) : Statement (.sqFork x0 x1 x2) := shape10 0xB5 26 1 (by decide) rfl rfl rfl x0 x1 x2 rfl (fun w hM hF c0 h0 h1 h2 => (major_decSq hM).trans (by
  simp only [decSq, hF, c0, h0, h1, h2, need, beq_self_eq_true, if_true]))
theorem sqSave (x0 : BitVec 5) (x1 : BitVec 5) (x2 : BitVec 5) : Statement (.sqSave x0 x1 x2) := shape10 0x135 26 2 (by decide) rfl rfl rfl x0 x1 x2 rfl (fun w hM hF c0 h0 h1 h2 => (major_decSq hM).trans (by
  simp only [decSq, hF, c0, h0, h1, h2, need, beq_self_eq_true, if_true]))
theorem sqRoll (x0 : BitVec 5) (x1 : BitVec 5) : Statement (.sqRoll x0 x1) := shape11 0x1B5 26 3 (by decide) rfl rfl rfl x0 x1 rfl (fun w hM hF c0 h0 h1 => (major_decSq hM).trans (by
  simp only [decSq, hF, c0, h0, h1, need, beq_self_eq_true, if_true]))
theorem sqRng (x0 : BitVec 5) (x1 : BitVec 5) : Statement (.sqRng x0 x1) := shape11 0x235 26 4 (by decide) rfl rfl rfl x0 x1 rfl (fun w hM hF c0 h0 h1 => (major_decSq hM).trans (by
  simp only [decSq, hF, c0, h0, h1, need, beq_self_eq_true, if_true]))
theorem sqAcc (x0 : BitVec 5) (x1 : BitVec 5) (x2 : BitVec 5) : Statement (.sqAcc x0 x1 x2) := shape10 0x2B5 26 5 (by decide) rfl rfl rfl x0 x1 x2 rfl (fun w hM hF c0 h0 h1 h2 => (major_decSq hM).trans (by
  simp only [decSq, hF, c0, h0, h1, h2, need, beq_self_eq_true, if_true]))
theorem sqEmit (x0 : BitVec 5) (x1 : BitVec 5) : Statement (.sqEmit x0 x1) := shape11 0x335 26 6 (by decide) rfl rfl rfl x0 x1 rfl (fun w hM hF c0 h0 h1 => (major_decSq hM).trans (by
  simp only [decSq, hF, c0, h0, h1, need, beq_self_eq_true, if_true]))
theorem sqRel (x0 : BitVec 5) (x1 : BitVec 5) : Statement (.sqRel x0 x1) := shape11 0x3B5 26 7 (by decide) rfl rfl rfl x0 x1 rfl (fun w hM hF c0 h0 h1 => (major_decSq hM).trans (by
  simp only [decSq, hF, c0, h0, h1, need, beq_self_eq_true, if_true]))
theorem sqVeto (x0 : BitVec 5) (x1 : BitVec 5) : Statement (.sqVeto x0 x1) := shape11 0x435 26 8 (by decide) rfl rfl rfl x0 x1 rfl (fun w hM hF c0 h0 h1 => (major_decSq hM).trans (by
  simp only [decSq, hF, c0, h0, h1, need, beq_self_eq_true, if_true]))
theorem gxBind (x0 : BitVec 7) (x1 : BitVec 7) (x2 : BitVec 7) : Statement (.gxBind x0 x1 x2) := shape1 0x37 27 0 (by decide) rfl rfl rfl x0 x1 x2 rfl (fun w hM hF h0 h1 h2 => (major_decGx hM).trans (by
  simp only [decGx, hF, h0, h1, h2]))
theorem gxMask (x0 : BitVec 6) (x1 : BitVec 7) (x2 : BitVec 7) : Statement (.gxMask x0 x1 x2) := shape6 0xB7 27 1 (by decide) rfl rfl rfl x0 x1 x2 rfl (fun w hM hF c0 h0 h1 h2 => (major_decGx hM).trans (by
  simp only [decGx, hF, c0, h0, h1, h2, need, beq_self_eq_true, if_true]))
theorem gxPeek (x0 : BitVec 7) (x1 : BitVec 7) : Statement (.gxPeek x0 x1) := shape2 0x137 27 2 (by decide) rfl rfl rfl x0 x1 rfl (fun w hM hF c0 h0 h1 => (major_decGx hM).trans (by
  simp only [decGx, hF, c0, h0, h1, need, beq_self_eq_true, if_true]))
theorem gxStep (x0 : BitVec 7) (x1 : BitVec 7) : Statement (.gxStep x0 x1) := shape38 0x1B7 27 3 (by decide) rfl rfl rfl x0 x1 rfl (fun w hM hF c0 h0 h1 => (major_decGx hM).trans (by
  simp only [decGx, hF, c0, h0, h1, need, beq_self_eq_true, if_true]))
theorem mapFork (x0 : BitVec 5) (x1 : BitVec 5) (x2 : BitVec 5) (x3 : BitVec 1) : Statement (.mapFork x0 x1 x2 x3) := shape39 0x39 28 0 (by decide) rfl rfl rfl x0 x1 x2 x3 rfl (fun w hM hF c0 h0 h1 h2 h3 => (major_decMap hM).trans (by
  simp only [decMap, hF, c0, h0, h1, h2, h3, need, beq_self_eq_true, if_true]))
theorem mapSet (x0 : BitVec 5) (x1 : BitVec 5) (x2 : BitVec 5) (x3 : BitVec 1) : Statement (.mapSet x0 x1 x2 x3) := shape39 0xB9 28 1 (by decide) rfl rfl rfl x0 x1 x2 x3 rfl (fun w hM hF c0 h0 h1 h2 h3 => (major_decMap hM).trans (by
  simp only [decMap, hF, c0, h0, h1, h2, h3, need, beq_self_eq_true, if_true]))
theorem mapSwap (x0 : BitVec 5) (x1 : BitVec 5) (x2 : BitVec 1) : Statement (.mapSwap x0 x1 x2) := shape40 0x139 28 2 (by decide) rfl rfl rfl x0 x1 x2 rfl (fun w hM hF c0 c1 h0 h1 h2 => (major_decMap hM).trans (by
  simp only [decMap, hF, c0, c1, h0, h1, h2, need, beq_self_eq_true, Bool.and_self, if_true]))
theorem mapDrop (x0 : BitVec 5) (x1 : BitVec 5) : Statement (.mapDrop x0 x1) := shape11 0x1B9 28 3 (by decide) rfl rfl rfl x0 x1 rfl (fun w hM hF c0 h0 h1 => (major_decMap hM).trans (by
  simp only [decMap, hF, c0, h0, h1, need, beq_self_eq_true, if_true]))
theorem mapRef (x0 : BitVec 5) (x1 : BitVec 5) (x2 : BitVec 5) (x3 : BitVec 3) : Statement (.mapRef x0 x1 x2 x3) := shape41 0x239 28 4 (by decide) rfl rfl rfl x0 x1 x2 x3 rfl (fun w hM hF c0 h0 h1 h2 h3 => (major_decMap hM).trans (by
  simp only [decMap, hF, c0, h0, h1, h2, h3, need, beq_self_eq_true, if_true]))
theorem lnchGrid (x0 : BitVec 5) (x1 : BitVec 5) (x2 : BitVec 5) : Statement (.lnchGrid x0 x1 x2) := shape10 0x3B 29 0 (by decide) rfl rfl rfl x0 x1 x2 rfl (fun w hM hF c0 h0 h1 h2 => (major_decLnch hM).trans (by
  simp only [decLnch, hF, c0, h0, h1, h2, need, beq_self_eq_true, if_true]))
theorem lnchSig (x0 : BitVec 5) : Statement (.lnchSig x0) := shape14 0xBB 29 1 (by decide) rfl rfl rfl x0 rfl (fun w hM hF c0 h0 => (major_decLnch hM).trans (by
  simp only [decLnch, hF, c0, h0, need, beq_self_eq_true, if_true]))
theorem lnchGrant (x0 : BitVec 5) (x1 : BitVec 5) (x2 : BitVec 5) (x3 : BitVec 6) : Statement (.lnchGrant x0 x1 x2 x3) := shape42 0x13B 29 2 (by decide) rfl rfl rfl x0 x1 x2 x3 rfl (fun w hM hF h0 h1 h2 h3 => (major_decLnch hM).trans (by
  simp only [decLnch, hF, h0, h1, h2, h3]))
theorem sysSrd (x0 : BitVec 5) (x1 : BitVec 16) : Statement (.sysSrd x0 x1) := shape25 0x3D 30 0 (by decide) rfl rfl rfl x0 x1 rfl (fun w hM hF h0 h1 => (major_decSys hM).trans (by
  simp only [decSys, hF, h0, h1]))
theorem sysSwr (x0 : BitVec 5) (x1 : BitVec 16) : Statement (.sysSwr x0 x1) := shape25 0xBD 30 1 (by decide) rfl rfl rfl x0 x1 rfl (fun w hM hF h0 h1 => (major_decSys hM).trans (by
  simp only [decSys, hF, h0, h1]))
theorem sysTrap (x0 : BitVec 5) (x1 : BitVec 16) : Statement (.sysTrap x0 x1) := shape25 0x13D 30 2 (by decide) rfl rfl rfl x0 x1 rfl (fun w hM hF h0 h1 => (major_decSys hM).trans (by
  simp only [decSys, hF, h0, h1]))
theorem sysEret : Statement .sysEret := shape17 0x1BD 30 3 (by decide) rfl rfl rfl rfl (fun w hM hF c0 => (major_decSys hM).trans (by
  simp only [decSys, hF, c0, need, beq_self_eq_true, if_true]))
theorem ext (x0 : BitVec 25) : Statement (.ext x0) := shape43 0x7F 63 (by decide) rfl rfl x0 rfl (fun w hM h0 => (major_decExt hM).trans (by
  simp only [decExt, h0]))
theorem cMov (x0 : BitVec 6) (x1 : BitVec 5) : Statement (.cMov x0 x1) := cf 0 x0 x1 (by decide) rfl (fun w h hM h0 h1 hz => by
  have e : (w % 2 ^ 16 == 0) = false := beq_eq_false_iff_ne.mpr (hz (by
    have h' : (x0 != 0 || x1 != 0) = true := h
    simpa only [Bool.or_eq_true, bne_iff_ne] using h'))
  simp only [decCf, hM, h0, h1, e, Bool.false_eq_true, if_false])
theorem cIadd (x0 : BitVec 6) (x1 : BitVec 5) : Statement (.cIadd x0 x1) := cf 1 x0 x1 (by decide) rfl (fun w h hM h0 h1 hz => by
  simp only [decCf, hM, h0, h1])
theorem cIsub (x0 : BitVec 6) (x1 : BitVec 5) : Statement (.cIsub x0 x1) := cf 2 x0 x1 (by decide) rfl (fun w h hM h0 h1 hz => by
  simp only [decCf, hM, h0, h1])
theorem cImul (x0 : BitVec 6) (x1 : BitVec 5) : Statement (.cImul x0 x1) := cf 3 x0 x1 (by decide) rfl (fun w h hM h0 h1 hz => by
  simp only [decCf, hM, h0, h1])
theorem cAnd (x0 : BitVec 6) (x1 : BitVec 5) : Statement (.cAnd x0 x1) := cf 4 x0 x1 (by decide) rfl (fun w h hM h0 h1 hz => by
  simp only [decCf, hM, h0, h1])
theorem cOr (x0 : BitVec 6) (x1 : BitVec 5) : Statement (.cOr x0 x1) := cf 5 x0 x1 (by decide) rfl (fun w h hM h0 h1 hz => by
  simp only [decCf, hM, h0, h1])
theorem cXor (x0 : BitVec 6) (x1 : BitVec 5) : Statement (.cXor x0 x1) := cf 6 x0 x1 (by decide) rfl (fun w h hM h0 h1 hz => by
  simp only [decCf, hM, h0, h1])
theorem cShl (x0 : BitVec 6) (x1 : BitVec 5) : Statement (.cShl x0 x1) := cf 7 x0 x1 (by decide) rfl (fun w h hM h0 h1 hz => by
  simp only [decCf, hM, h0, h1])
theorem cShr (x0 : BitVec 6) (x1 : BitVec 5) : Statement (.cShr x0 x1) := cf 8 x0 x1 (by decide) rfl (fun w h hM h0 h1 hz => by
  simp only [decCf, hM, h0, h1])
theorem cSra (x0 : BitVec 6) (x1 : BitVec 5) : Statement (.cSra x0 x1) := cf 9 x0 x1 (by decide) rfl (fun w h hM h0 h1 hz => by
  simp only [decCf, hM, h0, h1])
theorem cFadd (x0 : BitVec 6) (x1 : BitVec 5) : Statement (.cFadd x0 x1) := cf 10 x0 x1 (by decide) rfl (fun w h hM h0 h1 hz => by
  simp only [decCf, hM, h0, h1])
theorem cFsub (x0 : BitVec 6) (x1 : BitVec 5) : Statement (.cFsub x0 x1) := cf 11 x0 x1 (by decide) rfl (fun w h hM h0 h1 hz => by
  simp only [decCf, hM, h0, h1])
theorem cFmul (x0 : BitVec 6) (x1 : BitVec 5) : Statement (.cFmul x0 x1) := cf 12 x0 x1 (by decide) rfl (fun w h hM h0 h1 hz => by
  simp only [decCf, hM, h0, h1])
theorem cFmax (x0 : BitVec 6) (x1 : BitVec 5) : Statement (.cFmax x0 x1) := cf 13 x0 x1 (by decide) rfl (fun w h hM h0 h1 hz => by
  simp only [decCf, hM, h0, h1])
theorem cFmin (x0 : BitVec 6) (x1 : BitVec 5) : Statement (.cFmin x0 x1) := cf 14 x0 x1 (by decide) rfl (fun w h hM h0 h1 hz => by
  simp only [decCf, hM, h0, h1])
theorem cIaddi (x0 : BitVec 6) (x1 : BitVec 5) : Statement (.cIaddi x0 x1) := cf 15 x0 x1 (by decide) rfl (fun w h hM h0 h1 hz => by
  simp only [decCf, hM, h0, h1])
theorem wdog (g : Nat) : Statement (.wdog g) := ofNone rfl
theorem holderSliceWrite (g : Nat) : Statement (.holderSliceWrite g) := ofNone rfl
theorem lineInvalidation (who line : Nat) : Statement (.lineInvalidation who line) := ofNone rfl
theorem lineMigration (line slice : Nat) : Statement (.lineMigration line slice) := ofNone rfl
theorem l2Eviction (line : Nat) : Statement (.l2Eviction line) := ofNone rfl
theorem loadCompletion (g : Nat) : Statement (.loadCompletion g) := ofNone rfl
theorem pendingCommandStart (g : Nat) : Statement (.pendingCommandStart g) := ofNone rfl
theorem matrixPass (core : Nat) : Statement (.matrixPass core) := ofNone rfl
theorem engineOperationComplete (g cmd : Nat) : Statement (.engineOperationComplete g cmd) := ofNone rfl
theorem runFailure (g cmd : Nat) : Statement (.runFailure g cmd) := ofNone rfl
theorem spill (g : Nat) : Statement (.spill g) := ofNone rfl
theorem refill (g : Nat) : Statement (.refill g) := ofNone rfl
theorem copyOnWrite (leaf asid va : Nat) : Statement (.copyOnWrite leaf asid va) := ofNone rfl
theorem generationRelease (leaf asid : Nat) : Statement (.generationRelease leaf asid) := ofNone rfl
theorem gangRetire (g : Nat) : Statement (.gangRetire g) := ofNone rfl
theorem workgroupPlacement (leaf : Nat) : Statement (.workgroupPlacement leaf) := ofNone rfl
theorem promotion (g : Nat) : Statement (.promotion g) := ofNone rfl
theorem sliceEnd (leaf : Nat) : Statement (.sliceEnd leaf) := ofNone rfl
theorem graceWindowExpiry (g : Nat) : Statement (.graceWindowExpiry g) := ofNone rfl
theorem workgroupResume (wg : Nat) : Statement (.workgroupResume wg) := ofNone rfl
theorem grantBatchClose (q : Nat) : Statement (.grantBatchClose q) := ofNone rfl
theorem grantTimeout (q : Nat) : Statement (.grantTimeout q) := ofNone rfl
theorem grantServiceLaunch (q : Nat) : Statement (.grantServiceLaunch q) := ofNone rfl
theorem grantRegistrationWrite (leaf q off : Nat) (v : Word) : Statement (.grantRegistrationWrite leaf q off v) := ofNone rfl
theorem grantUnregister (q : Nat) : Statement (.grantUnregister q) := ofNone rfl
theorem kick (leaf q : Nat) (v : Word) : Statement (.kick leaf q v) := ofNone rfl
theorem rst (leaf q : Nat) : Statement (.rst leaf q) := ofNone rfl
theorem registerWrite (win off : Nat) (v : Word) : Statement (.registerWrite win off v) := ofNone rfl
theorem grid (leaf q : Nat) : Statement (.grid leaf q) := ofNone rfl
theorem graph (leaf q : Nat) : Statement (.graph leaf q) := ofNone rfl
theorem waittl (leaf q : Nat) : Statement (.waittl leaf q) := ofNone rfl
theorem signal (leaf q : Nat) : Statement (.signal leaf q) := ofNone rfl
theorem mapopFork (leaf q : Nat) : Statement (.mapopFork leaf q) := ofNone rfl
theorem mapopSetSwap (leaf q : Nat) : Statement (.mapopSetSwap leaf q) := ofNone rfl
theorem mapopDrop (leaf q : Nat) : Statement (.mapopDrop leaf q) := ofNone rfl
theorem caskkick (leaf : Nat) (v : Word) : Statement (.caskkick leaf v) := ofNone rfl
theorem checkpoint (leaf : Nat) : Statement (.checkpoint leaf) := ofNone rfl
theorem restore (leaf : Nat) : Statement (.restore leaf) := ofNone rfl
theorem erase (leaf : Nat) : Statement (.erase leaf) := ofNone rfl
theorem rcons (leaf ring : Nat) (v : Word) : Statement (.rcons leaf ring v) := ofNone rfl
theorem rctlEnable (leaf ring : Nat) : Statement (.rctlEnable leaf ring) := ofNone rfl
theorem coalesceTimerExpiry (leaf vec : Nat) : Statement (.coalesceTimerExpiry leaf vec) := ofNone rfl
theorem msixUnmask (leaf vec : Nat) : Statement (.msixUnmask leaf vec) := ofNone rfl
theorem hostPortRead (win off len : Nat) : Statement (.hostPortRead win off len) := ofNone rfl
theorem hostPortWrite (leaf off : Nat) (bytes : List Byte) : Statement (.hostPortWrite leaf off bytes) := ofNone rfl
theorem hostReadCompletion (answer : HostAnswer) : Statement (.hostReadCompletion answer) := ofNone rfl
theorem atsCompletion (port : AtsPort) (pasid : Nat) (pages : AtsRange) (rd wr : Bool) :
    Statement (.atsCompletion port pasid pages rd wr) := ofNone rfl
theorem priResponse (who : Waiter) (code : Nat) : Statement (.priResponse who code) := ofNone rfl
theorem priLimitExpiry (who : Waiter) : Statement (.priLimitExpiry who) := ofNone rfl
theorem atsInvalidationRequest (leaf pasid page count : Nat) : Statement (.atsInvalidationRequest leaf pasid page count) := ofNone rfl
theorem atsInvalidationComplete (leaf : Nat) : Statement (.atsInvalidationComplete leaf) := ofNone rfl
theorem replicaRequest (page dev : Nat) : Statement (.replicaRequest page dev) := ofNone rfl
theorem replicaArrival (come : PageArrival) : Statement (.replicaArrival come) := ofNone rfl
theorem handOver (come : PageArrival) (dev : Nat) : Statement (.handOver come dev) := ofNone rfl
theorem minimumResidencyExpiry (page : Nat) : Statement (.minimumResidencyExpiry page) := ofNone rfl
theorem peerWaitTimeout (who : Waiter) : Statement (.peerWaitTimeout who) := ofNone rfl
theorem linkFailure (link : Nat) : Statement (.linkFailure link) := ofNone rfl
theorem uncorrectableError (place : ErrPlace) : Statement (.uncorrectableError place) := ofNone rfl
theorem correctableError (g : Nat) (place : ArrayError) : Statement (.correctableError g place) := ofNone rfl
theorem gangStateError (g array : Nat) : Statement (.gangStateError g array) := ofNone rfl
theorem carve : Statement .carve := ofNone rfl
theorem dissolve : Statement .dissolve := ofNone rfl
theorem start : Statement .start := ofNone rfl
theorem attest : Statement .attest := ofNone rfl
theorem mailboxBadcmd : Statement .mailboxBadcmd := ofNone rfl
theorem pwrcap (v : Word) : Statement (.pwrcap v) := ofNone rfl
theorem clockStep (up : Bool) (cause : Nat) : Statement (.clockStep up cause) := ofNone rfl
theorem thermalShutdown : Statement .thermalShutdown := ofNone rfl
theorem spareCoreReplacement (core : Nat) : Statement (.spareCoreReplacement core) := ofNone rfl
theorem secureBoot (image : Nat) (version : Nat) (sig : Nat) : Statement (.secureBoot image version sig) := ofNone rfl
theorem functionReset (leaf : Nat) : Statement (.functionReset leaf) := ofNone rfl
theorem badEntry (leaf q : Nat) : Statement (.badEntry leaf q) := ofNone rfl

end Sys2Proof.Laws.Coding
end

