-- ==== Sys2Proof/Tests/Slice0.lean ====
section
/-! SUPPORT. Tests: ill-formed instructions, words written out from the spec's encodings, single steps with results
the spec states, and for every statement states that meet its hypotheses. -/

namespace Sys2Proof.Tests

open Sys2Proof Sys2Proof.Machine

set_option maxRecDepth 100000
set_option Elab.async false

/-! ### Well-formedness: one ill-formed instruction for each check -/

theorem test_wf_destination_is_writable : (Instr.iaAdd 0x71 0x00 0x00).wf = false := by decide
theorem test_wf_source_is_readable : (Instr.iaAdd 0x00 0x7D 0x00).wf = false ∧ (Instr.ilPopc 0x00 0x7F).wf = false := by decide
theorem test_wf_compare_source : (Instr.cmpIeq 3 0x00 0x7E).wf = false ∧ (Instr.shpCmpr 3 0x7D).wf = false := by decide
theorem test_wf_call_slides_the_window : (Instr.jmpCall 0 8).wf = false ∧ (Instr.jmpCallx 0 8).wf = false := by decide
theorem test_wf_group_fits : (Instr.ldQ 61 0 0 1 0).wf = false ∧ (Instr.ldQ 60 0 0 1 0).wf = true := by decide
theorem test_wf_no_offset_register : (Instr.stW 4 0 3 1 0).wf = false := by decide
theorem test_wf_scalar_pair : (Instr.smLdd 31 0 0).wf = false := by decide
theorem test_wf_claim_kind : (Instr.mxClaim 4 3).wf = false ∧ (Instr.mxRel 4 3).wf = false := by decide
theorem test_wf_zero_halfword : (Instr.cMov 0 0).wf = false := by decide

/-! ### Decoding: words of the spec's tables of worked encodings, then a word for every instruction, written out from
the formats of R168 and the majors and functions of R177 -/

/-- Each word decodes to its instruction. -/
noncomputable def reads (n : Nat) (ws : List (Nat × Instr)) : Bool := ws.all (fun p => decide (decodeTableWord n p.1 = some p.2))

theorem test_decode_worked_encoding : reads 32 [
    (0xF2041801, .iaAdd 0x03 0x01 0x79), (0x060A210F, .cmpFlt 4 0x02 0x03), (0x0010019F, .brXz 0x20),
    (0xFFFE249F, .brZ 9 0x1FFFC), (0x006209B1, .mxMma 1 2 3 0), (0x1800007F, .ext 0x300000), (0x10183225, .ldW 6 12 0 1 0),
    (0x4040007F, .ext 0x808000), (0xF8081907, .faMul 3 2 0x7C)] = true := by decide
theorem test_decode_worked_control : reads 32 [
    (0x0051081B, .saiAddi 2 2 5), (0x03E21019, .saAdd 2 2 31), (0x0000201D, .maskSave 4), (0x0004009D, .maskRest 4),
    (0x0008019D, .maskAnd 8), (0xFFFC0B1F, .brVnz 2 0x1FFF8), (0x00040821, .jmpCall 2 0x20), (0x00000121, .jmpRet),
    (0x01948221, .jmpJtab 4 5 3), (0x000131A3, .ctlWait 6 1), (0x0400002F, .syncBar 1), (0x0080183D, .sysSrd 3 0x80),
    (0x008018BD, .sysSwr 3 0x80), (0x0009013D, .sysTrap 0 9), (0x000001BD, .sysEret)] = true := by decide
theorem test_decode_worked_lanes : reads 32 [
    (0x06082181, .iaMulhi 4 2 3), (0x00C20A85, .iaiShli 2 2 3), (0x0A103987, .faFmac 7 4 5), (0x06084309, .fhPk 8 2 3),
    (0xEA04340D, .cvPk8 6 1 0x75), (0x04044891, .sel 9 1 2 1), (0xE01E1C93, .xlFradd 0x43 7), (0x04042815, .dpDot8f 5 1 2),
    (0xE0261817, .shpTag 0x43 9), (0x401852A5, .ldD 10 12 0 0 2), (0x87FFFE7F, .ext 0x10FFFFC), (0x008A19A9, .smStd 6 20 8),
    (0x1014202B, .atAdd 4 10 0 1 0), (0x101434AB, .atCas 6 10 0 1 0), (0x1016232D, .spmAdd 4 11 0 1 0)] = true := by decide
theorem test_decode_worked_engines : reads 32 [
    (0x04002031, .mxClaim 4 1), (0x006209B1, .mxMma 1 2 3 0), (0x04E60BB1, .mxSt 1 6 7 0 1 0), (0x01AC5833, .cpG2s 11 12 13 0),
    (0x000000FF, .ext 1), (0x054911B3, .cpG2o 2 9 10 1 0), (0x00033235, .sqRng 6 3), (0x00041B35, .sqEmit 3 4),
    (0xE50C40B7, .gxMask 8 0x43 0x72), (0x0F0F81B7, .gxStep 0x43 7), (0x04E62839, .mapFork 5 6 7 1),
    (0x00062939, .mapSwap 5 6 0), (0x1549413B, .lnchGrant 8 9 10 5)] = true := by decide
theorem test_decode_worked_compact : reads 16 [
    (0x48A2, .cIadd 5 9)] = true := by decide
theorem test_decode_ia : reads 32 [
    (0xE5041801, .iaAdd 3 0x41 0x72), (0xE5041881, .iaSub 3 0x41 0x72), (0xE5041901, .iaMullo 3 0x41 0x72),
    (0xE5041981, .iaMulhi 3 0x41 0x72), (0xE5041A01, .iaMulhin 3 0x41 0x72), (0xE5041A81, .iaMin 3 0x41 0x72),
    (0xE5041B01, .iaMax 3 0x41 0x72), (0xE5041B81, .iaMinn 3 0x41 0x72), (0xE5041C01, .iaMaxn 3 0x41 0x72),
    (0xE5041C81, .iaAdds 3 0x41 0x72), (0xE5041D01, .iaAddsn 3 0x41 0x72), (0xE5041D81, .iaSubs 3 0x41 0x72),
    (0xE5041E01, .iaSubsn 3 0x41 0x72), (0xE5041E81, .iaAbsdiff 3 0x41 0x72)] = true := by decide
theorem test_decode_il : reads 32 [
    (0xE5041803, .ilAnd 3 0x41 0x72), (0xE5041883, .ilOr 3 0x41 0x72), (0xE5041903, .ilXor 3 0x41 0x72),
    (0xE5041983, .ilAndn 3 0x41 0x72), (0xE5041A03, .ilOrn 3 0x41 0x72), (0xE5041A83, .ilShl 3 0x41 0x72),
    (0xE5041B03, .ilShr 3 0x41 0x72), (0xE5041B83, .ilSra 3 0x41 0x72), (0xE5041C03, .ilRotl 3 0x41 0x72),
    (0xE5041C83, .ilBfe 3 0x41 0x72), (0xE1041D03, .ilPopc 3 0x41), (0xE1041D83, .ilClz 3 0x41), (0xE1041E03, .ilCtz 3 0x41),
    (0xE1041E83, .ilBrev 3 0x41)] = true := by decide
theorem test_decode_iai : reads 32 [
    (0xA9528405, .iaiAddi 0x21 0x12 0x2A5), (0xA9528485, .iaiMuli 0x21 0x12 0x2A5), (0xA9528505, .iaiAndi 0x21 0x12 0x2A5),
    (0xA9528585, .iaiOri 0x21 0x12 0x2A5), (0xA9528605, .iaiXori 0x21 0x12 0x2A5), (0xA9528685, .iaiShli 0x21 0x12 0x2A5),
    (0xA9528705, .iaiShri 0x21 0x12 0x2A5), (0xA9528785, .iaiSrai 0x21 0x12 0x2A5)] = true := by decide
theorem test_decode_fa : reads 32 [
    (0xE5041807, .faAdd 3 0x41 0x72), (0xE5041887, .faSub 3 0x41 0x72), (0xE5041907, .faMul 3 0x41 0x72),
    (0xE5041987, .faFmac 3 0x41 0x72), (0xE5041A07, .faFnmac 3 0x41 0x72), (0xE5041A87, .faMin 3 0x41 0x72),
    (0xE5041B07, .faMax 3 0x41 0x72), (0xE1041B87, .faAbs 3 0x41), (0xE1041C07, .faNeg 3 0x41),
    (0xE5041C87, .faCopysign 3 0x41 0x72)] = true := by decide
theorem test_decode_fh : reads 32 [
    (0xE5041809, .fhAdd 3 0x41 0x72), (0xE5041889, .fhSub 3 0x41 0x72), (0xE5041909, .fhMul 3 0x41 0x72),
    (0xE5041989, .fhFmac 3 0x41 0x72), (0xE5041A09, .fhMin 3 0x41 0x72), (0xE5041A89, .fhMax 3 0x41 0x72),
    (0xE5041B09, .fhPk 3 0x41 0x72)] = true := by decide
theorem test_decode_fx : reads 32 [
    (0xE104180B, .fxRcp 3 0x41), (0xE104188B, .fxRsqrt 3 0x41), (0xE104190B, .fxSqrt 3 0x41), (0xE104198B, .fxExp2 3 0x41),
    (0xE1041A0B, .fxLog2 3 0x41), (0xE1041A8B, .fxSin 3 0x41), (0xE1041B0B, .fxCos 3 0x41), (0xE1041B8B, .fxTanh 3 0x41),
    (0xE1041C0B, .fxAct 3 0x41), (0xE1041C8B, .fxFloor 3 0x41), (0xE1041D0B, .fxCeil 3 0x41), (0xE1041D8B, .fxRint 3 0x41),
    (0xE1041E0B, .fxTrunc 3 0x41), (0xE1041E8B, .fxFract 3 0x41), (0xE1041F0B, .fxClass 3 0x41)] = true := by decide
theorem test_decode_cv : reads 32 [
    (0xE104180D, .cvI2f 3 0x41), (0xE104188D, .cvN2f 3 0x41), (0xE104190D, .cvF2i 3 0x41), (0xE104198D, .cvF2n 3 0x41),
    (0xE1041A0D, .cvF2h 3 0x41), (0xE1041A8D, .cvF2b 3 0x41), (0xE5041B0D, .cvH2f 3 0x41 0x72),
    (0xE5041B8D, .cvB2f 3 0x41 0x72), (0xE5041C0D, .cvPk8 3 0x41 0x72), (0xE5041C8D, .cvPk4 3 0x41 0x72),
    (0xE5041D0D, .cvUp8 3 0x41 0x72), (0xE5041D8D, .cvUp4 3 0x41 0x72)] = true := by decide
theorem test_decode_cmp : reads 32 [
    (0xE506180F, .cmpFeq 3 0x41 0x72), (0xE506188F, .cmpFne 3 0x41 0x72), (0xE506190F, .cmpFlt 3 0x41 0x72),
    (0xE506198F, .cmpFle 3 0x41 0x72), (0xE5061A0F, .cmpFgt 3 0x41 0x72), (0xE5061A8F, .cmpFge 3 0x41 0x72),
    (0xE5061B0F, .cmpFun 3 0x41 0x72), (0xE5061B8F, .cmpFord 3 0x41 0x72), (0xE5061C0F, .cmpIeq 3 0x41 0x72),
    (0xE5061C8F, .cmpIne 3 0x41 0x72), (0xE5061D0F, .cmpIlt 3 0x41 0x72), (0xE5061D8F, .cmpIle 3 0x41 0x72),
    (0xE5061E0F, .cmpNlt 3 0x41 0x72), (0xE5061E8F, .cmpNle 3 0x41 0x72), (0xE5061F0F, .cmpTst 3 0x41 0x72)] = true := by decide
theorem test_decode_sel : reads 32 [
    (0xE5041D91, .sel 3 0x41 0x72 0xB)] = true := by decide
theorem test_decode_xl : reads 32 [
    (0xE5041813, .xlShuf 3 0x41 0x72), (0xE5041893, .xlShx 3 0x41 0x72), (0xE5041913, .xlBcast 3 0x41 0x72),
    (0xE1041993, .xlRdf 3 0x41), (0xE1041A13, .xlRdl 3 0x41), (0xE5041A93, .xlWrl 3 0x41 0x72), (0xE1041B13, .xlRadd 3 0x41),
    (0xE1041B93, .xlRmin 3 0x41), (0xE1041C13, .xlRmax 3 0x41), (0xE1041C93, .xlFradd 3 0x41), (0xE1041D13, .xlScan 3 0x41),
    (0xE1061D93, .xlBallot 3 0x41), (0xE1061E13, .xlVgrp 3 0x41), (0xE1C21E93, .xlElect 3)] = true := by decide
theorem test_decode_dp : reads 32 [
    (0xE5041815, .dpDot8f 3 0x41 0x72), (0xE5041895, .dpDot8i 3 0x41 0x72), (0xE5041915, .dpDot4f 3 0x41 0x72),
    (0xE5041995, .dpDot4i 3 0x41 0x72), (0xE5041A15, .dpDot2 3 0x41 0x72)] = true := by decide
theorem test_decode_shp : reads 32 [
    (0xE1041817, .shpTag 3 0x41), (0xE1041897, .shpExpand 3 0x41), (0xE1041917, .shpAff 3 0x41), (0xE1041997, .shpUni 3 0x41),
    (0xE1041A17, .shpCmpr 3 0x41)] = true := by decide
theorem test_decode_sa : reads 32 [
    (0x00744819, .saAdd 9 0x14 3), (0x00744899, .saSub 9 0x14 3), (0x00744919, .saMul 9 0x14 3), (0x00744999, .saMin 9 0x14 3),
    (0x00744A19, .saMax 9 0x14 3), (0x00744A99, .saMinn 9 0x14 3), (0x00744B19, .saMaxn 9 0x14 3),
    (0x00744B99, .saAnd 9 0x14 3), (0x00744C19, .saOr 9 0x14 3), (0x00744C99, .saXor 9 0x14 3), (0x00744D19, .saAndn 9 0x14 3),
    (0x00744D99, .saShl 9 0x14 3), (0x00744E19, .saShr 9 0x14 3), (0x00744E99, .saSra 9 0x14 3), (0x00144F19, .saPopc 9 0x14),
    (0x00144F99, .saFfs 9 0x14)] = true := by decide
theorem test_decode_sai : reads 32 [
    (0x8A5A241B, .saiAddi 9 0x14 0x8A5), (0x8A5A249B, .saiAndi 9 0x14 0x8A5), (0x8A5A251B, .saiOri 9 0x14 0x8A5),
    (0x8A5A259B, .saiXori 9 0x14 0x8A5), (0x8A5A261B, .saiShli 9 0x14 0x8A5), (0x8A5A269B, .saiShri 9 0x14 0x8A5),
    (0x8A5A271B, .saiSrai 9 0x14 0x8A5), (0x8A50279B, .saiLui 9 0x8A5)] = true := by decide
theorem test_decode_mask : reads 32 [
    (0x0000481D, .maskSave 9), (0x0014009D, .maskRest 0x14), (0x0414011D, .maskSet 0x14 1), (0x0014019D, .maskAnd 0x14),
    (0x0014021D, .maskAndn 0x14), (0x0014029D, .maskOr 0x14), (0x0000031D, .maskFull)] = true := by decide
theorem test_decode_br : reads 32 [
    (0xFFFC001F, .brAl 0x1FFF8), (0xFFFC249F, .brZ 9 0x1FFF8), (0xFFFC251F, .brNz 9 0x1FFF8), (0xFFFC019F, .brXz 0x1FFF8),
    (0xFFFC021F, .brXnz 0x1FFF8), (0xFFFC269F, .brVz 9 0x1FFF8), (0xFFFC271F, .brVnz 9 0x1FFF8)] = true := by decide
theorem test_decode_jmp : reads 32 [
    (0xC000B421, .jmpCall 5 0x60005), (0x00024CA1, .jmpCallx 3 0x12), (0x00000121, .jmpRet), (0x000241A1, .jmpJx 0x12),
    (0xAA964221, .jmpJtab 0x12 5 0x155), (0x000242A1, .jmpJv 0x12)] = true := by decide
theorem test_decode_ctl : reads 32 [
    (0x00000023, .ctlNop), (0x000000A3, .ctlHalt), (0x00000123, .ctlYield), (0x812331A3, .ctlWait 6 0x8123),
    (0x00000223, .ctlRefresh), (0x812302A3, .ctlIvl 0x8123), (0x81230323, .ctlBrk 0x8123),
    (0x812303A3, .ctlWdog 0x8123)] = true := by decide
theorem test_decode_ld : reads 32 [
    (0xA2691025, .ldB 0x22 0x14 9 0 5), (0xA26910A5, .ldBn 0x22 0x14 9 0 5), (0xA2691125, .ldH 0x22 0x14 9 0 5),
    (0xA26911A5, .ldHn 0x22 0x14 9 0 5), (0xA2691225, .ldW 0x22 0x14 9 0 5), (0xA26912A5, .ldD 0x22 0x14 9 0 5),
    (0xA2691325, .ldQ 0x22 0x14 9 0 5)] = true := by decide
theorem test_decode_st : reads 32 [
    (0xA2691027, .stB 0x22 0x14 9 0 5), (0xA26910A7, .stH 0x22 0x14 9 0 5), (0xA2691127, .stW 0x22 0x14 9 0 5),
    (0xA26911A7, .stD 0x22 0x14 9 0 5), (0xA2691227, .stQ 0x22 0x14 9 0 5)] = true := by decide
theorem test_decode_sm : reads 32 [
    (0x8A5A2429, .smLdw 9 0x14 0x8A5), (0x8A5A24A9, .smLdd 9 0x14 0x8A5), (0x8A5A2529, .smStw 9 0x14 0x8A5),
    (0x8A5A25A9, .smStd 9 0x14 0x8A5)] = true := by decide
theorem test_decode_at : reads 32 [
    (0xA269102B, .atAdd 0x22 0x14 9 0 5), (0xA26910AB, .atMin 0x22 0x14 9 0 5), (0xA269112B, .atMax 0x22 0x14 9 0 5),
    (0xA26911AB, .atMinn 0x22 0x14 9 0 5), (0xA269122B, .atMaxn 0x22 0x14 9 0 5), (0xA26912AB, .atAnd 0x22 0x14 9 0 5),
    (0xA269132B, .atOr 0x22 0x14 9 0 5), (0xA26913AB, .atXor 0x22 0x14 9 0 5), (0xA269142B, .atXchg 0x22 0x14 9 0 5),
    (0xA26914AB, .atCas 0x22 0x14 9 0 5), (0xA269152B, .atInc 0x22 0x14 9 0 5), (0xA26915AB, .atFadd 0x22 0x14 9 0 5),
    (0xA269162B, .atXadd 0x22 0x14 9 0 5), (0xA26916AB, .atXrd 0x22 0x14 9 0 5),
    (0xA269172B, .atXclr 0x22 0x14 9 0 5)] = true := by decide
theorem test_decode_spm : reads 32 [
    (0xA269102D, .spmLdw 0x22 0x14 9 0 5), (0xA26910AD, .spmLdd 0x22 0x14 9 0 5), (0xA269112D, .spmLdq 0x22 0x14 9 0 5),
    (0xA26911AD, .spmStw 0x22 0x14 9 0 5), (0xA269122D, .spmStd 0x22 0x14 9 0 5), (0xA26912AD, .spmStq 0x22 0x14 9 0 5),
    (0xA269132D, .spmAdd 0x22 0x14 9 0 5), (0xA26913AD, .spmMin 0x22 0x14 9 0 5), (0xA269142D, .spmMax 0x22 0x14 9 0 5),
    (0xA26914AD, .spmOr 0x22 0x14 9 0 5), (0xA269152D, .spmXchg 0x22 0x14 9 0 5), (0xA26915AD, .spmCas 0x22 0x14 9 0 5),
    (0xA269162D, .spmInc 0x22 0x14 9 0 5)] = true := by decide
theorem test_decode_sync : reads 32 [
    (0x0400002F, .syncBar 1), (0x000048AF, .syncCmtmx 9), (0x0000492F, .syncCmtcp 9), (0x001449AF, .syncTlrd 9 0x14),
    (0x0000022F, .syncIrrev)] = true := by decide
theorem test_decode_mx : reads 32 [
    (0x04005831, .mxClaim 0xB 1), (0x040058B1, .mxRel 0xB 1), (0x80005931, .mxZero 0xB 1), (0x80B259B1, .mxMma 0xB 0x12 5 1),
    (0x80B25A31, .mxMms 0xB 0x12 5 1), (0x80B25AB1, .mxMmx 0xB 0x12 5 1), (0x84B25B31, .mxMmg 0xB 0x12 5 1 1),
    (0x8CB25BB1, .mxSt 0xB 0x12 5 1 1 1)] = true := by decide
theorem test_decode_cp : reads 32 [
    (0x80B25833, .cpG2s 0xB 0x12 5 1), (0x80B258B3, .cpS2g 0xB 0x12 5 1), (0x80B25933, .cpG2g 0xB 0x12 5 1),
    (0x88B259B3, .cpG2o 0xB 0x12 5 2 1), (0x88B25A33, .cpS2o 0xB 0x12 5 2 1), (0x88B25AB3, .cpGat 0xB 0x12 5 2 1),
    (0x84125B33, .cpMeta 0xB 0x12 1 1), (0x80005BB3, .cpAct 0xB 1)] = true := by decide
theorem test_decode_sq : reads 32 [
    (0x00B25835, .sqBind 0xB 0x12 5), (0x04120035, .sqBindFree 0x12), (0x00B258B5, .sqFork 0xB 0x12 5),
    (0x00B25935, .sqSave 0xB 0x12 5), (0x001259B5, .sqRoll 0xB 0x12), (0x00125A35, .sqRng 0xB 0x12),
    (0x00B25AB5, .sqAcc 0xB 0x12 5), (0x00125B35, .sqEmit 0xB 0x12), (0x00125BB5, .sqRel 0xB 0x12),
    (0x00125C35, .sqVeto 0xB 0x12)] = true := by decide
theorem test_decode_gx : reads 32 [
    (0xE5041837, .gxBind 3 0x41 0x72), (0xE50418B7, .gxMask 3 0x41 0x72), (0xE1041937, .gxPeek 3 0x41),
    (0xE50781B7, .gxStep 0x41 0x72)] = true := by decide
theorem test_decode_map : reads 32 [
    (0x04B25839, .mapFork 0xB 0x12 5 1), (0x04B258B9, .mapSet 0xB 0x12 5 1), (0x04125939, .mapSwap 0xB 0x12 1),
    (0x001259B9, .mapDrop 0xB 0x12), (0x0CB25A39, .mapRef 0xB 0x12 5 3)] = true := by decide
theorem test_decode_lnch : reads 32 [
    (0x00B2583B, .lnchGrid 0xB 0x12 5), (0x000058BB, .lnchSig 0xB),
    (0x94B2593B, .lnchGrant 0xB 0x12 5 0x25)] = true := by decide
theorem test_decode_sys : reads 32 [
    (0x8123303D, .sysSrd 6 0x8123), (0x812330BD, .sysSwr 6 0x8123), (0x8123313D, .sysTrap 6 0x8123),
    (0x000001BD, .sysEret)] = true := by decide
theorem test_decode_ext : reads 32 [
    (0x97AD31FF, .ext 0x12F5A63)] = true := by decide
theorem test_decode_c : reads 16 [
    (0x9CA0, .cMov 37 19), (0x9CA2, .cIadd 37 19), (0x9CA4, .cIsub 37 19), (0x9CA6, .cImul 37 19), (0x9CA8, .cAnd 37 19),
    (0x9CAA, .cOr 37 19), (0x9CAC, .cXor 37 19), (0x9CAE, .cShl 37 19), (0x9CB0, .cShr 37 19), (0x9CB2, .cSra 37 19),
    (0x9CB4, .cFadd 37 19), (0x9CB6, .cFsub 37 19), (0x9CB8, .cFmul 37 19), (0x9CBA, .cFmax 37 19), (0x9CBC, .cFmin 37 19),
    (0x9CBE, .cIaddi 37 19)] = true := by decide

theorem test_reject_zero_halfword : decodeTableWord 16 0 = none := by decide
theorem test_reject_reserved_major : decodeTableWord 32 0x0000003F = none := by decide
theorem test_reject_reserved_function : decodeTableWord 32 0x00000701 = none := by decide
theorem test_reject_unused_field : decodeTableWord 32 0x04000023 = none := by decide
theorem test_decode_length : (decode [0x01]).toOption = none ∧ (decode [0xA2, 0x48, 0x07]).toOption = some (.cIadd 5 9, [0x07]) := by decide

/-! ### A small machine

One leaf, one grid with one workgroup of one gang of 32 lanes; code at VA 0, a page of data at VA 0x10000. -/

/-- The machine; the gang is at PC 0, and the code it stands at is `ctl.nop`. -/
def lab : State where
  cur := 1
  boot := .ok
  started := true
  nextKey := 2
  -- the translation tree: a node for each level, the frames 0x10000, executable, and 0x20000, writable
  mem := [(0x1000, 0x01), (0x1001, 0x18), (0x1800, 0x01), (0x1801, 0x20), (0x2000, 0x01), (0x2001, 0x28), (0x2800, 0x0A), (0x2802, 0x01),
    (0x2808, 0x06), (0x280A, 0x02), (0x10000, 0x23)]
  leaves := [(0, {
    live := true
    part := { leaf := true, id := 1, cores := [(0, 1), (0, 0), (0, 0), (0, 0)] }
    asids := [(0, { st := .live, gens := [{ num := 1, root := 0x1000, pins := 1 }] })]
    refs := [(0x1000, 1), (0x1800, 1), (0x2000, 1), (0x2800, 1), (0x10000, 1), (0x20000, 1)]
    nodePool := { base := 0x40000, size := 0x4000 }, framePool := { base := 0x80000, size := 0x40000 } })]
  cores := [(0, { wgs := [1], active := true })]
  grids := [(1, {
    live := true, id := 1, root := 1, seed := .queue, nextWg := 1, liveWgs := 1, spawn := 1
    k := { handler := some 0x40, scratch := 4096, slots := 4, regs := 80, ivlVa := 0x10100, ivlN := 2, gangs := 1 } })]
  wgs := [(1, { st := .live, grid := 1, gangs := [1], slots := 0x7, tiles := 0x3, metas := 0xFF })]
  gangs := [(1, { st := .live, wg := 1, launched := 0xFFFFFFFF, gen := 1, promoted := true, r := { exec := 0xFFFFFFFF } })]

/-- The machine with other registers of its gang. -/
def labR (f : Regs → Regs) : State := lab.setR (f lab.r)
/-- The machine with another gang. -/
def labG (f : Gang → Gang) : State := lab.setGang (f lab.gang)
/-- The next state of an instruction. -/
noncomputable def ran (i : Instr) (s : State) : Option State :=
  match exec i s with
  | .next t => some t
  | _ => none
/-- What a next state shows. -/
noncomputable def shows {α : Type} (i : Instr) (s : State) (f : State → α) : Option α := (ran i s).map f

/-! ### Single steps, with results the spec states -/

-- source: R198, counts of 32 and more, and the sign fill
theorem test_sa_shift_counts : shows (.saShl 2 1 3) (labR (fun r => (r.setS 1 5).setS 3 32)) (fun t => t.r.sreg 2) = some 0
    ∧ shows (.saSra 2 1 3) (labR (fun r => (r.setS 1 0x80000000).setS 3 40)) (fun t => t.r.sreg 2) = some 0xFFFFFFFF := by decide
-- source: R198, D may equal A and B
theorem test_sa_sub_in_place : shows (.saSub 1 1 1) (labR (fun r => r.setS 1 5)) (fun t => (t.r.sreg 1, t.r.pc)) = some (0, 4) := by decide
-- source: the constant of R199's example
theorem test_sai_lui_ori : shows (.saiLui 10 0) (labG (fun g => { g with ext := some 0x2468AC })) (fun t => (t.r.sreg 10, t.r.pc))
      = some (0x12345600, 8)
    ∧ shows (.saiOri 10 10 0x78) (labR (fun r => r.setS 10 0x12345600)) (fun t => t.r.sreg 10) = some 0x12345678 := by decide
-- source: the table of "A uniform register written on both sides of a branch", steps 3 and 6
theorem test_uniform_under_a_mask : shows (.iaiAddi 9 9 0) (labR (fun r => { r.setV 9 (.u 7) with exec := 0xFFF })) (fun t => t.r.vreg 9)
      = some (.u 7)
    ∧ shows (.iaiAddi 9 9 1) (labR (fun r => { r.setV 9 (.u 7) with exec := 0xFFFFF000 }))
      (fun t => ((t.r.vreg 9).at 11, (t.r.vreg 9).at 12, (t.r.vreg 9).at 31)) = some (7, 8, 8) := by decide
-- source: "A window slide under a partial mask"
theorem test_call_slides_the_window : shows (.jmpCall 2 0x20) (labR (fun r => { r.setV 16 (.u 9) with exec := 0xFF }))
    (fun t => (t.r.pc, t.r.vreg 0, t.r.vreg 48, t.r.links.map (fun l => (l.ret, l.k)))) = some (0x40, .u 9, .u 0, [(4, 2)]) := by decide
-- source: the example of R173
theorem test_c_mov_keeps_affine : shows (.cMov 7 3) (labR (fun r => r.setV 3 (.a 5 2))) (fun t => (t.r.vreg 7, t.r.pc)) = some (.a 5 2, 2) := by
  decide
-- source: the example of R219
theorem test_il_bfe : shows (.ilBfe 3 0x40 0x41) (labR (fun r => (r.setS 0 0xABCD1234).setS 1 0x00000C08)) (fun t => (t.r.vreg 3).at 5)
    = some 0x0D12 := by decide
-- source: "Packing four elements", the third and the fourth execution, and the later `cv.up8`
theorem test_cv_pk8 : shows (.cvPk8 6 1 0x75) (labR (fun r => { (r.setV 1 (.u 0x43FA0000)).setV 6 (.u 0xB03C0000) with fmt := 3 }))
      (fun t => (t.r.vreg 6, t.r.fflags, t.r.fcount2)) = some (.u 0x78B03C00, 0x10, 32)
    ∧ shows (.cvPk8 6 1 0x75) (labR (fun r => { (r.setV 1 (.u 0x7FC00000)).setV 6 (.u 0x78B03C00) with fmt := 3 }))
      (fun t => (t.r.vreg 6, t.r.fflags)) = some (.u 0x8078B03C, 0) := by decide
theorem test_cv_up8_reserved : shows (.cvUp8 7 6 0x43) (labR (fun r => { (r.setV 6 (.u 0x8078B03C)).setS 3 3 with fmt := 3 }))
    (fun t => (t.r.vreg 7, t.r.fflags)) = some (.u 0x7FC00000, 0x21) := by decide
-- source: "One dot8 step"
theorem test_dp_dot8f : shows (.dpDot8f 5 1 2)
    (labR (fun r => { ((r.setV 5 (.u 0x3F800000)).setV 1 (.u 0xFE01017E)).setV 2 (.u 0x7E01017E) with fmt := 0x33 }))
    (fun t => (t.r.vreg 5, t.r.fflags)) = some (.u 0x3F800040, 0) := by decide
-- source: "Narrowing at the boundaries", every row
theorem test_narrowing : narrowTo f8b 0 (ofF32 0x47EA6000) = (0x7F, evNX) ∧ narrowTo f8b 0 (ofF32 0x47F03C00) = (0x7F, evOF + evNX)
    ∧ narrowTo f8a 0 (ofF32 0x3A800000) = (0, evUF + evNX) ∧ narrowTo f8a 0 (ofF32 0xBA800000) = (0, evUF + evNX)
    ∧ narrowTo f8a 0 (.fin false 3 (-11)) = (1, evUF + evNX) ∧ narrowTo f4 3 (ofF32 0x40900000) = (7, evNX)
    ∧ narrowTo f4 3 (ofF32 0xBE4CCCCD) = (0, evUF + evNX) ∧ narrowTo f4 2 (ofF32 0xBE4CCCCD) = (9, evUF + evNX)
    ∧ narrowTo f8a 0 (.inf true) = (0xFF, evOF + evNX) := by decide
-- source: "Order-dependent sums against an exact cell"
theorem test_sum_order : (faAdd 0 [(faAdd 0 [0x4B800000, 0x3F800000]).1, 0xCB800000]).1 = 0
    ∧ (faAdd 0 [(faAdd 0 [0x3F800000, 0xCB800000]).1, 0x4B800000]).1 = 0x3F800000 := by decide
set_option exponentiation.threshold 500 in
theorem test_exact_cell : cellRead 0 (cellAdd (ofF32 0xCB800000) (cellAdd (ofF32 0x3F800000) (cellAdd (ofF32 0x4B800000) (List.replicate 64 0))))
      = (0x3F800000, 0)
    ∧ (cellRead 0 (cellAdd (.fin true 1 100) (cellAdd (.fin false 1 100) (List.replicate 64 0)))).1 = 0x7FC00000 := by decide
-- source: R46
theorem test_fa_min_zeros : (faMinMax false [0x00000000, 0x80000000]).1 = 0x80000000 ∧ (faMinMax true [0x7FC00001, 0x40000000]).1 = 0x40000000 := by
  decide
-- source: R44, overflow toward zero and to the nearest
theorem test_overflow : faMul 0 [0x7F7FFFFF, 0x40000000] = (0x7F800000, [evOF + evNX]) ∧ faMul 1 [0x7F7FFFFF, 0x40000000] = (0x7F7FFFFF, [evOF + evNX]) := by
  decide
-- source: R227, the NaN column
theorem test_cmp_nan : shows (.cmpFne 3 0 1) (labR (fun r => r.setV 0 (.u 0x7FC00000))) (fun t => (t.r.sreg 3, t.r.fflags)) = some (0xFFFFFFFF, 0)
    ∧ shows (.cmpFlt 3 0 1) (labR (fun r => r.setV 0 (.u 0x7FC00000))) (fun t => (t.r.sreg 3, t.r.fflags)) = some (0, 1) := by decide
-- source: R230, with no lane active
theorem test_ballot_no_lane : shows (.xlBallot 3 0x71) (labR (fun r => { r.setS 3 7 with exec := 0 })) (fun t => t.r.sreg 3) = some 0 := by decide
-- source: R229
theorem test_xl_scan : shows (.xlScan 3 0x71) (labR (fun r => { r with exec := 0x15 })) (fun t => ((t.r.vreg 3).at 0, (t.r.vreg 3).at 4, (t.r.vreg 3).at 5))
    = some (1, 3, 0) := by decide
-- source: R21, TF_LANES are the lanes that differ from the lowest active one
theorem test_br_vz_nonuni : shows (.brVz 1 8) (labR (fun r => { r.setV 1 (.a 0 1) with exec := 0x6 })) (fun t => (t.r.tfCode, t.r.tfLanes, t.r.pc))
    = some (BitVec.ofNat 32 tcNONUNI, 4, 0x40) := by decide
-- source: R8, R200
theorem test_mask_or_launched : shows (.maskOr 2) (labG (fun g => { g with launched := 0xFF, r := { g.r.setS 2 0xFF00 with exec := 3 } }))
    (fun t => t.r.exec) = some 3 := by decide
-- source: R154, R213
theorem test_sys_trap : shows (.sysTrap 0 9) lab (fun t => (t.r.pc, t.r.tfPc, t.r.tfCode, t.r.tfInfo, t.r.sreg 28, t.gang.trap))
    = some (0x40, 0, 0x13, 9, 0x13, true) := by decide
-- source: R156
theorem test_sys_eret : shows .sysEret (labG (fun g => { g with trap := true, shadow := #v[1, 2, 3, 4], r := { g.r with tfPc := 0x80, tfExec := 5 } }))
    (fun t => (t.r.pc, t.r.exec, t.r.sreg 28, t.r.sreg 31, t.gang.trap)) = some (0x80, 5, 1, 4, false) := by decide
-- source: R39, R211
theorem test_sys_calllim : shows (.sysSwr 2 0x35) (labR (fun r => r.setS 2 5000)) (fun t => t.r.calllim) = some 1024 := by decide
-- source: R237
theorem test_ld_b_extends : shows (.ldB 2 1 0 1 3) { labR (fun r => { r.setS 1 0x10000 with exec := 1 }) with mem := memPut lab.mem 0x20003 [0x80] }
    (fun t => (t.r.vreg 2).at 0) = some 0xFFFFFF80 := by decide
-- source: R238, the higher lane's value remains
theorem test_st_overlapping : shows (.stB 2 1 0 1 0) (labR (fun r => { (r.setS 1 0x10000).setV 2 (.a 0x10 1) with exec := 0x7 }))
    (fun t => (memRead t.mem 0x20000, memRead t.mem 0x20001)) = some (0x12, 0) := by decide
-- source: R240, lanes perform in ascending order
theorem test_at_add_in_lane_order : shows (.atAdd 4 1 0 1 0) (labR (fun r => { (r.setS 1 0x10000).setV 4 (.u 1) with exec := 0x7 }))
    (fun t => (memNat t.mem 0x20000 4, (t.r.vreg 4).at 0, (t.r.vreg 4).at 2)) = some (3, 0, 2) := by decide
-- source: R240, `inc` of the largest word
theorem test_at_inc_wraps : shows (.atInc 4 1 0 1 0)
    { labR (fun r => { (r.setS 1 0x10000).setV 4 (.u 0xFFFFFFFF) with exec := 1 }) with mem := memPut lab.mem 0x20000 [0xFF, 0xFF, 0xFF, 0xFF] }
    (fun t => memNat t.mem 0x20000 4) = some 0 := by decide
-- source: R75, an access beyond the scratchpad
theorem test_spm_beyond : shows (.spmLdw 2 1 0 1 0) (labR (fun r => { r.setS 1 4096 with exec := 1 })) (fun t => (t.r.tfCode, t.r.tfAddr, t.r.tfInfo))
    = some (BitVec.ofNat 32 tcXLATE, 0x1000, 0xF1) := by decide
-- source: R235, ALIGN names the lanes
theorem test_ld_w_align : shows (.ldW 2 1 3 0 0) (labR (fun r => { (r.setS 1 0x10000).setV 3 (.a 0 2) with exec := 0xF })) (fun t => (t.r.tfCode, t.r.tfLanes, t.r.tfAddr))
    = some (BitVec.ofNat 32 tcALIGN, 0xA, 0x10002) := by decide
-- source: R249, a number the workgroup does not hold
theorem test_mx_slot : shows (.mxZero 1 0) (labR (fun r => r.setS 1 5)) (fun t => (t.r.tfCode, t.r.tfInfo)) = some (BitVec.ofNat 32 tcSLOT, 0x105) := by decide
-- source: R22, the last gang to arrive goes on
theorem test_sync_bar_alone : shows (.syncBar 1) lab (fun t => (t.r.pc, t.gang.wait)) = some (4, .none) := by decide
-- source: R271, the write-maximum rule across 2^32
theorem test_write_maximum : Claims.raised 0xFFFFFFF0 4 = 4 ∧ Claims.raised 4 0xFFFFFFF0 = 4 := by decide
/-- Two gangs, the first on stream 1, both about to run an instruction. -/
def labPair (i : Instr) : State := { lab with
  gangs := [(1, { lab.gang with stream := 1 }), (2, { lab.gang with slot := 1 })], wgs := [(1, { lab.wg with gangs := [1, 2] })]
  mem := memPut lab.mem 0x10000 (encodeBytes i) }
-- source: R250, claims of one cycle by ascending stream, then gang slot; R23, other effects by ascending gang slot
theorem test_cycle_order : (labPair (.mxClaim 1 0)).cycle = [2, 1] ∧ (labPair .ctlNop).cycle = [1, 2] := by decide +kernel
-- source: R143, the emit that came first goes first
theorem test_emit_order : let s : State := { labPair .ctlNop with gangs := [(1, { lab.gang with wait := .emit 0 9 }), (2, { lab.gang with wait := .emit 0 4 })] }
    s.emitAhead 0 = true ∧ ({ s with cur := 2 } : State).emitAhead 0 = false := by decide +kernel


/-! ### States that meet the hypotheses of the statements -/

/-- A prefix stands before the instruction. -/
def labX (p : BitVec 25) : State := labG (fun g => { g with ext := some p })

theorem witness_no_prefix : lab.gang.ext = none ∧ lab.quiet = true := by decide
theorem witness_ScalarArithmetic_prefix : (labX 5).gang.ext ≠ none ∧ (labX 5).quiet = true := by decide
theorem witness_Immediate : lab.Immediate (0xFFF : BitVec 12) 0xFFFFFFFF ∧ (labX 0x1FFFFFF).Immediate (0 : BitVec 12) 0xFFFFFFFF :=
  ⟨.inl ⟨by decide, by decide⟩, .inr ⟨0x1FFFFFF, by decide, by decide, by decide⟩⟩
theorem witness_ScalarImmediates_shift : lab.Immediate (31 : BitVec 12) 31 ∧ lab.Immediate (32 : BitVec 12) 32 :=
  ⟨.inl ⟨by decide, by decide⟩, .inl ⟨by decide, by decide⟩⟩
theorem witness_ScalarImmediates_field : (labX 5).gang.ext ≠ none ∧ (1 : BitVec 12) ≠ 0 ∧ (labX 5).quiet = true := by decide
theorem witness_Branches_target : lab.Target (0x1FFFF : BitVec 17) 0xFFFFFFFFFFFE ∧ (labX 1).Target (0 : BitVec 17) 0x40004 :=
  ⟨.inl ⟨by decide, by decide⟩, .inr ⟨1, by decide, by decide⟩⟩
theorem witness_Branches_lanes : (labR (fun r => { r with exec := 0 })).r.exec = 0 ∧ (labR (fun r => r.setV 3 (.u 7))).r.Common 3 7 :=
  ⟨by decide, ⟨0, by decide⟩, by decide⟩
/-- A lane register that differs in one lane. -/
def labTwo : State := labR (fun r => { r.setV 1 (.a 0 1) with exec := 0x6 })
theorem witness_Branches_nonuni : lowest labTwo.r.exec = some 1 ∧ (4 : Word) ≠ 0 ∧ labTwo.quiet = true
    ∧ (∀ j, lane 4 j = (lane labTwo.r.exec j && (labTwo.r.vreg 1).at j != (labTwo.r.vreg 1).at 1)) := by decide
theorem witness_Calls : (3 : BitVec 3) ≠ 0 ∧ (lab.r.below.length + 8 * (2 : BitVec 3).toNat + 64 - lab.grid.k.regs) / 8 ≤ lab.gang.spilled
    ∧ lab.r.links.length < lab.r.calllim.toNat ∧ (0x40 : Va).toNat % 2 = 0
    ∧ (0x40 : Va) = (lab.r.pc &&& 0xFFFF00000000) ||| ((labR (fun r => r.setS 1 0x40)).r.sreg 1).setWidth 48 := by decide
theorem witness_Calls_limit : let s := labR (fun r => { r with calllim := 0 })
    s.r.calllim.toNat ≤ s.r.links.length ∧ s.quiet = true
      ∧ (s.r.below.length + 8 * (2 : BitVec 3).toNat + 64 - s.grid.k.regs) / 8 ≤ s.gang.spilled := by decide
/-- A gang in a callee. -/
def labCallee : State := labR (fun r => { r with links := [{ ret := 8, k := 1 }], below := List.replicate 8 (.u 3) })
theorem witness_Returns : labCallee.r.links = { ret := 8, k := 1 } :: [] ∧ labCallee.gang.ext = none ∧ 8 * 1 ≤ labCallee.r.below.length ∧ 1 ≤ 7
    ∧ labCallee.gang.spilled ≤ (labCallee.r.below.length - 8 * 1) / 8 ∧ lab.r.links = [] ∧ lab.quiet = true
    ∧ (labCallee.r.below.length + 8 * (1 : BitVec 3).toNat + 64 - labCallee.grid.k.regs) / 8 ≤ labCallee.gang.spilled := by decide
theorem witness_IndirectJumps : ((labR (fun r => r.setS 1 0x40)).r.sreg 1).toNat % 2 = 0 ∧ ((labR (fun r => r.setS 1 0x41)).r.sreg 1).toNat % 2 = 1
    ∧ (labR (fun r => r.setV 1 (.u 0x40))).r.Common 1 0x40 ∧ (lab.r.sreg 2).toNat ≤ (lab.r.sreg 1).toNat :=
  ⟨by decide, by decide, ⟨⟨0, by decide⟩, by decide⟩, by decide⟩
/-- A jump table of one entry, 0x10, two words after the jump. -/
def labTab : State := { labR (fun r => r.setS 2 1) with mem := memPut lab.mem 0x10008 [0x10, 0, 0, 0] }
theorem witness_IndirectJumps_table : (labTab.r.sreg 1).toNat < (labTab.r.sreg 2).toNat
    ∧ (8 : Va) = (labTab.r.pc &&& 0xFFFFFFFFFFFC) + ((2 : BitVec 9).signExtend 48) <<< 2
    ∧ (8 : Va) = 8 + (labTab.r.sreg 1).setWidth 48 <<< 2 ∧ labTab.needsRefresh false true 8 = false
    ∧ labTab.gxlate false true 8 = .ok (.dram 0x10008) false ∧ labTab.old = []
    ∧ (∀ j : Fin 4, (0x10 : Word).extractLsb' (8 * j.val) 8 = memRead labTab.mem (0x10008 + j.val))
    ∧ (0x18 : Va) = 8 + (0x10 : Word).signExtend 48 ∧ (0x18 : Va).toNat % 2 = 0 := by decide
theorem witness_Control : lab.gang.failMx = none ∧ lab.gang.failCp = none ∧ (labX 1).gang.ext ≠ none := by decide
theorem witness_SyValue : lab.SyValue 9 9 ∧ (labX 0x1234).SyValue 0x5678 0x12345678
    ∧ (labG (fun g => { g with ext := some 0x1000008, r := g.r.setS 8 77 })).SyValue 0 77 :=
  ⟨.inl ⟨by decide, by decide⟩, .inr (.inl ⟨0x1234, by decide, by decide⟩), .inr (.inr ⟨8, by decide, by decide, by decide⟩)⟩
/-- s6 holds the handle of its own matrix context, of a Map-reclamation counter in s7, of its own copy context in s8. -/
def labWait : State := labR (fun r => ((r.setS 6 0).setS 7 0x40000000).setS 8 0x10000000)
theorem witness_Waits : labWait.counterOf (labWait.r.sreg 6) = some 0 ∧ labWait.counterOf (labWait.r.sreg 7) = some 0
    ∧ ((0 : BitVec 64).setWidth 32 - (0 : Word)).toNat < 2 ^ 31 ∧ 2 ^ 29 ≤ (labWait.r.sreg 7).toNat ∧ labWait.SyValue 0 0
    ∧ ¬((0 : BitVec 64).setWidth 32 - (1 : Word)).toNat < 2 ^ 31 :=
  ⟨by decide, by decide, by decide, by decide, .inl ⟨by decide, by decide⟩, by decide⟩
theorem witness_Waits_own : (labWait.r.sreg 6).toNat = labWait.gang.slot + (if false then 2 ^ 28 else 0)
    ∧ (labWait.r.sreg 8).toNat = labWait.gang.slot + (if true then 2 ^ 28 else 0) ∧ labWait.gang.slot < 2 ^ 28
    ∧ 1 ≤ ((1 : Word) - BitVec.ofNat 32 labWait.r.commMx).toNat ∧ ((0 : Word) - BitVec.ofNat 32 labWait.r.commMx).toNat = 0
    ∧ 2 ^ 31 ≤ ((0xFFFFFFFF : Word) - BitVec.ofNat 32 labWait.r.commMx).toNat ∧ labWait.gang.failMx = none := by decide
/-- An interval table with one entry, which saves 16 registers. -/
def labIvl : State := { lab with mem := memPut lab.mem 0x20100 [0xFF, 0, 0, 0, 0, 0, 0, 0, 0xFF, 0xFF] }
theorem witness_Waits_speculative : ({ labWait with specWaits := true } : State).specWaits = true ∧ labWait.gang.level = 0
    ∧ lab.specWaits = false := by decide
/-- Targets of a branch and of a call; a return, a jump, a sum of two registers. -/
theorem witness_WatchdogCounts : lab.Target (0x1FFFF : BitVec 17) 0xFFFFFFFFFFFE ∧ lab.Target (0x20 : BitVec 19) 0x40
    ∧ (2 : BitVec 3) ≠ 0 ∧ labCallee.r.links = { ret := 8, k := 1 } :: []
    ∧ labCallee.gang.spilled ≤ (labCallee.r.below.length - 8 * 1) / 8 ∧ lab.Fits ((5 : BitVec 6).setWidth 7) [0x41, 0x02] :=
  ⟨.inl ⟨by decide, by decide⟩, .inl ⟨by decide, by decide⟩, by decide, by decide, by decide, by decide, by decide, by decide⟩
/-- A gang at `pc`, with the watchdog's window from 8 to 16 and a limit of 1. -/
def labWin (pc : Va) : State := labR (fun r => { r with pc := pc, wdWin := some (8, 16), wdog := 0x80000001 })
theorem witness_Counted : (labWin 8).r.wdWin = some (8, 16) ∧ (8 : Va).toNat ≤ (labWin 8).r.pc.toNat ∧ (labWin 16).r.pc.toNat ≤ (16 : Va).toNat
    ∧ (labWin 6).r.pc.toNat < (8 : Va).toNat ∧ (16 : Va).toNat < (labWin 18).r.pc.toNat ∧ (labWin 8).gang.trap = false
    ∧ (labWin 8).r.wdog.getLsbD 31 = true ∧ (labWin 8).r.wdCount + 1 = 1 := by
  refine ⟨rfl, ?_, ?_, ?_, ?_, rfl, rfl, rfl⟩ <;> decide
theorem witness_Intervals : (1 : BitVec 16).toNat < labIvl.grid.k.ivlN ∧ labIvl.gang.forward = none ∧ labIvl.gang.recipe = none
    ∧ labIvl.gang.trap = false ∧ labIvl.quiet = true
    ∧ (labIvl.eread labIvl.leafNo labIvl.gang.asid ((labIvl.grid.k.ivlVa + 24 * (0 : BitVec 16).toNat) % 2 ^ 48) 24 (some labIvl.cur)).toOption
      = some ([0xFF, 0, 0, 0, 0, 0, 0, 0, 0xFF, 0xFF] ++ List.replicate 14 0)
    ∧ popBits 64 (leNat [0xFF, 0, 0, 0, 0, 0, 0, 0]) ≤ 24 ∧ labIvl.grid.k.ivlN ≤ (2 : BitVec 16).toNat := by decide
/-- An entry whose working set has 32 registers. -/
theorem witness_Intervals_wide : let s : State := { lab with mem := memPut lab.mem 0x20100 [0xFF, 0xFF, 0xFF, 0xFF] }
    (s.eread s.leafNo s.gang.asid ((s.grid.k.ivlVa + 24 * (0 : BitVec 16).toNat) % 2 ^ 48) 24 (some s.cur)).toOption
      = some ([0xFF, 0xFF, 0xFF, 0xFF] ++ List.replicate 20 0)
    ∧ 24 < popBits 64 (leNat [0xFF, 0xFF, 0xFF, 0xFF, 0, 0, 0, 0]) := by decide
/-- The lab with a second gang in its workgroup. -/
def labTwoGangs : State := { lab with
  gangs := lab.gangs ++ [(2, { lab.gang with slot := 1 })], wgs := [(1, { lab.wg with gangs := [1, 2] })], nextKey := 3 }
theorem witness_Barriers : lab.gang.wait = .none ∧ lab.quiet = true ∧ lab.gang.slot < 32 ∧ lab.wg.bars[0].arrived.getLsbD lab.gang.slot = false
    ∧ (∀ g ∈ lab.wg.gangs, (lab.gangAt g).st ≠ .retired →
        (lab.wg.bars[0].arrived ||| BitVec.ofNat 32 (2 ^ lab.gang.slot)).getLsbD (lab.gangAt g).slot = true)
    ∧ (∃ g ∈ lab.wg.gangs, (lab.gangAt g).st ≠ .retired ∧ lab.wg.bars[0].next.getLsbD (lab.gangAt g).slot = false)
    ∧ ¬(∀ g ∈ labTwoGangs.wg.gangs, (labTwoGangs.gangAt g).st ≠ .retired →
        (labTwoGangs.wg.bars[0].arrived ||| BitVec.ofNat 32 (2 ^ labTwoGangs.gang.slot)).getLsbD (labTwoGangs.gangAt g).slot = true) := by decide
/-- The gang has arrived at barrier 0 in this generation, its partner has not. -/
def labArrived : State := labTwoGangs.setWgAt 1 { labTwoGangs.wg with bars := labTwoGangs.wg.bars.setIfInBounds 0 { arrived := 1 } }
theorem witness_Barriers_again : labArrived.wg.bars[0].arrived.getLsbD labArrived.gang.slot = true
    ∧ ¬(∀ g ∈ labArrived.wg.gangs, (labArrived.gangAt g).st ≠ .retired → labArrived.wg.bars[0].arrived.getLsbD (labArrived.gangAt g).slot = true)
    ∧ (∃ g ∈ labArrived.wg.gangs, (labArrived.gangAt g).st ≠ .retired) := by decide
/-- A gang waits for generation `n` of barrier 0, which stands at 1. -/
def labBarWait (n : Nat) : State :=
  let s := labG (fun g => { g with wait := .bar 0 n })
  s.setWgAt 1 { s.wg with bars := s.wg.bars.setIfInBounds 0 { gen := 1 } }
theorem witness_Barriers_waiter : (labBarWait 0).gang.wait = .bar 0 0 ∧ (labBarWait 0).wg.bars[0]? = some { gen := 1 }
    ∧ (labBarWait 1).gang.wait = .bar 0 1 ∧ (labBarWait 1).wg.bars[0]? = some { gen := 1 } := by decide
theorem witness_Timelines : lab.gang.cmds = [] ∧ lab.gang.failMx = none ∧ lab.wg.gangs[0 % 2 ^ 28]? = some 1 ∧ 2 * 2 ^ 28 % 2 ^ 28 < 64
    ∧ ((labR (fun r => r.setS 1 0x60000000)).r.sreg 1).toNat / 2 ^ 28 = 6 := by decide
/-- A command is pending, or a checkpoint is held. -/
theorem witness_Timelines_later : let s := labG (fun g => { g with cmds := [{ seq := 1 }] })
    (∃ c ∈ s.gang.cmds, c.st = .pending) ∧ (s.gang.cmds.filter (fun c => c.st == .pending)).length < 16
      ∧ (s.r.commMx + 1) - s.gang.counterNow false < 2 ^ 31 ∧ (s.r.commCp + 1) - s.gang.counterNow true < 2 ^ 31
      ∧ (labG (fun g => { g with ckpts := [{}] })).quiet = false := by decide
theorem witness_SystemReads : (0x009 : BitVec 16).toNat ∉ [0x000, 0x001, 0x002, 0x003, 0x004, 0x005, 0x006, 0x007, 0x008, 0x010, 0x011]
    ∧ lab.gang.ext = none ∧ (30 : BitVec 5) ≠ 31 := by decide
theorem witness_SystemWrites : (lab.setGridAt 1 { lab.grid with k := { lab.grid.k with sys := true } }).grid.k.sys = true ∧ lab.grid.k.sys = false
    ∧ lab.r.links = [] ∧ labCallee.r.links ≠ [] := by decide
theorem witness_SoftwareTraps : lab.gang.recipe = none ∧ lab.gang.trap = false ∧ lab.grid.k.handler = some 0x40
    ∧ (lab.setGridAt 1 { lab.grid with k := { lab.grid.k with handler := none } }).quiet = true ∧ lab.SyValue 9 9
    ∧ (labG (fun g => { g with trap := true })).gang.trap = true ∧ (labG (fun g => { g with ckpts := [{}] })).quiet = false := by
  refine ⟨?_, ?_, ?_, ?_, .inl ⟨?_, ?_⟩, ?_, ?_⟩ <;> decide
theorem witness_TrapReturn : let s := labG (fun g => { g with trap := true })
    s.gang.trap = true ∧ s.quiet = true ∧ s.gang.forward = none ∧ s.r.tfPc.toNat % 2 = 0 ∧ s.gang.ext = none := by decide
/-- An odd TF_PC; a pre-emption pending, with a valid flashback point or without. -/
theorem witness_TrapReturn_odd : let s := labG (fun g => { g with trap := true, r := { g.r with tfPc := 3 } })
    s.gang.trap = true ∧ s.quiet = true ∧ s.gang.recipe = none ∧ s.r.tfPc.toNat % 2 = 1 := by decide
theorem witness_TrapReturn_forward : ∀ v : Bool, let s := labG (fun g => { g with trap := true, forward := some 9, flash := { valid := v } })
    s.gang.trap = true ∧ s.quiet = true ∧ s.gang.forward ≠ none ∧ s.gang.st = .live ∧ s.gang.flash.valid = v ∧ s.cur ∈ s.wg.gangs := by decide
theorem witness_TrapNotTaken : (labG (fun g => { g with recipe := some (0, 0) })).gang.recipe ≠ none
    ∧ (lab.setGridAt 1 { lab.grid with k := { lab.grid.k with handler := none } }).grid.k.handler = none := by decide
theorem witness_SelectorsRead : lab.gang.stores = [] ∧ (labX 5).gang.ext = some 5 := by decide
theorem witness_Fits : lab.Fits 3 [0x41, 0x79] ∧ (labX 5).Fits 0x70 [0x7C, 0] ∧ lab.Fits 0 [0x7B] :=
  ⟨⟨by decide, by decide, by decide⟩, ⟨by decide, by decide, by decide⟩, ⟨by decide, by decide, by decide⟩⟩
theorem witness_IntegerImmediates : lab.Immediate (31 : BitVec 10) 31 ∧ (31 : Word).toNat < 32 := ⟨.inl ⟨by decide, by decide⟩, by decide⟩
/-- v1 is affine, v2 and v3 are uniform. -/
def labShapes : State := labR (fun r => ((r.setV 1 (.a 5 2)).setV 2 (.u 3)).setV 3 (.u 4))
theorem witness_ShapeTags : labShapes.gang.ext = none ∧ labShapes.r.exec = labShapes.gang.launched ∧ labShapes.r.exec ≠ 0
    ∧ labShapes.r.vreg 1 = .a 5 2 ∧ labShapes.r.vreg 2 = .u 3 ∧ labShapes.r.vreg 3 = .u 4 := by decide
theorem witness_FloatLanes : lab.r.fpx (lab.laneEvents (fun l => faAdd lab.r.rm [(lab.src .fp 1).at l, (lab.src .fp 2).at l])) = 0 := by decide
/-- 1 in FP32, and pairs of 1 and of a subnormal in FP16. -/
theorem witness_FusedOnce : ofF32 0x3F800000 = Claims.value (false, 0x800000, -23) ∧ Claims.half f16 0x3C000001 1 = Claims.value (false, 0x400, -10)
    ∧ Claims.half f16 0x3C000001 0 = Claims.value (false, 0, 0) ∧ Claims.half bf16 0xBF800000 1 = Claims.value (true, 0x80, -7) := by decide
/-- A magnitude below the range of F8A, at its end, and beyond; one that a rounding changes, and one it does not. -/
theorem witness_Narrows : 0 < 15 ∧ (3 : Nat) < 4 ∧ (5 : Int) + (Nat.log2 15 : Int) - 3 = 5 ∧ (6 : Int) + (Nat.log2 15 : Int) - 3 = 6
    ∧ (-20 : Int) + (Nat.log2 15 : Int) - 3 < -9 ∧ (quant 0 false 31 4 false 5).1 = 16 ∧ (quant 0 false 15 5 false 5).1 = 15
    ∧ Claims.Rounds 0 false 31 4 5 16 := by
  refine ⟨by decide, by decide, by decide, by decide, by decide, by decide, by decide, ?_⟩
  simp only [Claims.Rounds]
  decide
theorem witness_ConvertsOnce : ofF32 0x7FC00000 = .nan ∧ ofF32 0xFF800000 = .inf true ∧ ofF32 0x4F000000 = .fin false 0x800000 8
    ∧ (toInt 0 false 0x800000 8).1 = 2 ^ 31 ∧ ofF32 0x40000000 = Claims.value (false, 0x800000, -22)
    ∧ (∀ el ∈ [Elem.narrow f8a, .narrow f4, .int (-8) 7 4, .int 0 255 8], el ≠ .fp32 ∧ el ≠ .ieee f16) := by decide
/-- Operands of the functions: finite ones of both signs, zeros, infinities, a NaN. -/
theorem witness_FunctionLanes : ofF32 0x40490FDB = .fin false 13176795 (-22) ∧ ofF32 0xC0490FDB = .fin true 13176795 (-22)
    ∧ ofF32 0x7FC00000 = .nan ∧ ofF32 0xFF800000 = .inf true ∧ ofF32 0x7F800000 = .inf false ∧ ofF32 0x80000000 = .fin true 0 (-149)
    ∧ (13176795 : Nat) ≠ 0 := by decide
/-- π has a fraction, and 2 has none. -/
theorem witness_IntegralParts : ofF32 0x40000000 = .fin false 0x800000 (-22)
    ∧ ¬(2 ^ ((0 : Int) - min (-22) 0).toNat ∣ 13176795 * 2 ^ ((-22 : Int) - min (-22) 0).toNat)
    ∧ Claims.Fits2 0x800000 (-22) 0 := ⟨by decide, by decide, 2, by decide⟩
/-- −149 and 127 are powers' exponents; 2^−149 and 2^127 their powers; 0.75 is three quarters of a turn; 256 is large. -/
theorem witness_ExactArguments : ofF32 0xC3150000 = .fin true 0x950000 (-16)
    ∧ Claims.SameValue (.fin true 0x950000 (-16)) (.fin (decide ((-149 : Int) < 0)) (-149 : Int).natAbs 0)
    ∧ ofF32 0x42FE0000 = .fin false 0xFE0000 (-17) ∧ Claims.SameValue (.fin false 0xFE0000 (-17)) (.fin (decide ((127 : Int) < 0)) (127 : Int).natAbs 0)
    ∧ ofF32 1 = .fin false 1 (-149) ∧ Claims.SameValue (.fin false 1 (-149)) (.fin false 1 (-149))
    ∧ ofF32 0x7F000000 = .fin false 0x800000 104 ∧ Claims.SameValue (.fin false 0x800000 104) (.fin false 1 127)
    ∧ ofF32 0x3F400000 = .fin false 0xC00000 (-24) ∧ Claims.SameValue (.fin false 0xC00000 (-24)) (.fin false 3 (-2))
    ∧ ofF32 0x43800000 = .fin false 0x800000 (-15) ∧ ¬Claims.Below 0x800000 (-15) 256 0 ∧ ¬Claims.Below 0x800000 (-15) 64 0 := by
  simp only [Claims.SameValue, Claims.Below]
  decide
/-- Every entry of an empty table begins at 0: the last one serves an operand of 1, and the first one an operand of −1. -/
theorem witness_ActSteps : ofF32 (Claims.word [] (16 * 255)) = .fin false 0 (-149) ∧ (ofF32 0x3F800000).lt (.fin false 0 (-149)) = false
    ∧ (ofF32 0xBF800000).lt (.fin false 0 (-149)) = true ∧ (faFmac 0 [0x3F800000, 0, 0]).2 = [0] := by decide
theorem witness_DotOnce : ofF32 0x3F800000 = Claims.value (false, 0x800000, -23)
    ∧ (∀ i, i < 4 → decodeElem (.narrow f8a) (0x38383838 / 2 ^ (8 * i) % 2 ^ 8) = (Claims.value (false, 8, -3), false))
    ∧ ((List.range 4).filter (fun i => (decodeElem (.narrow f8a) (0x38380080 / 2 ^ (8 * i) % 2 ^ 8)).2)).length = 1
    ∧ Claims.half f16 0x3C003C00 0 = Claims.value (false, 0x400, -10) := by decide
theorem witness_ConversionLanes : (elemOf 3).isSome = true ∧ (labR (fun r => { r with fmt := 3 })).r.fea ∈ [3, 4, 6, 7]
    ∧ (labR (fun r => { r with fmt := 5 })).r.fea ∈ [5, 8, 9] ∧ (elemOf 5).isSome = true ∧ lab.r.fea ∉ [3, 4, 6, 7]
    ∧ lab.r.fea ∉ [5, 8, 9] ∧ lab.quiet = true := by decide
theorem witness_DotLanes : (labR (fun r => { r with fmt := 0x43 })).r.fea ∈ [3, 4] ∧ (labR (fun r => { r with fmt := 0x43 })).r.feb ∈ [3, 4]
    ∧ (labR (fun r => { r with fmt := 0x55 })).r.fea = 5 ∧ (labR (fun r => { r with fmt := 0x76 })).r.feb ∈ [6, 7]
    ∧ (labR (fun r => { r with fmt := 0x98 })).r.feb ∈ [8, 9] ∧ lab.r.fea ∉ [3, 4] ∧ lab.r.feb ∉ [6, 7]
    ∧ (elemOf 3).isSome = true ∧ (elemOf 4).isSome = true ∧ (elemOf 6).isSome = true ∧ (elemOf 9).isSome = true := by decide
theorem witness_Flags : ∀ e ∈ [evNV, evNX + evUF, 63], e < 64 := by decide
/-- Invalid operations trap. -/
def labFpx : State := labR (fun r => { (r.setV 1 (.u 0x7F800000)).setV 2 (.u 0xFF800000) with fflags := 0x100 })
theorem witness_EnabledEvents : labFpx.quiet = true ∧ labFpx.gang.recipe = none ∧ labFpx.gang.trap = false ∧ labFpx.grid.k.handler = some 0x40
    ∧ labFpx.r.fpx (labFpx.laneEvents (fun l => faAdd labFpx.r.rm [(labFpx.src .fp 1).at l, (labFpx.src .fp 2).at l])) ≠ 0
    ∧ labFpx.r.fpx (labFpx.laneEvents (fun _ => (0, [evNV]))) ≠ 0 ∧ labFpx.Fits 5 [1, 2] := by
  exact ⟨by decide, by decide, by decide, by decide, by decide +kernel, by decide +kernel, by decide, by decide, by decide⟩
theorem witness_Nans : (ofF32 (faSub 0 [0x7F800000, 0x7F800000, 0]).1).isNan = true ∧ (ofF32 0xFFC00001).isNan = true := by decide
/-- Infinities of both signs, a zero, −4, and a finite factor. -/
theorem witness_InvalidOperations : ofF32 0x7F800000 = .inf false ∧ ofF32 0xFF800000 = .inf true ∧ ofF32 0 = .fin false 0 (-149)
    ∧ ofF32 0xC0800000 = .fin true 0x800000 (-21) ∧ 0x800000 ≠ 0 := by decide
theorem witness_OrderedNans : let s := labR (fun r => r.setV 0 (.u 0x7FC00000))
    s.Fits 0 [0, 1] ∧ lane s.r.exec 3 = true ∧ (ofF32 ((s.src .fp 0).at 3)).isNan = true ∧ s.r.fpx [evNV] = 0 :=
  ⟨⟨by decide, by decide, by decide⟩, by decide, by decide, by decide⟩
theorem witness_MinMax : (ofF32 0x7FC00000).isNan = true ∧ (ofF32 0).isNan = false ∧ (ofF32 0x80000000).isNan = false
    ∧ (0 : Word) ≠ 0x80000000 := by decide
theorem witness_Rounding : 0 < 0x1000001 ∧ ofF32 0x3F800000 = .fin false 0x800000 (-23) ∧ ofF32 0x80000000 = .fin true 0 (-149)
    -- the largest values that round below 2^128, and the smallest that overflow
    ∧ max ((104 : Int) + (Nat.log2 0xFFFFFF : Int) - 23) (-149) = 104 ∧ max ((105 : Int) + (Nat.log2 0x800000 : Int) - 23) (-149) = 105
    -- in FP16: the largest, one that overflows, and one that is tiny
    ∧ max ((5 : Int) + (Nat.log2 0x7FF : Int) - 10) (-24) = 5 ∧ max ((6 : Int) + (Nat.log2 0x400 : Int) - 10) (-24) = 6
    ∧ (-30 : Int) + (Nat.log2 0x401 : Int) - 10 < -24 := by decide
theorem witness_Compares : lab.r.fpx (lab.laneEvents (fun _ => (0, [evNV]))) = 0 := by decide
theorem witness_LaneMoves : (∀ l, lane lab.r.exec l = true → lane lab.gang.launched l = true) ∧ lowest lab.r.exec = some 0
    ∧ (∀ l : Fin 32, l.val < (lanesOf lab.r.exec).length → lane lab.gang.launched l = true) := by decide

/-- s1 holds the address of the data page; lanes 0 and 1 are active, with offsets 0 and 64 in v3. -/
def labMem : State := labR (fun r => { (r.setS 1 0x10000).setV 3 (.a 0 64) with exec := 3 })
/-- The places of the lanes' accesses. -/
def labPa (l : Fin 32) : Nat := 0x20000 + 64 * l.val
theorem witness_MeForm : Claims.MeForm labMem true 63 1 3 0 0 ∧ Claims.MeForm labMem false 60 4 0 1 7 ∧ Claims.MeForm (labX 0x1100000) true 62 2 0 1 0 :=
  have none (p : BitVec 25) (h : labMem.gang.ext = some p) : False := nomatch (show labMem.gang.ext = none by decide) ▸ h
  ⟨⟨by decide, by decide, fun p h => (none p h).elim⟩, ⟨by decide, by decide, fun p h => (none p h).elim⟩,
    ⟨by decide, by decide, fun _ _ => ⟨rfl, .inl rfl⟩⟩⟩
theorem witness_Aligned : Claims.Aligned labMem 64 (Claims.va labMem 1 3 0 0 64) ∧ Claims.Aligned labMem 16 (Claims.va labMem 1 3 0 0 16)
    ∧ Claims.Aligned labMem 1 (Claims.va labMem 1 0 1 7 1) := by
  simp only [Claims.Aligned]
  decide
theorem witness_Reaches (w : Bool) : Claims.Reaches labMem w (Claims.va labMem 1 3 0 0 16) labPa := by
  refine ⟨by decide, fun l hl => ?_⟩
  have h : (lane labMem.r.exec l = true → labMem.needsRefresh w false (Claims.va labMem 1 3 0 0 16 l) = false
      ∧ labMem.gxlate w false (Claims.va labMem 1 3 0 0 16 l) = .ok (.dram (labPa l)) false) := by
    revert l w
    decide
  exact ⟨(h hl).1, false, (h hl).2⟩
theorem witness_Defined : Claims.Defined labMem 16 (Claims.va labMem 1 3 0 0 16) := by
  simp only [Claims.Defined]
  decide
theorem witness_Sound : Claims.Sound labMem labPa := by
  simp only [Claims.Sound]
  decide
theorem witness_Room : Claims.Room labMem labPa := by
  simp only [Claims.Room]
  decide
theorem witness_Memory : labMem.gang.stores = [] ∧ labMem.holdLoads = false ∧ labMem.holdStores = false ∧ labMem.quiet = true
    ∧ labMem.r.exec ≠ 0 ∧ Memory.wf labMem.mem = true ∧ Memory.wf labMem.wg.scr = true := by decide
theorem witness_ScalarLoads : labMem.Immediate (0x20 : BitVec 12) 0x20 ∧ Claims.smVa labMem 1 0x20 % 8 = 0
    ∧ Claims.smVa labMem 1 0x20 + 8 ≤ lab.r.spbase.toNat + 0x10028 ∧ labMem.r.splim.toNat ≤ Claims.smVa labMem 1 0x20
    ∧ labMem.needsRefresh true false (Claims.smVa labMem 1 0x20) = false ∧ labMem.needsRefresh false false (Claims.smVa labMem 1 0x20) = false
    ∧ labMem.gxlate false false (Claims.smVa labMem 1 0x20) = .ok (.dram 0x20020) false
    ∧ labMem.gxlate true false (Claims.smVa labMem 1 0x20) = .ok (.dram 0x20020) false
    ∧ labMem.poisoned (.dram 0x20020) = false ∧ labMem.l1Full labMem.wg.core (0x20020 / 128) = false ∧ (30 : BitVec 5) ≠ 31
    ∧ labMem.hasBlocks labMem.cur = false ∧ labMem.inSpill (Claims.smVa labMem 1 0x20) 8 = false := ⟨.inl ⟨by decide, by decide⟩, by decide⟩
/-- The memory after the first lane has stored still translates the second. -/
theorem witness_VectorStores : ∀ j, j < (lanesOf labMem.r.exec).length → ∀ l ∈ lanesOf labMem.r.exec,
    let m := ((lanesOf labMem.r.exec).take j).foldl (fun m l =>
      memPut m (labPa l) ((List.range 4).map (Claims.groupByte labMem.r 2 l))) labMem.mem
    ({ labMem with mem := m } : State).gxlate true false (Claims.va labMem 1 3 0 0 4 l) = labMem.gxlate true false (Claims.va labMem 1 3 0 0 4 l)
      ∧ ({ labMem with mem := m } : State).needsRefresh true false (Claims.va labMem 1 3 0 0 4 l) = false := by decide
theorem witness_StoresWait : ((labMem.setGang { labMem.gang with stores := [{}] }).gang.stores ≠ []) := by decide
theorem witness_Scratch : let s := labR (fun r => { r.setV 3 (.a 0 16) with exec := 3 })
    Claims.InScratch s 16 (Claims.off s 0 3 0 0 16) ∧ Claims.InScratch s 4 (Claims.off s 0 0 1 7 4) := by
  simp only [Claims.InScratch]
  decide
/-- The last word of the scratchpad. -/
theorem witness_Scratch_end : let s := labR (fun r => { r.setS 1 4092 with exec := 1 })
    Claims.InScratch s 4 (Claims.off s 1 0 1 0 4) := by
  simp only [Claims.InScratch]
  decide
set_option exponentiation.threshold 500 in
theorem witness_Atomics : labMem.r.fpx [] = 0 ∧ labMem.r.fpx ((lanesOf labMem.r.exec).map (fun l => (cellRead labMem.r.rm (memBytes labMem.mem (labPa l) 64)).2)) = 0 := by
  decide
/-- Lane 1 is not aligned. -/
def labOdd : State := labR (fun r => { (r.setS 1 0x10000).setV 3 (.a 0 2) with exec := 3 })
theorem witness_AccessFaults_align : labOdd.quiet = true ∧ lane labOdd.r.exec 1 = true
    ∧ (∀ j, lane labOdd.r.exec j = true → j < 1 → Claims.va labOdd 1 3 0 0 4 j % 4 = 0
      ∧ (Claims.va labOdd 1 3 0 0 4 j + 4 ≤ labOdd.r.spbase.toNat ∨ labOdd.r.splim.toNat ≤ Claims.va labOdd 1 3 0 0 4 j))
    ∧ Claims.va labOdd 1 3 0 0 4 1 % 4 ≠ 0
    ∧ (∀ j, lane 2 j = (lane labOdd.r.exec j && Claims.va labOdd 1 3 0 0 4 j % 4 != 0)) := by decide
/-- The spill area begins at the data page. -/
def labSpill : State := labR (fun r => { r.setS 1 0x10000 with exec := 1, spbase := 0x10000, splim := 0x10080 })
theorem witness_AccessFaults_spill : Claims.va labSpill 1 0 1 0 4 0 % 4 = 0 ∧ Claims.va labSpill 1 0 1 0 4 0 < labSpill.r.splim.toNat
    ∧ labSpill.r.spbase.toNat < Claims.va labSpill 1 0 1 0 4 0 + 4
    ∧ (∀ j, lane 1 j = (lane labSpill.r.exec j && decide (Claims.va labSpill 1 0 1 0 4 j < labSpill.r.splim.toNat)
        && decide (labSpill.r.spbase.toNat < Claims.va labSpill 1 0 1 0 4 j + 4))) := by decide
/-- Lane 1 is not aligned in the scratchpad; lane 1 lies beyond it. -/
theorem witness_AccessFaults_scratch : let s := labR (fun r => { r.setV 3 (.a 4092 2) with exec := 3 })
    let t := labR (fun r => { r.setV 3 (.a 4092 4) with exec := 3 })
    (∀ j : Fin 32, lane 2 j = (lane s.r.exec j && (Claims.off s 0 3 0 0 4 j % 4 != 0)))
    ∧ (∀ j : Fin 32, lane t.r.exec j = true → Claims.off t 0 3 0 0 4 j % 4 = 0)
    ∧ (∀ j : Fin 32, lane 2 j = (lane t.r.exec j && decide (t.grid.k.scratch < Claims.off t 0 3 0 0 4 j + 4))) := by decide
theorem witness_AccessFaults_scalar : labSpill.Immediate (2 : BitVec 12) 2 ∧ Claims.smVa labSpill 1 2 % 4 ≠ 0
    ∧ Claims.smVa labSpill 1 0 % 8 = 0 ∧ Claims.smVa labSpill 1 0 < labSpill.r.splim.toNat
    ∧ labSpill.r.spbase.toNat < Claims.smVa labSpill 1 0 + 4 :=
  ⟨.inl ⟨by decide, by decide⟩, by decide, by decide, by decide, by decide⟩
/-- Lane 0 reaches the data page; lane 1 the code page, which may not be written, or an address with no page. -/
def labRefused (step : Word) : State := labR (fun r => { (r.setS 1 0x10000).setV 3 (.a 0 step) with exec := 3 })
theorem witness_AccessFaults_refused :
    (∀ p ∈ [(labRefused 0xFFFF0000, true, tcPERM), (labRefused 0x20000, true, tcXLATE), (labRefused 0x20000, false, tcXLATE)],
      let va := Claims.va p.1 1 3 0 0 4
      p.1.quiet = true ∧ p.1.holdLoads = false
      ∧ (∀ j, lane p.1.r.exec j = true → va j % 4 = 0 ∧ p.1.needsRefresh p.2.1 false (va j) = false ∧ p.1.r.splim.toNat ≤ va j)
      ∧ p.1.gxlate p.2.1 false (va 0) = .ok (.dram 0x20000) false
      ∧ (match p.1.gxlate p.2.1 false (va 1) with
        | .trap c _ => c == p.2.2
        | _ => false) = true)
    ∧ (∀ j, lane (2 : Word) j = true ↔ j = 1) := by decide
/-- The address of `sm` has no page, or lies on the code page. -/
theorem witness_AccessFaults_scalar_refused : let s := labR (fun r => r.setS 1 0x30000)
    Claims.smVa s 1 0 % 8 = 0 ∧ s.needsRefresh false false (Claims.smVa s 1 0) = false ∧ s.needsRefresh true false (Claims.smVa s 1 0) = false
    ∧ s.r.splim.toNat ≤ Claims.smVa s 1 0 ∧ s.holdLoads = false
    ∧ (match s.gxlate false false (Claims.smVa s 1 0), lab.gxlate true false (Claims.smVa lab 1 0) with
      | .trap c _, .trap d _ => c == tcXLATE && d == tcPERM
      | _, _ => false) = true := by decide
theorem witness_NoActiveLane : (labR (fun r => { r with exec := 0 })).r.exec = 0 := by decide

/-- Tile 1, slot 2 and metadata slot 0 by name; `fmt` names BF16 pairs; all lanes active. -/
def labEng : State := labR (fun r => { (((r.setS 1 1).setS 2 2).setS 3 0) with fmt := 0x11 })
theorem witness_MayIssue : Claims.MayIssue labEng false ∧ Claims.MayIssue labEng true ∧ Claims.Formats labEng :=
  have none (w : PendWrite) (h : w ∈ labEng.gang.stores) : False := nomatch (show labEng.gang.stores = [] by decide) ▸ h
  ⟨⟨by decide, by decide, fun w h => (none w h).elim⟩, ⟨by decide, by decide, fun w h => (none w h).elim⟩, .inl ⟨by decide, by decide⟩⟩
theorem witness_Holds : Claims.Holds labEng 1 1 ∧ Claims.Holds labEng 0 2 ∧ Claims.Holds labEng 2 7 :=
  ⟨⟨⟨by decide, by decide⟩, by decide⟩, ⟨⟨by decide, by decide⟩, by decide⟩, ⟨by decide, by decide⟩, by decide⟩
/-- A number beyond those held, and one that the other gang of the workgroup has started to release. -/
theorem witness_Holds_not : ¬Claims.Holds labEng 1 5 ∧ ¬Claims.Holds labEng 0 31 ∧ ¬Claims.Holds labEng 2 9
    ∧ ¬Claims.Holds (labTwoGangs.setGangAt 2 { labTwoGangs.gangAt 2 with releasing := some (1, 1) }) 1 1 :=
  ⟨fun h => absurd h.1.2 (by decide), fun h => absurd h.1.2 (by decide), fun h => absurd h.1.1 (by decide),
    fun h => absurd (h.2 2 (by decide) (by decide)) (by decide)⟩
theorem witness_Quarters : Claims.Quarters 0xFFFFFFFF 15 ∧ Claims.Quarters 0xFF 1 :=
  ⟨⟨by decide, by decide⟩, ⟨by decide, by decide⟩⟩
theorem witness_Segment : Claims.Segment labEng 0 ∧ Claims.Segment (labX 0xFFFF) (0xFFFF * 2 ^ 32) := ⟨.inl ⟨by decide, by decide⟩, .inr ⟨0xFFFF, by decide, by decide, by decide⟩⟩
theorem witness_MatrixIssue : (labEng.r.sreg 1).toNat < 8 ∧ labEng.wg.tiles.getLsbD 1 = true ∧ labEng.wg.slots.getLsbD 2 = true
    ∧ labEng.wg.slots.getLsbD 0 = true ∧ labEng.wg.metas.getLsbD 7 = true ∧ 7 % 1 = 0 ∧ 7 + 1 ≤ 8
    ∧ ((labR (fun r => r.setS 1 0x701)).r.sreg 1).toNat = 1 + 256 * 7 ∧ ((labR (fun r => r.setS 3 0x100)).r.sreg 3).toNat = 0 + 256 * 1
    ∧ ((labR (fun r => r.setS 1 0xE001)).r.sreg 1).toNat = 1 + 256 * 224 ∧ 16 * 224 + 512 ≤ labEng.grid.k.scratch
    ∧ 3072 + 1024 ≤ labEng.grid.k.scratch ∧ labEng.r.fout = 0 := by decide
theorem witness_MatrixIssue_st : ((0 : Nat), (32 : Nat)) ∈ [(0, 32), (1, 16), (2, 16), (3, 8), (4, 8), (5, 4)] ∧ 8 * 32 ≤ 256
    ∧ ((labR (fun r => { r with fmt := 0xA00 })).r.fout, 32) ∈ [(6, 8), (7, 8), (8, 4), (9, 4), (10, 32)]
    ∧ 0 + 63 * 32 + 8 * 4 ≤ labEng.grid.k.scratch := by decide
/-- Half of the first quarter is active. -/
theorem witness_MatrixIssue_quarter : let s := labR (fun r => { ((r.setS 1 1).setS 2 2) with fmt := 0x11, exec := 0xFF0F })
    Claims.Formats s ∧ ∀ i : Fin 4, let e := s.r.exec.extractLsb' (8 * i.val) 8
      if e = 0 ∨ e = 0xFF then 1 / 2 ^ i.val % 2 = 0 ∧ (0x0F : Word).extractLsb' (8 * i.val) 8 = 0
      else 1 / 2 ^ i.val % 2 = 1 ∧ (0x0F : Word).extractLsb' (8 * i.val) 8 = e := ⟨.inl ⟨by decide, by decide⟩, by decide⟩
theorem witness_MatrixIssue_slot : ((labR (fun r => r.setS 1 7)).r.sreg 1).toNat < 8 ∧ lab.wg.tiles.getLsbD 7 = false
    ∧ (labR (fun r => { r with exec := 0 })).gang.failMx = none := by decide
theorem witness_CopyIssue : lab.wg.slots.getLsbD 2 = true ∧ lab.wg.metas.getLsbD 7 = true ∧ 3840 + 256 ≤ lab.grid.k.scratch ∧ (3 : Nat) % 4 ≠ 0
    ∧ 0 + ((64 - 1) * 32 + 4096 / 64) ≤ lab.grid.k.scratch ∧ 4096 - 512 + 8 * 64 ≤ lab.grid.k.scratch ∧ (0 : BitVec 2) ≠ 3
    ∧ 3584 + 512 ≤ lab.grid.k.scratch := by decide
/-- A command the gang waits for has started, another number is taken. -/
def labOwned : State := lab.setCoreAt 0 { lab.core with slotOwner := [(0, 1), (1, 1), (2, 1)], tileOwner := [(0, 1), (1, 1)] }
theorem witness_NumberClaims : Claims.Ready labOwned ∧ labOwned.gang.failMx = none ∧ popBits 32 labOwned.wg.slots.toNat < labOwned.grid.k.slots
    ∧ ¬Claims.Behind labOwned 0 ∧ thas (labOwned.core.owners 0).1 3 = false ∧ (∀ j, j < 3 → thas (labOwned.core.owners 0).1 j = true)
    ∧ thas (labOwned.core.owners 1).1 2 = false ∧ (∀ j, j < 2 → thas (labOwned.core.owners 1).1 j = true)
    ∧ Memory.wf labOwned.core.slots = true ∧ Memory.wf labOwned.core.tiles = true ∧ Memory.wf labOwned.core.metas = true
    ∧ Claims.Holds labOwned 0 2 ∧ labOwned.inUse 0 2 = false ∧ Claims.Holds labOwned 2 7 ∧ labOwned.inUse 2 7 = false :=
  ⟨⟨by decide, by decide⟩, by decide, by decide, fun ⟨_, hj, _, hn, _⟩ => hn (List.mem_singleton.mp ((show labOwned.gangKeys = [1] by decide) ▸ hj)), by decide, by decide, by decide, by decide, by decide, by decide,
    by decide, ⟨⟨by decide, by decide⟩, by decide⟩, by decide, ⟨⟨by decide, by decide⟩, by decide⟩, by decide⟩
/-- A started command names tile 1. -/
theorem witness_NumberClaims_waits : let s := labG (fun g => { g with cmds := [{ id := 5, st := .started, op := .zero 1 }] })
    Claims.Ready s ∧ Claims.Holds s 1 1 ∧ (∃ j ∈ s.wg.gangs, ∃ c ∈ (s.gangAt j).cmds, (1, 1) ∈ c.op.names c.fmt) :=
  ⟨⟨by decide, by decide⟩, ⟨⟨by decide, by decide⟩, by decide⟩, by decide⟩
theorem witness_NumberClaims_limit : let s := lab.setWgAt 1 { lab.wg with slots := 0xF }
    s.grid.k.slots ≤ popBits 32 s.wg.slots.toNat ∧ s.quiet = true := by decide

/-- An operation of the memory system or the Map Unit succeeds. -/
def works {ε α : Type} (x : Except ε α) : Bool :=
  match x with
  | .ok _ => true
  | .error _ => false

/-- A bound sequence, record 0 with tag 1, over address space 1, which is empty: two tokens emitted, none released. s1
holds its handle, s4 address space 1 and W = 4, s5 the free address space 5, s6 the address of the data page. -/
def labSeq : State := { labR (fun r => (((r.setS 1 0x10000).setS 4 0x40001).setS 5 5).setS 6 0x10000) with
  leaves := [(0, { lab.leaf with
    asids := lab.leaf.asids ++ [(1, { st := .live, gens := [{ num := 1, root := 0x800 }] })], refs := (0x800, 9) :: lab.leaf.refs })]
  seqs := [(0, { bound := true, tag := 1, asid := 1, w := 2, e := 2, toks := [7, 8], seed := 99
                 snaps := [{ pos := 0, root := 0x800 }, { pos := 1, root := 0x800 }, { pos := 2, root := 0x800, src := 0x800 }] })] }
theorem witness_SequenceRecords_bind : Claims.Ready labSeq ∧ labSeq.gang.ext = none ∧ (2 : BitVec 5) ≠ 31 ∧ (labSeq.r.sreg 4).toNat / 2 ^ 16 % 64 ≠ 0
    ∧ (labSeq.asidAt labSeq.leafNo ((labSeq.r.sreg 4).toNat % 2 ^ 16)).st = .live ∧ labSeq.freeSeq labSeq.die = some 1
    ∧ works (labSeq.takeSnap { bound := true, tag := 1, leaf := labSeq.leafNo, asid := 1, w := 4 } 0) = true
    ∧ (labSeq.r.sreg 3).toNat / 2 ^ 16 % 64 = 0 := ⟨⟨by decide +kernel, by decide +kernel⟩, by decide +kernel⟩
/-- Every record of the die is bound. -/
def labFull : State := { labSeq with seqs := (List.range 16384).map (fun i => (i, { bound := true })) }
theorem tget_map {α : Type} (d x : α) (l : List Nat) (k : Nat) (h : k ∈ l) : tget d (l.map (fun i => (i, x))) k = x := by
  induction l with
  | nil => cases h
  | cons j t ih =>
    simp only [List.map_cons, tget]
    split
    · rfl
    · exact ih ((List.mem_cons.mp h).resolve_left (fun e => absurd e.symm (by assumption)))
theorem witness_SequenceRecords_full : labFull.freeSeq labFull.die = none := by
  rw [State.freeSeq, List.find?_eq_none]
  intro k hk
  obtain ⟨i, hi, rfl⟩ := List.mem_map.mp hk
  have hd : labFull.die = 0 := by decide +kernel
  rw [hd, Nat.zero_mul, Nat.zero_add, State.seqAt, show labFull.seqs = (List.range 16384).map (fun i => (i, { bound := true })) from rfl,
    tget_map _ _ _ _ hi]
  decide
theorem witness_SequenceRecords_handle : labSeq.handleOk (labSeq.r.sreg 1) = true ∧ labSeq.handleOk (labSeq.r.sreg 4) = false
    ∧ (labSeq.asidAt labSeq.leafNo ((labSeq.r.sreg 5).toNat % 2 ^ 16)).st = .free ∧ labSeq.freeSeq (handleKey (labSeq.r.sreg 1) / 16384) = some 1
    ∧ (labSeq.seqAt 0).gram = none
    ∧ (match labSeq.fork labSeq.leafNo 1 5 false with
      | .ok u => works (u.takeSnap { labSeq.seqAt 0 with tag := 1, asid := 5, rel := 2, toks := [], snaps := [] } 2)
      | .error _ => false) = true := by decide +kernel
theorem witness_EgressGate_emit : let r := { labSeq.seqAt 0 with rel := 1, toks := [8] }
    let s := labSeq.setSeq 0 r
    s.handleOk (s.r.sreg 1) = true ∧ r.e ≠ 0xFFFFFFFF ∧ r.e - r.rel < r.w ∧ works (s.takeSnap r (r.e + 1)) = true := by decide +kernel
theorem witness_EgressGate_waits : (labSeq.seqAt 0).e ≠ 0xFFFFFFFF ∧ (labSeq.seqAt 0).w ≤ (labSeq.seqAt 0).e - (labSeq.seqAt 0).rel := by decide +kernel
/-- Another gang has waited on the record since cycle 3, and this one comes at cycle 5. -/
theorem witness_EgressGate_behind : let s : State := { labSeq with
      gangs := labSeq.gangs ++ [(2, { labSeq.gang with slot := 1, wait := .emit 0 3 })], clk := { core := 5 } }
    (2 : Nat) ≠ s.cur ∧ (s.gangAt 2).st = .live ∧ (s.gangAt 2).wait = .emit 0 3 ∧ 3 < s.clk.core
    ∧ (∀ k ∈ labSeq.gangKeys, (labSeq.gangAt k).wait = .none) := by decide +kernel
theorem witness_EgressGate_last : let s := labSeq.setSeq 0 { labSeq.seqAt 0 with e := 0xFFFFFFFF }
    s.handleOk (s.r.sreg 1) = true ∧ (s.seqAt 0).e = 0xFFFFFFFF := by decide +kernel
/-- s2 names positions 0 to 3 in turn. -/
theorem witness_EgressGate_positions : ((labSeq.setR (labSeq.r.setS 2 2)).r.sreg 2).toNat ≤ (labSeq.seqAt 0).e
    ∧ (labSeq.seqAt 0).e < ((labSeq.setR (labSeq.r.setS 2 3)).r.sreg 2).toNat
    ∧ ((labSeq.setR (labSeq.r.setS 2 2)).r.sreg 2).toNat = (labSeq.seqAt 0).e
    ∧ ((labSeq.setR (labSeq.r.setS 2 0)).r.sreg 2).toNat < 1 := by decide +kernel
theorem witness_EgressGate_veto : let r := labSeq.seqAt 0
    r.rel ≤ 0 ∧ 0 < r.e ∧ r.snaps.find? (fun q => q.pos == 0) = some { pos := 0, root := 0x800 } ∧ (labSeq.asidAt r.leaf r.asid).st = .live
    ∧ works (labSeq.swapRoot r.leaf r.asid 0x800) = true := by decide +kernel
theorem witness_Sessions_save : Claims.Segment labSeq 0 ∧ (0 + (labSeq.r.sreg 6).toNat) % 128 = 0
    ∧ (labSeq.asidAt labSeq.leafNo 5).st = .free
    ∧ works (labSeq.ewrite none { leaf := labSeq.leafNo, asid := some labSeq.gang.asid } labSeq.leafNo labSeq.gang.asid 0x10000
        (List.replicate 128 0) (some labSeq.cur)) = true
    ∧ (match labSeq.fork labSeq.leafNo 1 5 true with
      | .ok u => works (u.ewrite none { leaf := labSeq.leafNo, asid := some labSeq.gang.asid } labSeq.leafNo labSeq.gang.asid 0x10000
          ((labSeq.seqAt 0).image 5) (some labSeq.cur))
      | .error _ => false) = true := ⟨.inl ⟨by decide +kernel, by decide +kernel⟩, by decide +kernel⟩
/-- The data page holds the image of the sequence, saved with address space 5. -/
def labSaved : State :=
  let f := labSeq.leaf
  { labSeq.setLeafAt 0 { f with asids := f.asids ++ [(5, { st := .readonly, gens := [{ num := 1, root := 0x800 }] })] } with
    mem := memPut labSeq.mem 0x20000 ((labSeq.seqAt 0).image 5) }
theorem witness_Sessions_roll :
    (labSaved.eread labSaved.leafNo labSaved.gang.asid 0x10000 128 (some labSaved.cur)).toOption = some ((labSeq.seqAt 0).image 5)
    ∧ imageOk ((labSeq.seqAt 0).image 5) = true ∧ leNat ((((labSeq.seqAt 0).image 5).drop 0x20).take 2) = 5
    ∧ (labSaved.asidAt labSaved.leafNo 5).st = .readonly ∧ (labSaved.asidAt 0 1).st = .live
    ∧ ((labSeq.seqAt 0).rolled ((labSeq.seqAt 0).image 5)).gram = none := by decide +kernel
/-- The record holds no snapshot, so the two swaps of the statement are one. -/
theorem witness_Sessions_roll_swaps : let s := labSaved.setSeq 0 { labSaved.seqAt 0 with snaps := [] }
    let x := (s.seqAt 0).rolled ((labSeq.seqAt 0).image 5)
    works (s.rollSwap (s.seqAt 0) x 0x800) = true ∧ works ((s.dropSnaps 0 [] []).rollSwap (s.seqAt 0) x 0x800) = true :=
  have h : let s := labSaved.setSeq 0 { labSaved.seqAt 0 with snaps := [] }
      works (s.rollSwap (s.seqAt 0) ((s.seqAt 0).rolled ((labSeq.seqAt 0).image 5)) 0x800) = true := by decide +kernel
  ⟨h, h⟩
/-- A draft of one entry at offset 0 of the scratchpad: p = 0.5, q = 1; with thresholds, ε = 0.25. -/
def draft (flag : Byte) : List Byte :=
  [1, 0, 0, 0, 0, 0, 0x80, 0x3E, 0, 0, 0x80, 0x3F, 0, 0, 0, 0, 0, 0, 0, 0x3F, 0, 0, 0x80, 0x3F, 0, 0, 0, 0, flag, 0, 0, 0]
def labDraft (flag : Byte) : State := labSeq.setWgAt 1 { labSeq.wg with scr := memPut [] 0 (draft flag) }
theorem witness_Drafts : ∀ flag ∈ [(0 : Byte), 1], let s := labDraft flag
    let blk := memBytes s.wg.scr 0 32
    memNat s.wg.scr 0 4 = 1 ∧ 0 + 16 + 16 * 1 ≤ s.grid.k.scratch ∧ draftBad blk 1 = none ∧ s.wg.badScr = []
    ∧ (draftEntry blk 0).flags % 2 = flag.toNat := by decide +kernel

/-- A grammar of one state at the data page: tokens 0 and 2 are allowed; 0 pushes a 1, 2 pops one symbol. -/
def grammar : List Byte :=
  [0x4A, 0x47, 0x52, 0x31, 1, 0, 0, 0, 1, 0, 0, 0, 8, 0, 0, 0, 1, 0, 0, 0, 0, 0, 0, 0] ++ leBytes 8 0x40 ++ leBytes 8 0x80 ++ leBytes 8 0xC0
    ++ leBytes 8 0x100 ++ leBytes 8 0
    -- the state's row: transitions 0 to 1 and the mask list
    ++ leBytes 4 0 ++ leBytes 4 2 ++ leBytes 4 0 ++ leBytes 4 2 ++ List.replicate 48 0
    -- the transitions of class 0
    ++ (leBytes 4 0 ++ leBytes 2 0 ++ leBytes 2 0 ++ [0, 1, 1, 0, 0, 0, 0, 0]) ++ (leBytes 4 0 ++ leBytes 2 1 ++ leBytes 2 0 ++ [0, 1, 1, 0, 0, 0, 0, 0])
    ++ List.replicate 32 0
    -- the mask list: class 0 and class 1, mask 0
    ++ leBytes 4 0 ++ leBytes 4 1 ++ List.replicate 56 0 ++ [0x05]
/-- The sequence has a context, with `stack` on its stack. -/
def labGram (stack : List Byte) : State := { labSeq.setR { labSeq.r.setS 2 0x10000 with exec := 2 } with
  mem := memPut labSeq.mem 0x20000 grammar
  seqs := [(0, { labSeq.seqAt 0 with gram := some { image := 0x10000, stack := stack } })] }
/-- The context's image. -/
def labImage : Image := { leaf := 0, asid := 0, who := some 1, va := 0x10000 }
theorem witness_Grammar_bind : let s := labGram []
    Claims.Ready s ∧ lowest s.r.exec = some 1 ∧ s.Fits 3 [0x41, 0x42]
    ∧ s.grid.params.toNat / 2 ^ 32 * 2 ^ 32 + ((s.src .int 0x42).at 1).toNat = 0x10000
    ∧ (match s.eread s.leafNo s.gang.asid 0x10000 64 (some s.cur) with
      | .ok bytes => works (parseHead bytes)
      | .error _ => false) = true
    ∧ s.handleOk ((s.src .int 0x41).at 1) = true ∧ (s.seqAt 0).gram ≠ none :=
  ⟨⟨by decide +kernel, by decide +kernel⟩, by decide +kernel, ⟨by decide +kernel, by decide +kernel, by decide +kernel⟩, by decide +kernel⟩
theorem witness_Grammar_masks : (labImage.span (labGram []) { image := 0x10000 } 0).toOption = some ([0x05] ++ List.replicate 127 0)
    ∧ (labImage.whole (labGram []) { image := 0x10000 }).toOption = some ([0x05] ++ List.replicate 127 0) := by decide +kernel
/-- Token 0 pushes; with a full stack it overflows; token 1 is not allowed. -/
theorem witness_Grammar_steps :
    (match labImage.step (labGram []) { image := 0x10000 } 0 with
      | .ok (.ok h) => h.stack == [1]
      | _ => false) = true
    ∧ (match labImage.step (labGram [1]) { image := 0x10000, stack := [1] } 0 with
      | .ok (.over n) => n == 2
      | _ => false) = true
    ∧ (match labImage.step (labGram []) { image := 0x10000 } 1 with
      | .ok (.dead n) => n == 0
      | _ => false) = true := by decide +kernel
theorem witness_Grammar_step_fits (s : State) (h : s.gang.ext = none) : s.Fits 0x70 [0x41, 0x42] :=
  ⟨by decide +kernel, by decide +kernel, by rw [h]; decide⟩
theorem witness_Grammar_none : labSeq.gang.ext = none ∧ labSeq.handleOk ((labSeq.src .int 0x41).at 0) = true ∧ (labSeq.seqAt 0).gram = none
    ∧ lowest labSeq.r.exec = some 0 := by decide +kernel

theorem witness_Grammar_no_lane : let s := labR (fun r => { r with exec := 0 })
    s.r.exec = 0 ∧ s.Fits 3 [0x41, 0x42] ∧ s.Fits 0x70 [0x41, 0x42] ∧ labSeq.cur = 1 :=
  ⟨by decide, ⟨by decide, by decide, by decide⟩, ⟨by decide, by decide, by decide⟩, by decide⟩

/-! ### Maps, launches, memory -/

/-- s4 holds 0x40001: address space 1, or page 0x40001; s5 holds 5; s8 is an entry no edit may have. -/
def labMap : State := labSeq.setR (labSeq.r.setS 8 1)
theorem witness_Maps_fork : Claims.Ready labMap ∧ labMap.gang.ext = none ∧ (labMap.asidAt labMap.leafNo (0x40001 % 2 ^ 16)).st = .live
    ∧ (labMap.asidAt labMap.leafNo ((labMap.r.sreg 5).toNat % 2 ^ 16)).st = .free
    ∧ works (labMap.copyRoot labMap.leafNo (labMap.asidAt labMap.leafNo 1).cur.root) = true := ⟨⟨by decide +kernel, by decide +kernel⟩, by decide +kernel⟩
theorem witness_Maps_set :
    let edit := fun (c : BitVec 5) => ({ page := (labMap.r.sreg 4).toNat, entry := labMap.r.sreg (c + 1) ++ labMap.r.sreg c } : Edit)
    labMap.gang.edits.length < 64 ∧ labMap.editOk labMap.leafNo (edit 9).full = true ∧ labMap.editOk labMap.leafNo (edit 8).full = false
    ∧ 64 ≤ (labMap.setGang { labMap.gang with edits := List.replicate 64 (edit 9) }).gang.edits.length := by decide +kernel
/-- Entries no edit may have: of kind 1, with a reserved bit, W and C at once, misaligned, with no frame at level 1. -/
theorem witness_Maps_badent : (1 : BitVec 64).toNat % 4 = 1 ∧ (0x42 : BitVec 64).toNat / 2 ^ 6 % 4 ≠ 0
    ∧ ((0x16 : BitVec 64)[2] ∧ (0x16 : BitVec 64)[4]) ∧ (0x802 : BitVec 64).toNat / 2 ^ 11 % 2 ^ 41 % 2 ^ 5 ≠ 0
    ∧ (0x802 : BitVec 64).toNat / 2 ^ 11 % 2 ^ 41 % 2 ^ 13 ≠ 0 ∧ (6 : BitVec 64).toNat / 2 ^ 11 % 2 ^ 41 = 0
    ∧ (labMap.r.sreg 4).toNat % 256 ≠ 0 := by decide +kernel
/-- A fresh writable frame at the page, published in address space 1; address space 5 is free. -/
theorem witness_Maps_swap :
    works (labMap.mapSwap labMap.leafNo 1 false [({ page := 3, entry := 6 } : Edit).full]) = true
    ∧ labMap.swapLack labMap.leafNo 1 [({ page := 3, entry := 6 } : Edit).full] = none ∧ labMap.gang.wait = .none
    ∧ works (labMap.mapSwap labMap.leafNo 5 false []) = false ∧ (labMap.asidAt labMap.leafNo 5).st ≠ .live
    ∧ (labMap.asidAt labMap.leafNo 5).st ≠ .readonly := by decide +kernel

/-- Another device owns the page of the frame that the swap zeroes. -/
theorem witness_Maps_swap_waits : let s : State := { labMap with pages := [(0x80000 / 65536, { owner := 1 })] }
    works (s.mapSwap s.leafNo 1 false [({ page := 3, entry := 6 } : Edit).full]) = true
    ∧ (match s.swapLack s.leafNo 1 [({ page := 3, entry := 6 } : Edit).full] with
      | some (.page _ own _) => own
      | _ => false) = true := by decide +kernel
/-- A line of the source's root node, or of the path of page 1 of address space 0, is poisoned, or none is. -/
theorem witness_Maps_poison : let s : State := { labMap with lines := [(0x800 / 128, { poison := true }), (0x1000 / 128, { poison := true })] }
    (match s.mapSwap s.leafNo 1 false [({ page := 3, entry := 6 } : Edit).full] with
      | .error c => c == 6
      | .ok _ => false) = true
    ∧ s.refLost s.leafNo 0 (1 * 65536) 0 = true ∧ labMap.refLost labMap.leafNo 0 (1 * 65536) 0 = false := by decide +kernel

/-- A kernel descriptor at VA 0x10080: entry 0, one gang of 32 lanes, a quota of 64 registers. -/
def desc : List Byte := [0x4A, 0x58, 0x44, 0x4B] ++ List.replicate 52 0 ++ [32, 0, 1, 0, 1, 0, 1, 0, 0, 0, 0, 0, 64, 0] ++ List.replicate 58 0
/-- s1 holds its address, s2 the address of the parameters, s3 a node number. -/
def labLaunch : State := { labR (fun r => (((r.setS 1 0x10080).setS 2 0x10100).setS 3 7).setS 4 0x10008) with mem := memPut lab.mem 0x20080 desc }
theorem witness_Launches_grid : Claims.Ready labLaunch ∧ Claims.Segment labLaunch 0 ∧ labLaunch.grid.depth < 10
    ∧ (labLaunch.gridAt labLaunch.grid.root).spawn < 0x7FFFFFFF ∧ labLaunch.vaStop 0x10080 = none ∧ labLaunch.vaStop 0x10100 = none
    ∧ (labLaunch.eread labLaunch.leafNo labLaunch.gang.asid 0x10080 128 (some labLaunch.cur)).toOption = some desc ∧ works (parseDesc desc) = true
    ∧ works (labLaunch.latchPatches labLaunch.grid (some labLaunch.cur)) = true :=
  ⟨⟨by decide +kernel, by decide +kernel⟩, .inl ⟨by decide +kernel, by decide +kernel⟩, by decide +kernel⟩
theorem witness_Launches_nest : 10 ≤ (lab.setGridAt 1 { lab.grid with depth := 10 }).grid.depth
    ∧ 0x7FFFFFFF ≤ ((lab.setGridAt 1 { lab.grid with spawn := 0x7FFFFFFF }).gridAt 1).spawn := by decide
/-- s3 names node 7 of die 0, which its leaf holds: used with the count `n`, or unused. -/
def labNode (used : Bool) (n : Nat) : State := labLaunch.setNode 7 { used := used, count := n }
theorem witness_Launches_sig : (labNode true 2).leaf.part.hasNode 0 7 = true ∧ ((labNode true 2).nodeAt 7).used = true
    ∧ ((labNode true 2).nodeAt 7).leaf = (labNode true 2).leafNo ∧ 1 < ((labNode true 2).nodeAt 7).count
    ∧ ((labNode true 1).nodeAt 7).count = 1 ∧ ((labNode false 0).nodeAt 7).used = false := by decide
/-- Grant queue 0, of batches of 16 rows, with `n` rows. -/
def labGrant (n : Nat) : State := labLaunch.setGrant 0 {
  block := [(0x18, 16), (0x1A, 1), (0x1C, 9), (0x20, 16), (0x28, 0), (0x2B, 0x80)], registered := true, rows := List.replicate n {} }
theorem witness_Launches_grant : ((labGrant 15).grantAt 0).registered = true ∧ (labGrant 15).die * 64 + 0 = 0
    ∧ ((labGrant 15).grantAt 0).leaf = (labGrant 15).leafNo ∧ 0x10100 % 64 = 0
    ∧ (labGrant 15).grantOpen 0 = true ∧ (labGrant 16).grantOpen 0 = false := by decide

theorem witness_MemoryEvents_wdog : let g := (labR (fun r => { r with wdDue := true, wdWin := some (8, 0x40) })).gangAt 1
    g.st = .live ∧ g.r.wdDue = true ∧ g.trap = false ∧ g.recipe = none ∧ g.quiet = true ∧ (lab.gridAt 1).k.handler = some 0x40 := by decide
/-- A write to g3 waits, and one to the data page, or to a page that is not mapped. -/
def labGreg : State := labG (fun g => { g with stores := [{ space := .greg 1, writes := [(3, [1, 0, 0, 0])] }] })
def labStore (va : Nat) : State := labG (fun g => { g with stores := [{ writes := [(va, [1])] }] })
theorem witness_MemoryEvents_write : (labGreg.gangAt 1).st = .live ∧ (labGreg.gangAt 1).stores = [{ space := .greg 1, writes := [(3, [1, 0, 0, 0])] }]
    ∧ (labGreg.gangAt 1).ckpts = [] ∧ ((labStore 0x10000).gangAt 1).stores = [{ writes := [(0x10000, [1])] }]
    ∧ ({ labStore 0x10000 with cur := 1 } : State).drains = true
    ∧ (({ labStore 0x10000 with cur := 1 } : State).perform { writes := [(0x10000, [1])] }).isSome = true
    ∧ ({ labStore 0x30000 with cur := 1 } : State).drains = true
    ∧ (({ labStore 0x30000 with cur := 1 } : State).perform { writes := [(0x30000, [1])] }).isSome = false := by decide +kernel
theorem witness_MemoryEvents_atomicOp : ((labG (fun g => { g with wait := .atomicOp [5] })).gangAt 1).wait = .atomicOp [5] := by decide
/-- A checkpoint has read a line of which the core holds a copy, and die 0 one. -/
def labCkpt : State := { labG (fun g => { g with ckpts := [{ reads := [(1, .line 0x400)] }] }) with lines := [(0x400, { l1 := [(0, 1)], remote := [0] })] }
theorem witness_MemoryEvents_lines : thas labCkpt.lines 0x400 = true ∧ coversCore 0 0 = true ∧ coversCore 384 0 = true ∧ labCkpt.gangKeys.count 1 = 1
    ∧ (labCkpt.gangAt 1).ckpts = [{ reads := [(1, .line 0x400)] }] ∧ coversCore 1 0 = false := by decide
theorem witness_MemoryEvents_migration : (labLaunch.setLeafAt 0 { lab.leaf with part := { lab.leaf.part with
    channels := [1, 0, 0, 0], groups := [1, 0, 0, 0] } }).sliceOk 0 15 = true := by decide
/-- A load of the data page waits; and one of a host page, which entry 2 of the leaf node maps. -/
def labLoad : State := labG (fun g => { g with wait := .load { scalar := true, addrs := [0x10000] } })
def labHost : State := { labG (fun g => { g with wait := .host { scalar := true, addrs := [0x20000] } [0x20000] }) with
  feat := 2, mem := memPut lab.mem 0x2810 [3], atc := [{ pasid := 7 }]
  leaves := [(0, { lab.leaf with pasids := [(0, 0x80000007)] })] }
theorem witness_MemoryEvents_load : (labLoad.gangAt 1).st = .live ∧ (labLoad.gangAt 1).stores = []
    ∧ labLoad.needsRefresh false false 0x10000 = false ∧ labLoad.inSpill 0x10000 4 = false ∧ labLoad.hasBlocks 1 = false
    ∧ labLoad.gxlate false false 0x10000 = .ok (.dram 0x20000) false ∧ labLoad.poisoned (.dram 0x20000) = false
    ∧ labLoad.l1Full labLoad.wg.core (0x20000 / 128) = false := by decide
theorem witness_MemoryEvents_host : labHost.needsRefresh false false 0x20000 = false ∧ (labHost.gangAt 1).ckpts = []
    ∧ (match labHost.gxlate false false 0x20000 with
      | .ok (.host key) _ => labHost.poisoned (.host key) == false
      | _ => false) = true := by decide
/-- The data page is shared. -/
def labShared : State := lab.setLeafAt 0 { lab.leaf with refs := tput lab.leaf.refs 0x20000 2 }
theorem witness_MemoryEvents_copy : labShared.exlate 0 0 true 0x10000 = .cow ∧ works (labShared.copyOnWrite 0 0 0x10000) = true := by decide +kernel
theorem witness_MemoryEvents_release : let s := lab.setAsid 0 1 { st := .live, gens := [{ num := 1, root := 0x800 }, { num := 2, root := 0x800 }] }
    (s.asidAt 0 1).releasable = true
    ∧ ((lab.setAsid 0 1 { st := .dropping, gens := [{ num := 1, root := 0x800 }] }).asidAt 0 1).releasable = true := by decide

/-! ### Engines and the scheduler -/

/-- One command of the gang, of the matrix context. -/
def labCmd (c : Cmd) : State := labG (fun g => { g with cmds := [c] })
theorem witness_EngineEvents_start : let c : Cmd := { seq := 1 }
    let g := (labCmd c).gangAt 1
    g.cmds = [] ++ c :: [] ∧ c.st = .pending ∧ g.stores = [] ∧ c.depMx ≤ g.counterNow false ∧ c.depCp ≤ g.counterNow true ∧ g.failMx = none := by
  decide
/-- A commit to s5 heads the pending list. -/
theorem witness_EngineEvents_commit : let c : Cmd := { seq := 1, op := .commit 5 1 false, batch := 1 }
    let g := (labCmd c).gangAt 1
    g.cmds = [] ++ c :: [] ∧ c.st = .pending ∧ c.op = .commit (5 : BitVec 5).toNat 1 false ∧ g.trap = false
    ∧ c.depMx ≤ g.counterNow false ∧ c.depCp ≤ g.counterNow true := by decide
theorem witness_EngineEvents_end : ((labCmd { id := 5, st := .ran }).gangAt 1).cmdAt 5 = some { id := 5, st := .ran } ∧ lab.wg.st = .live
    ∧ ((labCmd { id := 5, st := .failed { cause := 2 } }).gangAt 1).cmdAt 5 = some { id := 5, st := .failed { cause := 2 } } := by decide
/-- The command of the gang has started; the scratchpad begins with the VA of the data page. -/
def labStarted (op : CmdOp) (fmt : CmdFmt) : State :=
  (labCmd { id := 5, st := .started, op := op, fmt := fmt }).setWgAt 1 { lab.wg with scr := memPut [] 0 (leBytes 8 0x10000) }
theorem witness_CommandData : ∀ op ∈ [CmdOp.zero 1, .st 1 false false 0 32, .g2s 8 0x10000 4, .s2g 0x10000 0 4, .g2g 0x10000 0x10040 4,
    .slot 2 false 0 32 0, .slot 2 true 0x10000 32 0, .gat 2 0 1 0, .metaLd 7 false 3584, .act 0x10000],
    let c : Cmd := { id := 5, st := .started, op := op, fmt := { out := 5 } }
    let s := labStarted op { out := 5 }
    (s.gangAt 1).cmdAt 5 = some c ∧ (s.gangAt 1).tileBusy c = false ∧ s.wg.badScr = [] ∧ Memory.wf s.core.tiles = true
    ∧ Memory.wf s.core.metas = true ∧ Memory.wf s.core.slots = true ∧ Memory.wf s.wg.scr = true ∧ (s.gangAt 1).ckpts = []
    ∧ s.wg.badTiles.getLsbD 1 = false ∧ s.actHeld 0 5 = false := by decide +kernel
theorem witness_CommandData_formats : elemOf 5 = some (.narrow f4) ∧ 8 * (Elem.narrow f4).width ≤ 32 ∧ (Elem.narrow f4).isInt = false
    ∧ (elemOf 6).map (fun e => e.isInt) = some true := by decide
/-- The accesses of the commands succeed. -/
theorem witness_CommandData_accesses : let s := labStarted (.zero 1) {}
    let tag : OwnerTag := { leaf := 0, asid := some 0 }
    works (s.eread 0 0 0x10000 4) = true ∧ works (s.ewrite none tag 0 0 0x10000 (memBytes s.wg.scr 0 4)) = true
    ∧ (match s.eread 0 0 0x10040 4 with
      | .ok b => works (s.ewrite none tag 0 0 0x10000 b)
      | .error _ => false) = true
    ∧ (List.range 64).all (fun i => works (s.eread 0 0 (0x10000 + i * 32) 64)) = true
    ∧ memNat s.wg.scr (0 + 8 * 0) 8 = 0x10000 ∧ works (s.eread 0 0 0x10000 64) = true ∧ works (s.eread 0 0 0x10000 4096) = true := by decide +kernel
/-- An element and its scales; a pair of integers. -/
theorem witness_ChunkOnce : let m : MFmt := { ea := .ieee f16, eb := .ieee f16, w := 16, rm := 0, sat := false }
    m.ea.isInt = false ∧ [((0x3C00 : Nat), (0x4000 : Nat))].map (fun p => (decodeElem m.ea p.1).1) = [(false, 0x400, -10)].map Claims.value
    ∧ [((0x3C00 : Nat), (0x4000 : Nat))].map (fun p => (decodeElem m.eb p.2).1) = [(false, 0x400, -9)].map Claims.value
    ∧ ofF32 0x40000000 = Claims.value (false, 0x800000, -22) ∧ (decodeElem (.narrow f8a) 0x80).1 = .nan
    ∧ (Elem.int 0 255 8).isInt = true := by decide
/-- Tile 1 is marked; metadata slot 0 is ill formed, or names rows 0 and 1 of every four. -/
theorem witness_QuarterResults : (lab.setWgAt 1 { lab.wg with badTiles := 2 }).wg.badTiles.getLsbD 1 = true ∧ lab.wg.badTiles.getLsbD 1 = false
    ∧ lab.wg.badScr = [] ∧ Memory.wf lab.core.tiles = true ∧ lab.core.audits % lab.core.auditN.toNat ≠ 0
    ∧ ¬(Claims.index lab.core 0 32 0 0 < Claims.index lab.core 0 32 0 1) := by decide +kernel
theorem witness_QuarterResults_wellFormed : let cs := { lab.core with metas := memPut [] 0 (List.replicate 128 0x44) }
    ∀ i, i < 16 → ∀ g, g < 32 / 2 → Claims.index cs 0 32 i (2 * g) < Claims.index cs 0 32 i (2 * g + 1) := by decide +kernel
/-- An entry of `mx.mmg` gathers a row at 0x10000 and scatters to 0x10080. -/
def labGather : State := lab.setWgAt 1 { lab.wg with scr := memPut (memPut [] 0 (leBytes 8 0x10000)) 512 (leBytes 8 0x10080) }
theorem witness_QuarterResults_mmg : memNat labGather.wg.scr (0 + 0 + 128 * 0) 8 = 0x10000 ∧ memNat labGather.wg.scr (0 + 512 + 128 * 0) 8 = 0x10080
    ∧ 0x10000 % 64 = 0 ∧ 0x10080 % 128 = 0 ∧ works (labGather.eread 0 0 0x10000 64) = true ∧ works (labGather.eread 0 0 0x10080 256) = true
    ∧ works (labGather.ewrite none { leaf := 0, asid := some 0 } 0 0 0x10080 (List.replicate 256 0)) = true := by decide +kernel
/-- One quarter of an `mma` waits at the array of core 0. -/
def labPass : State := (labCmd { id := 5, st := .started, op := .mma 3 1 1 0 0 0 0 0, fmt := { ea := 1, eb := 1 }, left := [0] }).setCoreAt 0 { lab.core with
  quarters := [{ gang := 1, cmd := 5 }] }
theorem witness_EngineEvents_pass : labPass.formPass [] [] (labPass.coreAt 0).quarters = [{ gang := 1, cmd := 5 }]
    ∧ ((labPass.gangAt 1).cmdAt 5).isSome = true
    ∧ (match labPass.runQuarter 1 { id := 5, st := .started, op := .mma 3 1 1 0 0 0 0 0, fmt := { ea := 1, eb := 1 }, left := [0] } 0 with
      | .done _ _ => true
      | _ => false) = true := by decide +kernel
/-- Eight registers lie below the window, with a spill area for one block on the data page; `n` blocks are spilled. -/
def labStack (n : Nat) : State := labG (fun g => { g with
  spilled := n, r := { g.r with below := List.replicate 8 (.u 1), spbase := 0x10000, splim := 0x10480 } })
theorem witness_EngineEvents_spill : 8 * (0 + 1) ≤ (labStack 0).r.base ∧ (labStack 0).r.spbase.toNat + 1152 * (0 + 1) ≤ (labStack 0).r.splim.toNat
    ∧ works (({ labStack 0 with cur := 1 } : State).sparge true 0) = true ∧ (labStack 1).r.base + 64 - 8 * 0 ≤ (labStack 1).grid.k.regs
    ∧ works (({ labStack 1 with cur := 1 } : State).sparge false 0) = true := by decide +kernel

theorem witness_SchedulerEvents_retire : let s : State := { lab with
      gangs := [(1, { lab.gang with st := .halted }), (2, { lab.gang with slot := 1 })], wgs := [(1, { lab.wg with gangs := [1, 2] })] }
    let g := s.gangAt 1
    g.st = .halted ∧ g.cmds = [] ∧ g.stores = [] ∧ (s.wgAt g.wg).st = .live ∧ 2 ∈ (s.wgAt g.wg).gangs ∧ (s.gangAt 2).st ≠ .retired := by decide
theorem witness_SchedulerEvents_promotion : let s : State := { labG (fun g => { g with promoted := false, readySince := 1 }) with clk := { core := 4097 } }
    (s.gangAt 1).st = .live ∧ (s.gangAt 1).promoted = false ∧ (s.gangAt 1).r.wdDue = false
    ∧ max (s.gangAt 1).readySince (s.gangAt 1).lastIssue + 4096 ≤ s.clk.core := by decide
/-- A second workgroup of the grid is to be placed. -/
theorem witness_SchedulerEvents_placement : let s := (lab.setGridAt 1 { lab.grid with nx := 2 }).settleRamp 0
    (match s.placement 0 with
    | some (_, c, _, _, _) => (s.activate 0 c).isSome
    | none => false) = true := by decide +kernel
theorem witness_SchedulerEvents_slice : let s := lab.setLeafAt 0 { lab.leaf with
      part := { lab.leaf.part with sliced := true }, tenant := 1, queues := [(0, { en := true, asid := 2, p := 1 })] }
    (s.leafAt 0).live = true ∧ (s.leafAt 0).part.sliced = true ∧ s.sliceOver 0 = true ∧ s.tenantWgs 0 = [] ∧ (s.leafAt 0).nextPart = none
    ∧ (s.tenants 0).find? (fun a => (s.leafAt 0).tenant < a) = some 2 := by decide +kernel
/-- The sliced tenant's workgroup has stopped, and its queue has a save region on the data page. -/
def labStopped : State :=
  let s := ((labTwoGangs.setGangAt 1 { lab.gang with st := .saved }).setGangAt 2 { lab.gang with st := .retired }).setWgAt 1
    { labTwoGangs.wg with st := .preempting, slots := 0, tiles := 0, metas := 0 }
  (s.setGridAt 1 { lab.grid with k := { lab.grid.k with scratch := 0 } }).setLeafAt 0 { lab.leaf with
    part := { lab.leaf.part with sliced := true }, tenant := 0, sliceEnd := 9
    queues := [(0, { en := true, p := 1, savebase := 0x10000, savesize := 0x8000 })] }
theorem witness_SchedulerEvents_saved : (labStopped.leafAt 0).live = true ∧ (labStopped.leafAt 0).part.sliced = true
    ∧ labStopped.tenantWgs 0 = [1] ∧ labStopped.stopped 1 = true
    ∧ (match labStopped.saveWg 1 with
      | .ok u => !u.sliceOver 0
      | .error _ => false) = true := by
  refine ⟨rfl, rfl, by decide +kernel, by decide +kernel, ?_⟩
  decide +kernel
/-- The gang of the lab, saved whole or at its point. -/
theorem witness_SaveAreas : ∀ kind ∈ [0, 1], Claims.Savable { lab.gang with kind := kind, flash := { save := 5 } } := by
  simp only [Claims.Savable]
  decide
theorem witness_Records : Memory.wf (lab.coreAt 0).slots = true ∧ Memory.wf (lab.coreAt 0).tiles = true ∧ Memory.wf (lab.coreAt 0).metas = true
    ∧ lab.grid.k.scratch < 2 ^ 32 ∧ (∀ i : Fin 4, lab.wg.bars[i].gen < 2 ^ 32) ∧ lab.wg.tiles.toNat < 256 ∧ lab.wg.badTiles.toNat < 256
    ∧ lab.wg.metas.toNat < 256 ∧ (∀ v, lab.core.actVa = some v → v < 2 ^ 48) :=
  ⟨rfl, rfl, rfl, by decide, by decide, by decide, by decide, by decide, fun _ h => nomatch h⟩
theorem witness_SchedulerEvents_grace : let s := { labTwoGangs with cur := 1 }.setGangAt 1 { lab.gang with forward := some 0 }
    let g := s.gangAt 1
    g.forward = some 0 ∧ 0 ≤ s.now ∧ g.st = .live ∧ g.recipe = none ∧ g.trap = false ∧ g.quiet = true ∧ 2 ∈ (s.wgAt g.wg).gangs
    ∧ (s.gangAt 2).st = .live := by decide
/-- A saved workgroup without a scratchpad: its record on the data page, with the save area of its gang at 0x10400. -/
def labResume : State :=
  let s := ((lab.setGang { lab.gang with st := .saved }).setWgAt 1 { lab.wg with st := .saved, recVa := 0x10000 }).setCoreAt 0 { active := true }
  { s.setGridAt 1 { lab.grid with k := { lab.grid.k with scratch := 0 } } with mem := memPut lab.mem 0x20080 [0, 4, 1] }
theorem witness_SchedulerEvents_resume : labResume.wg.st = .saved ∧ labResume.wg.killed = false ∧ labResume.thermal = false ∧ labResume.inSlice labResume.grid = true
    ∧ (match labResume.imageAct 1 with
    | .ok ((b, areas), _) => recordBad b == none && ((labResume.unretired 1).zip areas).all (fun p => areaBad p.2 (labResume.gangAt p.1).flash.save == none)
        && ((labResume.settleRamp 0).leafAt 0).rotation.find? (fun c =>
          ((labResume.settleRamp 0).coreAt c).freeFor (BitVec.ofNat 32 (leNat ((b.drop 0x64).take 4)))
            (BitVec.ofNat 32 (leNat ((b.drop 0x68).take 1))) (BitVec.ofNat 32 (leNat ((b.drop 0x6A).take 1)))
          && ((labResume.settleRamp 0).fitCore c 1 1).isSome) == some 0
    | .error _ => false) = true
    ∧ (labResume.unretired 1).length = 1 ∧ ((labResume.settleRamp 0).activate 0 0).isSome = true := by decide +kernel
/-- The area of that workgroup is the one a gang leaves whose registers are all 0. -/
theorem witness_SchedulerEvents_resumed : let h : Gang := { lab.gang with r := { calllim := 0 } }
    let g := labResume.gangAt 1
    Claims.Savable h ∧ (match labResume.imageAct 1 with
      | .ok ((_, areas), _) => areas == [h.saveArea]
      | .error _ => false) = true
    ∧ h.launched = g.launched ∧ h.flash.save = g.flash.save ∧ h.r.below.length = g.r.below.length ∧ h.r.links.length = g.r.links.length
    ∧ h.kind = 0 ∧ (labResume.unretired 1).Nodup := by
  simp only [Claims.Savable]
  decide +kernel

/-! ### Queues, rings, the host, firmware -/

theorem witness_GrantEvents_close : let g := (labGrant 16).grantAt 0
    g.registered = true ∧ g.rows ≠ [] ∧ g.size ≤ g.rows.length ∧ (0 : Nat) + 9 * 2700 / 1000 ≤ (({ lab with clk := { ref := 24 } } : State)).now ∧ g.f 0x1C 4 = 9 := by decide
/-- A closed batch of one row: its buffer at VA 0x10200, the descriptor at 0x10080, a template of 16 bytes at 0x10100. -/
def labBatch : Grant := {
  block := [(0, 0x80), (2, 1), (9, 1), (10, 1), (0x11, 2), (0x12, 1), (0x18, 16), (0x1A, 1), (0x20, 16)], registered := true
  batches := [{ k := 1, rows := [{}] }] }
theorem witness_GrantEvents_launch : labBatch.nextLaunch = some { k := 1, rows := [{}] }
    ∧ works (labLaunch.eread 0 0 (labBatch.f 0x08 8) (labBatch.f 0x20 8)) = true ∧ works (labLaunch.readDesc 0 0 (labBatch.f 0 8)) = true
    ∧ works (labLaunch.ewrite none { leaf := 0, asid := some 0 } 0 0 ((labBatch.f 0x10 8 + 4096 * (1 % labBatch.f 0x1A 1)) % 2 ^ 48)
        (List.replicate 16 0)) = true ∧ works (labLaunch.latchPatches labLaunch.grid) = true := by decide +kernel
/-- The leaf holds Grant queue 0, whose record says nothing yet, all but EN, or all. -/
def labReg (block : Tab Byte) : State := { (lab.setLeafAt 0 { lab.leaf with part := { lab.leaf.part with grantCount := 1 } }).setGrant 0 { block := block } with feat := 16 }
theorem witness_GrantEvents_record : (labReg []).leaf.part.hasGrant 0 = true ∧ ((labReg []).grantAt 0).en = false ∧ ((labReg []).grantAt 0).closing = false
    ∧ ((labReg [(0x2B, 0x80)]).grantAt 0).en = true
    ∧ ((labReg [(0x18, 16), (0x1A, 1), (0x1C, 9), (0x20, 16)]).grantAt 0).legal = true ∧ (labReg []).feature 4 = true
    ∧ (0x80000000 : Word).getLsbD 31 = true ∧ ({ closing := true } : Grant).rows = [] ∧ ({ closing := true } : Grant).batches = [] := by decide

theorem witness_RegisterEvents : lab.fnUp 0 = true ∧ (Claims.raised (lab.queueAt 0 0).p 16 - (lab.queueAt 0 0).cons).toNat ≤ 2 ^ (lab.queueAt 0 0).log2n
    ∧ 2 ^ (lab.queueAt 0 0).log2n < (Claims.raised (lab.queueAt 0 0).p 17 - (lab.queueAt 0 0).cons).toNat ∧ (lab.queueAt 0 0).run = .none
    ∧ (lab.queueAt 0 0).en = false ∧ (lab.ringAt 0 0).held = []
    ∧ (Claims.raised lab.leaf.caskP 16 - lab.leaf.caskCons).toNat ≤ 2 ^ lab.leaf.caskLog2
    ∧ 2 ^ lab.leaf.caskLog2 < (Claims.raised lab.leaf.caskP 17 - lab.leaf.caskCons).toNat
    ∧ (let m : Msix := { events := 1 }
      0 < m.events ∧ m.since + 2700 * 1 ≤ ({ lab with clk := { ref := 2700 } } : State).now)
    ∧ ((lab.setQueue 0 0 { en := true }).queueAt 0 0).en = true
    ∧ (0x80000000 : Word).getLsbD 29 = false := by decide

/-- Queue 0 is enabled and has one entry, at VA 0x10000. -/
def labQueue (b : List Byte) : State := { lab.setLeafAt 0 { lab.leaf with queues := [(0, { qbase := 0x10000, en := true, p := 1 })] } with
  mem := memPut (memPut lab.mem 0x20080 desc) 0x20000 b }
def entryOk (b : List Byte) (f : State → Bool) : Bool :=
  (labQueue b).runnable 0 0 && (match (labQueue b).entry 0 0 with
    | .ok c => c == b
    | .error _ => false) && f (labQueue b)
def bytes64 (l : List Byte) : List Byte := l ++ List.replicate (64 - l.length) 0
def isCheck {α : Type} (c : Check α) : Nat :=
  match c with
  | .ok _ => 0
  | .bad => 1
  | .desc _ => 2
  | .wait _ _ => 3
theorem witness_QueueEntries_grid :
    let e := fun (d p : Nat) => bytes64 ([1, 0, 0, 0, 0, 0, 0, 0] ++ leBytes 8 d ++ leBytes 8 p)
    entryOk (e 0x10080 0x10100) (fun s => isCheck (s.checkGrid 0 0 (e 0x10080 0x10100)) == 0) = true
    ∧ entryOk (e 0x10080 0x10104) (fun s => isCheck (s.checkGrid 0 0 (e 0x10080 0x10104)) == 1) = true
    ∧ entryOk (e 0x10040 0x10100) (fun s => isCheck (s.checkGrid 0 0 (e 0x10040 0x10100)) == 2) = true := by decide +kernel
theorem witness_QueueEntries_graph : let e := bytes64 ([2, 0, 0, 0, 0, 0, 0, 0] ++ leBytes 8 0x10100 ++ leBytes 4 7 ++ leBytes 4 1)
    entryOk e (fun s => isCheck (s.checkGraph 0 0 e) == 0) = true := by decide +kernel
theorem witness_QueueEntries_waittl : let e := fun (v : Nat) => bytes64 ([3, 0, 0, 0, 0, 0, 0, 0] ++ leBytes 8 0x40000000 ++ leBytes 8 v)
    entryOk (e 0) (fun s => entryZero 3 (e 0) && s.waitCounter 0 0x40000000 == some 0) = true
    ∧ entryOk (e 1) (fun s => entryZero 3 (e 1) && s.waitCounter 0 0x40000000 == some 0) = true := by decide +kernel
theorem witness_QueueEntries_signal : let e := fun (w : Nat) => bytes64 ([4, 0, 0, 0, 0, 0, 0, 0] ++ leBytes 8 0x10100 ++ leBytes 8 1 ++ leBytes 2 w)
    ∀ w ∈ [0, 0x8001], entryOk (e w) (fun s => isCheck (s.checkSignal 0 0 (e w)) == 0) = true := by decide +kernel
theorem witness_QueueEntries_mapop : let e := fun (op : Byte) (list n : Nat) => bytes64 ([5, 0, 0, 0, 0, 0, 0, 0] ++ leBytes 8 0x10100
      ++ [op, 0, 0, 0, 0, 0, 0, 0] ++ leBytes 8 list ++ leBytes 4 n)
    entryOk (e 0 0 0) (fun s => isCheck (s.checkMapop 0 0 (e 0 0 0)) == 0) = true
    ∧ entryOk (e 1 0x10180 1) (fun s => isCheck (s.checkMapop 0 0 (e 1 0x10180 1)) == 0 && works (s.stageAll 0 (leBytes 16 0) 1)
      && (match s.stageAll 0 (leBytes 16 0) 1 with
        | .ok es => !works (s.mapSwap 0 0 false (es.map Edit.full)) || s.swapLack 0 0 (es.map Edit.full) == none
        | .error _ => false)) = true
    ∧ entryOk (e 2 0 0) (fun s => isCheck (s.checkMapop 0 0 (e 2 0 0)) == 0) = true := by decide +kernel
/-- Bad entries of each kind: a stray byte, a long or misaligned VA, a count or a handle out of range, a VA with no
page. -/
theorem witness_QueueEntries_bad : ∀ b ∈ [bytes64 [0], bytes64 [6], bytes64 ([5, 0, 0, 0, 0, 0, 0, 0] ++ leBytes 8 0 ++ [3]),
    bytes64 [1, 1], bytes64 ([2, 0, 0, 0, 0, 0, 0, 0] ++ leBytes 8 0x10101 ++ leBytes 4 7 ++ leBytes 4 1),
    bytes64 ([2, 0, 0, 0, 0, 0, 0, 0] ++ leBytes 8 0x10100 ++ leBytes 4 7 ++ leBytes 4 0),
    bytes64 ([3, 0, 0, 0, 0, 0, 0, 0] ++ leBytes 8 0x10000000), bytes64 ([4, 0, 0, 0, 0, 0, 0, 0] ++ leBytes 8 0x10104),
    bytes64 ([5, 0, 0, 0, 0, 0, 0, 0] ++ leBytes 8 0x10102), bytes64 ([5, 0, 0, 0, 0, 0, 0, 0] ++ leBytes 8 0x10100 ++ [1])],
    entryOk b (fun _ => true) = true := by decide +kernel
theorem witness_QueueEntries_faults :
    (match lab.eread 0 0 0x30000 32 with
      | .error (.trap _ _ _) => true
      | _ => false) = true
    ∧ (match lab.ewrite none { leaf := 0, asid := some 0 } 0 0 0x30000 (leBytes 8 0) with
      | .error (.trap _ _ _) => true
      | _ => false) = true ∧ works (lab.ewrite none { leaf := 0, asid := some 0 } 0 0 0x10100 (leBytes 8 1)) = true
    ∧ ((lab.setNode 7 { used := true }).nodeAt 7).used = true := by decide +kernel
/-- The entry at VA 0x20000 leads to page 3 of device 1, which the function may reach. -/
def labAway (b : List Byte) : State :=
  let s := (labQueue b).setLeafAt 0 { (labQueue b).leafAt 0 with peerMask := [(0, 2)] }
  { s with feat := 4, mem := memPut s.mem 0x2810 (leBytes 8 (mkEnt 2 true false false false 0 0x30000 1)) }
theorem witness_QueueEntries_page : let b := bytes64 ([4, 0, 0, 0, 0, 0, 0, 0] ++ leBytes 8 0x20000 ++ leBytes 8 1)
    (labAway b).runnable 0 0 = true ∧ (match (labAway b).entry 0 0 with
      | .ok c => c == b
      | .error _ => false) = true
    ∧ (match (labAway b).checkSignal 0 0 b with
      | .wait (.page _ true _) false => true
      | _ => false) = true ∧ ((labAway b).queueAt 0 0).hold = .none := by decide +kernel

/-- A Cask command over address space 1 into address space `snap`, its status at VA 0x10100 and its group at 0x10200. -/
def caskCmd (kind : Byte) (snap : Nat) : List Byte :=
  [kind, 0, 1, 0] ++ leBytes 4 snap ++ leBytes 8 1 ++ leBytes 8 0 ++ leBytes 8 0x10000 ++ leBytes 8 0x10100 ++ leBytes 8 0 ++ leBytes 8 0x10200
    ++ [1, 0, 0, 0, 1, 0, 0, 0]
def labCask (b : List Byte) : State := { labSeq.setLeafAt 0 { labSeq.leaf with caskBase := 0x10000, caskEn := true, caskP := 1 } with
  feat := 8, mem := memPut labSeq.mem 0x20000 b }
theorem witness_CaskCommands_ok : ∀ kind ∈ [(1 : Byte), 2, 3], let b := caskCmd kind 5
    (labCask b).caskReady 0 = true ∧ ((labCask b).caskEntry 0).toOption = some b ∧ isCheck ((labCask b).checkCask 0 b) = 0 := by decide +kernel
/-- The command has acted; its status block is to be written, on the data page or on a page of another device. -/
theorem witness_CaskCommands_pending : let d : CaskDone := { va := 0x10100, bytes := leBytes 32 0 }
    let e : CaskDone := { va := 0x20100, bytes := leBytes 32 0 }
    let t := labAway []
    let u := t.setLeafAt 0 { t.leafAt 0 with caskBase := 0x10000, caskEn := true, caskP := 1, caskDone := some e }
    (labCask (caskCmd 1 5)).caskReady 0 = true ∧ (labCask (caskCmd 1 5)).leaf.caskDone = none
    ∧ works ((labCask (caskCmd 1 5)).ewrite none ((labCask (caskCmd 1 5)).qTag 0 0) 0 0 d.va d.bytes) = true
    ∧ u.caskReady 0 = true ∧ (match u.ewrite none (u.qTag 0 0) 0 (u.qAsid 0 0) e.va e.bytes with
      | .error x => (x.next (u.leafAt 0).caskHold u.now).isSome
      | .ok _ => false) = true := by decide +kernel
theorem witness_CaskCommands_bad : ∀ kind ∈ [(1 : Byte), 2, 3], let b := (caskCmd kind 5).set 0x3E 1
    ((labCask b).caskEntry 0).toOption = some b ∧ isCheck ((labCask b).checkCask 0 b) = 1 := by decide +kernel
/-- The commands need no page of another device. -/
theorem witness_CaskCommands_lacks : let s := labCask (caskCmd 1 5)
    (∀ kind ∈ [(1 : Byte), 2], let t := labCask (caskCmd kind 5)
      (match t.checkCask 0 (caskCmd kind 5) with
        | .ok c => (if kind = 1 then t.itemLack 0 c else t.fillLack 0 c) == none
        | _ => false) = true)
    ∧ s.statusLack 0 (0x10100 % 2 ^ 48) = none := by decide +kernel
theorem witness_CaskCommands_checkpoint : let s := labCask (caskCmd 1 5)
    (match s.fork 0 1 5 true with
      | .ok u => works ((u.storeShard 0 5 { b := caskCmd 1 5, group := [0], att := [] }).1.dropAsid 0 5)
      | .error _ => false) = true
    ∧ (match s.fork 0 1 0 true with
      | .error c => c == 3
      | .ok _ => false) = true ∧ (s.asidAt 0 1).st ≠ .free := by decide +kernel

theorem witness_HostEvents_port : ((labLaunch.setLeafAt 0 { lab.leaf with part := { lab.leaf.part with channels := [1, 0, 0, 0] } }).leafAt 0).part.bar2 0x20000
    = some 0x20000 ∧ lab.fnUp 0 = true ∧ 4095 % 4096 + 1 ≤ 4096 := by decide
def labWaits (w : Wait) : State := labG (fun g => { g with wait := w })
/-- The page of the region's first frame, frame 2, is this device's, or another's. -/
def labPort (owner : Nat) : State :=
  let s := labLaunch.setLeafAt 0 { lab.leaf with part := { lab.leaf.part with channels := [1, 0, 0, 0] } }
  { s with pages := [(2, { owner := owner })] }
theorem witness_HostEvents_port_waits : (labPort 0).fnUp 0 = true ∧ (labPort 0).portLack false 0 0x20000 4 = none
    ∧ (labPort 0).portLack true 0 0x20000 4 = none ∧ (labPort 1).portHold = .none ∧ (labPort 1).portLack false 0 0x20000 4 = some 2
    ∧ (labPort 1).portLack true 0 0x20000 4 = some 2 := by decide
theorem witness_HostEvents_ats : let s := labWaits (.ats 7 3 true none)
    s.gangs = [(1, s.gangAt 1)] ∧ (s.gangAt 1).wait = .ats 7 3 true none ∧ s.leafOfGang 1 = 0 ∧ (s.wgAt (s.gangAt 1).wg).core / 96 = 0
    ∧ 3 / 2 ^ 2 = 0 / 2 ^ 2 ∧ (∀ who ∈ s.waiters, who ≠ .gang 1 → s.holdOf who = .none)
    ∧ lab.leaf.queues = [] ∧ lab.leaf.rings = [] ∧ lab.leaf.telem.held = [] ∧ lab.wgs.all (fun p => p.2.st != .preempting) = true
    ∧ (s.gangAt 1).quiet = true ∧ (s.leafAt 0).priStopped = false ∧ (s.leafAt 0).priOut.length < (s.leafAt 0).priCap := by decide
/-- The gang's page request, and another's that waits. -/
def labAsk (who : Waiter) (page : Nat) : PageAsk := { who := who, pasid := 7, page := page, write := true }
/-- The gang's page request is out, a queue's waits to be sent. -/
def labPri : State :=
  let s := (labWaits (.ats 7 3 true (some 0))).setQueue 0 2 { hold := .ats 7 4 true (some 0) }
  s.setLeafAt 0 { s.leaf with priOut := [labAsk (.gang 1) 3], priCap := 1, priQueue := [labAsk (.queue 0 2) 4] }
theorem witness_HostEvents_pri : labPri.holdOf (.gang 1) = .ats 7 3 true (some 0) ∧ labPri.leafOfWaiter (.gang 1) = 0
    ∧ (labPri.leafAt 0).priQueue = labAsk (.queue 0 2) 4 :: [] ∧ (labPri.leafAt 0).priStopped = false
    ∧ (labPri.leafAt 0).priOut.find? (fun b => b.who == .gang 1) = some (labAsk (.gang 1) 3)
    ∧ labAsk (.gang 1) 3 ∈ (labPri.leafAt 0).priOut ∧ labAsk (.queue 0 2) 4 ∉ (labPri.leafAt 0).priOut
    ∧ (labPri.leafAt 0).priOut.length ≤ (labPri.leafAt 0).priCap
    ∧ labPri.holdOf (.queue 0 2) = .ats 7 4 true (some 0)
    ∧ 0 + 2700 * (1000 * lab.leaf.part.priLimit) ≤ ({ lab with clk := { ref := 2700000000 } } : State).now
    ∧ (labCmd { id := 5, st := .started, hold := .ats 7 3 true (some 0) }).holdOf (.cmd 1 5) = .ats 7 3 true (some 0) := by decide
/-- The gang has been killed, or waits for something else. -/
theorem witness_HostEvents_pri_gone : let s := labPri.setHold .none (.gang 1)
    (s.leafAt 0).priOut.find? (fun b => b.who == .gang 1) = some (labAsk (.gang 1) 3) ∧ s.holdOf (.gang 1) = .none := by decide
theorem witness_HostEvents_invalidation : let s := lab.setLeafAt 0 { lab.leaf with atsInv := [(7, 0, 16)] }
    (s.leafAt 0).atsInv = (7, 0, 16) :: [] ∧ s.hostBusy 0 (7, 0, 16) = false ∧ (s.gangAt 1).ckpts = [] := by decide

/-- Page 5 of this device, and page 5 of device 1: idle, or resident still. -/
theorem witness_PeerEvents : let p := lab.pageAt 5
    let r := lab.pageAt (2 ^ 36 + 5)
    p.residentUntil ≤ lab.now ∧ p.requests = [] ∧ 5 / 2 ^ 36 = lab.devnum ∧ 1 ∉ p.replicas ∧ (2 ^ 36 + 5) / 2 ^ 36 ≠ lab.devnum
    ∧ r.requests = [] ∧ (1 : Nat) ≠ lab.devnum ∧ p.owner = lab.devnum ∧ r.owner ≠ lab.devnum ∧ lab.memWf
    ∧ ¬(({ residentUntil := 1 } : Page).residentUntil ≤ lab.now)
    ∧ ((labWaits (.peer 5 true 0)).gangAt 1).wait = .peer 5 true 0 ∧ 0 + 2700 * 1000 ≤ ({ lab with clk := { ref := 2700000 } } : State).now
    ∧ (labCmd { id := 5, st := .started, hold := .peer 5 true 0 }).holdOf (.cmd 1 5) = .peer 5 true 0 :=
  ⟨by decide, by decide, by decide, by decide, by decide, by decide, by decide, by decide, by decide, ⟨by decide, by decide, by decide⟩,
    by decide, by decide, by decide, by decide⟩
/-- An image with one byte and one poisoned line. -/
def labImg : PageImage := { cells := [(3, 7)], lines := [{ line := 2, poison := true, dev := 0, leaf := 0, asid := some 0 }] }
theorem witness_PeerEvents_image : (∀ c ∈ labImg.cells, c.1 < 65536 ∧ labImg.cells.countP (fun d => d.1 == c.1) = 1)
    ∧ labImg.lines.find? (fun x => x.line == 2) = some { line := 2, poison := true, dev := 0, leaf := 0, asid := some 0 }
    ∧ (∀ y ∈ labImg.lines, y.line ≠ 1) := by decide
/-- A checkpoint has read line 2 of page 5, which is given away. -/
theorem witness_PeerEvents_rolls : let s := labG (fun g => { g with ckpts := [{ reads := [(1, .line (5 * 512 + 2))] }] })
    s.gangKeys.count 1 = 1 ∧ (s.gangAt 1).ckpts = [{ reads := [(1, .line (5 * 512 + 2))] }] ∧ s.pageLine 5 = 5 * 512 := by decide

/-- A line with its owner: no leaf, no address space, address space 0. -/
def labLine (t : OwnerTag) : State := { lab with lines := [(0x400, { tag := some t })] }
theorem witness_ErrorEvents : ((labLine { leaf := 1 }).lineAt 0x400).tag = some { leaf := 1 } ∧ (lab.leafAt 1).live = false
    ∧ (lab.leafAt 0).live = true ∧ (lab.leafAt 0).telem.en = false ∧ ((labLine { asid := some 0 }).lineAt 0x400).tag = some { asid := some 0 }
    ∧ (lab.gangAt 1).st = .live ∧ ((labLine {}).lineAt 0x400).tag = some {} ∧ ({} : OwnerTag).dev = none
    -- a line of memory, one of another device, and the first of a scratchpad
    ∧ 0x400 < 2 ^ 50 ∧ ¬(2 ^ 50 + 5 < 2 ^ 50) ∧ (lab.wgAt 1).st = .live ∧ 0 * 128 < (lab.gridAt (lab.wgAt 1).grid).k.scratch := by decide
/-- A line of the data page is another device's: its channel is leaf 0's, or no leaf's. -/
theorem witness_ErrorEvents_foreign : let s := (labLine { dev := some 5 }).setLeafAt 0 { lab.leaf with
      part := { lab.leaf.part with channels := [1, 0, 0, 0] } }
    (s.lineAt 0x400).tag = some { dev := some 5 } ∧ ({ dev := some 5 } : OwnerTag).dev ≠ none ∧ s.leafOf (0x400 * 128) = some 0
    ∧ (labLine { dev := some 5 }).leafOf (0x400 * 128) = none := by decide +kernel
/-- The gang has a flashback point, its kernel's policy says retry, and its queue has a record to write. -/
theorem witness_ErrorEvents_retry : let s := ((labG (fun g => { g with flash := { valid := true, save := 1 } })).setGridAt 1
      { lab.grid with k := { lab.grid.k with policy := 4 } }).setLeafAt 0 { lab.leaf with queues := [(0, { held := [[0]] })] }
    let g := s.gangAt 1
    let gr := s.gridAt (s.wgAt g.wg).grid
    g.st = .live ∧ g.st ≠ .saved ∧ g.forward = none ∧ Claims.OnCore s 1 ∧ (s.wgAt g.wg).st = .live ∧ g.flash.valid = true ∧ g.flash.tries < 3 ∧ gr.k.policy.toNat / 4 % 4 = 1 ∧ (s.queueAt gr.leaf gr.queue).held ≠ []
    ∧ (s.leafAt gr.leaf).telem.en = false ∧ g.flash.recipe = 0
    ∧ ({ g with flash := { g.flash with recipe := 0x40 } } : Gang).flash.recipe ≠ 0 := by
  simp only [Claims.OnCore]
  decide
/-- A halted gang with a store to perform, and one that has stopped, are on their core. -/
theorem witness_ErrorEvents_onCore : Claims.OnCore (labG (fun g => { g with st := .halted, stores := [{}] })) 1
    ∧ Claims.OnCore ((labG (fun g => { g with st := .saved })).setWgAt 1 { lab.wg with st := .preempting }) 1 := by
  simp only [Claims.OnCore]
  decide

/-- The mailbox holds a record: of the root, with device number 3; of a leaf, with its region in channel 0 of die 0. -/
def rootRec : List Byte := [0, 0, 0, 0, 0, 0, 3, 0]
def leafRec : List Byte := [2, 0, 0, 0, 1, 1, 0, 0, 1, 1, 0, 0, 0, 0, 0, 0] ++ leBytes 4 1 ++ List.replicate 12 0 ++ leBytes 8 1 ++ List.replicate 24 0
  ++ List.replicate 10 0 ++ leBytes 2 1000 ++ [8, 8] ++ leBytes 2 20 ++ leBytes 2 20 ++ leBytes 2 1000 ++ [8, 16, 0, 0] ++ List.replicate 8 0
  ++ leBytes 8 0x40000 ++ leBytes 8 0x4000 ++ leBytes 8 0x80000 ++ leBytes 8 0x40000
def labMail (cmd : Byte) (b : List Byte) : State := { State.reset with boot := .ok, mbGo := true, mbCmd := cmd, mbIn := b.zipIdx.map (fun p => (p.2, p.1)) }
theorem witness_FirmwareEvents_root : (parsePart ((labMail 1 rootRec).mbBytes 128)).id = 0 ∧ rootOk ((labMail 1 rootRec).mbBytes 128) = true
    ∧ rootOk ((labMail 1 [0, 0, 1]).mbBytes 128) = false := by decide
theorem witness_FirmwareEvents_carve : let s := labMail 1 leafRec
    let p := parsePart (s.mbBytes 128)
    p.id = 2 ∧ p.leaf = true ∧ (p.limitsOk && s.treeOk p) = true ∧ s.owned p = false ∧ s.overBudget p = false ∧ s.partAt p.id = none
    ∧ (({ p with leafNo := 32 } : PartRec).limitsOk && s.treeOk p) = false
    ∧ ({ s with parts := [(3, { p with id := 3 })] } : State).owned p = true ∧ s.overBudget { p with dramBw := 24001 } = true := by decide
/-- Partition 2 is in force, a leaf or not. -/
def labDissolve (leaf : Bool) (en : Bool) : State := { labMail 2 [2] with
  parts := [(2, { id := 2, leaf := leaf })], leaves := [(0, { live := true, queues := [(0, { en := en })] })] }
theorem witness_FirmwareEvents_dissolve : leNat ((labDissolve true true).mbBytes 2) = 2 ∧ (labMail 2 [2]).partAt 2 = none
    ∧ (labDissolve true false).partAt 2 = some { id := 2, leaf := true } ∧ (labDissolve false false).partAt 2 = some { id := 2 }
    ∧ (labDissolve true true).siblings 2 0 = [] ∧ ((labDissolve true true).queueAt 0 0).en = true
    ∧ (∀ q ∈ ((labDissolve true false).leafAt 0).queues, ((labDissolve true false).queueAt 0 q.1).en = false) := by decide
theorem witness_FirmwareEvents_start : ({ labMail 3 [] with featAcc := 0x1F } : State).featAcc.getLsbD 0 = true
    ∧ (0x1F : BitVec 256) &&& ~~~(labMail 3 []).featOff = 0 ∧ (0x20 : BitVec 256) &&& ~~~(labMail 3 []).featOff ≠ 0 ∧ (labMail 3 []).started = false := by decide
theorem witness_FirmwareEvents_steps : 2600 + 100 ≤ 2700 ∧ 1300 ≤ lab.clockMhz ∧ 383 < 384 ∧ 0 < lab.spares.getD (383 / 96) 0 := by decide

/-! ### Encoding, stepping, memory -/

theorem witness_EncodeDecodes : (Instr.ldQ 60 1 0x3F 0 (-1)).wf = true ∧ (encode (Instr.ldQ 60 1 0x3F 0 (-1))).isSome = true := by decide
/-- The gang in turn stands at `ctl.nop`; or the word at its PC is another, of four bytes or of two. -/
def labAt (b : List Byte) : State := { lab with mem := memPut lab.mem 0x10000 b, cur := 0 }
theorem witness_StepRunsDecoded : ∀ b ∈ [[0x01, 0x18, 0x04, 0xF2], [0xA2, (0x48 : Byte)]], let s := labAt b
    s.unfinished = false ∧ s.urgent = none ∧ s.agenda = [] ∧ s.nextEvent = none ∧ s.portNext = none ∧ s.endedWait = none ∧ s.nextGang = some 1 ∧ (let u := s.begin 1
      u.wordPc.toNat = 0 ∧ u.gang.wait = .none ∧ u.gang.ext = none ∧ u.gang.recipe = none ∧ u.grid.patches = [] ∧ u.old = [] ∧ u.needsRefresh false true 0 = false
      ∧ u.needsRefresh false true 2 = false ∧ u.gxlate false true 0 = .ok (.dram 0x10000) false ∧ u.gxlate false true 2 = .ok (.dram 0x10002) false
      ∧ (List.range b.length).map (fun i => memRead u.mem (0x10000 + i)) = b) ∧ (decode b).toOption.isSome = true := by decide +kernel
/-- An access of the host port has waited; an event of the port, or of another kind, comes while it waits. -/
theorem witness_StepRunsDecoded_port : let p : PortAccess := .read 33 0x20000 4
    let s : State := { lab with port := [p], agenda := [.hostPortRead 33 0 4] }
    let t : State := { s with portHold := .peer 2 false 0 }
    s.unfinished = false ∧ s.urgent = none ∧ s.portHold = .none ∧ t.portNext = none ∧ t.agenda = [.hostPortRead 33 0 4]
    ∧ encode (.hostPortRead 33 0 4) = none ∧ t.behindPort (.hostPortRead 33 0 4) = true ∧ lab.port = [] ∧ lab.portNext = none
    ∧ ({ lab with agenda := [.ctlNop] } : State).agenda = .ctlNop :: [] ∧ (encode .ctlNop).isSome = true := by decide +kernel
/-- A gang whose barrier's generation is over, and one that waits for nothing its next instruction needs. -/
theorem witness_StepRunsDecoded_ended : (labBarWait 0).unfinished = false ∧ (labBarWait 0).urgent = none ∧ (labBarWait 0).portNext = none
    ∧ (labBarWait 0).agenda = [] ∧ (labBarWait 0).nextEvent = none ∧ (labBarWait 0).endedWait = some 1 ∧ (labBarWait 0).gang.wait = .bar 0 0
    ∧ (labBarWait 0).gang.ext = none
    ∧ (let s := labG (fun g => { g with wait := .timeline })
      s.nextEvent = none ∧ s.endedWait = some 1 ∧ s.unfinished = false ∧ s.urgent = none) := by decide +kernel
/-- A prefix has run, and the word after it is fetched; a write of a gang at level 2 is pending. -/
theorem witness_StepRunsDecoded_rest : (labX 5).unfinished = true ∧ (labX 5).wordPc.toNat = 4 ∧ (labX 5).gang.recipe = none
    ∧ (labX 5).needsRefresh false true 4 = false ∧ (labX 5).gxlate false true 4 = .ok (.dram 0x10004) false
    ∧ (labG (fun g => { g with level := 2, stores := [{ writes := [(0x10000, [1])] }] })).urgent = some 1
    ∧ (labG (fun g => { g with level := 2, stores := [{ writes := [(0x10000, [1])] }] })).unfinished = false := by decide +kernel
theorem witness_StepRunsDecoded_events : State.reset.unfinished = false ∧ State.reset.urgent = none ∧ encode .thermalShutdown = none ∧ State.reset.agenda = [] ∧ State.reset.nextEvent = none
    ∧ State.reset.nextGang = none ∧ ({ lab with gangs := [(1, { lab.gang with st := .halted })] } : State).nextEvent = some (.gangRetire 1) := by
  decide +kernel
theorem witness_MemoryInvariant : Claims.Canonical State.reset ∧ (match step State.reset with
    | .next t => t == State.reset.idle
    | _ => false) = true := by
  refine ⟨⟨⟨by decide, by decide, by decide⟩, by decide, by decide, by decide⟩, ?_⟩
  decide +kernel

/-! ### States for the clauses on g registers, containment, deferred commands, images and register windows -/

/-- The gang has written g3 in the present cycle, after another. -/
def labNext : State := labTwoGangs.setWgAt 1 { labTwoGangs.wg with gNext := [(2, 3, 5), (1, 3, 6)] }
theorem witness_SelectorsRead_cycle : labNext.gang.stores = [] ∧ labNext.wg.gNext = [(2, 3, 5)] ++ (labNext.cur, (3 : Fin 16).val, 6) :: []
    ∧ (∀ p ∈ labNext.wg.gNext, p.1 = labNext.cur → p.2.1 ≠ 4) ∧ lab.wg.gNext = [] := by decide
/-- No gang of the cycle has still to issue, and slot 1 writes over slot 0; or the gang has. -/
theorem witness_CycleEnds : labNext.round = [] ∧ (labNext.wgAt 1).gNext = [] ++ (2, (3 : Fin 16).val, 5) :: [(1, 3, 6)]
    ∧ (∀ p ∈ [((1 : Nat), (3 : Nat), (6 : Word))], p.2.1 = 3 → (labNext.gangAt p.1).slot < (labNext.gangAt 2).slot)
    ∧ ({ lab with round := [1] } : State).readyToIssue 1 = true := by decide +kernel
theorem witness_MemoryEvents_greg_cycle : (labGreg.round = [] ∧ (labGreg.wgAt 1).gNext = []) ∧ ({ labGreg with round := [1] } : State).round ≠ [] := by decide
theorem witness_MemoryEvents_sent : (labHost.gangAt 1).sent = [] ∧ ((labG (fun g => { g with wait := .atomicOp [5] })).gangAt 1).sent = [] := by decide

/-- An event whose enable is set, and none enabled. -/
theorem witness_Enables : (∀ e ∈ [evNV, 63], e < 64) ∧ (labFpx.r.fpx [evNV]).testBit 0 = true ∧ labFpx.r.fflags.getLsbD 8 = true
    ∧ lane labFpx.r.exec 0 = true ∧ (∃ e ∈ (faAdd labFpx.r.rm [(labFpx.src .fp 1).at 0, (labFpx.src .fp 2).at 0]).2, e.testBit 0 = true)
    ∧ (∀ i, i < 6 → lab.r.fflags.getLsbD (8 + i) = false) := by decide +kernel
theorem witness_SignBits : (ofF32 0xFFC00001).isNan = true ∧ (ofF32 0xBF800000).isNan = false := by decide
/-- Halves: the NaN, 1 and 2, a value beside a NaN, the zeros. -/
theorem witness_HalfMinMax : Claims.half f16 0x7E00 0 = .nan ∧ (Claims.half f16 0x3C00 0).lt (Claims.half f16 0x4000 0) = true
    ∧ Claims.half bf16 0x3F800000 1 ≠ .nan ∧ Claims.half bf16 0x7FC10000 1 = .nan ∧ Claims.half f16 0x8000 0 ≠ .nan := by decide
/-- Infinities, a finite factor, and an infinite half. -/
theorem witness_Infinities : ofF32 0x7F800000 = .inf false ∧ ofF32 0xFF800000 = .inf true ∧ ofF32 0xC0800000 = .fin true 0x800000 (-21)
    ∧ (ofF32 0xC0800000).sign = true ∧ ofF32 0x3F800000 = Claims.value (false, 0x800000, -23) ∧ Claims.half f16 0xFC003C00 1 = .inf true
    ∧ Claims.half f16 0xFC003C00 0 = .fin false 0x400 (-10) ∧ Claims.half bf16 0x7F80 0 = .inf false := by decide
theorem witness_CellSum : (List.replicate 64 (0 : Byte)).length = 64 ∧ ofF32 0x7FC00000 = .nan ∧ ofF32 0x7F800000 = .inf false
    ∧ ofF32 0xFF800000 = .inf true ∧ ofF32 0xBF800000 = .fin true 0x800000 (-23) := by decide
/-- A cell that holds a status word, and a value of 2^−280 or of its negative. -/
def cell (status : Byte) (v : Byte) : List Byte := List.replicate 48 v ++ [status] ++ List.replicate 15 0
set_option exponentiation.threshold 500 in
theorem witness_CellValue : (∀ st ∈ [(8 : Byte), 6, 1, 2, 4, 0], (cell st 0).length = 64 ∧ leNat (((cell st 0).drop 48).take 4) = st.toNat)
    ∧ (BitVec.ofNat 384 (leNat ((cell 0 0).take 48))).toInt = 0 ∧ (BitVec.ofNat 384 (leNat ((cell 0 0xFF).take 48))).toInt = -1 := by decide

/-- The actions of every level, of faults of class 0: of the kernel, of a grid above with its own, of the queue, of the
partition. -/
def labLevels (kernel above queue part : Word) : State := { (lab.setQueue 0 0 { policy := queue }) with
  grids := [(1, { lab.grid with seed := .child, parent := 2, k := { lab.grid.k with policy := kernel } }),
    (2, { lab.grid with k := { lab.grid.k with policy := above } })]
  leaves := [(0, { lab.leaf with policy := part, queues := [(0, { policy := queue })] })] }
theorem witness_Contained : let s := labLevels 0x0303 0x0300 3 1
    Claims.Above s 1 [2] ∧ Claims.Above lab 1 [] ∧ s.gang.slot < 256 ∧ s.gang.asid < 2 ^ 16
    ∧ (s.gridAt 1).k.policy.toNat / 2 ^ (0 + 2 * 0) % 4 = 3 ∧ (s.gridAt 1).k.policy.toNat / 2 ^ (8 + 2 * 0) % 4 = 3
    ∧ (s.gridAt 2).k.policy.toNat / 2 ^ (8 + 2 * 0) % 4 = 3 ∧ (s.queueAt 0 0).policy.toNat / 2 ^ 0 % 4 = 3
    ∧ ((labLevels 3 0 3 3).gridAt 1).k.policy.toNat / 2 ^ 8 % 4 ≠ 3 ∧ ((labLevels 0 0 3 3).gridAt 1).k.policy.toNat % 4 ≠ 3
    ∧ ((labLevels 0x0303 0 3 3).gridAt 2).k.policy.toNat / 2 ^ 8 % 4 ≠ 3 ∧ ((labLevels 3 0 2 3).queueAt 0 0).policy.toNat % 4 ≠ 3 := by
  simp only [Claims.Above]
  decide
/-- The record of a fault, and a gang that may go back. -/
theorem witness_Contained_record : Claims.Record lab { code := 7, pc := 0x40, addr := 0x1234, info := 5, lanes := 3 } 7 0 1 2
      ([7, 17, 0, 0] ++ leBytes 4 1 ++ leBytes 8 0x40 ++ leBytes 6 0x1234 ++ leBytes 2 0 ++ leBytes 4 5 ++ leBytes 4 3)
    ∧ (let g := (labG (fun g => { g with flash := { valid := true } })).gang
      g.flash.valid = true ∧ g.flash.tries < 3 ∧ g.st = .live ∧ g.forward = none ∧ g.recipe = none) ∧ lab.gang.flash.valid = false
    ∧ (lab.wgAt 1).st = .live ∧ (lab.gangAt 1).st = .live ∧ 1 ∈ (lab.wgAt 1).gangs := by
  simp only [Claims.Record]
  decide

/-- Selectors that an instruction may not have. -/
theorem witness_LaneIllops : Claims.Misfit lab 0x71 [0] ∧ Claims.Misfit lab 0 [1, 0x7D] ∧ Claims.Misfit lab 0 [0x7C] ∧ Claims.Misfit (labX 5) 0 [1, 2]
    ∧ lab.quiet = true ∧ (labX 5).gang.ext ≠ none ∧ lab.Immediate (32 : BitVec 10) 32 ∧ 32 ≤ (32 : Word).toNat :=
  ⟨.inl (by decide), .inr (.inl ⟨0x7D, by decide, by decide⟩), .inr (.inr (.inl ⟨by decide, by decide⟩)),
    .inr (.inr (.inr ⟨by decide, by decide⟩)), by decide, by decide, .inl ⟨by decide, by decide⟩, by decide⟩

/-- An older store of the gang waits. -/
def labBehind (s : State) : State := s.setGang { s.gang with stores := [{}] }
theorem witness_Deferred : (labBehind lab).quiet = false ∧ Claims.InList (labBehind lab).gang < 16 ∧ (labBehind labLaunch).quiet = false
    ∧ Claims.Holds (labBehind lab) 1 1 ∧ (labBehind lab).gang.failMx = none ∧ popBits 32 (labBehind lab).wg.slots.toNat < (labBehind lab).grid.k.slots
    ∧ (∀ w ∈ (labBehind lab).gang.stores, w.space = .dram)
    ∧ ((labBehind lab).r.sreg 3).toNat % 16 = 0 ∧ ((labBehind lab).r.sreg 3).toNat + 16 ≤ lab.grid.k.scratch
    ∧ (labBehind labLaunch).leaf.part.hasNode (((labBehind labLaunch).r.sreg 3).toNat / 2 ^ 16 % 4) (((labBehind labLaunch).r.sreg 3).toNat % 2 ^ 16) = true
    ∧ Claims.Segment (labBehind labLaunch) 0 ∧ (labBehind labLaunch).grid.depth < 10 ∧ ((labBehind labLaunch).r.sreg 1).toNat % 128 = 0
    ∧ ((labBehind labLaunch).r.sreg 2).toNat % 64 = 0 ∧ ((labBehind (labGrant 1)).grantAt 0).registered = true
    ∧ (labBehind lab).r.exec ≠ 0 ∧ (labBehind lab).Fits 3 [0x41, 0x42] ∧ (labBehind lab).Fits 0x70 [0x41, 0x42] :=
  ⟨by decide, by decide, by decide, ⟨⟨by decide, by decide⟩, by decide⟩, by decide, by decide, by decide, by decide, by decide, by decide,
    .inl ⟨by decide, by decide⟩, by decide, by decide, by decide, by decide, by decide, ⟨by decide, by decide, by decide⟩, by decide, by decide, by decide⟩
/-- A claim is in the pending list; a tile is free, or none is. -/
def labClaim : State := labOwned.setGang { labOwned.gang with
  seq := 6, stores := [{ seq := 5, space := .cmd (.mxClaim 4 1) none, before := labOwned.r, after := { labOwned.r with pc := 4 } }]
  r := { labOwned.r with pc := 4 } }
def labTaken : State := labClaim.setCoreAt 0 { labClaim.core with tileOwner := (List.range 8).map (fun i => (i, 1)) }
theorem witness_DeferredStarts : ∀ s ∈ [labClaim, labTaken], let g := s.gangAt 1
    let w : PendWrite := { seq := 5, space := .cmd (.mxClaim 4 1) none, before := labOwned.r, after := { labOwned.r with pc := 4 } }
    let back : Gang := { g with r := w.before, seq := 5, ext := none, wait := .none, stores := [], ckpts := [], cmds := [] }
    let ahead := replaceCkpts 5 w.after { g with stores := [] }
    let u : State := { s with cur := 1, nextKey := s.nextKey + 1, gangs := tput (tput s.gangs s.nextKey ahead) 1 back }
    g.stores = w :: [] ∧ g.cmds = [] ∧ shows (.mxClaim 4 1) u (fun t => (t.gangAt 1).seq) = some (if s = labClaim then 6 else 5) := by
  decide +kernel
/-- A claim of another gang has waited since cycle 0; or every metadata slot is taken. -/
def labLater : State := { labTwoGangs.setGangAt 2 { labTwoGangs.gangAt 2 with wait := .claim 0 0 } with clk := { core := 5 } }
theorem witness_NumberClaims_behind : Claims.Behind labLater 0 ∧ labLater.gang.failMx = none
    ∧ (let s := lab.setCoreAt 0 { lab.core with metaOwner := (List.range 8).map (fun i => (i, 1)) }
      ∀ m, m < 8 → thas (s.core.owners 2).1 m = true) :=
  ⟨⟨2, by decide, 0, by decide, by decide, by decide, by decide, .inl (by decide)⟩, by decide, by decide⟩

theorem witness_HostEvents_sent : let s := (labG (fun g => { g with sent := [[7 * 2 ^ 64 + 5]] })).setLeafAt 0 { lab.leaf with atsInv := [(7, 0, 16)] }
    (s.leafAt 0).atsInv = (7, 0, 16) :: [] ∧ 1 ∈ s.gangKeys ∧ s.leafOfGang 1 = 0 ∧ [7 * 2 ^ 64 + 5] ∈ (s.gangAt 1).sent
    ∧ (s.gangAt 1).sent = [7 * 2 ^ 64 + 5] :: [] ∧ (7 * 2 ^ 64 + 5) / 2 ^ 64 = 7 ∧ (7 * 2 ^ 64 + 5) % 2 ^ 64 / 4096 < 0 + 16 := by decide
theorem witness_FirmwareEvents_thermal : let s : State := { labStopped with thermal := true }
    s.thermal = true ∧ s.wgs = [(1, labStopped.wgAt 1)] ∧ s.stopped 1 = true ∧ works (s.saveWg 1) = true ∧ lab.thermal = false := by decide +kernel

/-- The egress ring on the data page, enabled with a free place; full; on a page that is not mapped. -/
def labRing (base : Va) (prod : Word) : State := lab.setRing 0 0 { rbase := base, en := true, prod := prod }
theorem witness_RingWrites : let entry := leBytes 4 0x10000 ++ leBytes 4 0 ++ leBytes 4 7 ++ leBytes 4 0
    (lab.ringAt 0 0).en = false ∧ 2 ^ ((labRing 0x10000 16).ringAt 0 0).log2n ≤ (((labRing 0x10000 16).ringAt 0 0).prod - 0).toNat
    ∧ ((labRing 0x10000 3).ringAt 0 0).en = true ∧ ((labRing 0x10000 3).ringAt 0 0).failed = false ∧ (3 : Word).toNat < 2 ^ ((labRing 0x10000 3).ringAt 0 0).log2n
    ∧ works ((labRing 0x10000 3).ewrite none { leaf := 0, asid := some 0 } 0 0 (0x10000 + 16 * 3) entry) = true
    ∧ (match (labRing 0x30000 0).ewrite none { leaf := 0, asid := some 0 } 0 0 0x30000 entry with
      | .error x => !x.waits
      | .ok _ => false) = true
    -- another device owns the page
    ∧ (match ({ labRing 0x10000 0 with pages := [(2, { owner := 1 })] } : State).ewrite none { leaf := 0, asid := some 0 } 0 0 0x10000 entry with
      | .error x => x.waits
      | .ok _ => false) = true := by decide +kernel

/-- An image holds a table whose entries can be read. -/
theorem table_of {s : State} {m : Image} {w off : Nat} {es : List (List Byte)}
    (h : ∀ i : Fin es.length, (s.eread m.leaf m.asid ((m.va + off + w * i.val) % 2 ^ 48) w m.who).toOption = some es[i]) : Claims.Table s m w off es := by
  intro i x hx
  obtain ⟨hi, rfl⟩ := List.getElem?_eq_some_iff.mp hx
  have := h ⟨i, hi⟩
  revert this
  cases s.eread m.leaf m.asid ((m.va + off + w * i) % 2 ^ 48) w m.who <;> simp [Except.toOption]
/-- The grammar's header, the row of its state, its mask list and its transitions; its masks are there to be read. -/
theorem witness_Automaton : let s := labGram []
    (s.eread 0 0 0x10000 64 (some 1)).toOption = some (grammar.take 64)
    ∧ Claims.Table s labImage 4 (0x40 + 16 * 0 + 8) [leBytes 4 0, leBytes 4 2] ∧ Claims.Table s labImage 4 (0xC0 + 4 * 0) [leBytes 4 0, leBytes 4 1]
    ∧ Claims.Table s labImage 4 (0x40 + 16 * 0) [leBytes 4 0, leBytes 4 2]
    ∧ Claims.Table s labImage 16 (0x80 + 16 * 0) [(grammar.drop 0x80).take 16, (grammar.drop 0x90).take 16]
    ∧ works (s.eread 0 0 ((0x10000 + 0x100 + 128 * 0) % 2 ^ 48) 128 (some 1)) = true
    ∧ (s.eread 0 0 ((0x10000 + 0x100 + 0 / 8) % 2 ^ 48) 1 (some 1)).toOption = some [5] ∧ (leNat [5]).testBit 0 = true
    ∧ (leNat [5]).testBit 1 = false ∧ 2 < leNat (((grammar.take 64).drop 0x0C).take 4) :=
  ⟨by decide +kernel, table_of (by decide +kernel), table_of (by decide +kernel), table_of (by decide +kernel), table_of (by decide +kernel),
    by decide +kernel⟩
/-- The first transition for token 0 with no symbol pushes one; there is none for token 2; with one symbol, the limit is passed. -/
theorem witness_Automaton_rows : let num := fun (b : List Byte) (o n : Nat) => leNat ((b.drop o).take n)
    let rows := [(grammar.drop 0x80).take 16, (grammar.drop 0x90).take 16]
    rows.find? (fun e => num e 0 4 == 0 && num e 4 2 == 0) = some ((grammar.drop 0x80).take 16)
    ∧ rows.find? (fun e => num e 0 4 == 2 && num e 4 2 == 0) = none ∧ num ((grammar.drop 0x80).take 16) 9 1 = 1
    ∧ 0 ∉ (((grammar.drop 0x80).take 16).drop 10).take 1 ∧ num (grammar.take 64) 0x10 4 = 1
    ∧ ([leBytes 4 0, leBytes 4 1].find? (fun e => leNat e % 256 == 0)).map (fun e => 0x100 + leNat e / 256 * 128) = some 0x100
    ∧ [leBytes 4 0, leBytes 4 1].find? (fun e => leNat e % 256 == 2) = none := by decide +kernel

/-- The rings of the function are enabled. -/
def labRings : State := (lab.setRing 0 5 { en := true }).setLeafAt 0 { (lab.setRing 0 5 { en := true }).leaf with caskEn := true, telem := { en := true } }
theorem witness_FunctionWindow : lab.fnUp 0 = true ∧ lab.leaf.caskEn = false ∧ labRings.fnUp 0 = true ∧ labRings.leaf.caskEn = true
    ∧ (lab.ringAt 0 5).en = false ∧ (labRings.ringAt 0 5).en = true ∧ (labRings.ringAt 0 5).held = [] ∧ lab.leaf.telem.en = false
    ∧ labRings.leaf.telem.en = true ∧ (tget ({} : Msix) lab.leaf.msix 63).pending = false ∧ (1 : Word).getLsbD 0 = true
    ∧ (Claims.raised lab.leaf.caskP 16 - lab.leaf.caskCons).toNat ≤ 2 ^ lab.leaf.caskLog2 := by decide
theorem witness_PfWindow : (labMail 1 []).mbGo = true ∧ lab.mbGo = false ∧ lab.boot = .ok ∧ State.reset.boot ≠ .ok ∧ lab.started = true
    ∧ (labMail 1 []).started = false ∧ (tget ({} : Msix) lab.pfMsix 63).pending = false := by decide
theorem witness_Vectors : (lab.setLeafAt 0 { lab.leaf with coalesceT := 3, coalesceN := 2 }).leaf.coalesceT ≠ 0
    ∧ (tget ({} : Msix) lab.leaf.msix 0).events + 1 < 2 ∧ lab.leaf.coalesceT = 0 := by decide

end Sys2Proof.Tests
end

section
/-! The scalar families `sa` and `sai`: the model's word functions as R198's table says them, then the one path each
family takes, for every function of it at once. -/

namespace Sys2Proof.Machine

/-! ### Word functions (R198) -/

/-- A choice by a condition is one by a weaker condition when both values are one where the weaker holds alone: the
model's minima and maxima compare strictly, the table's weakly. -/
theorem ite_eq_ite_of_imp {α : Type} {p q : Prop} [Decidable p] [Decidable q] {x y : α} (hpq : p → q)
    (h : q → ¬ p → x = y) : (if p then x else y) = if q then x else y := by
  by_cases hp : p
  · rw [if_pos hp, if_pos (hpq hp)]
  · rw [if_neg hp]
    split
    · next hq => exact (h hq hp).symm
    · rfl

theorem eq_of_toInt_le_of_not_lt {x y : Word} (hle : x.toInt ≤ y.toInt) (hlt : ¬ x.toInt < y.toInt) : x = y :=
  BitVec.eq_of_toInt_eq (Int.le_antisymm hle (Int.not_lt.mp hlt))

theorem eq_of_toNat_le_of_not_lt {x y : Word} (hle : x.toNat ≤ y.toNat) (hlt : ¬ x.toNat < y.toNat) : x = y :=
  BitVec.eq_of_toNat_eq (Nat.le_antisymm hle (Nat.not_lt.mp hlt))

theorem minS_eq (x y : Word) : minS x y = if x.toInt ≤ y.toInt then x else y :=
  ite_eq_ite_of_imp Int.le_of_lt eq_of_toInt_le_of_not_lt

theorem maxS_eq (x y : Word) : maxS x y = if x.toInt ≤ y.toInt then y else x :=
  ite_eq_ite_of_imp Int.le_of_lt (fun hle hlt => (eq_of_toInt_le_of_not_lt hle hlt).symm)

theorem minU_eq (x y : Word) : minU x y = if x.toNat ≤ y.toNat then x else y :=
  ite_eq_ite_of_imp Nat.le_of_lt eq_of_toNat_le_of_not_lt

theorem maxU_eq (x y : Word) : maxU x y = if x.toNat ≤ y.toNat then y else x :=
  ite_eq_ite_of_imp Nat.le_of_lt (fun hle hlt => (eq_of_toNat_le_of_not_lt hle hlt).symm)

/-- A left shift by 32 or more leaves 0, as the library's shift does. -/
theorem shlW_eq (x y : Word) : shlW x y = x <<< y.toNat := by
  rw [shlW]
  split
  · rfl
  · next h => exact (BitVec.shiftLeft_eq_zero (Nat.not_lt.mp h)).symm

/-- A right shift by 32 or more leaves 0, as the library's shift does. -/
theorem shrW_eq (x y : Word) : shrW x y = x >>> y.toNat := by
  rw [shrW]
  split
  · rfl
  · next h => exact (BitVec.ushiftRight_eq_zero (Nat.not_lt.mp h)).symm

/-- A signed right shift by 32 or more fills the word with the sign, as the library's shift does. -/
theorem sraW_eq (x y : Word) : sraW x y = x.sshiftRight y.toNat := by
  rw [sraW]
  split
  · rfl
  · next h =>
    have hy : 32 ≤ y.toNat := Nat.not_lt.mp h
    split
    · next hx => rw [BitVec.sshiftRight_eq_of_msb_true hx, BitVec.ushiftRight_eq_zero hy]; rfl
    · next hx => rw [BitVec.sshiftRight_eq_of_msb_false (Bool.eq_false_iff.mpr hx), BitVec.ushiftRight_eq_zero hy]; rfl

/-- The bits of a natural above the lowest are those of its half. -/
theorem testBit_comp_succ (x : Nat) : x.testBit ∘ Nat.succ = (x / 2).testBit := funext x.testBit_succ

theorem popBits_eq (n x : Nat) : popBits n x = ((List.range n).filter x.testBit).length := by
  induction n generalizing x with
  | zero => rfl
  | succ n ih =>
    rw [popBits, ih, List.range_succ_eq_map, List.filter_cons, List.filter_map, testBit_comp_succ, Nat.testBit_zero]
    rcases Nat.mod_two_eq_zero_or_one x with h | h
    · simp [h]
    · simp [h, Nat.add_comm]

theorem ctzBits_eq (n x : Nat) : ctzBits n x = ((List.range n).find? x.testBit).getD n := by
  induction n generalizing x with
  | zero => rfl
  | succ n ih =>
    rw [ctzBits, ih, List.range_succ_eq_map, List.find?_cons, List.find?_map, testBit_comp_succ, Nat.testBit_zero]
    rcases Nat.mod_two_eq_zero_or_one x with h | h
    · cases (List.range n).find? (x / 2).testBit <;> simp [h, Nat.add_comm]
    · simp [h]

/-! ### Registers written alone, and precise traps -/

theorem State.writes_of_exec {s : State} {i : Instr} {r : Regs} (hx : exec i s = s.setRegs r) (hpc : r.pc = s.r.pc) :
    s.Writes i r := by
  obtain ⟨t, ht, hr⟩ := s.setRegs_retires r hpc
  exact ⟨t, hx.trans ht, hr⟩

/-- A gang that is not speculative takes a precise trap at once (R87, R154). -/
theorem State.raises_of_exec {s : State} {i : Instr} {len code : Nat} {lanes : Word} {addr info : Nat}
    (hx : exec i s = s.raise len code lanes addr info) (hq : s.quiet = true) : s.Raises i len code lanes addr info :=
  ⟨_, hx.trans (if_pos hq), rfl⟩

/-! ### sa (R198) -/

/-- After an EXT, an instruction that accepts none is ILLOP. -/
theorem State.noExt_of_ext {s : State} (h : s.gang.ext ≠ none) (k : Out) : s.noExt k = s.illop 4 true :=
  if_pos (Option.isSome_iff_ne_none.mpr h)

/-- Without an EXT a function of `sa` writes sD; `hv` gives its value the table's form. -/
theorem State.sa_writes {s : State} (h : s.gang.ext = none) {i : Instr} {d : BitVec 5} {v w : Word}
    (hx : exec i s = s.sa d v) (hv : v = w) : s.Writes i (s.r.setS d w) := by
  subst hv
  exact State.writes_of_exec (hx.trans (s.noExt_none _ h)) rfl

theorem State.sa_raises {s : State} (h : s.gang.ext ≠ none) (hq : s.quiet = true) {i : Instr} {d : BitVec 5} {v : Word}
    (hx : exec i s = s.sa d v) : s.Raises i 4 tcILLOP s.r.exec 0 0 :=
  State.raises_of_exec (hx.trans (State.noExt_of_ext h _)) hq

theorem scalarResults : Claims.ScalarResults := by
  intro s d a b h
  have writes {i : Instr} {v w : Word} (hx : exec i s = s.sa d v) (hv : v = w) : s.Writes i (s.r.setS d w) :=
    State.sa_writes h hx hv
  exact ⟨writes rfl rfl, writes rfl rfl, writes rfl rfl, writes rfl (minS_eq _ _), writes rfl (maxS_eq _ _),
    writes rfl (minU_eq _ _), writes rfl (maxU_eq _ _), writes rfl rfl, writes rfl rfl, writes rfl rfl, writes rfl rfl,
    writes rfl (shlW_eq _ _), writes rfl (shrW_eq _ _), writes rfl (sraW_eq _ _),
    writes rfl (congrArg _ (popBits_eq _ _)), writes rfl (congrArg _ (ctzBits_eq _ _))⟩

/-- Settles O1: each function is `State.sa` of its value, which writes sD without an EXT and is ILLOP after one. -/
theorem scalarArithmetic : Obligations.ScalarArithmetic := by
  refine ⟨scalarResults, fun s d a b h hq => ?_⟩
  have illop {i : Instr} {v : Word} (hx : exec i s = s.sa d v) : s.Raises i 4 tcILLOP s.r.exec 0 0 :=
    State.sa_raises h hq hx
  simp only [List.forall_mem_cons]
  exact ⟨illop rfl, illop rfl, illop rfl, illop rfl, illop rfl, illop rfl, illop rfl, illop rfl, illop rfl, illop rfl,
    illop rfl, illop rfl, illop rfl, illop rfl, illop rfl, illop rfl, List.forall_mem_nil _⟩

/-! ### sai (R199) -/

/-- An EXT leaves the field no value but 0 (R175). -/
theorem State.imm_eq_none {s : State} {n : Nat} {i : BitVec n} (h : s.gang.ext ≠ none) (hi : i ≠ 0) : s.imm i = none := by
  obtain ⟨p, hp⟩ := Option.ne_none_iff_exists'.mp h
  simp only [State.imm, hp, if_neg hi]

theorem State.sai_writes {s : State} {i : BitVec 12} {v w : Word} (h : s.Immediate i v) {c : Instr} {d : BitVec 5}
    {f : Word → Option Word} (hx : exec c s = s.sai d i f) (hf : f v = some w) : s.Writes c (s.r.setS d w) := by
  have hsai : s.sai d i f = s.setRegs (s.r.setS d w) := by simp only [State.sai, h.imm, hf]
  exact State.writes_of_exec (hx.trans hsai) rfl

/-- An immediate that the function does not accept is ILLOP, with no lanes (R199). -/
theorem State.sai_raises_value {s : State} {i : BitVec 12} {v : Word} (h : s.Immediate i v) (hq : s.quiet = true) {c : Instr}
    {d : BitVec 5} {f : Word → Option Word} (hx : exec c s = s.sai d i f) (hf : f v = none) : s.Raises c 4 tcILLOP 0 0 0 := by
  have hsai : s.sai d i f = s.illop 4 false := by simp only [State.sai, h.imm, hf]
  exact State.raises_of_exec (hx.trans hsai) hq

/-- A field other than 0 after an EXT is ILLOP, an encoding fault with `exec` as its lanes (R175). -/
theorem State.sai_raises_field {s : State} {i : BitVec 12} (h : s.gang.ext ≠ none) (hi : i ≠ 0) (hq : s.quiet = true)
    {c : Instr} {d : BitVec 5} {f : Word → Option Word} (hx : exec c s = s.sai d i f) :
    s.Raises c 4 tcILLOP s.r.exec 0 0 := by
  have hsai : s.sai d i f = s.illop 4 true := by simp only [State.sai, State.imm_eq_none h hi]
  exact State.raises_of_exec (hx.trans hsai) hq

theorem shiftImm_of_lt {f : Word → Word → Word} {a v w : Word} (h : v.toNat < 32) (hf : f a v = w) :
    shiftImm f a v = some w := by
  rw [shiftImm, if_pos h, hf]

theorem shiftImm_of_ge {v : Word} (f : Word → Word → Word) (a : Word) (h : 32 ≤ v.toNat) : shiftImm f a v = none :=
  if_neg (Nat.not_lt.mpr h)

/-! Each function of `sai`, by the value it makes of its immediate. -/

section
variable (s : State) (d a : BitVec 5) (i : BitVec 12)

theorem exec_saiAddi : exec (.saiAddi d a i) s = s.sai d i (fun v => some (s.r.sreg a + v)) := rfl
theorem exec_saiAndi : exec (.saiAndi d a i) s = s.sai d i (fun v => some (s.r.sreg a &&& v)) := rfl
theorem exec_saiOri : exec (.saiOri d a i) s = s.sai d i (fun v => some (s.r.sreg a ||| v)) := rfl
theorem exec_saiXori : exec (.saiXori d a i) s = s.sai d i (fun v => some (s.r.sreg a ^^^ v)) := rfl
theorem exec_saiShli : exec (.saiShli d a i) s = s.sai d i (shiftImm shlW (s.r.sreg a)) := rfl
theorem exec_saiShri : exec (.saiShri d a i) s = s.sai d i (shiftImm shrW (s.r.sreg a)) := rfl
theorem exec_saiSrai : exec (.saiSrai d a i) s = s.sai d i (shiftImm sraW (s.r.sreg a)) := rfl
theorem exec_saiLui : exec (.saiLui d i) s = s.sai d i (fun v => some (v <<< 7)) := rfl

end

theorem immediateResults : Claims.ImmediateResults := by
  intro s d a i v h
  have writes {c : Instr} {f : Word → Option Word} {w : Word} (hx : exec c s = s.sai d i f) (hf : f v = some w) :
      s.Writes c (s.r.setS d w) := State.sai_writes h hx hf
  refine ⟨writes (exec_saiAddi ..) rfl, writes (exec_saiAndi ..) rfl, writes (exec_saiOri ..) rfl,
    writes (exec_saiXori ..) rfl, writes (exec_saiLui ..) rfl, fun hv => ?_, fun hv hq => ?_⟩
  · exact ⟨writes (exec_saiShli ..) (shiftImm_of_lt hv (shlW_eq _ _)),
      writes (exec_saiShri ..) (shiftImm_of_lt hv (shrW_eq _ _)),
      writes (exec_saiSrai ..) (shiftImm_of_lt hv (sraW_eq _ _))⟩
  · have illop {c : Instr} {f : Word → Word → Word} (hx : exec c s = s.sai d i (shiftImm f (s.r.sreg a))) :
        s.Raises c 4 tcILLOP 0 0 0 := State.sai_raises_value h hq hx (shiftImm_of_ge f _ hv)
    simp only [List.forall_mem_cons]
    exact ⟨illop (exec_saiShli ..), illop (exec_saiShri ..), illop (exec_saiSrai ..), List.forall_mem_nil _⟩

/-- Settles O2: each function is `State.sai` of its immediate, which writes sD when the immediate is one it accepts, and is
ILLOP when it is not or when the field after an EXT is not 0. -/
theorem scalarImmediates : Obligations.ScalarImmediates := by
  refine ⟨immediateResults, fun s d a i h hi hq => ?_⟩
  have illop {c : Instr} {f : Word → Option Word} (hx : exec c s = s.sai d i f) : s.Raises c 4 tcILLOP s.r.exec 0 0 :=
    State.sai_raises_field h hi hq hx
  simp only [List.forall_mem_cons]
  exact ⟨illop (exec_saiAddi ..), illop (exec_saiAndi ..), illop (exec_saiOri ..), illop (exec_saiXori ..),
    illop (exec_saiShli ..), illop (exec_saiShri ..), illop (exec_saiSrai ..), illop (exec_saiLui ..), List.forall_mem_nil _⟩

end Sys2Proof.Machine
end
